-- ==== Sys2Proof/Word.lean ====
section
/-! DEFINITION. The word types of the NB-4208: bytes, bus words, addresses and the counted times of 01 R1 and R13. -/

namespace Sys2Proof

/-- One byte of the management link (10 R161). -/
abbrev Byte := BitVec 8

/-- One 32-bit word of the descriptor-memory bus or of table memory (R92, R151). -/
abbrev Word := BitVec 32

/-- A 24-bit byte address of the descriptor-memory bus (R92). -/
abbrev Address := BitVec 24

/-- A 3-bit read tag of the descriptor-memory bus (R92). -/
abbrev Tag := BitVec 3

/-- Device time: a 48-bit count of ticks that wraps (R1). -/
abbrev DeviceTime := BitVec 48

/-- A 32-bit cycle number, counted modulo 2^32 (R13). -/
abbrev CycleNumber := BitVec 32

/-- A 12-bit stream tag (R170). -/
abbrev StreamTag := BitVec 12

/-- A 32-bit saturating counter (R134 and others). -/
abbrev Counter := BitVec 32

/-- A port number, 0 to 7. -/
abbrev PortIndex := Fin 8

/-- A reservation entry index, 0 to 63. -/
abbrev EntryIndex := Fin 64

/-- A ring map entry index, 0 to 39. -/
abbrev RingIndex := Fin 40

end Sys2Proof
end

