-- ==== Sys2Proof/Syntax.lean ====
section
/-! DEFINITION. The commands of the NB-4208: one constructor per row of spec/opcode_table.json. -/

namespace Sys2Proof

/-- An edge of MGT_SCK (R161): a rising edge samples MGT_DIN, a falling edge shifts MGT_DOUT. -/
inductive SckEdge where
  | rising (din : Bool)
  | falling
  deriving DecidableEq, Repr

/-- The commands. A management command stands for the end of a transaction whose frame carries it; its operands are
the frame's argument fields at their full width (10 R164, R171), so that a value the owning rule refuses can be written. -/
inductive Instr where
  /-- RESET_ASSERTED (R94). -/
  | resetAsserted
  /-- RESET_RELEASED (R152). -/
  | resetReleased
  /-- INITIALISATION_PASS_DONE (R152). -/
  | initialisationPassDone
  /-- SLOT_BOUNDARY (R11). -/
  | slotBoundary
  /-- CYCLE_BOUNDARY (R12). -/
  | cycleBoundary
  /-- TRANSACTION_START: MGT_CSN falls (R161). -/
  | transactionStart
  /-- TRANSACTION_END: MGT_CSN rises (R161). -/
  | transactionEnd
  /-- NOP (R166). -/
  | nop
  /-- READ_STATUS (R168). -/
  | readStatus
  /-- SET_GEOMETRY (R3). -/
  | setGeometry (slots : Byte) (ticks : BitVec 16)
  /-- SET_SYNC (R19). -/
  | setSync (port : Byte) (tag : BitVec 16) (phi tolerance : BitVec 24) (maxStep holdoverLimit : Byte)
  /-- LOAD_MAP (R39): a port byte and one kind byte per slot. -/
  | loadMap (port : Byte) (kinds : List Byte)
  /-- COMMIT_MAP (R40). -/
  | commitMap (port : Byte)
  /-- CANCEL_MAP (R41). -/
  | cancelMap (port : Byte)
  /-- ADMIT (R66). -/
  | admitStream (port : Byte) (tag : BitVec 16) (slot : Byte) (maxLength : BitVec 16) (frames : Byte)
  /-- RELEASE (R73). -/
  | release (index : Byte)
  /-- PURGE (R76). -/
  | purge (index : Byte)
  /-- READ_RESERVATION (R78). -/
  | readReservation (index : Byte)
  /-- SET_RING (R103). -/
  | setRing (port ring kind : Byte) (base : BitVec 24) (count : BitVec 16)
  /-- CLEAR_RING (R104). -/
  | clearRing (port ring : Byte)
  /-- SET_MEMORY (R101). -/
  | setMemory (limit : BitVec 16)
  /-- SET_PORT (R116): the port and its eleven settings in the frame's order. -/
  | setPort (port rate extra : Byte) (lead guard maxFrame : BitVec 16)
      (failMode requireLock reclaim unreserved stale silence : Byte)
  /-- PORT_ENFORCE (R118). -/
  | portEnforce (port : Byte)
  /-- PORT_HOLD (R120). -/
  | portHold (port : Byte)
  /-- PORT_TRANSPARENT (R121). -/
  | portTransparent (port : Byte)
  /-- READ_PORT (R135). -/
  | readPort (port selector : Byte)
  /-- READ_EVENT (R177). -/
  | readEvent
  /-- SET_EVENTS (R179). -/
  | setEvents (mask : BitVec 32) (enable : Byte)
  /-- CLEAR_COUNTERS (R180). -/
  | clearCounters (selector index : Byte)
  /-- READ_ACCEPTED (R96): a read the controller presents. -/
  | readAccepted (tag : Tag) (address : Address)
  /-- CONTROLLER_WRITE (R110): a write the controller presents; bit k of `lanes` enables byte lane k. -/
  | controllerWrite (tag : Tag) (address : Address) (data : Word) (lanes : BitVec 4)
  /-- MEMORY_RESPONSE (R93). -/
  | memoryResponse (tag : Tag) (data : Word) (error : Bool)
  /-- READ_TIMEOUT (R98): the read with this tag. -/
  | readTimeout (tag : Tag)
  /-- QUARANTINE_EXPIRY (R99): the quarantined tag. -/
  | quarantineExpiry (tag : Tag)
  /-- MGT_SCK_EDGE (R161). -/
  | mgtSckEdge (edge : SckEdge)
  deriving DecidableEq, Repr

end Sys2Proof
end

