-- ==== Sys2Proof/WellFormed.lean ====
section
/-! DEFINITION. Which terms of `Instr` are commands the link can carry. -/

namespace Sys2Proof

/-- A LOAD_MAP frame carries 1 to 48 kinds (R39: argument length 2 to 49). Every other operand's width is in its type. -/
def Instr.wellFormed : Instr → Bool
  | .loadMap _ kinds => decide (1 ≤ kinds.length ∧ kinds.length ≤ 48)
  | .resetAsserted | .resetReleased | .initialisationPassDone | .slotBoundary | .cycleBoundary
  | .transactionStart | .transactionEnd | .nop | .readStatus
  | .setGeometry _ _ | .setSync _ _ _ _ _ _ | .commitMap _ | .cancelMap _
  | .admitStream _ _ _ _ _ | .release _ | .purge _ | .readReservation _
  | .setRing _ _ _ _ _ | .clearRing _ _ | .setMemory _
  | .setPort _ _ _ _ _ _ _ _ _ _ _ _ | .portEnforce _ | .portHold _ | .portTransparent _ | .readPort _ _
  | .readEvent | .setEvents _ _ | .clearCounters _ _
  | .readAccepted _ _ | .controllerWrite _ _ _ _ | .memoryResponse _ _ _
  | .readTimeout _ | .quarantineExpiry _ | .mgtSckEdge _ => true

/-- The commands that are frames of the management link (10, 'Command Codes'). -/
def Instr.isManagement : Instr → Bool
  | .nop | .readStatus | .setGeometry _ _ | .setSync _ _ _ _ _ _ | .loadMap _ _ | .commitMap _ | .cancelMap _
  | .admitStream _ _ _ _ _ | .release _ | .purge _ | .readReservation _
  | .setRing _ _ _ _ _ | .clearRing _ _ | .setMemory _
  | .setPort _ _ _ _ _ _ _ _ _ _ _ _ | .portEnforce _ | .portHold _ | .portTransparent _ | .readPort _ _
  | .readEvent | .setEvents _ _ | .clearCounters _ _ => true
  | .resetAsserted | .resetReleased | .initialisationPassDone | .slotBoundary | .cycleBoundary
  | .transactionStart | .transactionEnd
  | .readAccepted _ _ | .controllerWrite _ _ _ _ | .memoryResponse _ _ _
  | .readTimeout _ | .quarantineExpiry _ | .mgtSckEdge _ => false

end Sys2Proof
end

