-- ==== Sys2Proof/Decode.lean ====
section
/-! DEFINITION. The word decoder of the table's bits (the table gives none), the decoder of management link frames
(10 R164, 'Command Codes') and the encoder of those frames. -/

namespace Sys2Proof

/-- spec/opcode_table.json gives no row any bits, so no word spells a command. -/
def decodeTableWord (_nbits _w : Nat) : Option Instr := none

/-- The bytes of a 16-bit value, most significant first (R171). -/
def bytes16 (x : BitVec 16) : List Byte := [x.extractLsb' 8 8, x.extractLsb' 0 8]

/-- The bytes of a 24-bit value, most significant first (R171). -/
def bytes24 (x : BitVec 24) : List Byte := [x.extractLsb' 16 8, x.extractLsb' 8 8, x.extractLsb' 0 8]

/-- The bytes of a 32-bit value, most significant first (R171). -/
def bytes32 (x : BitVec 32) : List Byte :=
  [x.extractLsb' 24 8, x.extractLsb' 16 8, x.extractLsb' 8 8, x.extractLsb' 0 8]

/-- The command code of a management command (10, 'Command Codes'); none for a command that is no frame. -/
def commandCode : Instr → Option Byte
  | .nop => some 0x00#8
  | .readStatus => some 0x01#8
  | .setGeometry _ _ => some 0x10#8
  | .setSync _ _ _ _ _ _ => some 0x11#8
  | .loadMap _ _ => some 0x20#8
  | .commitMap _ => some 0x21#8
  | .cancelMap _ => some 0x22#8
  | .admitStream _ _ _ _ _ => some 0x30#8
  | .release _ => some 0x31#8
  | .purge _ => some 0x32#8
  | .readReservation _ => some 0x33#8
  | .setRing _ _ _ _ _ => some 0x40#8
  | .clearRing _ _ => some 0x41#8
  | .setMemory _ => some 0x42#8
  | .setPort _ _ _ _ _ _ _ _ _ _ _ _ => some 0x50#8
  | .portEnforce _ => some 0x51#8
  | .portHold _ => some 0x52#8
  | .portTransparent _ => some 0x53#8
  | .readPort _ _ => some 0x54#8
  | .readEvent => some 0x60#8
  | .setEvents _ _ => some 0x61#8
  | .clearCounters _ _ => some 0x62#8
  | .resetAsserted | .resetReleased | .initialisationPassDone | .slotBoundary | .cycleBoundary
  | .transactionStart | .transactionEnd
  | .readAccepted _ _ | .controllerWrite _ _ _ _ | .memoryResponse _ _ _
  | .readTimeout _ | .quarantineExpiry _ | .mgtSckEdge _ => none

/-- The command a code and its argument bytes spell: checks 4 and 5 of R164 refuse every other pair. -/
def decodeCommand (code : Byte) (args : List Byte) : Option Instr :=
  match code.toNat, args with
  | 0x00, [] => some .nop
  | 0x01, [] => some .readStatus
  | 0x10, [n, a, b] => some (.setGeometry n (a ++ b))
  | 0x11, [p, a, b, c, d, e, f, g, h, m, l] => some (.setSync p (a ++ b) (c ++ d ++ e) (f ++ g ++ h) m l)
  | 0x20, p :: kinds => if 1 ≤ kinds.length ∧ kinds.length ≤ 48 then some (.loadMap p kinds) else none
  | 0x21, [p] => some (.commitMap p)
  | 0x22, [p] => some (.cancelMap p)
  | 0x30, [p, a, b, s, c, d, f] => some (.admitStream p (a ++ b) s (c ++ d) f)
  | 0x31, [i] => some (.release i)
  | 0x32, [i] => some (.purge i)
  | 0x33, [i] => some (.readReservation i)
  | 0x40, [p, r, k, a, b, c, d, e] => some (.setRing p r k (a ++ b ++ c) (d ++ e))
  | 0x41, [p, r] => some (.clearRing p r)
  | 0x42, [a, b] => some (.setMemory (a ++ b))
  | 0x50, [p, r, x, a, b, c, d, e, f, m, l, k, u, s, q] =>
      some (.setPort p r x (a ++ b) (c ++ d) (e ++ f) m l k u s q)
  | 0x51, [p] => some (.portEnforce p)
  | 0x52, [p] => some (.portHold p)
  | 0x53, [p] => some (.portTransparent p)
  | 0x54, [p, x] => some (.readPort p x)
  | 0x60, [] => some .readEvent
  | 0x61, [a, b, c, d, e] => some (.setEvents (a ++ b ++ c ++ d) e)
  | 0x62, [x, i] => some (.clearCounters x i)
  | _, _ => none

/-- The command in a frame of `count` whole bytes of which `bytes` are stored, or none where a check of R164 refuses it:
at least two bytes, as many bytes as the length byte says, a length of at most 60, a known code, an argument length the
code takes. -/
def decodeFrame (count : Nat) (bytes : List Byte) : Option Instr :=
  match bytes with
  | code :: n :: args => if count = n.toNat + 2 ∧ n.toNat ≤ 60 then decodeCommand code args else none
  | _ => none

/-- The argument bytes of a management command, in the order of its owning rule. -/
def encodeArguments : Instr → List Byte
  | .setGeometry n s => n :: bytes16 s
  | .setSync p t phi tol m l => p :: (bytes16 t ++ bytes24 phi ++ bytes24 tol ++ [m, l])
  | .loadMap p kinds => p :: kinds
  | .commitMap p => [p]
  | .cancelMap p => [p]
  | .admitStream p t s len f => p :: (bytes16 t ++ [s] ++ bytes16 len ++ [f])
  | .release i => [i]
  | .purge i => [i]
  | .readReservation i => [i]
  | .setRing p r k base n => p :: r :: k :: (bytes24 base ++ bytes16 n)
  | .clearRing p r => [p, r]
  | .setMemory l => bytes16 l
  | .setPort p r x lead guard frame m l k u s q =>
      p :: r :: x :: (bytes16 lead ++ bytes16 guard ++ bytes16 frame ++ [m, l, k, u, s, q])
  | .portEnforce p => [p]
  | .portHold p => [p]
  | .portTransparent p => [p]
  | .readPort p x => [p, x]
  | .setEvents m e => bytes32 m ++ [e]
  | .clearCounters x i => [x, i]
  | .nop | .readStatus | .readEvent
  | .resetAsserted | .resetReleased | .initialisationPassDone | .slotBoundary | .cycleBoundary
  | .transactionStart | .transactionEnd
  | .readAccepted _ _ | .controllerWrite _ _ _ _ | .memoryResponse _ _ _
  | .readTimeout _ | .quarantineExpiry _ | .mgtSckEdge _ => []

/-- The frame of a management command (R171): code, argument length, arguments. A command that is no frame has none. -/
def encodeFrame (i : Instr) : List Byte :=
  match commandCode i with
  | some code => code :: BitVec.ofNat 8 (encodeArguments i).length :: encodeArguments i
  | none => []

end Sys2Proof
end

