-- ==== Sys2Proof/Config.lean ====
section
/-! DEFINITION. What the manual leaves to the implementation: free values, none of which has a body. -/

namespace Sys2Proof

/-- What the checker makes of a word with three or more wrong bits (R155): taken as clean, as a single-bit error at
the bit named (0 to 31 a data bit, 32 to 38 a check bit), or as a double-bit error. -/
inductive ManyWrongBits where
  | takenAsClean
  | takenAsSingle (bit : Fin 39)
  | takenAsDouble
  deriving DecidableEq, Repr, Inhabited

/-- The kind of a slot of a map (R35). -/
inductive SlotKind where
  | openSlot
  | reserved
  | closed
  deriving DecidableEq, Repr, Inhabited

/-- The kind of a ring map entry (R102). -/
inductive RingKind where
  | txMotion
  | txGeneral
  | rxSync
  deriving DecidableEq, Repr, Inhabited

/-- FREE VALUE (R155; log entry 12). The outcome of a read that finds three or more wrong bits depends on the positions
of the wrong bits under the check-bit equations, which the manual does not state. -/
opaque Config.manyWrongBits : BitVec 39 → ManyWrongBits

/-- FREE VALUE (log entry 14). What a slot reads as when its stored kind code is the unassigned 3, which only a word
with three or more wrong bits can deliver. -/
opaque Config.straySlotKind : SlotKind

/-- FREE VALUE (log entry 14). What a ring map entry's kind reads as when its stored code is the unassigned 3. -/
opaque Config.strayRingKind : RingKind

/-- FREE VALUE (log entries 3 and 27). The n-th order choice among works that the manual lets happen in either order at
one instant (R149, R159). -/
opaque Config.orderChoice : Nat → Bool

end Sys2Proof
end

