-- ==== Sys2Proof/Machine/State.lean ====
section
/-! DEFINITION. The state of the NB-4208 as plain data, one structure per block, and the state after reset. -/

namespace Sys2Proof.Machine

/-! ### Cycle timer (01) -/

/-- A geometry: N slots of S ticks each (R3). -/
structure Geometry where
  slots : Nat
  ticks : Nat
  deriving DecidableEq, Repr

/-- What the cycle timer holds while RUNNING (01, 'The Cycle Timer and Its State'). -/
structure Timer where
  /-- The active geometry. -/
  geometry : Geometry
  /-- The staged geometry, or absent (R6). -/
  staged : Option Geometry
  /-- The number of the current cycle (R13). -/
  cycle : CycleNumber
  /-- The instant at which the current cycle began. -/
  start : DeviceTime
  /-- The last-slot adjustment of the current cycle (R8). -/
  adjustment : Int
  deriving DecidableEq, Repr

/-! ### Cycle lock (02) -/

/-- The states of the cycle lock. -/
inductive LockState where
  | free
  | acquiring
  | aligning
  | locked
  | holdover
  deriving DecidableEq, Repr

/-- A first-mark outcome of a cycle (R25). -/
inductive MarkOutcome where
  | none
  | good
  | outlier
  deriving DecidableEq, Repr

/-- The state of the cycle lock (02, 'Lock State'). -/
structure Lock where
  state : LockState
  port : Option PortIndex
  tag : StreamTag
  phi : Nat
  tolerance : Nat
  maxStep : Nat
  holdoverLimit : Nat
  goodIntervals : Nat
  previousMark : Option DeviceTime
  stored : Option Int
  /-- The cycle record's first-mark outcome. -/
  first : MarkOutcome
  /-- The cycle record's good-mark flag. -/
  goodMark : Bool
  missRun : Nat
  holdoverCount : Nat
  jitter : Bool
  /-- The history, oldest first. -/
  oldest : MarkOutcome
  middle : MarkOutcome
  newest : MarkOutcome
  marks : Counter
  outliers : Counter
  deriving DecidableEq, Repr

/-! ### Slot map store (03) -/

/-- A pending map: its length and commit-pending. Its kinds are in table memory. -/
structure PendingMap where
  length : Nat
  committed : Bool
  deriving DecidableEq, Repr

/-- What the store keeps outside table memory for one port (R36). -/
structure PortMaps where
  bad : Bool
  /-- The pending map, or absent. -/
  waiting : Option PendingMap
  deriving DecidableEq, Repr

/-! ### Reservation table (05) -/

/-- The states of a reservation entry (R62). -/
inductive EntryState where
  | free
  | pending
  | active
  | releasing
  | faulted
  deriving DecidableEq, Repr

/-- What the table keeps outside table memory for one entry (R63). -/
structure Entry where
  state : EntryState
  totalMisses : BitVec 16
  overrunDrops : BitVec 16
  staleDrops : BitVec 16
  passed : Counter
  deriving DecidableEq, Repr

/-! ### Descriptor path (06) -/

/-- A read in the in-flight read list (R96). -/
structure InFlightRead where
  tag : Tag
  address : Address
  forwarded : DeviceTime
  limit : Nat
  ring : Option RingIndex
  deriving DecidableEq, Repr

/-- A quarantined tag and its expiry time (R98). -/
structure Quarantined where
  tag : Tag
  expiry : DeviceTime
  deriving DecidableEq, Repr

/-- A request of the controller (R92). -/
inductive Request where
  | read (tag : Tag) (address : Address)
  | write (tag : Tag) (address : Address) (data : Word) (lanes : BitVec 4)
  deriving DecidableEq, Repr

/-- A response of the device to the controller (R93). -/
structure Response where
  tag : Tag
  data : Word
  error : Bool
  deriving DecidableEq, Repr

/-- The state of the descriptor path (06), with the requests that wait at its controller side (log entry 8) and the
record of what it gives on its two channels (log entry 9). -/
structure Path where
  inFlight : List InFlightRead
  quarantine : List Quarantined
  /-- The tags whose quarantine has expired at the present instant; a response that carries one is late there (R99; the
  model's record, log entry 37). -/
  expired : List Tag
  responseLimit : Nat
  ringValid : Vector Bool 40
  timeouts : Counter
  lates : Counter
  /-- Requests presented and not yet taken, oldest first (R92). -/
  waiting : List Request
  /-- Responses given to the controller, oldest first. -/
  toController : List Response
  /-- Requests forwarded to memory, oldest first. -/
  toMemory : List Request
  deriving DecidableEq, Repr

/-! ### Egress gates (07) -/

/-- The states of a gate (R114). -/
inductive GateState where
  | transparent
  | held
  | enforcing
  | failsafe
  deriving DecidableEq, Repr

/-- The failsafe causes (R114). -/
inductive FailsafeCause where
  | none
  | lockLost
  | memoryError
  deriving DecidableEq, Repr

/-- The rate codes (R49). -/
inductive Rate where
  | rate10M
  | rate100M
  | rate1G
  | rate2G5
  deriving DecidableEq, Repr

/-- The fail modes (R124). -/
inductive FailMode where
  | passAll
  | motionOnly
  deriving DecidableEq, Repr

/-- The unreserved policies (R126). -/
inductive UnreservedPolicy where
  | asGeneral
  | drop
  deriving DecidableEq, Repr

/-- The eleven settings of SET_PORT (R116). -/
structure Settings where
  rate : Rate
  extra : Nat
  lead : Nat
  guard : Nat
  maxFrame : Nat
  failMode : FailMode
  requireLock : Bool
  reclaim : Bool
  unreserved : UnreservedPolicy
  stale : Nat
  silence : Nat
  deriving DecidableEq, Repr

/-- The ten port counters (R134). -/
structure PortCounters where
  motionPassed : Counter
  generalPassed : Counter
  reclaimed : Counter
  motionHeld : Counter
  generalHeld : Counter
  overrunDrops : Counter
  staleDrops : Counter
  unreservedDrops : Counter
  lateMotion : Counter
  missedSlots : Counter
  deriving DecidableEq, Repr

/-- The state of one egress gate (07, 'Gate State'). -/
structure Port where
  gate : GateState
  cause : FailsafeCause
  settings : Settings
  /-- Busy-until, or absent. -/
  busy : Option DeviceTime
  counters : PortCounters
  deriving DecidableEq, Repr

/-! ### Hold list (08) -/

/-- A hold record. -/
structure HoldRecord where
  address : Address
  port : PortIndex
  entry : EntryIndex
  firstHeld : CycleNumber
  deriving DecidableEq, Repr

/-- The state of the hold list. -/
structure HoldList where
  /-- The records, oldest first. -/
  records : List HoldRecord
  full : Counter
  expired : Counter
  deriving DecidableEq, Repr

/-! ### Table memory protection (09) -/

/-- One table memory word: the data last written, and which of the 32 data bits (0 to 31) and 7 check bits (32 to 38)
have been flipped since (log entry 11). -/
structure TableWord where
  data : Word
  flips : BitVec 39
  deriving DecidableEq, Repr

/-- Table memory: words by number, in the canonical form of `Memory.wf` (Machine/TableMemory.lean). -/
abbrev Memory := List (Nat × TableWord)

/-- The state of table memory protection (R152). -/
structure Protection where
  memory : Memory
  scrub : Fin 1024
  corrected : Counter
  /-- The initialisation flag: busy. -/
  busy : Bool
  deriving DecidableEq, Repr

/-! ### Management link (10) -/

/-- The status codes of the response record (R167). -/
inductive Status where
  | ok
  | busy
  | badFrame
  | badArgument
  | state
  | full
  | duplicate
  | notFound
  | noBudget
  | slotKind
  | inUse
  | overlap
  | slotCount
  deriving DecidableEq, Repr

/-- The response record (R163). -/
structure ResponseRecord where
  status : Status
  code : Byte
  result : List Byte
  deriving DecidableEq, Repr

/-- The state of the management link. -/
structure Link where
  /-- The level of MGT_CSN is low (an input pin). -/
  csnLow : Bool
  /-- The transaction state is RECEIVING. -/
  receiving : Bool
  buffer : List Byte
  count : Nat
  /-- The bits of the byte being received, first bit first. -/
  bits : List Bool
  /-- How many bits of the record have been shifted past. -/
  shifted : Nat
  record : ResponseRecord
  deriving DecidableEq, Repr

/-! ### Event queue (11) -/

/-- The event kinds (R172). -/
inductive EventKind where
  | lockAcquired
  | lockHoldover
  | lockLost
  | lockJitter
  | geometryApplied
  | mapApplied
  | mapCancelled
  | resActive
  | resFreed
  | resOverbooked
  | resReinstated
  | streamSilent
  | resResumed
  | resFaulted
  | overrunDrop
  | staleDrop
  | unreservedDrop
  | lateMotion
  | holdListFull
  | holdExpired
  | portFailsafe
  | portRecovered
  | memCorrected
  | memUncorrectable
  | readTimeout
  | lateResponse
  deriving DecidableEq, Repr

/-- An event entry (R172, R174). -/
structure EventEntry where
  kind : EventKind
  port : Option PortIndex
  index : Option EntryIndex
  tag : Option StreamTag
  cycle : BitVec 16
  detail : BitVec 16
  deriving DecidableEq, Repr

/-- A limit mark (R175). -/
inductive LimitMark where
  | unreservedDrop (port : PortIndex)
  | staleDrop (entry : EntryIndex)
  | overrunDrop (entry : EntryIndex)
  | holdListFull
  deriving DecidableEq, Repr

/-- The state of the event queue. -/
structure EventQueue where
  /-- The entries, oldest first. -/
  queue : List EventEntry
  overflow : Bool
  mask : BitVec 32
  enable : Bool
  /-- The limit marks that are set. -/
  marks : List LimitMark
  deriving DecidableEq, Repr

/-! ### Order choices -/

/-- The MODEL's own: the order choices among the works of one instant (R149, R159; log entries 3 and 27). -/
structure Choices where
  /-- Choices fixed beforehand, the next one first. -/
  given : List Bool
  /-- How many choices have been used; past the given ones, choice number n is the free value `Config.orderChoice n`. -/
  used : Nat
  deriving DecidableEq, Repr

/-! ### The whole device -/

/-- The state of the device, and the queue of commands waiting for it. -/
structure State where
  /-- The commands that wait, first in first out (log entry 25). -/
  pending : List Instr
  /-- The MODEL's own (log entries 3 and 27). -/
  choices : Choices
  /-- RST_N is asserted. -/
  resetAsserted : Bool
  time : DeviceTime
  /-- The cycle timer: none is STOPPED, some is RUNNING (R2). -/
  timer : Option Timer
  lock : Lock
  maps : Vector PortMaps 8
  table : Vector Entry 64
  /-- The admission order list (R65). -/
  order : List EntryIndex
  path : Path
  ports : Vector Port 8
  holds : HoldList
  prot : Protection
  link : Link
  events : EventQueue
  deriving DecidableEq, Repr

/-- No command of this block stops with a fault: every refusal of the device is an answer, every error of table memory
an event (INVENTORY.md, 'Faults'). The type is empty. -/
inductive Fault
  deriving DecidableEq, Repr

/-- Why a command has no meaning. -/
inductive Refusal where
  /-- Raised by `exec` for a row that has no meaning yet; safe, since the model stops. No arm raises it. -/
  | notModelled (mnemonic : String)
  deriving DecidableEq, Repr

/-- The lock after reset (R16). -/
def Lock.initial : Lock where
  state := .free
  port := none
  tag := 0
  phi := 0
  tolerance := 1000
  maxStep := 64
  holdoverLimit := 8
  goodIntervals := 0
  previousMark := none
  stored := none
  first := .none
  goodMark := false
  missRun := 0
  holdoverCount := 0
  jitter := false
  oldest := .none
  middle := .none
  newest := .none
  marks := 0
  outliers := 0

/-- The settings of a port after reset (R116). -/
def Settings.initial : Settings where
  rate := .rate100M
  extra := 0
  lead := 0
  guard := 0
  maxFrame := 1522
  failMode := .passAll
  requireLock := false
  reclaim := false
  unreserved := .asGeneral
  stale := 2
  silence := 8

/-- All ten port counters 0 (R114, R180). -/
def PortCounters.zero : PortCounters where
  motionPassed := 0
  generalPassed := 0
  reclaimed := 0
  motionHeld := 0
  generalHeld := 0
  overrunDrops := 0
  staleDrops := 0
  unreservedDrops := 0
  lateMotion := 0
  missedSlots := 0

/-- A gate after reset (R114). -/
def Port.initial : Port where
  gate := .transparent
  cause := .none
  settings := Settings.initial
  busy := none
  counters := PortCounters.zero

/-- An entry after reset (R64). -/
def Entry.initial : Entry where
  state := .free
  totalMisses := 0
  overrunDrops := 0
  staleDrops := 0
  passed := 0

/-- The descriptor path after reset (R94). -/
def Path.initial : Path where
  inFlight := []
  quarantine := []
  expired := []
  responseLimit := 1024
  ringValid := Vector.replicate 40 false
  timeouts := 0
  lates := 0
  waiting := []
  toController := []
  toMemory := []

/-- Table memory protection after reset (R152): the initialisation pass is about to write word 0. -/
def Protection.initial : Protection where
  memory := []
  scrub := 0
  corrected := 0
  busy := true

/-- The management link after reset (R162). -/
def Link.initial : Link where
  csnLow := false
  receiving := false
  buffer := []
  count := 0
  bits := []
  shifted := 0
  record := ⟨.ok, 0x00#8, []⟩

/-- The event queue after reset (R173): every kind enabled but MEM_CORRECTED, bit 23 (R179). -/
def EventQueue.initial : EventQueue where
  queue := []
  overflow := false
  mask := 0x077FFFFE#32
  enable := false
  marks := []

/-- The machine right after release of the reset pin. -/
def State.reset : State where
  pending := []
  choices := ⟨[], 0⟩
  resetAsserted := false
  time := 0
  timer := none
  lock := Lock.initial
  maps := Vector.replicate 8 ⟨false, none⟩
  table := Vector.replicate 64 Entry.initial
  order := []
  path := Path.initial
  ports := Vector.replicate 8 Port.initial
  holds := ⟨[], 0, 0⟩
  prot := Protection.initial
  link := Link.initial
  events := EventQueue.initial

end Sys2Proof.Machine
end

