-- ==== Sys2Proof/Machine/TableMemory.lean ====
section
/-! DEFINITION. Table memory (09): its words, its canonical form, what the checker makes of wrong bits, and the layout
of the fields inside a word. -/

namespace Sys2Proof.Machine

/-! ### Words -/

/-- Data `d` with valid check bits. -/
def cleanWord (d : Word) : TableWord := ⟨d, 0⟩

/-- What an unlisted word reads as: data 0 with valid check bits (R152). -/
def blankWord : TableWord := cleanWord 0

/-- How many of a word's 39 bits are wrong. -/
def wrongBits (f : BitVec 39) : Nat := (List.range 39).countP (fun i => f.getLsbD i)

/-- The data bits as they stand in the memory: those last written, with the flipped ones flipped. -/
def TableWord.stored (w : TableWord) : Word := w.data ^^^ w.flips.setWidth 32

/-- What the checker makes of a word (R154, R155). -/
inductive Verdict where
  /-- Taken as clean: the stored data goes to the reader. -/
  | clean
  /-- A single-bit error: this data goes to the reader and is written back. -/
  | corrected (data : Word)
  /-- A double-bit error. -/
  | lost
  deriving DecidableEq, Repr

/-- Three or more wrong bits (R155): one of the three outcomes, by a free value of the positions of the wrong bits. In
the first two the data delivered differs from the data last written; a value that would break that is no possible one,
and the word is then lost. -/
def manyBitsVerdict (w : TableWord) : Verdict :=
  match Config.manyWrongBits w.flips with
  | .takenAsClean => if w.stored = w.data then .lost else .clean
  | .takenAsSingle bit =>
      let d := if bit.val < 32 then w.stored ^^^ (1#32 <<< bit.val) else w.stored
      if d = w.data then .lost else .corrected d
  | .takenAsDouble => .lost

/-- The checker on one word: no wrong bit, one (R154), two (R155), more (R155). -/
def TableWord.verdict (w : TableWord) : Verdict :=
  match wrongBits w.flips with
  | 0 => .clean
  | 1 => .corrected w.data
  | 2 => .lost
  | _ => manyBitsVerdict w

/-! ### The memory -/

/-- The word with number k. -/
def Memory.read : Memory → Nat → TableWord
  | [], _ => blankWord
  | (k', w) :: m, k => if k = k' then w else Memory.read m k

/-- The memory with word k replaced; a word equal to what an unlisted word reads as is not listed. -/
def Memory.write : Memory → Nat → TableWord → Memory
  | [], k, w => if w = blankWord then [] else [(k, w)]
  | (k', w') :: m, k, w =>
      if k = k' then (if w = blankWord then m else (k, w) :: m)
      else if k < k' then (if w = blankWord then (k', w') :: m else (k, w) :: (k', w') :: m)
      else (k', w') :: Memory.write m k w

/-- The memory with the words from `a` up to, not including, `b` at data 0: the initialisation pass (R152). -/
def Memory.clear (m : Memory) (a b : Nat) : Memory := m.filter (fun x => !(decide (a ≤ x.1) && decide (x.1 < b)))

/-- The canonical form: word numbers below 1,024 and strictly rising, and no word equal to an unlisted one. -/
abbrev Memory.wf (m : Memory) : Prop :=
  m.Pairwise (fun a b => a.1 < b.1) ∧ ∀ x ∈ m, x.2 ≠ blankWord ∧ x.1 < 1024

/-! ### Who occupies a word (R151) -/

/-- The occupant of a word. `part` is the index of the word within the item. -/
inductive Occupant where
  | entry (i : EntryIndex)
  | activeMap (p : PortIndex) (part : Nat)
  | pendingMap (p : PortIndex) (part : Nat)
  | ring (e : RingIndex)
  | unused
  deriving DecidableEq, Repr

/-- The word assignment of R151. -/
def occupant (k : Nat) : Occupant :=
  if h : k < 256 then .entry ⟨k / 4, by omega⟩
  else if h : k < 280 then .activeMap ⟨(k - 256) / 3, by omega⟩ ((k - 256) % 3)
  else if h : k < 304 then .pendingMap ⟨(k - 280) / 3, by omega⟩ ((k - 280) % 3)
  else if h : k < 384 then .ring ⟨(k - 304) / 2, by omega⟩
  else .unused

/-- Word j of reservation entry i. -/
def entryWord (i : EntryIndex) (j : Nat) : Nat := 4 * i.val + j

/-- Word j of the active map of port p. -/
def activeWord (p : PortIndex) (j : Nat) : Nat := 256 + 3 * p.val + j

/-- Word j of the pending map of port p. -/
def pendingWord (p : PortIndex) (j : Nat) : Nat := 280 + 3 * p.val + j

/-- Word j of ring map entry e. -/
def ringWord (e : RingIndex) (j : Nat) : Nat := 304 + 2 * e.val + j

/-! ### Reservation entries (R62, R63)

The manual says which fields share a word, not at which bits: the positions are the model's (log entry 13). -/

/-- The fields an entry keeps in table memory. -/
structure Reservation where
  port : PortIndex
  tag : StreamTag
  slot : BitVec 6
  frames : BitVec 3
  maxLength : BitVec 14
  used : BitVec 3
  misses : BitVec 8
  overbooked : Bool
  silent : Bool
  cost : BitVec 23
  admitted : CycleNumber
  deriving DecidableEq, Repr

/-- First word: port, stream tag, slot, frames per cycle. -/
def Reservation.word0 (r : Reservation) : Word :=
  0#8 ++ r.frames ++ r.slot ++ r.tag ++ BitVec.ofNat 3 r.port.val

/-- Second word: maximum length, used this cycle, consecutive misses, overbooked, silent. -/
def Reservation.word1 (r : Reservation) : Word :=
  0#5 ++ BitVec.ofBool r.silent ++ BitVec.ofBool r.overbooked ++ r.misses ++ r.used ++ r.maxLength

/-- Third word: cost. -/
def Reservation.word2 (r : Reservation) : Word := 0#9 ++ r.cost

/-- Fourth word: admitted cycle. -/
def Reservation.word3 (r : Reservation) : Word := r.admitted

/-- The fields in four words. -/
def unpackReservation (a b c d : Word) : Reservation where
  port := ⟨(a.extractLsb' 0 3).toNat, (a.extractLsb' 0 3).isLt⟩
  tag := a.extractLsb' 3 12
  slot := a.extractLsb' 15 6
  frames := a.extractLsb' 21 3
  maxLength := b.extractLsb' 0 14
  used := b.extractLsb' 14 3
  misses := b.extractLsb' 17 8
  overbooked := b.getLsbD 25
  silent := b.getLsbD 26
  cost := c.extractLsb' 0 23
  admitted := d

/-! ### Slot maps -/

/-- The stored code of a slot kind, the coding of R35. -/
def kindCode : SlotKind → BitVec 2
  | .openSlot => 0
  | .reserved => 1
  | .closed => 2

/-- The kind a stored code reads as; code 3 is assigned to none (log entry 14). -/
def kindOfCode (c : BitVec 2) : SlotKind :=
  if c = 0 then .openSlot else if c = 1 then .reserved else if c = 2 then .closed else Config.straySlotKind

/-- Up to sixteen kinds in one word, the first at bits 1 to 0. -/
def packKinds : List SlotKind → Word
  | [] => 0
  | k :: ks => (packKinds ks <<< 2) ||| (kindCode k).setWidth 32

/-- The kind at place i, 0 to 15, of a map word. -/
def kindInWord (w : Word) (i : Nat) : SlotKind := kindOfCode ((w >>> (2 * i)).setWidth 2)

/-- Word j, 0 to 2, of a map: its kinds 16j to 16j + 15 (R151). -/
def mapWord (kinds : List SlotKind) (j : Nat) : Word := packKinds ((kinds.drop (16 * j)).take 16)

/-! ### Ring map entries (R102) -/

/-- What a ring map entry keeps in table memory. -/
structure Ring where
  kind : RingKind
  base : Address
  count : BitVec 13
  deriving DecidableEq, Repr

/-- The stored code of a ring kind, the coding of R103. -/
def ringKindCode : RingKind → BitVec 2
  | .txMotion => 0
  | .txGeneral => 1
  | .rxSync => 2

/-- The ring kind a stored code reads as; code 3 is assigned to none (log entry 14). -/
def ringKindOfCode (c : BitVec 2) : RingKind :=
  if c = 0 then .txMotion else if c = 1 then .txGeneral else if c = 2 then .rxSync else Config.strayRingKind

/-- First word: kind and base address. -/
def Ring.word0 (r : Ring) : Word := 0#6 ++ ringKindCode r.kind ++ r.base

/-- Second word: descriptor count. -/
def Ring.word1 (r : Ring) : Word := 0#19 ++ r.count

/-- The entry in two words. -/
def unpackRing (a b : Word) : Ring where
  kind := ringKindOfCode (a.extractLsb' 24 2)
  base := a.extractLsb' 0 24
  count := b.extractLsb' 0 13

/-- The first byte address past the ring (R102). -/
def Ring.limit (r : Ring) : Nat := r.base.toNat + 8 * r.count.toNat

/-- The address is the status word of one of the ring's descriptors (R106, R17). -/
def Ring.statusWord (r : Ring) (a : Address) : Bool :=
  decide (r.base.toNat ≤ a.toNat) && decide (a.toNat < r.limit) && decide ((a.toNat - r.base.toNat) % 8 = 0)

end Sys2Proof.Machine
end

