-- ==== Sys2Proof/Machine/WireTime.lean ====
section
/-! DEFINITION. The arithmetic of the wire-time calculator (04) and of device time and slots (01). It holds no state. -/

namespace Sys2Proof.Machine

/-! ### Device time (R1) -/

/-- `a` is later than `b`: the sign of their difference modulo 2^48 (R1). -/
def later (a b : DeviceTime) : Bool := decide (0 < (a - b).toInt)

/-- The later of two times. -/
def laterOf (a b : DeviceTime) : DeviceTime := if later b a then b else a

/-- The time n ticks after t. -/
def afterTicks (t : DeviceTime) (n : Nat) : DeviceTime := t + BitVec.ofNat 48 n

/-- The ticks from `now` to `t`: 0 where t is not later than now. -/
def ticksUntil (now t : DeviceTime) : Nat := if later t now then (t - now).toNat else 0

/-! ### Slots and the cycle (R8, R9, R53) -/

/-- The nominal cycle length C (01, 'Geometry'). -/
def Geometry.cycleTicks (g : Geometry) : Nat := g.slots * g.ticks

/-- The current cycle length: C plus the current adjustment (R8). -/
def Timer.length (c : Timer) : Nat := (c.geometry.cycleTicks + c.adjustment).toNat

/-- The position at device time t (R9). -/
def Timer.position (c : Timer) (t : DeviceTime) : Nat := (t - c.start).toNat

/-- The slot index at a position: truncated, capped at N - 1 (R9). -/
def Timer.slotAt (c : Timer) (position : Nat) : Nat := min (position / c.geometry.ticks) (c.geometry.slots - 1)

/-- The current slot index at device time t (R9). -/
def Timer.slot (c : Timer) (t : DeviceTime) : Nat := c.slotAt (c.position t)

/-- The cycle boundary that ends the current cycle (R53). -/
def Timer.cycleEnd (c : Timer) : DeviceTime := afterTicks c.start c.length

/-- The end of slot k of the current cycle (R53). -/
def Timer.slotEnd (c : Timer) (k : Nat) : DeviceTime :=
  if k + 1 < c.geometry.slots then afterTicks c.start ((k + 1) * c.geometry.ticks) else c.cycleEnd

/-! ### Durations (R49 to R51) -/

/-- The byte time in picoseconds (R49). -/
def byteTime : Rate → Nat
  | .rate10M => 800000
  | .rate100M => 80000
  | .rate1G => 8000
  | .rate2G5 => 3200

/-- The wire bytes of a frame of this length with X extra bytes (R50). -/
def wireBytes (length extra : Nat) : Nat := max (length + extra) 60 + 24

/-- The duration in ticks, rounded up (R51). -/
def duration (set : Settings) (length : Nat) : Nat := (wireBytes length set.extra * byteTime set.rate + 9999) / 10000

/-- The expected start of a frame decided now (R52). -/
def expectedStart (set : Settings) (busy : Option DeviceTime) (now : DeviceTime) : DeviceTime :=
  match busy with
  | none => afterTicks now set.lead
  | some b => laterOf (afterTicks now set.lead) b

/-- The expected end of a frame of this length decided now (R52). -/
def expectedEnd (set : Settings) (busy : Option DeviceTime) (now : DeviceTime) (length : Nat) : DeviceTime :=
  afterTicks (expectedStart set busy now) (duration set length)

/-- The fit test against a next protected boundary, none where it is unbounded (R56). -/
def fits (set : Settings) (frameEnd : DeviceTime) (boundary : Option DeviceTime) : Bool :=
  match boundary with
  | none => true
  | some b => !later (afterTicks frameEnd set.guard) b

/-! ### Budgets and costs (R57, R58) -/

/-- The budget of a slot of a port, signed (R57). -/
def slotBudget (g : Geometry) (lock : Lock) (set : Settings) (slot : Nat) : Int :=
  (g.ticks : Int) - set.guard - set.lead - (if slot + 1 = g.slots ∧ lock.state ≠ .free then (lock.maxStep : Int) else 0)

/-- The cost of an entry with these settings of its port (R58). -/
def entryCost (set : Settings) (frames maxLength : Nat) : Nat := frames * duration set maxLength

/-! ### The search for the next protected boundary (R54) -/

/-- A protected slot (R35). -/
def protectedKind : SlotKind → Bool
  | .openSlot => false
  | .reserved => true
  | .closed => true

/-- Step 1 of R54: the first protected slot after `slot` in the current cycle. -/
def protectedThisCycle (n slot : Nat) (kind : Nat → SlotKind) : Option Nat :=
  (List.range n).find? (fun k => decide (slot < k) && protectedKind (kind k))

/-- Step 2 of R54: the first protected slot of the next cycle up to `slot`. -/
def protectedNextCycle (slot : Nat) (kind : Nat → SlotKind) : Option Nat :=
  (List.range (slot + 1)).find? (fun k => protectedKind (kind k))

/-! ### The folded error and the correction (R21, R26) -/

/-- 'While e is greater than C/2, C is subtracted': with as many turns as can be needed. -/
def foldDown (c : Int) : Nat → Int → Int
  | 0, e => e
  | n + 1, e => if c / 2 < e then foldDown c n (e - c) else e

/-- The folded error of a mark at this position (R21). C/2 is the integer halving of C. -/
def foldedError (c phi position : Nat) : Int :=
  let e := foldDown c (position / c + 1) ((position : Int) - phi)
  if e ≤ -((c : Int) / 2) then e + c else e

/-- The correction of a folded error (R26): divided by 4 or 8, truncated toward zero, clamped to the max step. -/
def correction (jitter : Bool) (maxStep : Nat) (e : Int) : Int :=
  max (-(maxStep : Int)) (min (maxStep : Int) (Int.tdiv e (if jitter then 8 else 4)))

/-- The alignment adjustment of a folded error (R23). -/
def alignmentAdjustment (c : Nat) (e : Int) : Int := if 0 ≤ e then e else e + c

/-! ### Status words (R170) -/

/-- READY, bit 31. -/
def readyBit (w : Word) : Bool := w.getLsbD 31

/-- SKIP, bit 30. -/
def skipBit (w : Word) : Bool := w.getLsbD 30

/-- The stream tag, bits 27 to 16. -/
def tagOf (w : Word) : StreamTag := w.extractLsb' 16 12

/-- The length, bits 13 to 0. -/
def lengthOf (w : Word) : Nat := (w.extractLsb' 0 14).toNat

/-- The three outcomes of a gate decision. -/
inductive Decision where
  | pass
  | hold
  | drop
  deriving DecidableEq, Repr

/-- The word returned for an outcome (R108): memory's word, the hold form, the drop form. -/
def substitute (d : Decision) (w : Word) : Word :=
  match d with
  | .pass => w
  | .hold => w &&& 0x3FFFFFFF#32
  | .drop => w ||| 0xC0000000#32

end Sys2Proof.Machine
end

