-- ==== Sys2Proof/Machine/Operands.lean ====
section
/-! DEFINITION. The operand forms: argument bytes read as the values a command accepts, and values written as result
bytes. An operand outside its accepted values reads as none. -/

namespace Sys2Proof.Machine

/-- A port argument, 0 to 7. -/
def portOperand (b : Byte) : Option PortIndex := if h : b.toNat < 8 then some ⟨b.toNat, h⟩ else none

/-- A reservation entry argument, 0 to 63. -/
def entryOperand (b : Byte) : Option EntryIndex := if h : b.toNat < 64 then some ⟨b.toNat, h⟩ else none

/-- The sync port argument: 0 to 7, or FFh for none (R19). -/
def syncPortOperand (b : Byte) : Option (Option PortIndex) := if b = 0xFF#8 then some none else (portOperand b).map some

/-- A stream tag argument, 0 to 4,095. -/
def tagOperand (t : BitVec 16) : Option StreamTag := if t.toNat < 4096 then some (t.setWidth 12) else none

/-- A flag argument: 00h off, 01h on. -/
def flagOperand (b : Byte) : Option Bool := if b = 0 then some false else if b = 1 then some true else none

/-- A slot kind byte (R35). -/
def kindOperand (b : Byte) : Option SlotKind :=
  if b = 0 then some .openSlot else if b = 1 then some .reserved else if b = 2 then some .closed else none

/-- A list of kind bytes, each of them accepted (R39). -/
def kindsOperand : List Byte → Option (List SlotKind)
  | [] => some []
  | b :: bs =>
      match kindOperand b, kindsOperand bs with
      | some k, some ks => some (k :: ks)
      | _, _ => none

/-- A number argument between two bounds, both included. -/
def rangeOperand {w : Nat} (lo hi : Nat) (b : BitVec w) : Option Nat :=
  if lo ≤ b.toNat ∧ b.toNat ≤ hi then some b.toNat else none

/-- A geometry: N of 2 to 48 and S of at least 500 (R3). -/
def geometryOperand (n : Byte) (s : BitVec 16) : Option Geometry :=
  if 2 ≤ n.toNat ∧ n.toNat ≤ 48 ∧ 500 ≤ s.toNat then some ⟨n.toNat, s.toNat⟩ else none

/-- A rate code (R49). -/
def rateOperand (b : Byte) : Option Rate :=
  if b = 0 then some .rate10M else if b = 1 then some .rate100M
  else if b = 2 then some .rate1G else if b = 3 then some .rate2G5 else none

/-- A fail mode (R116). -/
def failModeOperand (b : Byte) : Option FailMode := (flagOperand b).map (fun on => if on then .motionOnly else .passAll)

/-- An unreserved policy (R116). -/
def policyOperand (b : Byte) : Option UnreservedPolicy := (flagOperand b).map (fun on => if on then .drop else .asGeneral)

/-- The settings of SET_PORT (R116). -/
def settingsOperand (rate extra : Byte) (lead guard maxFrame : BitVec 16)
    (failMode requireLock reclaim unreserved stale silence : Byte) : Option Settings := do
  let rate ← rateOperand rate
  let extra ← rangeOperand 0 32 extra
  let lead ← rangeOperand 0 1023 lead
  let guard ← rangeOperand 0 4095 guard
  let maxFrame ← rangeOperand 64 16383 maxFrame
  let failMode ← failModeOperand failMode
  let requireLock ← flagOperand requireLock
  let reclaim ← flagOperand reclaim
  let unreserved ← policyOperand unreserved
  let stale ← rangeOperand 1 15 stale
  let silence ← rangeOperand 1 255 silence
  pure { rate, extra, lead, guard, maxFrame, failMode, requireLock, reclaim, unreserved, stale, silence }

/-- The index of a port's ring, transmit 0 to 3 or receive 4 (06, 'The Ring Map'). -/
def ringIndex (p : PortIndex) (ring : Fin 5) : RingIndex := ⟨5 * p.val + ring.val, by omega⟩

/-- The port that owns a ring map entry. -/
def ringPort (e : RingIndex) : PortIndex := ⟨e.val / 5, by omega⟩

/-- A ring map entry is its port's receive ring. -/
def isReceiveRing (e : RingIndex) : Bool := decide (e.val % 5 = 4)

/-- A ring number argument, 0 to 4. -/
def ringOperand (b : Byte) : Option (Fin 5) := if h : b.toNat < 5 then some ⟨b.toNat, h⟩ else none

/-- A ring kind byte (R103). -/
def ringKindOperand (b : Byte) : Option RingKind :=
  if b = 0 then some .txMotion else if b = 1 then some .txGeneral else if b = 2 then some .rxSync else none

/-- The ring of SET_RING where check 1 of R103 passes: kind and ring number agree, the base is 8-aligned, the count is 4
to 4,096, and the range ends at or below 1,000,000h. -/
def setRingOperand (ring : Fin 5) (kind : Byte) (base : BitVec 24) (count : BitVec 16) : Option Ring :=
  match ringKindOperand kind with
  | none => none
  | some k =>
      if (k = .rxSync ↔ ring.val = 4) ∧ base.toNat % 8 = 0 ∧ 4 ≤ count.toNat ∧ count.toNat ≤ 4096
          ∧ base.toNat + 8 * count.toNat ≤ 0x1000000
      then some ⟨k, base, count.setWidth 13⟩ else none

/-- The settings of SET_SYNC, C taken from the active geometry (R19). -/
structure SyncSettings where
  port : Option PortIndex
  tag : StreamTag
  phi : Nat
  tolerance : Nat
  maxStep : Nat
  holdoverLimit : Nat
  deriving DecidableEq, Repr

/-- The six arguments of SET_SYNC, each in its accepted values (R19). -/
def syncOperand (c : Nat) (port : Byte) (tag : BitVec 16) (phi tolerance : BitVec 24) (maxStep holdoverLimit : Byte) :
    Option SyncSettings := do
  let port ← syncPortOperand port
  let tag ← tagOperand tag
  let phi ← if phi.toNat + 1 ≤ c then some phi.toNat else none
  let tolerance ← if 1 ≤ tolerance.toNat ∧ tolerance.toNat + 1 ≤ c / 2 then some tolerance.toNat else none
  let maxStep ← rangeOperand 1 255 maxStep
  let holdoverLimit ← rangeOperand 1 255 holdoverLimit
  pure { port, tag, phi, tolerance, maxStep, holdoverLimit }

/-- The arguments of ADMIT (R66). -/
structure AdmitRequest where
  port : PortIndex
  tag : StreamTag
  slot : Nat
  maxLength : Nat
  frames : Nat
  deriving DecidableEq, Repr

/-- The arguments of ADMIT, each in its accepted values for a geometry of n slots (R66). -/
def admitOperand (n : Nat) (port : Byte) (tag : BitVec 16) (slot : Byte) (maxLength : BitVec 16) (frames : Byte) :
    Option AdmitRequest := do
  let port ← portOperand port
  let tag ← tagOperand tag
  let slot ← if slot.toNat < n then some slot.toNat else none
  let maxLength ← rangeOperand 60 16383 maxLength
  let frames ← rangeOperand 1 4 frames
  pure { port, tag, slot, maxLength, frames }

/-- The event mask of SET_EVENTS: bit 0 and bits 27 to 31 clear (R179). -/
def maskOperand (m : BitVec 32) : Option (BitVec 32) := if m &&& 0xF8000001#32 = 0 then some m else none

/-! ### Result bytes: multi-byte values most significant byte first (R171) -/

/-- One byte. -/
def byteOf (n : Nat) : Byte := BitVec.ofNat 8 n

/-- A 16-bit value in two bytes. -/
def beBytes2 (n : Nat) : List Byte := [byteOf (n / 256), byteOf n]

/-- A 24-bit value in three bytes. -/
def beBytes3 (n : Nat) : List Byte := [byteOf (n / 65536), byteOf (n / 256), byteOf n]

/-- A 32-bit value in four bytes. -/
def beBytes4 (n : Nat) : List Byte := [byteOf (n / 16777216), byteOf (n / 65536), byteOf (n / 256), byteOf n]

/-- A flag as a byte. -/
def flagByte (b : Bool) : Byte := if b then 1 else 0

end Sys2Proof.Machine
end

