-- ==== Sys2Proof/Machine/Flags.lean ====
section
/-! DEFINITION. The codes and flag bytes the management link reports: status codes (R167), state codes, event kinds
(R172), presence bytes, the flags of READ_STATUS (R168) and of READ_PORT (R135). -/

namespace Sys2Proof.Machine

/-- The status codes (R167). -/
def Status.byte : Status → Byte
  | .ok => 0x00
  | .busy => 0x01
  | .badFrame => 0x02
  | .badArgument => 0x03
  | .state => 0x04
  | .full => 0x05
  | .duplicate => 0x06
  | .notFound => 0x07
  | .noBudget => 0x08
  | .slotKind => 0x09
  | .inUse => 0x0A
  | .overlap => 0x0B
  | .slotCount => 0x0C

/-- The event kind codes (R172). -/
def EventKind.byte : EventKind → Byte
  | .lockAcquired => 0x01
  | .lockHoldover => 0x02
  | .lockLost => 0x03
  | .lockJitter => 0x04
  | .geometryApplied => 0x05
  | .mapApplied => 0x06
  | .mapCancelled => 0x07
  | .resActive => 0x08
  | .resFreed => 0x09
  | .resOverbooked => 0x0A
  | .resReinstated => 0x0B
  | .streamSilent => 0x0C
  | .resResumed => 0x0D
  | .resFaulted => 0x0E
  | .overrunDrop => 0x0F
  | .staleDrop => 0x10
  | .unreservedDrop => 0x11
  | .lateMotion => 0x12
  | .holdListFull => 0x13
  | .holdExpired => 0x14
  | .portFailsafe => 0x15
  | .portRecovered => 0x16
  | .memCorrected => 0x17
  | .memUncorrectable => 0x18
  | .readTimeout => 0x19
  | .lateResponse => 0x1A

/-- The lock state codes (R34). -/
def LockState.byte : LockState → Byte
  | .free => 0
  | .acquiring => 1
  | .aligning => 2
  | .locked => 3
  | .holdover => 4

/-- The entry state codes (R62). -/
def EntryState.byte : EntryState → Byte
  | .free => 0
  | .pending => 1
  | .active => 2
  | .releasing => 3
  | .faulted => 4

/-- The gate state codes (R114). -/
def GateState.byte : GateState → Byte
  | .transparent => 0
  | .held => 1
  | .enforcing => 2
  | .failsafe => 3

/-- The failsafe cause codes (R114). -/
def FailsafeCause.byte : FailsafeCause → Byte
  | .none => 0
  | .lockLost => 1
  | .memoryError => 2

/-- The rate codes (R49). -/
def Rate.byte : Rate → Byte
  | .rate10M => 0
  | .rate100M => 1
  | .rate1G => 2
  | .rate2G5 => 3

/-- The fail mode codes (R116). -/
def FailMode.byte : FailMode → Byte
  | .passAll => 0
  | .motionOnly => 1

/-- The unreserved policy codes (R116). -/
def UnreservedPolicy.byte : UnreservedPolicy → Byte
  | .asGeneral => 0
  | .drop => 1

/-- A weight of a flags byte, where its flag is set. -/
def weight (b : Bool) (n : Nat) : Nat := if b then n else 0

/-- The presence byte of an event entry (R172). -/
def EventEntry.presence (e : EventEntry) : Byte :=
  byteOf (weight e.port.isSome 1 + weight e.index.isSome 2 + weight e.tag.isSome 4)

/-- The ten bytes of an event entry (R172). -/
def EventEntry.bytes (e : EventEntry) : List Byte :=
  [e.kind.byte, e.presence, byteOf ((e.port.map Fin.val).getD 0), byteOf ((e.index.map Fin.val).getD 0)]
    ++ beBytes2 ((e.tag.map BitVec.toNat).getD 0) ++ beBytes2 e.cycle.toNat ++ beBytes2 e.detail.toNat

/-- The flags byte of READ_STATUS (R168). -/
def statusFlags (staged busy faulted jitter overflow : Bool) : Byte :=
  byteOf (weight staged 1 + weight busy 2 + weight faulted 4 + weight jitter 8 + weight overflow 16)

/-- The map flags byte of READ_PORT (R135). -/
def mapFlags (m : PortMaps) : Byte :=
  byteOf (weight m.bad 1 + weight m.waiting.isSome 2 + weight ((m.waiting.map PendingMap.committed).getD false) 4)

/-- The fourteen settings bytes of READ_PORT, in the order and coding of SET_PORT (R135). -/
def Settings.bytes (c : Settings) : List Byte :=
  [c.rate.byte, byteOf c.extra] ++ beBytes2 c.lead ++ beBytes2 c.guard ++ beBytes2 c.maxFrame
    ++ [c.failMode.byte, flagByte c.requireLock, flagByte c.reclaim, c.unreserved.byte, byteOf c.stale, byteOf c.silence]

/-- The ten port counters in forty bytes, in the order of R134. -/
def PortCounters.bytes (c : PortCounters) : List Byte :=
  beBytes4 c.motionPassed.toNat ++ beBytes4 c.generalPassed.toNat ++ beBytes4 c.reclaimed.toNat
    ++ beBytes4 c.motionHeld.toNat ++ beBytes4 c.generalHeld.toNat ++ beBytes4 c.overrunDrops.toNat
    ++ beBytes4 c.staleDrops.toNat ++ beBytes4 c.unreservedDrops.toNat ++ beBytes4 c.lateMotion.toNat
    ++ beBytes4 c.missedSlots.toNat

/-- The bytes of the response record as they are shifted out (R163). -/
def ResponseRecord.bytes (r : ResponseRecord) : List Byte :=
  [r.status.byte, r.code, byteOf r.result.length] ++ r.result

/-- Bit n of a record being shifted out, each byte most significant bit first, 0 beyond the record (R161, R163). -/
def ResponseRecord.bit (r : ResponseRecord) (n : Nat) : Bool :=
  match r.bytes[n / 8]? with
  | some b => b.getLsbD (7 - n % 8)
  | none => false

end Sys2Proof.Machine
end

