-- ==== Sys2Proof/Machine/Ops.lean ====
section
/-! DEFINITION. The named operations over the parts of State that the blocks share: reads and updates by index, table
memory words, saturating counts, the offer of an event, the answer of a command, and the leaving of enforcement. -/

namespace Sys2Proof.Machine

/-- A count that stops at its largest value (00, 'Conventions'). -/
def satInc {w : Nat} (c : BitVec w) : BitVec w := if c = BitVec.allOnes w then c else c + 1

/-- A count that grows by n and stops at its largest value. -/
def satAdd {w : Nat} (c : BitVec w) (n : Nat) : BitVec w := BitVec.ofNat w (min (c.toNat + n) (2 ^ w - 1))

/-- The ports, in ascending order. -/
def allPorts : List PortIndex := List.finRange 8

/-- The entry indices, in ascending order. -/
def allEntries : List EntryIndex := List.finRange 64

/-- The ring map indices, in ascending order. -/
def allRings : List RingIndex := List.finRange 40

/-! ### Parts by index -/

/-- The gate of port p. -/
def State.port (s : State) (p : PortIndex) : Port := s.ports.get p

/-- Port p changed by f. -/
def State.updPort (s : State) (p : PortIndex) (f : Port → Port) : State :=
  { s with ports := s.ports.set p.val (f (s.ports.get p)) p.isLt }

/-- The map state of port p. -/
def State.mapsOf (s : State) (p : PortIndex) : PortMaps := s.maps.get p

/-- The map state of port p replaced. -/
def State.setMaps (s : State) (p : PortIndex) (m : PortMaps) : State := { s with maps := s.maps.set p.val m p.isLt }

/-- Reservation entry i, less what table memory holds. -/
def State.entry (s : State) (i : EntryIndex) : Entry := s.table.get i

/-- Entry i changed by f. -/
def State.updEntry (s : State) (i : EntryIndex) (f : Entry → Entry) : State :=
  { s with table := s.table.set i.val (f (s.table.get i)) i.isLt }

/-- Entry i put into a state. -/
def State.setEntryState (s : State) (i : EntryIndex) (st : EntryState) : State := s.updEntry i (fun e => { e with state := st })

/-- The valid flag of ring map entry e. -/
def State.ringValid (s : State) (e : RingIndex) : Bool := s.path.ringValid.get e

/-- The valid flag of ring map entry e replaced. -/
def State.setRingValid (s : State) (e : RingIndex) (v : Bool) : State :=
  { s with path := { s.path with ringValid := s.path.ringValid.set e.val v e.isLt } }

/-- Port p's counters changed by f. -/
def State.countPort (s : State) (p : PortIndex) (f : PortCounters → PortCounters) : State :=
  s.updPort p (fun q => { q with counters := f q.counters })

/-! ### Table memory words -/

/-- Table memory replaced. -/
def State.setMemory (s : State) (m : Memory) : State := { s with prot := { s.prot with memory := m } }

/-- Word k as it stands in the memory, wrong bits included. -/
def State.word (s : State) (k : Nat) : TableWord := s.prot.memory.read k

/-- The data of word k as the checker delivers it once the word has passed the checker (R155: the reader goes on as
though the state the change leaves had stood before it began). -/
def State.data (s : State) (k : Nat) : Word := (s.word k).stored

/-- Word k written with valid check bits. -/
def State.putWord (s : State) (k : Nat) (d : Word) : State := s.setMemory (s.prot.memory.write k (cleanWord d))

/-- Words written in turn, each with valid check bits. -/
def State.putWords (s : State) : List (Nat × Word) → State
  | [] => s
  | (k, d) :: rest => (s.putWord k d).putWords rest

/-- The fields of entry i in table memory. -/
def State.reservation (s : State) (i : EntryIndex) : Reservation :=
  unpackReservation (s.data (entryWord i 0)) (s.data (entryWord i 1)) (s.data (entryWord i 2)) (s.data (entryWord i 3))

/-- All four words of entry i written (R153: ADMIT). -/
def State.putReservation (s : State) (i : EntryIndex) (r : Reservation) : State :=
  s.putWords [(entryWord i 0, r.word0), (entryWord i 1, r.word1), (entryWord i 2, r.word2), (entryWord i 3, r.word3)]

/-- The second word of entry i written with changed fields. -/
def State.putUse (s : State) (i : EntryIndex) (f : Reservation → Reservation) : State :=
  s.putWord (entryWord i 1) (f (s.reservation i)).word1

/-- The cost of entry i written. -/
def State.putCost (s : State) (i : EntryIndex) (cost : BitVec 23) : State :=
  s.putWord (entryWord i 2) { s.reservation i with cost }.word2

/-- All four words of entry i at data 0 (R156). -/
def State.blankReservation (s : State) (i : EntryIndex) : State :=
  s.putWords [(entryWord i 0, 0), (entryWord i 1, 0), (entryWord i 2, 0), (entryWord i 3, 0)]

/-- Ring map entry e in table memory. -/
def State.ring (s : State) (e : RingIndex) : Ring := unpackRing (s.data (ringWord e 0)) (s.data (ringWord e 1))

/-- The three words of port p's active map written. -/
def State.putActive (s : State) (p : PortIndex) (kinds : List SlotKind) : State :=
  s.putWords [(activeWord p 0, mapWord kinds 0), (activeWord p 1, mapWord kinds 1), (activeWord p 2, mapWord kinds 2)]

/-- The three words of port p's pending map written. -/
def State.putPending (s : State) (p : PortIndex) (kinds : List SlotKind) : State :=
  s.putWords [(pendingWord p 0, mapWord kinds 0), (pendingWord p 1, mapWord kinds 1), (pendingWord p 2, mapWord kinds 2)]

/-- The kind of slot k in port p's active map; a BAD map reads CLOSED in every slot (R44). -/
def State.activeKind (s : State) (p : PortIndex) (k : Nat) : SlotKind :=
  if (s.mapsOf p).bad then .closed else kindInWord (s.data (activeWord p (k / 16))) (k % 16)

/-- The kind of slot k in port p's pending map. -/
def State.pendingKind (s : State) (p : PortIndex) (k : Nat) : SlotKind :=
  kindInWord (s.data (pendingWord p (k / 16))) (k % 16)

/-! ### The cycle -/

/-- The current cycle number, 0 while STOPPED (R2, R15). -/
def State.cycleNumber (s : State) : CycleNumber := (s.timer.map Timer.cycle).getD 0

/-- The order choice n places ahead (log entries 3 and 27). -/
def State.choice (s : State) (n : Nat) : Bool :=
  match s.choices.given[n]? with
  | some c => c
  | none => Config.orderChoice (s.choices.used + n)

/-- The next n order choices used up. -/
def State.dropChoices (s : State) (n : Nat) : State :=
  { s with choices := ⟨s.choices.given.drop n, s.choices.used + n⟩ }

/-! ### Entries -/

/-- An entry whose cost is counted and whose fields stand: PENDING, ACTIVE or RELEASING. -/
def EntryState.inUse : EntryState → Bool
  | .pending | .active | .releasing => true
  | .free | .faulted => false

/-- An entry the gate's lookup may return: ACTIVE or RELEASING (R84). -/
def EntryState.inForce : EntryState → Bool
  | .active | .releasing => true
  | .free | .pending | .faulted => false

/-- Entry i is PENDING, ACTIVE or RELEASING. -/
def State.inUse (s : State) (i : EntryIndex) : Bool := (s.entry i).state.inUse

/-- Some entry is not FREE (R3). -/
def State.anyInUse (s : State) : Bool := allEntries.any (fun i => decide ((s.entry i).state ≠ .free))

/-- Some entry is FAULTED (R40, R118). -/
def State.anyFaulted (s : State) : Bool := allEntries.any (fun i => decide ((s.entry i).state = .faulted))

/-! ### Events (R174 to R176) -/

/-- The limit mark of an offer, for the four limited kinds (R175). -/
def EventEntry.limit (e : EventEntry) : Option LimitMark :=
  match e.kind with
  | .unreservedDrop => e.port.map .unreservedDrop
  | .staleDrop => e.index.map .staleDrop
  | .overrunDrop => e.index.map .overrunDrop
  | .holdListFull => some .holdListFull
  | .lockAcquired | .lockHoldover | .lockLost | .lockJitter | .geometryApplied | .mapApplied | .mapCancelled
  | .resActive | .resFreed | .resOverbooked | .resReinstated | .streamSilent | .resResumed | .resFaulted
  | .lateMotion | .holdExpired | .portFailsafe | .portRecovered | .memCorrected | .memUncorrectable
  | .readTimeout | .lateResponse => none

/-- The mask enables the kind (R179: bit k enables the kind whose code is k). -/
def EventQueue.enabled (q : EventQueue) (k : EventKind) : Bool := q.mask.getLsbD k.byte.toNat

/-- The offer's limit mark is set. -/
def EventQueue.marked (q : EventQueue) (e : EventEntry) : Bool :=
  match e.limit with
  | some m => decide (m ∈ q.marks)
  | none => false

/-- The queue takes an offer: the three tests of R174, in order. -/
def EventQueue.offer (q : EventQueue) (e : EventEntry) : EventQueue :=
  if q.enabled e.kind = false then q
  else if q.marked e then q
  else if 32 ≤ q.queue.length then { q with overflow := true }
  else { q with queue := q.queue ++ [e], marks := e.limit.toList ++ q.marks }

/-- A block raises an event. -/
def State.raise (s : State) (e : EventEntry) : State := { s with events := s.events.offer e }

/-- The low 16 bits of a cycle number. -/
def lowCycle (c : CycleNumber) : BitVec 16 := c.setWidth 16

/-- A 16-bit detail. -/
def detail (n : Nat) : BitVec 16 := BitVec.ofNat 16 n

/-- A detail that stops at FFFFh. -/
def cappedDetail (n : Nat) : BitVec 16 := BitVec.ofNat 16 (min n 0xFFFF)

/-! ### Answers (R163) -/

/-- The response record replaced. -/
def State.respond (s : State) (code : Byte) (status : Status) (result : List Byte) : State :=
  { s with link := { s.link with record := ⟨status, code, result⟩ } }

/-! ### The hold list -/

/-- The records that satisfy `keep` stay, in their order (R138). -/
def State.keepHolds (s : State) (keep : HoldRecord → Bool) : State :=
  { s with holds := { s.holds with records := s.holds.records.filter keep } }

/-- The record of a descriptor address is removed, if there is one (R143, R144). -/
def State.removeHold (s : State) (a : Address) : State := s.keepHolds (fun r => decide (r.address ≠ a))

/-- An entry report: every record of the entry is removed (R145). -/
def State.removeEntryHolds (s : State) (i : EntryIndex) : State := s.keepHolds (fun r => decide (r.entry ≠ i))

/-- A port report: every record of the port is removed (R146). -/
def State.removePortHolds (s : State) (p : PortIndex) : State := s.keepHolds (fun r => decide (r.port ≠ p))

/-! ### Leaving enforcement (R121) -/

/-- What a gate that leaves ENFORCING does: its records go, its busy-until becomes absent. -/
def State.leaveEnforcing (s : State) (p : PortIndex) : State :=
  (s.removePortHolds p).updPort p (fun q => { q with busy := none })

/-- The offer of PORT_FAILSAFE (R136). `again`: the port was in FAILSAFE with another cause. -/
def failsafeEvent (s : State) (p : PortIndex) (cause : FailsafeCause) (again : Bool) : EventEntry :=
  { kind := .portFailsafe, port := some p, index := none, tag := none, cycle := lowCycle s.cycleNumber,
    detail := detail (weight again 0x100 + cause.byte.toNat) }

/-- A gate enters FAILSAFE, or takes another cause in it, and raises PORT_FAILSAFE. -/
def State.toFailsafe (s : State) (p : PortIndex) (cause : FailsafeCause) : State :=
  let again := decide ((s.port p).gate = .failsafe)
  let s := if (s.port p).gate = .enforcing then s.leaveEnforcing p else s
  let s := s.updPort p (fun q => { q with gate := .failsafe, cause })
  s.raise (failsafeEvent s p cause again)

/-- A gate concerned by an uncorrectable error (R123, R157). -/
def State.memoryError (s : State) (p : PortIndex) : State :=
  match (s.port p).gate, (s.port p).cause with
  | .enforcing, _ => s.toFailsafe p .memoryError
  | .failsafe, .memoryError => s
  | .failsafe, _ => s.toFailsafe p .memoryError
  | .transparent, _ => s
  | .held, _ => s

end Sys2Proof.Machine
end

