-- ==== Sys2Proof/Machine/Link.lean ====
section
/-! DEFINITION. The management link (10): the ends of a transaction, the serial clock, the way a frame is taken, and
the commands NOP, TRANSACTION_START and MGT_SCK_EDGE. -/

namespace Sys2Proof.Machine

/-- MGT_CSN is high and the link IDLE with nothing received (R161: no state from one transaction to the next but the
response record; log entry 7). -/
def State.endTransaction (s : State) : State :=
  { s with link := { csnLow := false, receiving := false, buffer := [], count := 0, bits := [], shifted := 0,
                     record := s.link.record } }

/-- A rising edge of MGT_CSN ends a transaction of the device: the reset pin is not asserted, and the chip select did
not fall before its release (R162). With MGT_CSN high, a management command stands for a whole transaction (log entry 6). -/
def State.takesFrame (s : State) : Bool := !s.resetAsserted && (s.link.receiving || !s.link.csnLow)

/-- A well-formed command other than NOP and READ_STATUS is taken (R165): BUSY during the initialisation pass, else
handed to its owning block. -/
def State.command (s : State) (code : Byte) (body : State → State) : State :=
  if s.takesFrame then
    (if s.prot.busy then s.endTransaction.respond code .busy [] else body s.endTransaction)
  else s.endTransaction

/-- A frame that fails the shape checks (R163, R164): BAD_FRAME with the frame's first byte. -/
def State.badFrame (s : State) (first : Byte) : State :=
  if s.takesFrame then s.endTransaction.respond first .badFrame [] else s.endTransaction

/-- NOP (R166): the transaction ends, and no state changes. -/
def nopTaken (s : State) : State := s.endTransaction

/-- NOP. -/
def execNop (s : State) : Host.Outcome State Fault Refusal := .next (nopTaken s)

/-- TRANSACTION_START: MGT_CSN falls (R161). While the reset pin is asserted the link ignores it (R162); with MGT_CSN
low already there is no falling edge (log entry 23). -/
def transactionStart (s : State) : State :=
  if s.link.csnLow then s
  else if s.resetAsserted then { s with link := { s.link with csnLow := true } }
  else
    { s with link := { csnLow := true, receiving := true, buffer := [], count := 0, bits := [], shifted := 0,
                       record := s.link.record } }

/-- TRANSACTION_START. -/
def execTransactionStart (s : State) : Host.Outcome State Fault Refusal := .next (transactionStart s)

/-- Eight sampled bits as a byte, most significant first (R161). -/
def byteOfBits (bits : List Bool) : Byte := bits.foldl (fun b d => (b <<< 1) ||| (BitVec.ofBool d).setWidth 8) 0

/-- One whole byte is received: stored where it is among the first 62, and counted up to 255 (R161). -/
def Link.receiveByte (l : Link) (b : Byte) : Link :=
  { l with buffer := if l.buffer.length < 62 then l.buffer ++ [b] else l.buffer, count := min (l.count + 1) 255, bits := [] }

/-- An edge of MGT_SCK in RECEIVING (R161): a rising edge samples MGT_DIN, every eighth completes a byte; a falling edge
moves MGT_DOUT to the next bit of the record. -/
def Link.sckEdge (l : Link) (e : SckEdge) : Link :=
  match e with
  | .rising din =>
      if 7 ≤ l.bits.length then l.receiveByte (byteOfBits (l.bits ++ [din])) else { l with bits := l.bits ++ [din] }
  | .falling => { l with shifted := l.shifted + 1 }

/-- MGT_SCK_EDGE: outside a transaction of the device it is ignored (R161, R162). -/
def sckEdge (e : SckEdge) (s : State) : State :=
  if s.resetAsserted || !s.link.receiving then s else { s with link := s.link.sckEdge e }

/-- MGT_SCK_EDGE. -/
def execMgtSckEdge (edge : SckEdge) (s : State) : Host.Outcome State Fault Refusal := .next (sckEdge edge s)

/-- The level of INT_N, high or low (R178): low while the queue holds an entry and the enable is on, high while the
reset pin is asserted. -/
def State.intN (s : State) : Bool := s.resetAsserted || !(s.events.enable && !s.events.queue.isEmpty)

/-- MGT_DOUT: high impedance (none) outside a transaction, else the present bit of the response record (R161, R163). -/
def State.mgtDout (s : State) : Option Bool :=
  if !s.resetAsserted && s.link.receiving then some (s.link.record.bit s.link.shifted) else none

end Sys2Proof.Machine
end

