-- ==== Sys2Proof/Machine/Protection.lean ====
section
/-! DEFINITION. Table memory protection (09): the checker every read passes through, what an uncorrectable word costs
its owner and the gates, the scrubber, and the words each kind of reader consults (R153). -/

namespace Sys2Proof.Machine

/-- The port an event about word k carries: the owning port of a map or ring word (R160). -/
def wordPort (k : Nat) : Option PortIndex :=
  match occupant k with
  | .activeMap p _ => some p
  | .pendingMap p _ => some p
  | .ring e => some (ringPort e)
  | .entry _ => none
  | .unused => none

/-- The entry an event about word k carries (R160). -/
def wordEntry (k : Nat) : Option EntryIndex :=
  match occupant k with
  | .entry i => some i
  | _ => none

/-- The offer of MEM_CORRECTED or MEM_UNCORRECTABLE about word k (R160). -/
def wordEvent (s : State) (kind : EventKind) (k : Nat) (extra : Nat) : EventEntry :=
  { kind, port := wordPort k, index := wordEntry k, tag := none, cycle := lowCycle s.cycleNumber, detail := detail (k + extra) }

/-- N of the active geometry, 0 while STOPPED. -/
def State.slotCount (s : State) : Nat := (s.timer.map (fun c => c.geometry.slots)).getD 0

/-- An entry in use is found uncorrectable (R77): FAULTED, its words rewritten, its records removed, RES_FAULTED. -/
def State.faultEntry (s : State) (i : EntryIndex) : State :=
  let before := (s.entry i).state
  let s := s.setEntryState i .faulted
  let s := s.blankReservation i
  let s := s.removeEntryHolds i
  s.raise { kind := .resFaulted, port := none, index := some i, tag := none, cycle := lowCycle s.cycleNumber,
            detail := detail before.byte.toNat }

/-- A used word of an active map is found uncorrectable (R44): the BAD mark, and every kind CLOSED. -/
def State.markBad (s : State) (p : PortIndex) : State :=
  let s := s.setMaps p { s.mapsOf p with bad := true }
  s.putActive p (List.replicate 48 .closed)

/-- The offer of MAP_CANCELLED (R47). -/
def cancelEvent (s : State) (p : PortIndex) (cause : Nat) (committed : Bool) : EventEntry :=
  { kind := .mapCancelled, port := some p, index := none, tag := none, cycle := lowCycle s.cycleNumber,
    detail := detail (weight committed 0x100 + cause) }

/-- A used word of a present pending map is found uncorrectable (R45): the map is lost whole. -/
def State.losePending (s : State) (p : PortIndex) (m : PendingMap) : State :=
  let s := s.setMaps p { s.mapsOf p with waiting := none }
  let s := s.putPending p []
  s.raise (cancelEvent s p 2 m.committed)

/-- A valid ring map entry is found uncorrectable (R105): invalid, both words rewritten. -/
def State.loseRing (s : State) (e : RingIndex) : State :=
  (s.setRingValid e false).putWords [(ringWord e 0, 0), (ringWord e 1, 0)]

/-- The owner's action on an uncorrectable word, and the gates it concerns (R156, R157). -/
def State.ownerAction (s : State) (k : Nat) : State :=
  match occupant k with
  | .entry i =>
      if s.inUse i then allPorts.foldl State.memoryError (s.faultEntry i) else s.blankReservation i
  | .activeMap p part =>
      if 16 * part < s.slotCount then (s.markBad p).memoryError p else s.putWord k 0
  | .pendingMap p part =>
      match (s.mapsOf p).waiting with
      | some m => if 16 * part < m.length ∧ s.timer.isSome then s.losePending p m else s.putWord k 0
      | none => s.putWord k 0
  | .ring e =>
      if s.ringValid e then
        (if isReceiveRing e then s.loseRing e else (s.loseRing e).memoryError (ringPort e))
      else s.putWord k 0
  | .unused => s.putWord k 0

/-- A read of word k passes the checker (R154, R155). `scrubbing` marks the scrubber's reads (R160). -/
def State.checkWord (scrubbing : Bool) (s : State) (k : Nat) : State :=
  match (s.word k).verdict with
  | .clean => s
  | .corrected d =>
      let s := s.putWord k d
      let s := { s with prot := { s.prot with corrected := satInc s.prot.corrected } }
      s.raise (wordEvent s .memCorrected k 0)
  | .lost => (s.raise (wordEvent s .memUncorrectable k (weight scrubbing 0x8000))).ownerAction k

/-- A reader passes the words it consults through the checker, one by one. -/
def State.checkWords (s : State) (ks : List Nat) : State := ks.foldl (State.checkWord false) s

/-! ### What each reader consults (R153). The order of the words is the model's (log entry 15). -/

/-- The four words of an entry. -/
def entryWords (i : EntryIndex) : List Nat := [entryWord i 0, entryWord i 1, entryWord i 2, entryWord i 3]

/-- The words of every entry whose state satisfies `which`. -/
def State.wordsOfEntries (s : State) (which : EntryState → Bool) : List Nat :=
  (allEntries.filter (fun i => which (s.entry i).state)).flatMap entryWords

/-- The reader consults every entry whose state satisfies `which`. -/
def State.checkEntries (s : State) (which : EntryState → Bool) : State := s.checkWords (s.wordsOfEntries which)

/-- The parts of a map of n kinds that hold any of them. -/
def usedParts (n : Nat) : List Nat := (List.range 3).filter (fun j => decide (16 * j < n))

/-- The reader consults the used words of port p's active map. -/
def State.checkActive (s : State) (p : PortIndex) : State :=
  s.checkWords ((usedParts s.slotCount).map (activeWord p))

/-- The reader consults the used words of port p's pending map, where one is present. -/
def State.checkPending (s : State) (p : PortIndex) : State :=
  match (s.mapsOf p).waiting with
  | some m => s.checkWords ((usedParts m.length).map (pendingWord p))
  | none => s

/-- The reader consults ring map entry e, where it is valid (R102: only a valid entry's words are read). -/
def State.checkRing (s : State) (e : RingIndex) : State :=
  if s.ringValid e then s.checkWords [ringWord e 0, ringWord e 1] else s

/-- The scrub of one slot boundary (R159), in which word k is the one read. -/
def State.scrubWord (s : State) (k : Nat) : State :=
  let s := s.checkWord true k
  { s with prot := { s.prot with scrub := s.prot.scrub + 1 } }

/-- The scrub of one slot boundary (R159): the word at the scrub pointer. -/
def State.scrubOne (s : State) : State := s.scrubWord s.prot.scrub.val

/-! ### The missed-slot check before the scrub of the same boundary (R159, 'Other first')

R153 has the check find an uncorrectable word of an ACTIVE entry itself; a row of R159 has it run on the entry as it stood,
and leaves the word to the scrub. An order choice tells which; another tells whether a word that the check rewrites on its
way is clean for the scrub (R63) or not (that row of R159). Both are free (log entry 33). Every other reader finds the
word. -/

/-- Which bits of word k are wrong, replaced; its data last written stays. -/
def State.setFlips (s : State) (k : Nat) (flips : BitVec 39) : State :=
  s.setMemory (s.prot.memory.write k ⟨(s.word k).data, flips⟩)

/-- The ACTIVE entry whose word at the scrub pointer is uncorrectable. -/
def State.struckEntry (s : State) : Option EntryIndex :=
  match (s.word s.prot.scrub.val).verdict, occupant s.prot.scrub.val with
  | .lost, .entry i => if (s.entry i).state = .active then some i else none
  | _, _ => none

/-- The missed-slot check `f` before the scrub. Where it is `asStood`, the scrub's uncorrectable word of an ACTIVE entry is
read as last written, and its wrong bits are there again after the check, unless the check has made the entry FAULTED; in a
word that the check has rewritten, where `bitsReturn`. -/
def State.beforeScrub (s : State) (asStood bitsReturn : Bool) (f : State → State) : State :=
  match s.struckEntry, asStood with
  | some i, true =>
      let k := s.prot.scrub.val
      let stood := s.setFlips k 0
      let t := f stood
      if (t.entry i).state = .faulted ∨ (bitsReturn = false ∧ t.word k ≠ stood.word k) then t else t.setFlips k (s.word k).flips
  | _, _ => f s

end Sys2Proof.Machine
end

