-- ==== Sys2Proof/Machine/SlotMaps.lean ====
section
/-! DEFINITION. The slot map store (03) and its commands LOAD_MAP, COMMIT_MAP, CANCEL_MAP. -/

namespace Sys2Proof.Machine

/-- The pending map of port p that a cycle boundary would put in force: committed and of the active length (R38, R42). -/
def State.appliesNext (s : State) (p : PortIndex) : Bool :=
  match (s.mapsOf p).waiting, s.timer with
  | some m, some c => m.committed && decide (m.length = c.geometry.slots)
  | _, _ => false

/-- The kind of slot k in port p's next-cycle map (R38). -/
def State.nextKind (s : State) (p : PortIndex) (k : Nat) : SlotKind :=
  if s.appliesNext p then s.pendingKind p k else s.activeKind p k

/-- What a geometry that becomes active does to one port's maps (R37): all OPEN, the BAD mark cleared, a pending map
discarded with MAP_CANCELLED, cause 1. -/
def State.openMap (n : Nat) (s : State) (p : PortIndex) : State :=
  let m := s.mapsOf p
  let s := (s.setMaps p ⟨false, none⟩).putActive p (List.replicate n .openSlot)
  match m.waiting with
  | some w => s.raise (cancelEvent s p 1 w.committed)
  | none => s

/-- How many of the kinds are this one. -/
def countKind (kinds : List SlotKind) (k : SlotKind) : Nat := kinds.countP (fun x => decide (x = k))

/-- The offer of MAP_APPLIED (R47): RESERVED slots in the high byte, CLOSED slots in the low. -/
def appliedEvent (s : State) (p : PortIndex) (kinds : List SlotKind) : EventEntry :=
  { kind := .mapApplied, port := some p, index := none, tag := none, cycle := lowCycle s.cycleNumber,
    detail := detail (256 * countKind kinds .reserved + countKind kinds .closed) }

/-- The pending map of port p read out as a list of its kinds. -/
def State.pendingKinds (s : State) (p : PortIndex) (n : Nat) : List SlotKind := (List.range n).map (s.pendingKind p)

/-- The cycle boundary's work on one port (R42): a committed pending map of the active length becomes the active map.
Its words are read through the checker first, and a map lost there is not applied (R45; log entries 16 and 33). -/
def State.applyMap (s : State) (p : PortIndex) : State :=
  if s.appliesNext p then
    let s := s.checkPending p
    match (s.mapsOf p).waiting with
    | some m =>
        let kinds := s.pendingKinds p m.length
        let s := (s.setMaps p ⟨false, none⟩).putActive p kinds
        s.raise (appliedEvent s p kinds)
    | none => s
  else s

/-! ### LOAD_MAP (R39) -/

/-- The slot count a map must match: the staged N where a geometry is staged, else the active N (R39). -/
def Timer.mapLength (c : Timer) : Nat := (c.staged.getD c.geometry).slots

/-- LOAD_MAP's result byte: what was replaced (R39). -/
def replacedByte (m : Option PendingMap) : Byte :=
  match m with
  | none => 0x00
  | some w => if w.committed then 0x02 else 0x01

/-- The checks and effect of LOAD_MAP (R39). -/
def loadMapBody (port : Byte) (kinds : List Byte) (s : State) : State :=
  match s.timer with
  | none => s.respond 0x20 .state []
  | some c =>
      match portOperand port, kindsOperand kinds with
      | some p, some ks =>
          if ks.length = c.mapLength then
            let old := (s.mapsOf p).waiting
            let s := (s.putPending p ks).setMaps p { s.mapsOf p with waiting := some ⟨ks.length, false⟩ }
            s.respond 0x20 .ok [replacedByte old]
          else s.respond 0x20 .slotCount []
      | _, _ => s.respond 0x20 .badArgument []

/-- LOAD_MAP taken by the link. A list that no LOAD_MAP frame can carry fails check 5 of R164 (log entry 24). -/
def loadMapTaken (port : Byte) (kinds : List Byte) (s : State) : State :=
  if 1 ≤ kinds.length ∧ kinds.length ≤ 48 then s.command 0x20 (loadMapBody port kinds) else s.badFrame 0x20

/-- LOAD_MAP. -/
def execLoadMap (port : Byte) (kinds : List Byte) (s : State) : Host.Outcome State Fault Refusal :=
  .next (loadMapTaken port kinds s)

/-! ### COMMIT_MAP (R40) -/

/-- An entry of port p holds a slot that is not RESERVED in the pending map m (R40, check 3). -/
def State.losesSlot (s : State) (p : PortIndex) (m : PendingMap) (i : EntryIndex) : Bool :=
  s.inUse i && decide ((s.reservation i).port = p)
    && !(decide ((s.reservation i).slot.toNat < m.length)
          && decide (s.pendingKind p (s.reservation i).slot.toNat = .reserved))

/-- The checks and effect of COMMIT_MAP (R40), the pending map read first (R45; log entry 19). -/
def commitMapBody (port : Byte) (s : State) : State :=
  match portOperand port with
  | none => s.respond 0x21 .badArgument []
  | some p =>
      let s := s.checkPending p
      match (s.mapsOf p).waiting with
      | none => s.respond 0x21 .notFound []
      | some m =>
          let s := s.checkEntries EntryState.inUse
          if s.anyFaulted || allEntries.any (s.losesSlot p m) then s.respond 0x21 .inUse []
          else (s.setMaps p { s.mapsOf p with waiting := some { m with committed := true } }).respond 0x21 .ok []

/-- COMMIT_MAP taken by the link. -/
def commitMapTaken (port : Byte) (s : State) : State := s.command 0x21 (commitMapBody port)

/-- COMMIT_MAP. -/
def execCommitMap (port : Byte) (s : State) : Host.Outcome State Fault Refusal := .next (commitMapTaken port s)

/-! ### CANCEL_MAP (R41) -/

/-- The checks and effect of CANCEL_MAP (R41). -/
def cancelMapBody (port : Byte) (s : State) : State :=
  match portOperand port with
  | none => s.respond 0x22 .badArgument []
  | some p =>
      match (s.mapsOf p).waiting with
      | none => s.respond 0x22 .notFound []
      | some m => (s.setMaps p { s.mapsOf p with waiting := none }).respond 0x22 .ok [flagByte m.committed]

/-- CANCEL_MAP taken by the link. -/
def cancelMapTaken (port : Byte) (s : State) : State := s.command 0x22 (cancelMapBody port)

/-- CANCEL_MAP. -/
def execCancelMap (port : Byte) (s : State) : Host.Outcome State Fault Refusal := .next (cancelMapTaken port s)

end Sys2Proof.Machine
end

