-- ==== Sys2Proof/Machine/Reservations.lean ====
section
/-! DEFINITION. The reservation table (05): the re-evaluation walk, the boundary work, what the gates ask of it, and its
commands ADMIT, RELEASE, PURGE, READ_RESERVATION. -/

namespace Sys2Proof.Machine

/-- The offer of an event about entry i with fields r (R91). -/
def entryEvent (kind : EventKind) (i : EntryIndex) (r : Reservation) (cycle : CycleNumber) (d : BitVec 16) : EventEntry :=
  { kind, port := some r.port, index := some i, tag := some r.tag, cycle := lowCycle cycle, detail := d }

/-! ### The walk (R79 to R81) -/

/-- The entry lies on this port and slot and its cost is counted there. -/
def State.inSlot (s : State) (p : PortIndex) (slot : Nat) (i : EntryIndex) : Bool :=
  s.inUse i && decide ((s.reservation i).port = p) && decide ((s.reservation i).slot.toNat = slot)

/-- The present cost of entry i, under its port's settings (R58). -/
def State.costOf (s : State) (i : EntryIndex) : Nat :=
  let r := s.reservation i
  entryCost (s.port r.port).settings r.frames.toNat r.maxLength.toNat

/-- A visit that finds the entry fitting: the flag is cleared, RES_REINSTATED where it was set (R81). -/
def State.fitEntry (s : State) (i : EntryIndex) (cost : Nat) : State :=
  let r := s.reservation i
  let s := s.putUse i (fun r => { r with overbooked := false })
  if r.overbooked then s.raise (entryEvent .resReinstated i r s.cycleNumber (cappedDetail cost)) else s

/-- A visit that finds the entry not fitting: the flag is set, RES_OVERBOOKED and the entry report where it was clear
(R81). -/
def State.overbookEntry (s : State) (i : EntryIndex) (cost : Nat) : State :=
  let r := s.reservation i
  let s := s.putUse i (fun r => { r with overbooked := true })
  if r.overbooked then s
  else (s.raise (entryEvent .resOverbooked i r s.cycleNumber (cappedDetail cost))).removeEntryHolds i

/-- One step of a walk (R79): the running sum and the state. The cost is tested and reported whole; the field of 23 bits
stores it modulo 2^23, which only an entry with 5 to 7 frames, made so by corrupted words, can exceed (log entry 36). -/
def walkStep (p : PortIndex) (slot : Nat) (budget : Int) (acc : Int × State) (i : EntryIndex) : Int × State :=
  if acc.2.inSlot p slot i then
    let cost := acc.2.costOf i
    let s := acc.2.putCost i (BitVec.ofNat 23 cost)
    if acc.1 + cost ≤ budget then (acc.1 + cost, s.fitEntry i cost) else (acc.1, s.overbookEntry i cost)
  else acc

/-- The walk of one port and slot (R79): every entry in use is read, then the entries of the pair are visited in the
order of the admission order list. While STOPPED there is nothing to visit (R80). -/
def State.walk (s : State) (p : PortIndex) (slot : Nat) : State :=
  match s.timer with
  | none => s
  | some c =>
      let s := s.checkEntries EntryState.inUse
      (s.order.foldl (walkStep p slot (slotBudget c.geometry s.lock (s.port p).settings slot)) (0, s)).2

/-- The walks of slots 0 to N - 1 of port p (R60), in ascending order (log entry 31). -/
def State.walkPort (s : State) (p : PortIndex) : State :=
  (List.range s.slotCount).foldl (fun s k => s.walk p k) s

/-- The walks of slot N - 1 of every port (R60), in ascending order of the ports (log entry 31). -/
def State.walkLastSlots (s : State) : State := allPorts.foldl (fun s p => s.walk p (s.slotCount - 1)) s

/-! ### The boundary work (R82, R83, R88, R89) -/

/-- The missed-slot check of one entry: R88's conditions, the counts, and R89's silent flag. -/
def missedEntry (slot : Nat) (ended : CycleNumber) (s : State) (i : EntryIndex) : State :=
  let r := s.reservation i
  if (s.entry i).state = .active ∧ r.slot.toNat = slot ∧ r.overbooked = false ∧ (s.port r.port).gate = .enforcing
      ∧ r.used = 0 then
    let misses := satInc r.misses
    let falls := !r.silent && decide ((s.port r.port).settings.silence ≤ misses.toNat)
    let s := s.putUse i (fun r => { r with misses, silent := r.silent || falls })
    let s := s.updEntry i (fun e => { e with totalMisses := satInc e.totalMisses })
    let s := s.countPort r.port (fun c => { c with missedSlots := satInc c.missedSlots })
    if falls then s.raise (entryEvent .streamSilent i r ended (detail misses.toNat)) else s
  else s

/-- The missed-slot check at the end of a slot (R88): every ACTIVE entry is read (R153; log entry 33 for a word that the
scrub of the same boundary would find), then each is checked, in ascending order of the entries (log entry 31). -/
def State.missedSlotCheck (s : State) (slot : Nat) (ended : CycleNumber) : State :=
  allEntries.foldl (missedEntry slot ended) (s.checkEntries (fun st => decide (st = .active)))

/-- Entry i leaves the table: FREE, and out of the admission order list (R65). -/
def State.freeEntry (s : State) (i : EntryIndex) : State :=
  let s := s.setEntryState i .free
  { s with order := s.order.filter (fun j => decide (j ≠ i)) }

/-- A RELEASING entry is freed at a cycle boundary (R74). -/
def State.freeReleasing (s : State) (i : EntryIndex) : State :=
  let r := s.reservation i
  let s := (s.freeEntry i).removeEntryHolds i
  s.raise (entryEvent .resFreed i r s.cycleNumber (detail r.slot.toNat))

/-- A PENDING entry becomes ACTIVE (R72). -/
def State.activate (s : State) (i : EntryIndex) : State :=
  let r := s.reservation i
  let s := s.setEntryState i .active
  s.raise (entryEvent .resActive i r s.cycleNumber (detail r.slot.toNat))

/-- The entries in a state, in ascending index order. -/
def State.entriesIn (s : State) (st : EntryState) : List EntryIndex :=
  allEntries.filter (fun i => decide ((s.entry i).state = st))

/-- Step 2 of R82: every RELEASING entry is read and freed, and each distinct port and slot that held one is walked once.
A pair that held several takes the place of the last of them: `List.dedup` keeps the last occurrence (log entry 31). -/
def State.freeAndWalk (s : State) : State :=
  let s := s.checkEntries (fun st => decide (st = .releasing))
  let going := s.entriesIn .releasing
  let pairs := (going.map (fun i => ((s.reservation i).port, (s.reservation i).slot.toNat))).dedup
  let s := going.foldl State.freeReleasing s
  pairs.foldl (fun s x => s.walk x.1 x.2) s

/-- Step 3 of R82: every PENDING entry is read and becomes ACTIVE. -/
def State.activateAll (s : State) : State :=
  let s := s.checkEntries (fun st => decide (st = .pending))
  (s.entriesIn .pending).foldl State.activate s

/-- Step 4 of R82 for one entry: the count is read, changed and written back (R153). -/
def State.resetUsed (s : State) (i : EntryIndex) : State :=
  if s.inUse i then
    let s := s.checkWord false (entryWord i 1)
    if s.inUse i then s.putUse i (fun r => { r with used := 0 }) else s
  else s

/-- Steps 2 to 4 of R82. -/
def State.turnTable (s : State) : State := allEntries.foldl State.resetUsed s.freeAndWalk.activateAll

/-- The table's work at the cycle boundary that ends cycle `ended` and its last slot (R82), one part of the boundary. Only
the missed-slot check, step 1, can leave the scrub's word to a scrub that comes after (R159; log entry 33). -/
def State.tableBoundary (asStood bitsReturn : Bool) (slot : Nat) (ended : CycleNumber) (s : State) : State :=
  (s.beforeScrub asStood bitsReturn (fun s => s.missedSlotCheck slot ended)).turnTable

/-! ### What the gates ask (R84 to R87) -/

/-- The gate's lookup, once the entries have been read (R84). -/
def State.lookup (s : State) (p : PortIndex) (tag : StreamTag) : Option EntryIndex :=
  allEntries.find? (fun i =>
    (s.entry i).state.inForce && decide ((s.reservation i).port = p) && decide ((s.reservation i).tag = tag)
      && !(s.reservation i).overbooked)

/-- A frame is released against entry i (R85). -/
def State.releaseFrame (s : State) (i : EntryIndex) : State :=
  let r := s.reservation i
  let s := s.putUse i (fun r => { r with used := r.used + 1, misses := 0, silent := false })
  let s := s.updEntry i (fun e => { e with passed := satInc e.passed })
  if r.silent then s.raise (entryEvent .resResumed i r s.cycleNumber (detail r.misses.toNat)) else s

/-- The entry does not stand in the way of a reclaim of its slot (R87): it is done, or has no bearing. -/
def State.reclaimable (s : State) (p : PortIndex) (slot : Nat) (i : EntryIndex) : Bool :=
  let r := s.reservation i
  !(decide ((s.entry i).state = .active) && decide (r.port = p) && decide (r.slot.toNat = slot) && !r.overbooked)
    || decide (r.used = r.frames) || r.silent

/-- The reclaim question, once the entries have been read (R87). -/
def State.reclaimAnswer (s : State) (p : PortIndex) (slot : Nat) : Bool := allEntries.all (s.reclaimable p slot)

/-! ### ADMIT (R66 to R70) -/

/-- Step 2: another entry in use holds the port and stream tag (R67). -/
def State.duplicate (s : State) (p : PortIndex) (tag : StreamTag) : Bool :=
  allEntries.any (fun i => s.inUse i && decide ((s.reservation i).port = p) && decide ((s.reservation i).tag = tag))

/-- Step 3: the maps are read, the committed one only where the active one reserves the slot (R68; log entry 19). -/
def State.checkSlotMaps (s : State) (p : PortIndex) (slot : Nat) : State :=
  let s := s.checkActive p
  if s.activeKind p slot = .reserved ∧ s.appliesNext p then s.checkPending p else s

/-- Step 3: the slot is RESERVED in the active map and in the next-cycle map (R68). -/
def State.slotReserved (s : State) (p : PortIndex) (slot : Nat) : Bool :=
  decide (s.activeKind p slot = .reserved) && decide (s.nextKind p slot = .reserved)

/-- Step 5: the stored costs counted in a slot (R59). -/
def State.countedCosts (s : State) (p : PortIndex) (slot : Nat) : Nat :=
  ((allEntries.filter (fun i => s.inSlot p slot i && !(s.reservation i).overbooked)).map
    (fun i => (s.reservation i).cost.toNat)).sum

/-- The lowest-numbered FREE entry (R70). -/
def State.lowestFree (s : State) : Option EntryIndex := allEntries.find? (fun i => decide ((s.entry i).state = .free))

/-- The fields of a new entry (R70). -/
def newReservation (a : AdmitRequest) (cost : Nat) (cycle : CycleNumber) : Reservation where
  port := a.port
  tag := a.tag
  slot := BitVec.ofNat 6 a.slot
  frames := BitVec.ofNat 3 a.frames
  maxLength := BitVec.ofNat 14 a.maxLength
  used := 0
  misses := 0
  overbooked := false
  silent := false
  cost := BitVec.ofNat 23 cost
  admitted := cycle

/-- The entry is placed (R70). -/
def State.placeEntry (s : State) (i : EntryIndex) (a : AdmitRequest) (cost : Nat) : State :=
  let s := s.updEntry i (fun _ => { Entry.initial with state := .pending })
  let s := s.putReservation i (newReservation a cost s.cycleNumber)
  { s with order := s.order ++ [i] }

/-- Steps 4 and 5 (R69) and the placing (R70). -/
def admitPlace (a : AdmitRequest) (g : Geometry) (s : State) : State :=
  match s.lowestFree with
  | none => s.respond 0x30 .full []
  | some i =>
      let s := s.checkEntries EntryState.inUse
      let set := (s.port a.port).settings
      let cost := entryCost set a.frames a.maxLength
      if (s.countedCosts a.port a.slot : Int) + cost ≤ slotBudget g s.lock set a.slot then
        (s.placeEntry i a cost).respond 0x30 .ok (byteOf i.val :: beBytes3 cost)
      else s.respond 0x30 .noBudget []

/-- The checks and effect of ADMIT (R66 to R70). -/
def admitBody (port : Byte) (tag : BitVec 16) (slot : Byte) (maxLength : BitVec 16) (frames : Byte) (s : State) : State :=
  match s.timer with
  | none => s.respond 0x30 .badArgument []
  | some c =>
      match admitOperand c.geometry.slots port tag slot maxLength frames with
      | none => s.respond 0x30 .badArgument []
      | some a =>
          let s := s.checkEntries EntryState.inUse
          if s.duplicate a.port a.tag then s.respond 0x30 .duplicate []
          else
            let s := s.checkSlotMaps a.port a.slot
            if s.slotReserved a.port a.slot then admitPlace a c.geometry s else s.respond 0x30 .slotKind []

/-- ADMIT taken by the link. -/
def admitTaken (port : Byte) (tag : BitVec 16) (slot : Byte) (maxLength : BitVec 16) (frames : Byte) (s : State) : State :=
  s.command 0x30 (admitBody port tag slot maxLength frames)

/-- ADMIT. -/
def execAdmit (port : Byte) (tag : BitVec 16) (slot : Byte) (maxLength : BitVec 16) (frames : Byte) (s : State) :
    Host.Outcome State Fault Refusal := .next (admitTaken port tag slot maxLength frames s)

/-! ### RELEASE, PURGE, READ_RESERVATION -/

/-- The checks and effect of RELEASE (R73). -/
def releaseBody (index : Byte) (s : State) : State :=
  match entryOperand index with
  | none => s.respond 0x31 .badArgument []
  | some i =>
      match (s.entry i).state with
      | .pending => (s.freeEntry i).respond 0x31 .ok [0x00]
      | .active => (s.setEntryState i .releasing).respond 0x31 .ok [0x01]
      | .free | .releasing | .faulted => s.respond 0x31 .state []

/-- RELEASE taken by the link. -/
def releaseTaken (index : Byte) (s : State) : State := s.command 0x31 (releaseBody index)

/-- RELEASE. -/
def execRelease (index : Byte) (s : State) : Host.Outcome State Fault Refusal := .next (releaseTaken index s)

/-- The checks and effect of PURGE (R76). -/
def purgeBody (index : Byte) (s : State) : State :=
  match entryOperand index with
  | none => s.respond 0x32 .badArgument []
  | some i =>
      match (s.entry i).state with
      | .faulted => ((s.freeEntry i).blankReservation i).respond 0x32 .ok []
      | .free | .pending | .active | .releasing => s.respond 0x32 .state []

/-- PURGE taken by the link. -/
def purgeTaken (index : Byte) (s : State) : State := s.command 0x32 (purgeBody index)

/-- PURGE. -/
def execPurge (index : Byte) (s : State) : Host.Outcome State Fault Refusal := .next (purgeTaken index s)

/-- The result of READ_RESERVATION for the fields r and the entry e (R78). -/
def reservationBytes (e : Entry) (r : Reservation) : List Byte :=
  [e.state.byte, byteOf r.port.val] ++ beBytes2 r.tag.toNat ++ [byteOf r.slot.toNat] ++ beBytes2 r.maxLength.toNat
    ++ [byteOf r.frames.toNat] ++ beBytes3 r.cost.toNat
    ++ [flagByte r.overbooked, flagByte r.silent, byteOf r.used.toNat, byteOf r.misses.toNat]
    ++ beBytes2 e.totalMisses.toNat ++ beBytes2 e.overrunDrops.toNat ++ beBytes2 e.staleDrops.toNat
    ++ beBytes4 e.passed.toNat ++ beBytes4 r.admitted.toNat

/-- The absent fields of a FAULTED entry, returned as 0 (R78). -/
def absentReservation : Reservation := unpackReservation 0 0 0 0

/-- The checks and effect of READ_RESERVATION (R78). -/
def readReservationBody (index : Byte) (s : State) : State :=
  match entryOperand index with
  | none => s.respond 0x33 .badArgument []
  | some i =>
      match (s.entry i).state with
      | .free => s.respond 0x33 .ok [0x00]
      | .pending | .active | .releasing | .faulted =>
          let s := s.checkWords (entryWords i)
          if s.inUse i then s.respond 0x33 .ok (reservationBytes (s.entry i) (s.reservation i))
          else s.respond 0x33 .ok (reservationBytes (s.entry i) absentReservation)

/-- READ_RESERVATION taken by the link. -/
def readReservationTaken (index : Byte) (s : State) : State := s.command 0x33 (readReservationBody index)

/-- READ_RESERVATION. -/
def execReadReservation (index : Byte) (s : State) : Host.Outcome State Fault Refusal :=
  .next (readReservationTaken index s)

end Sys2Proof.Machine
end

