-- ==== Sys2Proof/Machine/Gates.lean ====
section
/-! DEFINITION. The egress gates (07) with the hold list they keep (08): entering enforcement, the reports of the lock,
the gate decision, and the gate commands SET_PORT, PORT_ENFORCE, PORT_HOLD, PORT_TRANSPARENT, READ_PORT. -/

namespace Sys2Proof.Machine

/-- A gate enters ENFORCING at this instant (R119). -/
def State.enterEnforcing (s : State) (p : PortIndex) : State :=
  s.updPort p (fun q =>
    { q with gate := .enforcing, cause := .none,
             busy := some (afterTicks (afterTicks s.time q.settings.lead) (duration q.settings q.settings.maxFrame)) })

/-! ### Reports of the cycle lock (R122) -/

/-- Loss of lock at one gate. -/
def State.lockLossAt (s : State) (p : PortIndex) : State :=
  if (s.port p).gate = .enforcing ∧ (s.port p).settings.requireLock then s.toFailsafe p .lockLost else s

/-- Loss of lock, reported to every gate, in ascending order of the ports (log entry 31). -/
def State.reportLockLoss (s : State) : State := allPorts.foldl State.lockLossAt s

/-- The offer of PORT_RECOVERED (R136). -/
def recoveredEvent (s : State) (p : PortIndex) : EventEntry :=
  { kind := .portRecovered, port := some p, index := none, tag := none, cycle := lowCycle s.cycleNumber, detail := detail 1 }

/-- Entry into LOCKED at one gate. -/
def State.lockWonAt (s : State) (p : PortIndex) : State :=
  if (s.port p).gate = .failsafe ∧ (s.port p).cause = .lockLost then
    let s := s.enterEnforcing p
    s.raise (recoveredEvent s p)
  else s

/-- Entry into LOCKED, reported to every gate, in ascending order of the ports (log entry 31). -/
def State.reportLockWon (s : State) : State := allPorts.foldl State.lockWonAt s

/-- The gate's own work at a cycle boundary (R125): a busy-until earlier than the boundary becomes absent. -/
def State.clearPastBusy (s : State) (p : PortIndex) : State :=
  s.updPort p (fun q => { q with busy := q.busy.filter (fun b => !later s.time b) })

/-! ### The hold list (08) -/

/-- The age of a record (R140). -/
def State.holdAge (s : State) (r : HoldRecord) : Nat := (s.cycleNumber - r.firstHeld).toNat

/-- The record of a descriptor address (R140). -/
def State.holdOf (s : State) (a : Address) : Option HoldRecord :=
  s.holds.records.find? (fun r => decide (r.address = a))

/-- How many records the port has (R150). -/
def State.portHolds (s : State) (p : PortIndex) : Nat := s.holds.records.countP (fun r => decide (r.port = p))

/-- An add request (R141, R142): the record is appended, or the hold goes untracked. -/
def State.addHold (s : State) (r : HoldRecord) (tag : StreamTag) : State :=
  if s.holds.records.length < 32 then { s with holds := { s.holds with records := s.holds.records ++ [r] } }
  else
    let s := { s with holds := { s.holds with full := satInc s.holds.full } }
    s.raise { kind := .holdListFull, port := some r.port, index := some r.entry, tag := some tag,
              cycle := lowCycle s.cycleNumber, detail := detail (s.portHolds r.port) }

/-- The high byte of HOLD_EXPIRED: one bit per port with an expired record (R150). -/
def expiredPorts (gone : List HoldRecord) : Nat :=
  (allPorts.map (fun p => weight (gone.any (fun r => decide (r.port = p))) (2 ^ p.val))).sum

/-- Expiry at a cycle boundary (R147): records of age 32 go, and HOLD_EXPIRED is raised once if any went. -/
def State.expireHolds (s : State) : State :=
  let gone := s.holds.records.filter (fun r => decide (s.holdAge r = 32))
  if gone.isEmpty then s
  else
    let s := s.keepHolds (fun r => decide (s.holdAge r ≠ 32))
    let s := { s with holds := { s.holds with expired := satAdd s.holds.expired gone.length } }
    s.raise { kind := .holdExpired, port := none, index := none, tag := none, cycle := lowCycle s.cycleNumber,
              detail := detail (256 * expiredPorts gone + gone.length) }

/-! ### The decision -/

/-- A candidate (R107): its port, its ring's kind, its descriptor address and memory's word. -/
structure Candidate where
  port : PortIndex
  motion : Bool
  address : Address
  word : Word
  deriving DecidableEq, Repr

/-- The passed counter of the candidate's ring kind grows (R134). -/
def State.countPassed (s : State) (c : Candidate) : State :=
  s.countPort c.port (fun k =>
    if c.motion then { k with motionPassed := satInc k.motionPassed } else { k with generalPassed := satInc k.generalPassed })

/-- The held counter of the candidate's ring kind grows (R134). -/
def State.countHeld (s : State) (c : Candidate) : State :=
  s.countPort c.port (fun k =>
    if c.motion then { k with motionHeld := satInc k.motionHeld } else { k with generalHeld := satInc k.generalHeld })

/-- HOLD, counted. -/
def holdCandidate (c : Candidate) (s : State) : Decision × State := (.hold, s.countHeld c)

/-- The decision in FAILSAFE (R124). -/
def failsafeDecision (c : Candidate) (s : State) : Decision × State :=
  match (s.port c.port).settings.failMode with
  | .passAll => (.pass, s.countPassed c)
  | .motionOnly => if c.motion then (.pass, s.countPassed c) else holdCandidate c s

/-- The candidate's expected end, decided now (R52). -/
def State.candidateEnd (s : State) (c : Candidate) : DeviceTime :=
  expectedEnd (s.port c.port).settings (s.port c.port).busy s.time (lengthOf c.word)

/-- Busy-until becomes the candidate's expected end (R125). -/
def State.moveBusy (s : State) (p : PortIndex) (e : DeviceTime) : State := s.updPort p (fun q => { q with busy := some e })

/-- The current slot index, none while STOPPED. -/
def State.currentSlot (s : State) : Option Nat := s.timer.map (fun c => c.slot s.time)

/-- A drop of a motion candidate's entry (R127, R128): the entry's and the port's counts, the record, the event. -/
def State.dropEvent (s : State) (kind : EventKind) (i : EntryIndex) (d : Nat) : State :=
  s.raise (entryEvent kind i (s.reservation i) s.cycleNumber (detail d))

/-- R127: a stale drop, the record's age given. -/
def staleDrop (c : Candidate) (i : EntryIndex) (age : Nat) (s : State) : Decision × State :=
  let s := s.removeHold c.address
  let s := s.updEntry i (fun e => { e with staleDrops := satInc e.staleDrops })
  let s := s.countPort c.port (fun k => { k with staleDrops := satInc k.staleDrops })
  (.drop, s.dropEvent .staleDrop i age)

/-- R128: an overrun drop. -/
def overrunDrop (c : Candidate) (i : EntryIndex) (s : State) : Decision × State :=
  let s := s.updEntry i (fun e => { e with overrunDrops := satInc e.overrunDrops })
  let s := s.countPort c.port (fun k => { k with overrunDrops := satInc k.overrunDrops })
  let s := s.dropEvent .overrunDrop i (lengthOf c.word)
  (.drop, s.removeHold c.address)

/-- R129: a release in the entry's slot, which ends at `slotEnd`. -/
def releaseCandidate (c : Candidate) (i : EntryIndex) (slotEnd : DeviceTime) (s : State) : Decision × State :=
  let e := s.candidateEnd c
  let r := s.reservation i
  let s := (s.releaseFrame i).removeHold c.address
  let s := (s.moveBusy c.port e).countPassed c
  if later e slotEnd then
    let s := s.countPort c.port (fun k => { k with lateMotion := satInc k.lateMotion })
    (.pass, s.raise (entryEvent .lateMotion i r s.cycleNumber (cappedDetail (e - slotEnd).toNat)))
  else (.pass, s)

/-- R130: a hold against the entry, with a record if the address has none. -/
def holdAgainst (c : Candidate) (i : EntryIndex) (s : State) : Decision × State :=
  let s := s.countHeld c
  match s.holdOf c.address with
  | some _ => (.hold, s)
  | none => (.hold, s.addHold ⟨c.address, c.port, i, s.cycleNumber⟩ (tagOf c.word))

/-- The age of the candidate's record where it is above the port's stale limit (R127). -/
def State.staleAge (s : State) (c : Candidate) : Option Nat :=
  match s.holdOf c.address with
  | some r => if (s.port c.port).settings.stale < s.holdAge r then some (s.holdAge r) else none
  | none => none

/-- The entry may release a frame now: its slot is current and its count is not used up (R129). -/
def State.mayRelease (s : State) (i : EntryIndex) : Bool :=
  let r := s.reservation i
  decide (s.currentSlot = some r.slot.toNat) && decide (r.used.toNat < r.frames.toNat)

/-- The entry checks of R127 to R130, in order. -/
def entryDecision (c : Candidate) (i : EntryIndex) (s : State) : Decision × State :=
  match s.staleAge c with
  | some age => staleDrop c i age s
  | none =>
      if (s.reservation i).maxLength.toNat < lengthOf c.word then overrunDrop c i s
      else
        match s.timer with
        | none => holdAgainst c i s
        | some t =>
            if s.mayRelease i then releaseCandidate c i (t.slotEnd (t.slot s.time)) s else holdAgainst c i s

/-- The boundary search consults the pending map only where it goes on into the next cycle (R54, R55). The active map
has been read for the current slot in the same decision. -/
def State.checkSearch (s : State) (p : PortIndex) (t : Timer) : State :=
  match protectedThisCycle t.geometry.slots (t.slot s.time) (s.activeKind p) with
  | some _ => s
  | none => if s.appliesNext p then s.checkPending p else s

/-- The next protected boundary of port p, none where it is unbounded (R54), once the maps have been read. -/
def State.nextProtected (s : State) (p : PortIndex) (t : Timer) : Option DeviceTime :=
  let slot := t.slot s.time
  match protectedThisCycle t.geometry.slots slot (s.activeKind p) with
  | some k => some (afterTicks t.start (k * t.geometry.ticks))
  | none => (protectedNextCycle slot (s.nextKind p)).map (fun k => afterTicks t.cycleEnd (k * t.geometry.ticks))

/-- The fit test in an OPEN or reclaimed slot (R131, R132): PASS with busy-until moved, or HOLD. -/
def fitDecision (c : Candidate) (reclaimed : Bool) (t : Timer) (s : State) : Decision × State :=
  let s := s.checkSearch c.port t
  let e := s.candidateEnd c
  if fits (s.port c.port).settings e (s.nextProtected c.port t) then
    let s := (s.moveBusy c.port e).countPassed c
    if reclaimed then (.pass, s.countPort c.port (fun k => { k with reclaimed := satInc k.reclaimed })) else (.pass, s)
  else holdCandidate c s

/-- The decision in a RESERVED slot (R132). -/
def reclaimDecision (c : Candidate) (t : Timer) (s : State) : Decision × State :=
  if (s.port c.port).settings.reclaim then
    let s := s.checkEntries EntryState.inForce
    if (s.port c.port).gate = .enforcing then
      (if s.reclaimAnswer c.port (t.slot s.time) then fitDecision c true t s else holdCandidate c s)
    else failsafeDecision c s
  else holdCandidate c s

/-- A general candidate or a demoted motion frame (R131, R132). While STOPPED, which no run reaches here, it is held (log
entry 34). -/
def generalDecision (c : Candidate) (s : State) : Decision × State :=
  match s.timer with
  | none => holdCandidate c s
  | some t =>
      let s := s.checkActive c.port
      if (s.port c.port).gate = .enforcing then
        match s.activeKind c.port (t.slot s.time) with
        | .openSlot => fitDecision c false t s
        | .closed => holdCandidate c s
        | .reserved => reclaimDecision c t s
      else failsafeDecision c s

/-- An unreserved drop (R126). -/
def unreservedDrop (c : Candidate) (s : State) : Decision × State :=
  let s := s.countPort c.port (fun k => { k with unreservedDrops := satInc k.unreservedDrops })
  (.drop, s.raise { kind := .unreservedDrop, port := some c.port, index := none, tag := some (tagOf c.word),
                    cycle := lowCycle s.cycleNumber, detail := detail (lengthOf c.word) })

/-- A motion candidate in ENFORCING (R126). -/
def motionDecision (c : Candidate) (s : State) : Decision × State :=
  let s := s.checkEntries EntryState.inForce
  if (s.port c.port).gate = .enforcing then
    match s.lookup c.port (tagOf c.word) with
    | some i => entryDecision c i s
    | none =>
        match (s.port c.port).settings.unreserved with
        | .asGeneral => generalDecision c s
        | .drop => unreservedDrop c s
  else failsafeDecision c s

/-- The gate decision (R115). -/
def gateDecision (c : Candidate) (s : State) : Decision × State :=
  match (s.port c.port).gate with
  | .transparent => (.pass, s)
  | .held => holdCandidate c s
  | .failsafe => failsafeDecision c s
  | .enforcing => if c.motion then motionDecision c s else generalDecision c s

/-! ### SET_PORT (R116, R117) -/

/-- One of the four budget inputs differs (R60). -/
def budgetInputsDiffer (a b : Settings) : Bool :=
  decide (a.rate ≠ b.rate) || decide (a.extra ≠ b.extra) || decide (a.lead ≠ b.lead) || decide (a.guard ≠ b.guard)

/-- The effect of SET_PORT with accepted settings (R117). -/
def setPortEffect (p : PortIndex) (new : Settings) (s : State) : State :=
  let changed := budgetInputsDiffer (s.port p).settings new
  let s := s.updPort p (fun q => { q with settings := new })
  let s := if changed then s.walkPort p else s
  s.respond 0x50 .ok [flagByte changed]

/-- The checks and effect of SET_PORT (R116). -/
def setPortBody (port : Byte) (new : Option Settings) (s : State) : State :=
  match portOperand port, new with
  | some p, some set => setPortEffect p set s
  | _, _ => s.respond 0x50 .badArgument []

/-- SET_PORT taken by the link. -/
def setPortTaken (port rate extra : Byte) (lead guard maxFrame : BitVec 16)
    (failMode requireLock reclaim unreserved stale silence : Byte) (s : State) : State :=
  s.command 0x50
    (setPortBody port (settingsOperand rate extra lead guard maxFrame failMode requireLock reclaim unreserved stale silence))

/-- SET_PORT. -/
def execSetPort (port rate extra : Byte) (lead guard maxFrame : BitVec 16)
    (failMode requireLock reclaim unreserved stale silence : Byte) (s : State) : Host.Outcome State Fault Refusal :=
  .next (setPortTaken port rate extra lead guard maxFrame failMode requireLock reclaim unreserved stale silence s)

/-! ### PORT_ENFORCE (R118) -/

/-- The lock is LOCKED or HOLDOVER (R33). -/
def State.hasLock (s : State) : Bool := decide (s.lock.state = .locked) || decide (s.lock.state = .holdover)

/-- The table of R118 for a PORT_ENFORCE that passes the checks. -/
def State.enforcePort (s : State) (p : PortIndex) : State :=
  match (s.port p).gate with
  | .enforcing => s
  | .transparent | .held | .failsafe =>
      if (s.port p).settings.requireLock && !s.hasLock then
        (if (s.port p).gate = .failsafe ∧ (s.port p).cause = .lockLost then s else s.toFailsafe p .lockLost)
      else s.enterEnforcing p

/-- The checks and effect of PORT_ENFORCE (R118). -/
def portEnforceBody (port : Byte) (s : State) : State :=
  match portOperand port with
  | none => s.respond 0x51 .badArgument []
  | some p =>
      if s.timer = none ∨ (s.mapsOf p).bad ∨ s.anyFaulted then s.respond 0x51 .state []
      else
        let s := s.enforcePort p
        s.respond 0x51 .ok [(s.port p).gate.byte, (s.port p).cause.byte]

/-- PORT_ENFORCE taken by the link. -/
def portEnforceTaken (port : Byte) (s : State) : State := s.command 0x51 (portEnforceBody port)

/-- PORT_ENFORCE. -/
def execPortEnforce (port : Byte) (s : State) : Host.Outcome State Fault Refusal := .next (portEnforceTaken port s)

/-! ### PORT_HOLD and PORT_TRANSPARENT (R120, R121) -/

/-- A gate is put into HELD or TRANSPARENT from any state: cause NONE, busy-until absent, and the leaving of R121. -/
def State.parkPort (s : State) (p : PortIndex) (g : GateState) : State :=
  let s := if (s.port p).gate = .enforcing then s.leaveEnforcing p else s
  s.updPort p (fun q => { q with gate := g, cause := .none, busy := none })

/-- The checks and effect of PORT_HOLD and PORT_TRANSPARENT (R120, R121). -/
def parkBody (code : Byte) (g : GateState) (port : Byte) (s : State) : State :=
  match portOperand port with
  | none => s.respond code .badArgument []
  | some p => (s.parkPort p g).respond code .ok [(s.port p).gate.byte]

/-- PORT_HOLD taken by the link. -/
def portHoldTaken (port : Byte) (s : State) : State := s.command 0x52 (parkBody 0x52 .held port)

/-- PORT_HOLD. -/
def execPortHold (port : Byte) (s : State) : Host.Outcome State Fault Refusal := .next (portHoldTaken port s)

/-- PORT_TRANSPARENT taken by the link. -/
def portTransparentTaken (port : Byte) (s : State) : State := s.command 0x53 (parkBody 0x53 .transparent port)

/-- PORT_TRANSPARENT. -/
def execPortTransparent (port : Byte) (s : State) : Host.Outcome State Fault Refusal :=
  .next (portTransparentTaken port s)

/-! ### READ_PORT (R135) -/

/-- Busy-until as ticks remaining, stopping at FFFFFFh (R135). -/
def busyRemaining (now : DeviceTime) (busy : Option DeviceTime) : Nat :=
  match busy with
  | none => 0
  | some b => min (ticksUntil now b) 0xFFFFFF

/-- The 21 result bytes of selector 00h (R135). -/
def portBytes (now : DeviceTime) (q : Port) (m : PortMaps) : List Byte :=
  [q.gate.byte, q.cause.byte] ++ q.settings.bytes ++ beBytes3 (busyRemaining now q.busy)
    ++ [mapFlags m, byteOf ((m.waiting.map PendingMap.length).getD 0)]

/-- The checks and effect of READ_PORT (R135). -/
def readPortBody (port selector : Byte) (s : State) : State :=
  match portOperand port with
  | none => s.respond 0x54 .badArgument []
  | some p =>
      if selector = 0 then s.respond 0x54 .ok (portBytes s.time (s.port p) (s.mapsOf p))
      else if selector = 1 then s.respond 0x54 .ok (s.port p).counters.bytes
      else s.respond 0x54 .badArgument []

/-- READ_PORT taken by the link. -/
def readPortTaken (port selector : Byte) (s : State) : State := s.command 0x54 (readPortBody port selector)

/-- READ_PORT. -/
def execReadPort (port selector : Byte) (s : State) : Host.Outcome State Fault Refusal :=
  .next (readPortTaken port selector s)

end Sys2Proof.Machine
end

