-- ==== Sys2Proof/Machine/CycleLock.lean ====
section
/-! DEFINITION. The cycle lock (02): the test of a write, what a mark does in each state, the lock's work at a cycle
boundary, and its command SET_SYNC. -/

namespace Sys2Proof.Machine

/-- The lock replaced. -/
def State.setLock (s : State) (l : Lock) : State := { s with lock := l }

/-- Acquisition and tracking state cleared, as R20 clears it; settings and counts stay. -/
def Lock.cleared (l : Lock) : Lock :=
  { l with goodIntervals := 0, previousMark := none, stored := none, first := .none, goodMark := false, missRun := 0,
           holdoverCount := 0, jitter := false, oldest := .none, middle := .none, newest := .none }

/-! ### Sync marks (R17, R18) -/

/-- Ring map entry 5p + 4 of the sync port (R17). -/
def Lock.ring (l : Lock) : Option RingIndex := l.port.map (fun p => ringIndex p 4)

/-- The tests of R17 on a write, once the ring map entry has been read. -/
def State.isMark (s : State) (a : Address) (data : Word) (lanes : BitVec 4) : Bool :=
  match s.lock.ring with
  | none => false
  | some e =>
      s.ringValid e && decide ((s.ring e).kind = .rxSync) && (s.ring e).statusWord a
        && lanes.getLsbD 3 && lanes.getLsbD 2 && readyBit data && decide (tagOf data = s.lock.tag)

/-- The sync test reads the sync port's receive entry through the checker (R17, R153). -/
def State.checkSync (s : State) : State :=
  match s.lock.ring with
  | none => s
  | some e => s.checkRing e

/-! ### What a mark does -/

/-- The folded error of a mark taken now (R21). -/
def Lock.errorAt (l : Lock) (t : Timer) (now : DeviceTime) : Int :=
  foldedError t.geometry.cycleTicks l.phi (t.position now)

/-- The folded error is within the tolerance (R25, R30). -/
def Lock.inTolerance (l : Lock) (e : Int) : Bool := decide (e.natAbs ≤ l.tolerance)

/-- An interval is good: it differs from C by at most the tolerance (R22). -/
def Lock.goodInterval (l : Lock) (c : Nat) (interval : DeviceTime) : Bool :=
  decide (((interval.toNat : Int) - c).natAbs ≤ l.tolerance)

/-- A mark in ACQUIRING (R22), and the completion of acquisition (R23). -/
def Lock.acquire (l : Lock) (t : Timer) (now : DeviceTime) : Lock :=
  match l.previousMark with
  | none => { l with previousMark := some now }
  | some before =>
      let count := if l.goodInterval t.geometry.cycleTicks (now - before) then l.goodIntervals + 1 else 0
      let l := { l with previousMark := some now, goodIntervals := count }
      if 8 ≤ count then
        { l with state := .aligning, stored := some (alignmentAdjustment t.geometry.cycleTicks (l.errorAt t now)) }
      else l

/-- The first-mark outcome takes an outcome where it is NONE (R25). -/
def MarkOutcome.orFirst (old new : MarkOutcome) : MarkOutcome := if old = .none then new else old

/-- A mark in LOCKED: extra, good or outlier (R25, R26). -/
def Lock.track (l : Lock) (t : Timer) (now : DeviceTime) : Lock :=
  let e := l.errorAt t now
  if l.goodMark then l
  else if l.inTolerance e then
    { l with first := l.first.orFirst .good, goodMark := true, stored := some (correction l.jitter l.maxStep e) }
  else { l with first := l.first.orFirst .outlier, outliers := satInc l.outliers }

/-- A mark in HOLDOVER: a good one returns the lock to LOCKED (R30). -/
def Lock.recover (l : Lock) (t : Timer) (now : DeviceTime) : Lock :=
  let e := l.errorAt t now
  if l.inTolerance e then
    { l with state := .locked, stored := some (correction l.jitter l.maxStep e), missRun := 0, first := .good, goodMark := true }
  else { l with outliers := satInc l.outliers }

/-- A mark taken now (R18): counted outside FREE, then taken by the rule of the lock's state. -/
def Lock.takeMark (l : Lock) (t : Timer) (now : DeviceTime) : Lock :=
  let counted := { l with marks := satInc l.marks }
  match l.state with
  | .free => l
  | .acquiring => counted.acquire t now
  | .aligning => counted
  | .locked => counted.track t now
  | .holdover => counted.recover t now

/-- The lock sees a write as it passes (R110, R17, R18). Outside FREE the timer is RUNNING (R16). -/
def State.observeWrite (s : State) (a : Address) (data : Word) (lanes : BitVec 4) : State :=
  let s := s.checkSync
  match s.timer with
  | none => s
  | some t => if s.isMark a data lanes then s.setLock (s.lock.takeMark t s.time) else s

/-! ### The lock at a cycle boundary -/

/-- The offer of a lock event (R34). -/
def lockEvent (kind : EventKind) (l : Lock) (cycle : CycleNumber) (d : BitVec 16) : EventEntry :=
  { kind, port := l.port, index := none, tag := some l.tag, cycle := lowCycle cycle, detail := d }

/-- In ACQUIRING, a previous mark more than 2C before the boundary becomes absent (R22). -/
def Lock.forgetMark (l : Lock) (c : Nat) (now : DeviceTime) : Lock :=
  match l.previousMark with
  | some m => if 2 * c < (now - m).toNat then { l with previousMark := none, goodIntervals := 0 } else l
  | none => l

/-- The lock's values on entry into LOCKED from ALIGNING (R24). -/
def Lock.enterLocked (l : Lock) : Lock :=
  { l with state := .locked, missRun := 0, holdoverCount := 0, first := .none, goodMark := false,
           oldest := .none, middle := .none, newest := .none, jitter := false }

/-- The second boundary of ALIGNING (R24): LOCK_ACQUIRED with the alignment adjustment that ended, then the report. -/
def State.lockWon (s : State) (ended : Int) : State :=
  let s := s.setLock s.lock.enterLocked
  (s.raise (lockEvent .lockAcquired s.lock s.cycleNumber (cappedDetail ended.toNat))).reportLockWon

/-- How many of the history's entries are this outcome. -/
def Lock.historyCount (l : Lock) (o : MarkOutcome) : Nat :=
  [l.oldest, l.middle, l.newest].countP (fun x => decide (x = o))

/-- R28: the ending cycle's first-mark outcome enters the history, and the jitter flag is evaluated. -/
def Lock.recordCycle (l : Lock) : Lock :=
  let l := { l with oldest := l.middle, middle := l.newest, newest := l.first }
  if !l.jitter && decide (2 ≤ l.historyCount .outlier) then { l with jitter := true }
  else if l.jitter && decide (l.historyCount .good = 3) then { l with jitter := false }
  else l

/-- R29: the miss run, and the cycle record returned to NONE with the flag clear (R28). -/
def Lock.recordMiss (l : Lock) : Lock :=
  let miss := if l.goodMark then 0 else l.missRun + 1
  let l := { l with missRun := miss, first := .none, goodMark := false }
  if 3 ≤ miss then { l with state := .holdover, holdoverCount := 0 } else l

/-- A cycle boundary in LOCKED (R28, R29). -/
def State.lockedBoundary (s : State) : State :=
  let before := s.lock.jitter
  let s := s.setLock s.lock.recordCycle
  let s := if !before && s.lock.jitter then
      s.raise (lockEvent .lockJitter s.lock s.cycleNumber (detail (s.lock.historyCount .outlier)))
    else s
  let s := s.setLock s.lock.recordMiss
  if s.lock.state = .holdover then s.raise (lockEvent .lockHoldover s.lock s.cycleNumber (detail s.lock.missRun)) else s

/-- A cycle boundary in HOLDOVER (R31). -/
def State.holdoverBoundary (s : State) : State :=
  let count := s.lock.holdoverCount + 1
  if s.lock.holdoverLimit ≤ count then
    let s := s.setLock { s.lock.cleared with state := .acquiring }
    (s.raise (lockEvent .lockLost s.lock s.cycleNumber (detail 0))).reportLockLoss
  else s.setLock { s.lock with holdoverCount := count }

/-- The lock's work at a cycle boundary. `handedOver`: it supplied an adjustment to the cycle that begins. `ended`: the
adjustment of the cycle that ended. -/
def State.lockBoundary (s : State) (handedOver : Bool) (ended : Int) : State :=
  match s.lock.state, s.timer with
  | .acquiring, some t => s.setLock (s.lock.forgetMark t.geometry.cycleTicks s.time)
  | .acquiring, none => s
  | .aligning, _ => if handedOver then s else s.lockWon ended
  | .locked, _ => s.lockedBoundary
  | .holdover, _ => s.holdoverBoundary
  | .free, _ => s

/-! ### SET_SYNC (R19, R20) -/

/-- The receive ring map entry of the sync port named is valid, or none is named (R19, check 2). -/
def State.syncRingValid (s : State) (port : Option PortIndex) : Bool :=
  match port with
  | none => true
  | some p => s.ringValid (ringIndex p 4)

/-- The lock with the six settings stored, the state cleared and the new state taken (R20). -/
def Lock.configured (l : Lock) (set : SyncSettings) : Lock :=
  { l.cleared with
      state := if set.port.isSome then .acquiring else .free
      port := set.port, tag := set.tag, phi := set.phi, tolerance := set.tolerance, maxStep := set.maxStep,
      holdoverLimit := set.holdoverLimit }

/-- The effect of SET_SYNC (R20): the settings and the new state, the loss of lock where it was held, the walks of the
last slots. LOCK_LOST carries the settings that stood before (R34). -/
def setSyncEffect (set : SyncSettings) (s : State) : State :=
  let old := s.lock
  let held := s.hasLock
  let s := s.setLock (old.configured set)
  let s := if held then s.reportLockLoss.raise (lockEvent .lockLost old s.cycleNumber (detail 1)) else s
  s.walkLastSlots.respond 0x11 .ok [old.state.byte]

/-- The checks and effect of SET_SYNC (R19). -/
def setSyncBody (port : Byte) (tag : BitVec 16) (phi tolerance : BitVec 24) (maxStep holdoverLimit : Byte) (s : State) :
    State :=
  match s.timer with
  | none => s.respond 0x11 .state []
  | some t =>
      match syncOperand t.geometry.cycleTicks port tag phi tolerance maxStep holdoverLimit with
      | none => s.respond 0x11 .badArgument []
      | some set => if s.syncRingValid set.port then setSyncEffect set s else s.respond 0x11 .badArgument []

/-- SET_SYNC taken by the link. -/
def setSyncTaken (port : Byte) (tag : BitVec 16) (phi tolerance : BitVec 24) (maxStep holdoverLimit : Byte) (s : State) :
    State := s.command 0x11 (setSyncBody port tag phi tolerance maxStep holdoverLimit)

/-- SET_SYNC. -/
def execSetSync (port : Byte) (tag : BitVec 16) (phi tolerance : BitVec 24) (maxStep holdoverLimit : Byte) (s : State) :
    Host.Outcome State Fault Refusal := .next (setSyncTaken port tag phi tolerance maxStep holdoverLimit s)

end Sys2Proof.Machine
end

