-- ==== Sys2Proof/Machine/Path.lean ====
section
/-! DEFINITION. The descriptor path (06): acceptance and forwarding of requests, responses, the response limit and the
quarantine, the candidate test and substitution, and its commands SET_RING, CLEAR_RING, SET_MEMORY. -/

namespace Sys2Proof.Machine

/-- The path changed by f. -/
def State.updPath (s : State) (f : Path → Path) : State := { s with path := f s.path }

/-! ### Recognition (R106) -/

/-- The transmit ring map entries, in ascending order. -/
def transmitRings : List RingIndex := allRings.filter (fun e => !isReceiveRing e)

/-- The address is a transmit status word of ring map entry e, as its words stand (R106). -/
def State.recognises (s : State) (a : Address) (e : RingIndex) : Bool :=
  s.ringValid e && decide ((s.ring e).kind ≠ .rxSync) && (s.ring e).statusWord a

/-- Every valid transmit entry is read through the checker (R106, R153). -/
def State.checkTransmitRings (s : State) : State := transmitRings.foldl State.checkRing s

/-- The entry that recognises the address, once the entries have been read. R106 says that at most one does; where words
with three or more wrong bits make two ranges hold the address, it is the lowest (log entry 32). -/
def State.recognise (s : State) (a : Address) : Option RingIndex := transmitRings.find? (s.recognises a)

/-! ### Acceptance and forwarding (R92, R96) -/

/-- A read with this tag is in the in-flight read list. -/
def Path.inList (p : Path) (tag : Tag) : Bool := p.inFlight.any (fun r => decide (r.tag = tag))

/-- The read in the list with a tag. -/
def Path.readWith (p : Path) (tag : Tag) : Option InFlightRead := p.inFlight.find? (fun r => decide (r.tag = tag))

/-- The tag is in quarantine. -/
def Path.quarantined (p : Path) (tag : Tag) : Bool := p.quarantine.any (fun q => decide (q.tag = tag))

/-- The three conditions of R96. -/
def Path.accepts (p : Path) (tag : Tag) : Bool :=
  decide (p.inFlight.length < 4) && !p.inList tag && !p.quarantined tag

/-- A read is accepted: recognised, forwarded to memory, listed (R96). -/
def State.acceptRead (s : State) (tag : Tag) (a : Address) : State :=
  let s := s.checkTransmitRings
  let r : InFlightRead := ⟨tag, a, s.time, s.path.responseLimit, s.recognise a⟩
  s.updPath (fun p => { p with inFlight := p.inFlight ++ [r], toMemory := p.toMemory ++ [.read tag a] })

/-- The descriptor address of an access: its address with the low three bits cleared (R110). -/
def descriptorAddress (a : Address) : Address := a &&& 0xFFFFF8#24

/-- A write passes: it goes to memory unchanged, and the hold list and the lock see it (R110). -/
def State.passWrite (s : State) (tag : Tag) (a : Address) (data : Word) (lanes : BitVec 4) : State :=
  let s := s.updPath (fun p => { p with toMemory := p.toMemory ++ [.write tag a data lanes] })
  (s.removeHold (descriptorAddress a)).observeWrite a data lanes

/-- The requests of a stream pass in order until one is a read that is not accepted (R92, R96). The answer is the
requests that wait, and the state. -/
def passRequests : List Request → State → List Request × State
  | [], s => ([], s)
  | .write tag a data lanes :: rest, s => passRequests rest (s.passWrite tag a data lanes)
  | .read tag a :: rest, s =>
      if s.path.accepts tag then passRequests rest (s.acceptRead tag a) else (.read tag a :: rest, s)

/-- The requests waiting at the controller side pass as far as they can (R96: at the first instant at which the
conditions hold). -/
def State.drain (s : State) : State :=
  let out := passRequests s.path.waiting s
  out.2.updPath (fun p => { p with waiting := out.1 })

/-- The controller presents a request (R92). While the reset pin is asserted none is accepted (R94). -/
def State.present (s : State) (r : Request) : State :=
  if s.resetAsserted then s else (s.updPath (fun p => { p with waiting := p.waiting ++ [r] })).drain

/-- READ_ACCEPTED: the controller presents a read, which is accepted at once or waits (R96). -/
def readAccepted (tag : Tag) (a : Address) (s : State) : State := s.present (.read tag a)

/-- READ_ACCEPTED. -/
def execReadAccepted (tag : Tag) (a : Address) (s : State) : Host.Outcome State Fault Refusal := .next (readAccepted tag a s)

/-- CONTROLLER_WRITE: the controller presents a write, which passes at once or waits behind a read (R92, R110). -/
def controllerWrite (tag : Tag) (a : Address) (data : Word) (lanes : BitVec 4) (s : State) : State :=
  s.present (.write tag a data lanes)

/-- CONTROLLER_WRITE. -/
def execControllerWrite (tag : Tag) (a : Address) (data : Word) (lanes : BitVec 4) (s : State) :
    Host.Outcome State Fault Refusal := .next (controllerWrite tag a data lanes s)

/-! ### Responses (R93, R100, R107, R108) -/

/-- The device gives the controller a response. -/
def State.answer (s : State) (tag : Tag) (data : Word) (error : Bool) : State :=
  s.updPath (fun p => { p with toController := p.toController ++ [⟨tag, data, error⟩] })

/-- The read with a tag leaves the list. -/
def State.dropRead (s : State) (tag : Tag) : State :=
  s.updPath (fun p => { p with inFlight := p.inFlight.filter (fun r => decide (r.tag ≠ tag)) })

/-- A tag leaves quarantine. -/
def State.endQuarantine (s : State) (tag : Tag) : State :=
  s.updPath (fun p => { p with quarantine := p.quarantine.filter (fun q => decide (q.tag ≠ tag)) })

/-- The tag's quarantine has expired at the present instant (R99; log entry 37). -/
def State.markExpired (s : State) (tag : Tag) : State := s.updPath (fun p => { p with expired := p.expired ++ [tag] })

/-- The late response that an expiry of this instant left open has arrived (R99; log entry 37). -/
def State.unmarkExpired (s : State) (tag : Tag) : State :=
  s.updPath (fun p => { p with expired := p.expired.filter (fun x => decide (x ≠ tag)) })

/-- The read in the list that a response with this tag answers (R93). At the instant at which the tag's quarantine has
expired it answers none, though the tag may have been accepted again there: the response is late (R99; log entry 37). -/
def Path.answeredRead (p : Path) (tag : Tag) : Option InFlightRead := if tag ∈ p.expired then none else p.readWith tag

/-- The offer of READ_TIMEOUT or LATE_RESPONSE (R112). -/
def pathEvent (s : State) (kind : EventKind) (port : Option PortIndex) (tag : Tag) (high : Bool) : EventEntry :=
  { kind, port, index := none, tag := none, cycle := lowCycle s.cycleNumber, detail := detail (weight high 0x100 + tag.toNat) }

/-- A late response (R100): counted, reported, and the end of its tag's quarantine (R99). -/
def State.lateResponse (s : State) (tag : Tag) : State :=
  let was := s.path.quarantined tag
  let s := ((s.endQuarantine tag).unmarkExpired tag).updPath (fun p => { p with lates := satInc p.lates })
  s.raise (pathEvent s .lateResponse none tag was)

/-- The candidate of a read's response, once its ring map entry has been read again (R107). Its descriptor address is the
address of the read, also where words with three or more wrong bits leave the ring's base not 8-aligned: a hold record of
such an address is then removed by no write (R110, R144; log entry 35). -/
def State.candidateOf (s : State) (r : InFlightRead) (data : Word) : Option Candidate :=
  match r.ring with
  | none => none
  | some e =>
      if s.recognises r.address e && readyBit data && !skipBit data then
        some { port := ringPort e, motion := decide ((s.ring e).kind = .txMotion), address := r.address, word := data }
      else none

/-- The second test of R107 reads the entry named again, through the checker. -/
def State.checkNamed (s : State) (r : InFlightRead) : State :=
  match r.ring with
  | none => s
  | some e => s.checkRing e

/-- A response without error status to a read in the list: decided where it is a candidate, else unchanged (R93, R108). -/
def State.respondTo (s : State) (r : InFlightRead) (data : Word) : State :=
  let s := s.checkNamed r
  match s.candidateOf r data with
  | none => s.answer r.tag data false
  | some c =>
      let out := gateDecision c s
      out.2.answer r.tag (substitute out.1 data) false

/-- MEMORY_RESPONSE (R93): matched, answered or late; what it frees lets waiting requests pass. While the reset pin is
asserted nothing passes in either direction (R94). -/
def memoryResponse (tag : Tag) (data : Word) (error : Bool) (s : State) : State :=
  if s.resetAsserted then s
  else
    match s.path.answeredRead tag with
    | none => (s.lateResponse tag).drain
    | some r =>
        let s := s.dropRead tag
        if error then (s.answer tag data true).drain else (s.respondTo r data).drain

/-- MEMORY_RESPONSE. -/
def execMemoryResponse (tag : Tag) (data : Word) (error : Bool) (s : State) : Host.Outcome State Fault Refusal :=
  .next (memoryResponse tag data error s)

/-! ### The response limit (R98) and the end of a quarantine (R99) -/

/-- The instant at which a read times out (R98). -/
def InFlightRead.deadline (r : InFlightRead) : DeviceTime := afterTicks r.forwarded r.limit

/-- A read times out (R98), at the present instant. -/
def State.timeOut (s : State) (r : InFlightRead) : State :=
  let s := (s.dropRead r.tag).answer r.tag 0 true
  let s := s.updPath (fun p =>
    { p with quarantine := p.quarantine ++ [⟨r.tag, afterTicks s.time (4 * r.limit)⟩], timeouts := satInc p.timeouts })
  (s.raise (pathEvent s .readTimeout (r.ring.map ringPort) r.tag r.ring.isSome)).drain

/-- A tag's quarantine expires (R99): no event, and waiting requests may pass, a read of the tag among them (R96). A
response with the tag at this instant is late all the same. -/
def State.expireTag (s : State) (tag : Tag) : State := ((s.endQuarantine tag).markExpired tag).drain

/-! ### SET_RING (R103) -/

/-- The state check of R103, which refuses: the port's gate for a transmit ring, the lock for the receive ring. -/
def State.ringBusy (s : State) (p : PortIndex) (ring : Fin 5) : Bool :=
  if ring.val = 4 then decide (s.lock.port = some p) && decide (s.lock.state ≠ .free)
  else decide ((s.port p).gate = .enforcing) || decide ((s.port p).gate = .failsafe)

/-- Two rings' ranges overlap (R103). -/
def Ring.overlaps (a b : Ring) : Bool := decide (a.base.toNat < b.limit) && decide (b.base.toNat < a.limit)

/-- The overlap check reads every other valid entry through the checker (R103, R153). -/
def State.checkOthers (s : State) (e : RingIndex) : State :=
  (allRings.filter (fun o => decide (o ≠ e))).foldl State.checkRing s

/-- The new range overlaps that of another valid entry, once the entries have been read (R103, check 3). -/
def State.overlapsOther (s : State) (e : RingIndex) (r : Ring) : Bool :=
  allRings.any (fun o => decide (o ≠ e) && s.ringValid o && r.overlaps (s.ring o))

/-- Both words of a ring map entry written (R103). -/
def State.putRing (s : State) (e : RingIndex) (r : Ring) : State :=
  s.putWords [(ringWord e 0, r.word0), (ringWord e 1, r.word1)]

/-- Checks 2 and 3 of SET_RING, and its effect (R103). -/
def setRingEffect (p : PortIndex) (ring : Fin 5) (r : Ring) (s : State) : State :=
  let e := ringIndex p ring
  if s.ringBusy p ring then s.respond 0x40 .state []
  else
    let s := s.checkOthers e
    if s.overlapsOther e r then s.respond 0x40 .overlap []
    else ((s.putRing e r).setRingValid e true).respond 0x40 .ok [flagByte (s.ringValid e)]

/-- The checks and effect of SET_RING (R103). -/
def setRingBody (port ring kind : Byte) (base : BitVec 24) (count : BitVec 16) (s : State) : State :=
  match portOperand port, ringOperand ring with
  | some p, some n =>
      match setRingOperand n kind base count with
      | some r => setRingEffect p n r s
      | none => s.respond 0x40 .badArgument []
  | _, _ => s.respond 0x40 .badArgument []

/-- SET_RING taken by the link. -/
def setRingTaken (port ring kind : Byte) (base : BitVec 24) (count : BitVec 16) (s : State) : State :=
  s.command 0x40 (setRingBody port ring kind base count)

/-- SET_RING. -/
def execSetRing (port ring kind : Byte) (base : BitVec 24) (count : BitVec 16) (s : State) :
    Host.Outcome State Fault Refusal := .next (setRingTaken port ring kind base count s)

/-! ### CLEAR_RING (R104) and SET_MEMORY (R101) -/

/-- The checks and effect of CLEAR_RING (R104). -/
def clearRingBody (port ring : Byte) (s : State) : State :=
  match portOperand port, ringOperand ring with
  | some p, some n =>
      if s.ringBusy p n then s.respond 0x41 .state []
      else if s.ringValid (ringIndex p n) then (s.setRingValid (ringIndex p n) false).respond 0x41 .ok []
      else s.respond 0x41 .notFound []
  | _, _ => s.respond 0x41 .badArgument []

/-- CLEAR_RING taken by the link. -/
def clearRingTaken (port ring : Byte) (s : State) : State := s.command 0x41 (clearRingBody port ring)

/-- CLEAR_RING. -/
def execClearRing (port ring : Byte) (s : State) : Host.Outcome State Fault Refusal := .next (clearRingTaken port ring s)

/-- The checks and effect of SET_MEMORY (R101). -/
def setMemoryBody (limit : BitVec 16) (s : State) : State :=
  match rangeOperand 16 4095 limit with
  | none => s.respond 0x42 .badArgument []
  | some n => (s.updPath (fun p => { p with responseLimit := n })).respond 0x42 .ok (beBytes2 s.path.responseLimit)

/-- SET_MEMORY taken by the link. -/
def setMemoryTaken (limit : BitVec 16) (s : State) : State := s.command 0x42 (setMemoryBody limit)

/-- SET_MEMORY. -/
def execSetMemory (limit : BitVec 16) (s : State) : Host.Outcome State Fault Refusal := .next (setMemoryTaken limit s)

end Sys2Proof.Machine
end

