-- ==== Sys2Proof/Machine/Boundaries.lean ====
section
/-! DEFINITION. The clock: the cycle timer (01) with its command SET_GEOMETRY, the work of slot and cycle boundaries, and
the passing of device time with everything that falls due in it (log entries 1 to 3). -/

namespace Sys2Proof.Machine

/-! ### Geometry (R3 to R7, R14) -/

/-- Condition 3 of R3: a gate is ENFORCING or FAILSAFE, or the lock is not FREE. -/
def State.geometryHeld (s : State) : Bool :=
  allPorts.any (fun p => decide ((s.port p).gate = .enforcing) || decide ((s.port p).gate = .failsafe))
    || decide (s.lock.state ≠ .free)

/-- The slot map store takes a new geometry (R37), in ascending order of the ports (log entry 31). -/
def State.openMaps (s : State) (n : Nat) : State := allPorts.foldl (State.openMap n) s

/-- The offer of GEOMETRY_APPLIED (R14). -/
def geometryEvent (g : Geometry) (cycle : CycleNumber) : EventEntry :=
  { kind := .geometryApplied, port := none, index := none, tag := none, cycle := lowCycle cycle, detail := detail g.slots }

/-- A geometry has become active: the maps open, GEOMETRY_APPLIED is raised (R5, R7). -/
def State.announceGeometry (s : State) (g : Geometry) : State :=
  let s := s.openMaps g.slots
  s.raise (geometryEvent g s.cycleNumber)

/-- The start of the timer (R5). -/
def State.startTimer (s : State) (g : Geometry) : State :=
  { s with timer := some { geometry := g, staged := none, cycle := 0, start := s.time, adjustment := 0 } }.announceGeometry g

/-- A geometry named while RUNNING (R6): staged, or the withdrawal of what was staged. -/
def Timer.stage (t : Timer) (g : Geometry) : Timer := { t with staged := if g = t.geometry then none else some g }

/-- The effect of SET_GEOMETRY (R4, R5, R6). -/
def setGeometryEffect (g : Geometry) (s : State) : State :=
  match s.timer with
  | none => (s.startTimer g).respond 0x10 .ok [0x00]
  | some t => { s with timer := some (t.stage g) }.respond 0x10 .ok [if g = t.geometry then 0x02 else 0x01]

/-- The checks and effect of SET_GEOMETRY (R3). -/
def setGeometryBody (slots : Byte) (ticks : BitVec 16) (s : State) : State :=
  match geometryOperand slots ticks with
  | none => s.respond 0x10 .badArgument []
  | some g =>
      if s.anyInUse then s.respond 0x10 .inUse []
      else if s.geometryHeld then s.respond 0x10 .state []
      else setGeometryEffect g s

/-- SET_GEOMETRY taken by the link. -/
def setGeometryTaken (slots : Byte) (ticks : BitVec 16) (s : State) : State := s.command 0x10 (setGeometryBody slots ticks)

/-- SET_GEOMETRY. -/
def execSetGeometry (slots : Byte) (ticks : BitVec 16) (s : State) : Host.Outcome State Fault Refusal :=
  .next (setGeometryTaken slots ticks s)

/-! ### The work of a slot boundary (R11) -/

/-- The slot boundary that ends slot k of a cycle, not its last: the missed-slot check and one scrub. The first order
choice takes the scrub first (R159; log entry 3), the second lets a check before it leave the scrub's word to the scrub,
the third brings the wrong bits of that word back where the check has rewritten it (log entry 33). -/
def State.slotBoundaryWork (s : State) (k : Nat) : State :=
  let scrubFirst := s.choice 0
  let asStood := s.choice 1
  let bitsReturn := s.choice 2
  let check := fun s : State => s.missedSlotCheck k s.cycleNumber
  let s := s.dropChoices 3
  if scrubFirst then check s.scrubOne else (s.beforeScrub asStood bitsReturn check).scrubOne

/-! ### The work of a cycle boundary (R12) -/

/-- The geometry applied at this boundary: the staged one, where the conditions of R7 hold. -/
def State.applies (s : State) (t : Timer) : Option Geometry :=
  match t.staged with
  | some g => if s.anyInUse || s.geometryHeld then none else some g
  | none => none

/-- The timer of the cycle that begins now (R12): the number, the start, the geometry, the adjustment, as one change. -/
def Timer.turn (t : Timer) (now : DeviceTime) (applied : Option Geometry) (handed : Option Int) : Timer :=
  match applied with
  | some g => { geometry := g, staged := none, cycle := t.cycle + 1, start := now, adjustment := 0 }
  | none => { t with cycle := t.cycle + 1, start := now, adjustment := handed.getD 0 }

/-- The timer's change at the boundary, with the hand-over of the stored adjustment (R10, R12, R27). -/
def State.turnTimer (s : State) (t : Timer) (applied : Option Geometry) : State :=
  { s with timer := some (t.turn s.time applied s.lock.stored), lock := { s.lock with stored := none } }

/-- The timer's change, and with it the new maps and the report of a geometry that is applied (R7, R12, R37). -/
def State.turnCycle (s : State) (t : Timer) (applied : Option Geometry) : State :=
  match applied with
  | some g => (s.turnTimer t applied).announceGeometry g
  | none => s.turnTimer t applied

/-- Committed maps are put in force, where no geometry is applied (R42), in ascending order of the ports (log entry
31). -/
def State.mapsBoundary (s : State) (applied : Option Geometry) : State :=
  match applied with
  | some _ => s
  | none => allPorts.foldl State.applyMap s

/-- The pending map that this boundary applies although its used word at the scrub pointer is uncorrectable (R159, 'Other
first'), and which of its words that is. A map with another uncorrectable word is lost (R45). -/
def State.struckMap (s : State) (applied : Option Geometry) : Option (PortIndex × Nat) :=
  match applied, (s.word s.prot.scrub.val).verdict, occupant s.prot.scrub.val with
  | none, .lost, .pendingMap p part =>
      if s.appliesNext p && decide (16 * part < s.slotCount)
          && (usedParts s.slotCount).all (fun j =>
            decide (j = part) || decide ((s.word (pendingWord p j)).verdict ≠ .lost)) then
        some (p, part)
      else none
  | _, _, _ => none

/-- The maps' work before the scrub, which reads a word of the new active map where `struck` names one (R159): the wrong
bits are set aside while the map is applied, and stand in the same word of the new active map (log entry 33). -/
def State.mapsBeforeScrub (s : State) (applied : Option Geometry) (struck : Option (PortIndex × Nat)) : State :=
  match struck with
  | none => s.mapsBoundary applied
  | some (p, part) =>
      let flips := (s.word (pendingWord p part)).flips
      ((s.setFlips (pendingWord p part) 0).mapsBoundary applied).setFlips (activeWord p part) flips

/-- The last scrub of a boundary: of the word at the pointer, or of the new active map's word (R159). -/
def State.lastScrub (s : State) (struck : Option (PortIndex × Nat)) : State :=
  match struck with
  | none => s.scrubOne
  | some (p, part) => s.scrubWord (activeWord p part)

/-- Every limit mark is cleared (R175). -/
def State.clearMarks (s : State) : State := { s with events := { s.events with marks := [] } }

/-- The scrub, where this place of the boundary is its turn. -/
def State.scrubIf (s : State) (here : Bool) : State := if here then s.scrubOne else s

/-- Expiry of hold records, where this place of the boundary is its turn. -/
def State.expireIf (s : State) (here : Bool) : State := if here then s.expireHolds else s

/-- A scrub before the rest of a boundary's work, that of R37 with it (R159): the cycle number is that of the cycle that
begins, the geometry and the maps those of the cycle that ends. -/
def State.scrubAhead (s : State) (t : Timer) : State :=
  { s with timer := some { t with cycle := t.cycle + 1 } }.scrubOne

/-- The places of a cycle boundary's work that the manual leaves open. -/
structure BoundaryOrder where
  /-- The scrub comes before everything else, with R37's opening of the maps (R159). -/
  scrubFirst : Bool
  /-- The scrub comes between the table's work and the maps' (R159). -/
  scrubSecond : Bool
  /-- Hold records expire before the entry and port reports of the boundary (R149). -/
  expiryFirst : Bool
  /-- The missed-slot check and the maps' work, before the scrub, leave the scrub's word to it (R159; log entry 33). -/
  asStood : Bool
  /-- The wrong bits of that word are there again although the missed-slot check has rewritten it (log entry 33). -/
  bitsReturn : Bool
  deriving DecidableEq, Repr

/-- The next five order choices. -/
def State.boundaryOrder (s : State) : BoundaryOrder := ⟨s.choice 0, s.choice 1, s.choice 2, s.choice 3, s.choice 4⟩

/-- The blocks' work at a cycle boundary before the lock's, the scrub included unless it is the last. -/
def State.openingWork (s : State) (t : Timer) (applied : Option Geometry) (o : BoundaryOrder) : State :=
  let s := if o.scrubFirst then s.scrubAhead t else s
  let s := (s.turnCycle t applied).expireIf o.expiryFirst
  let s := s.tableBoundary (!o.scrubFirst && o.asStood) o.bitsReturn (t.geometry.slots - 1) t.cycle
  s.scrubIf (!o.scrubFirst && o.scrubSecond)

/-- The blocks' work at a cycle boundary after the lock's, the last scrub apart. -/
def State.closingWork (s : State) (o : BoundaryOrder) : State :=
  ((allPorts.foldl State.clearPastBusy s).expireIf (!o.expiryFirst)).clearMarks

/-- The cycle boundary, at the present instant: the timer's change, then the blocks' work, each block's whole. Five order
choices place the scrub (R159) and the expiry of hold records (R149) and say what the scrub finds; the rest of the order is
the model's (log entries 3, 17 and 33). -/
def State.cycleBoundaryWork (s : State) (t : Timer) : State :=
  let o := s.boundaryOrder
  let applied := s.applies t
  let handedOver := s.lock.stored.isSome
  let scrubLast := !o.scrubFirst && !o.scrubSecond
  let s := (s.dropChoices 5).openingWork t applied o
  let struck := if scrubLast && o.asStood then s.struckMap applied else none
  let s := (s.mapsBeforeScrub applied struck).lockBoundary handedOver t.adjustment
  let s := s.closingWork o
  if scrubLast then s.lastScrub struck else s

/-! ### The passing of device time (R1) -/

/-- The descriptor path n ticks on: what has expired at an earlier instant is no longer of the present one (log entry
37). -/
def Path.afterTicks (p : Path) (n : Nat) : Path := if n = 0 then p else { p with expired := [] }

/-- Device time advances by n ticks. The initialisation pass writes word k in tick k (R152). -/
def State.tickBy (s : State) (n : Nat) : State :=
  let s' := { s with time := Machine.afterTicks s.time n, path := s.path.afterTicks n }
  if s.prot.busy then s'.setMemory (s.prot.memory.clear s.time.toNat (s.time.toNat + n)) else s'

/-- The initialisation pass is complete (R152): every word holds data 0 with valid check bits, the flag is done. -/
def State.finishInit (s : State) : State := { s with prot := { s.prot with memory := [], busy := false } }

/-- What falls due by the clock alone. -/
inductive ClockEvent where
  | slotEnd (k : Nat)
  | cycleEnd
  | initDone
  | timeout (r : InFlightRead)
  | expiry (tag : Tag)
  deriving DecidableEq, Repr

/-- The clock event at its instant. -/
def State.takeEvent (s : State) (e : ClockEvent) : State :=
  match e with
  | .slotEnd k => s.slotBoundaryWork k
  | .cycleEnd =>
      match s.timer with
      | some t => s.cycleBoundaryWork t
      | none => s
  | .initDone => s.finishInit
  | .timeout r => s.timeOut r
  | .expiry tag => s.expireTag tag

/-- The next boundary of the cycle timer, and how many ticks ahead it is (R11, R12); none while STOPPED. -/
def State.nextBoundary (s : State) : Option (Nat × ClockEvent) :=
  s.timer.map (fun t =>
    let position := t.position s.time
    let k := t.slotAt position
    if k + 1 < t.geometry.slots then ((k + 1) * t.geometry.ticks - position, .slotEnd k)
    else (t.length - position, .cycleEnd))

/-- The end of the initialisation pass, and how many ticks ahead it is (R152). -/
def State.initEnd (s : State) : Option (Nat × ClockEvent) :=
  if s.prot.busy then some (1024 - s.time.toNat, .initDone) else none

/-- The deadlines of the descriptor path, and how many ticks ahead they are (R98, R99). -/
def State.deadlines (s : State) : List (Nat × ClockEvent) :=
  s.path.inFlight.map (fun r => (ticksUntil s.time r.deadline, .timeout r))
    ++ s.path.quarantine.map (fun q => (ticksUntil s.time q.expiry, .expiry q.tag))

/-- The earlier of two clock events; the first at a tie. -/
def sooner (a b : Nat × ClockEvent) : Nat × ClockEvent := if b.1 < a.1 then b else a

/-- The clock event to take within the next n ticks, if any. A boundary is taken on reaching its instant, so that the
position stays below the cycle length (R9); the others stay open at their instant, so that a response or a command may
still be taken before them there (R98, R99, R165). A boundary comes before what falls at the same instant. -/
def State.nextEvent (s : State) (n : Nat) : Option (Nat × ClockEvent) :=
  let boundary := s.nextBoundary.filter (fun x => decide (x.1 ≤ n))
  let others := (s.initEnd.toList ++ s.deadlines).filter (fun x => decide (x.1 < n))
  match boundary.toList ++ others with
  | [] => none
  | x :: xs => some (xs.foldl sooner x)

/-- n ticks pass, and the clock events that fall due in them are taken. `fuel` bounds the events; `State.clockFuel` is
never used up by a state the device can be in, and time stands still where it would be. -/
def passTime : Nat → Nat → State → State
  | 0, _, s => s
  | fuel + 1, n, s =>
      match s.nextEvent n with
      | none => s.tickBy n
      | some (d, e) => passTime fuel (n - d) ((s.tickBy d).takeEvent e)

/-- More clock events than can fall due on the way to any instant the model lets time pass to: each request and each
quarantined tag gives at most two, the boundaries of a cycle and of the longest quarantine are fewer than the rest. -/
def State.clockFuel (s : State) : Nat :=
  2 * (s.path.inFlight.length + s.path.waiting.length) + s.path.quarantine.length + s.slotCount + 128

/-- n ticks pass, and everything that falls due in them is taken. While the reset pin is asserted the clock of the model
stands still (log entry 4). -/
def State.pass (s : State) (n : Nat) : State := if s.resetAsserted then s else passTime s.clockFuel n s

/-- One tick of the reference clock. -/
def State.tick (s : State) : State := s.pass 1

/-! ### The commands that name a clock event (log entry 2) -/

/-- Ticks from now to the end of the current cycle. -/
def State.toCycleEnd (s : State) (t : Timer) : Nat := t.length - t.position s.time

/-- Ticks from now to the end of the current slot. -/
def State.toSlotEnd (s : State) : Nat := (s.nextBoundary.map Prod.fst).getD 0

/-- The current slot is the last of its cycle. -/
def State.inLastSlot (s : State) (t : Timer) : Bool := decide (t.geometry.slots ≤ t.slot s.time + 1)

/-- SLOT_BOUNDARY: time passes to the end of the current slot, in the last slot to the end of the following one. While
STOPPED there is no boundary (R2). -/
def slotBoundary (s : State) : State :=
  match s.timer with
  | none => s
  | some t =>
      let s := if s.inLastSlot t then s.pass (s.toCycleEnd t) else s
      s.pass s.toSlotEnd

/-- SLOT_BOUNDARY. -/
def execSlotBoundary (s : State) : Host.Outcome State Fault Refusal := .next (slotBoundary s)

/-- CYCLE_BOUNDARY: time passes to the end of the current cycle, the slot boundaries on the way taken. -/
def cycleBoundary (s : State) : State :=
  match s.timer with
  | none => s
  | some t => s.pass (s.toCycleEnd t)

/-- CYCLE_BOUNDARY. -/
def execCycleBoundary (s : State) : Host.Outcome State Fault Refusal := .next (cycleBoundary s)

/-- INITIALISATION_PASS_DONE: time passes to the end of the pass, which is complete then (R152). -/
def initialisationPassDone (s : State) : State :=
  if s.resetAsserted || !s.prot.busy then s else (s.pass (1024 - s.time.toNat)).finishInit

/-- INITIALISATION_PASS_DONE. -/
def execInitialisationPassDone (s : State) : Host.Outcome State Fault Refusal := .next (initialisationPassDone s)

/-- READ_TIMEOUT: time passes to the deadline of the read with this tag, which times out then (R98). Where no read in the
list has the tag there is no timeout (log entry 28). -/
def readTimeout (tag : Tag) (s : State) : State :=
  match s.resetAsserted, s.path.readWith tag with
  | false, some r =>
      let s := s.pass (ticksUntil s.time r.deadline)
      match s.path.readWith tag with
      | some r => s.timeOut r
      | none => s
  | _, _ => s

/-- READ_TIMEOUT. -/
def execReadTimeout (tag : Tag) (s : State) : Host.Outcome State Fault Refusal := .next (readTimeout tag s)

/-- The quarantine record of a tag. -/
def Path.quarantineOf (p : Path) (tag : Tag) : Option Quarantined := p.quarantine.find? (fun q => decide (q.tag = tag))

/-- QUARANTINE_EXPIRY: time passes to the tag's expiry time, and its quarantine ends then (R99). -/
def quarantineExpiry (tag : Tag) (s : State) : State :=
  match s.resetAsserted, s.path.quarantineOf tag with
  | false, some q => (s.pass (ticksUntil s.time q.expiry)).expireTag tag
  | _, _ => s

/-- QUARANTINE_EXPIRY. -/
def execQuarantineExpiry (tag : Tag) (s : State) : Host.Outcome State Fault Refusal := .next (quarantineExpiry tag s)

end Sys2Proof.Machine
end

