-- ==== Sys2Proof/Machine/Reports.lean ====
section
/-! DEFINITION. The commands that report the device's state and clear its counts: READ_STATUS (10 R168), READ_EVENT,
SET_EVENTS, CLEAR_COUNTERS (11). -/

namespace Sys2Proof.Machine

/-! ### READ_STATUS (R168) -/

/-- The timer's eleven bytes and the flags (R15, R168). -/
def State.timerBytes (s : State) : List Byte :=
  match s.timer with
  | none => [0x00, 0x00] ++ beBytes2 0 ++ [statusFlags false s.prot.busy s.anyFaulted s.lock.jitter s.events.overflow]
      ++ beBytes4 0 ++ beBytes3 0
  | some t =>
      [0x01, byteOf t.geometry.slots] ++ beBytes2 t.geometry.ticks
        ++ [statusFlags t.staged.isSome s.prot.busy s.anyFaulted s.lock.jitter s.events.overflow]
        ++ beBytes4 t.cycle.toNat ++ beBytes3 (t.position s.time)

/-- The 51 result bytes of READ_STATUS (R168). -/
def State.statusBytes (s : State) : List Byte :=
  s.timerBytes ++ [s.lock.state.byte, byteOf s.events.queue.length]
    ++ beBytes4 s.path.timeouts.toNat ++ beBytes4 s.path.lates.toNat ++ beBytes4 s.prot.corrected.toNat
    ++ beBytes4 s.holds.full.toNat ++ beBytes4 s.holds.expired.toNat
    ++ beBytes4 s.lock.marks.toNat ++ beBytes4 s.lock.outliers.toNat
    ++ [byteOf s.holds.records.length] ++ allPorts.map (fun p => byteOf (s.portHolds p))

/-- READ_STATUS taken by the link, during the initialisation pass too (R165, R168). -/
def readStatusTaken (s : State) : State :=
  if s.takesFrame then s.endTransaction.respond 0x01 .ok s.statusBytes else s.endTransaction

/-- READ_STATUS. -/
def execReadStatus (s : State) : Host.Outcome State Fault Refusal := .next (readStatusTaken s)

/-! ### READ_EVENT (R177) -/

/-- The 12 result bytes of READ_EVENT (R177). -/
def EventQueue.readBytes (q : EventQueue) : List Byte :=
  match q.queue with
  | [] => List.replicate 10 0x00 ++ [flagByte q.overflow, 0x00]
  | e :: rest => e.bytes ++ [flagByte q.overflow, byteOf rest.length]

/-- The queue after READ_EVENT: the oldest entry gone, the overflow flag cleared where that was the last (R177). -/
def EventQueue.afterRead (q : EventQueue) : EventQueue :=
  match q.queue with
  | [] => q
  | [_] => { q with queue := [], overflow := false }
  | _ :: e :: rest => { q with queue := e :: rest }

/-- The effect of READ_EVENT. -/
def readEventBody (s : State) : State := { s with events := s.events.afterRead }.respond 0x60 .ok s.events.readBytes

/-- READ_EVENT taken by the link. -/
def readEventTaken (s : State) : State := s.command 0x60 readEventBody

/-- READ_EVENT. -/
def execReadEvent (s : State) : Host.Outcome State Fault Refusal := .next (readEventTaken s)

/-! ### SET_EVENTS (R179) -/

/-- The checks and effect of SET_EVENTS (R179). -/
def setEventsBody (mask : BitVec 32) (enable : Byte) (s : State) : State :=
  match maskOperand mask, flagOperand enable with
  | some m, some on =>
      { s with events := { s.events with mask := m, enable := on } }.respond 0x61 .ok
        (beBytes4 s.events.mask.toNat ++ [flagByte s.events.enable])
  | _, _ => s.respond 0x61 .badArgument []

/-- SET_EVENTS taken by the link. -/
def setEventsTaken (mask : BitVec 32) (enable : Byte) (s : State) : State := s.command 0x61 (setEventsBody mask enable)

/-- SET_EVENTS. -/
def execSetEvents (mask : BitVec 32) (enable : Byte) (s : State) : Host.Outcome State Fault Refusal :=
  .next (setEventsTaken mask enable s)

/-! ### CLEAR_COUNTERS (R180) -/

/-- The four counters of an entry at 0. -/
def Entry.clearCounters (e : Entry) : Entry := { e with totalMisses := 0, overrunDrops := 0, staleDrops := 0, passed := 0 }

/-- The seven global counts at 0. -/
def State.clearGlobals (s : State) : State :=
  { s with
      path := { s.path with timeouts := 0, lates := 0 }
      prot := { s.prot with corrected := 0 }
      holds := { s.holds with full := 0, expired := 0 }
      lock := { s.lock with marks := 0, outliers := 0 } }

/-- The checks and effect of CLEAR_COUNTERS (R180). -/
def clearCountersBody (selector index : Byte) (s : State) : State :=
  if selector = 0x00 then
    match portOperand index with
    | some p => (s.countPort p (fun _ => PortCounters.zero)).respond 0x62 .ok []
    | none => s.respond 0x62 .badArgument []
  else if selector = 0x01 then
    match entryOperand index with
    | some i => (s.updEntry i Entry.clearCounters).respond 0x62 .ok []
    | none => s.respond 0x62 .badArgument []
  else if selector = 0x02 ∧ index = 0x00 then s.clearGlobals.respond 0x62 .ok []
  else s.respond 0x62 .badArgument []

/-- CLEAR_COUNTERS taken by the link. -/
def clearCountersTaken (selector index : Byte) (s : State) : State := s.command 0x62 (clearCountersBody selector index)

/-- CLEAR_COUNTERS. -/
def execClearCounters (selector index : Byte) (s : State) : Host.Outcome State Fault Refusal :=
  .next (clearCountersTaken selector index s)

end Sys2Proof.Machine
end

