-- ==== Sys2Proof/Machine/Management.lean ====
section
/-! DEFINITION. The end of a transaction (10 R161, R164, R165): the frame received is checked and, if well formed, its
command is taken. -/

namespace Sys2Proof.Machine

/-- A management command taken by the link. Only a frame is: any other command leaves the state as it is. -/
def takeCommand (i : Instr) (s : State) : State :=
  match i with
  | .nop => nopTaken s
  | .readStatus => readStatusTaken s
  | .setGeometry n t => setGeometryTaken n t s
  | .setSync p t phi tol m l => setSyncTaken p t phi tol m l s
  | .loadMap p ks => loadMapTaken p ks s
  | .commitMap p => commitMapTaken p s
  | .cancelMap p => cancelMapTaken p s
  | .admitStream p t k l f => admitTaken p t k l f s
  | .release i => releaseTaken i s
  | .purge i => purgeTaken i s
  | .readReservation i => readReservationTaken i s
  | .setRing p r k b n => setRingTaken p r k b n s
  | .clearRing p r => clearRingTaken p r s
  | .setMemory l => setMemoryTaken l s
  | .setPort p r x lead g m f q k u st si => setPortTaken p r x lead g m f q k u st si s
  | .portEnforce p => portEnforceTaken p s
  | .portHold p => portHoldTaken p s
  | .portTransparent p => portTransparentTaken p s
  | .readPort p x => readPortTaken p x s
  | .readEvent => readEventTaken s
  | .setEvents m e => setEventsTaken m e s
  | .clearCounters x i => clearCountersTaken x i s
  | .resetAsserted => s
  | .resetReleased => s
  | .initialisationPassDone => s
  | .slotBoundary => s
  | .cycleBoundary => s
  | .transactionStart => s
  | .transactionEnd => s
  | .readAccepted _ _ => s
  | .controllerWrite _ _ _ _ => s
  | .memoryResponse _ _ _ => s
  | .readTimeout _ => s
  | .quarantineExpiry _ => s
  | .mgtSckEdge _ => s

/-- The frame of the transaction that ends: none where no whole byte was received, else its command, else BAD_FRAME
(R161, R164, R165). -/
def State.takeFrame (s : State) : State :=
  if s.link.count = 0 then s.endTransaction
  else
    match decodeFrame s.link.count s.link.buffer with
    | some i => takeCommand i s
    | none => s.badFrame (s.link.buffer.headD 0)

/-- TRANSACTION_END: MGT_CSN rises (R161). With MGT_CSN high already there is no rising edge (log entry 23); what is no
transaction of the device ends without a frame (R162). -/
def transactionEnd (s : State) : State :=
  if !s.link.csnLow then s
  else if s.resetAsserted || !s.link.receiving then s.endTransaction
  else s.takeFrame

/-- TRANSACTION_END. -/
def execTransactionEnd (s : State) : Host.Outcome State Fault Refusal := .next (transactionEnd s)

end Sys2Proof.Machine
end

