-- ==== Sys2Proof/Machine/Reset.lean ====
section
/-! DEFINITION. The reset pin: RESET_ASSERTED and RESET_RELEASED (06 R94, 09 R152, 10 R162). -/

namespace Sys2Proof.Machine

/-- RESET_ASSERTED: reads in flight and the requests that wait are abandoned, the transaction under way is abandoned, and
until the release nothing is accepted or forwarded and the outputs are inactive (R94, R162, R178). The other state is
held until the release gives it its reset values (log entry 4). -/
def resetAsserted (s : State) : State :=
  { s with
      resetAsserted := true
      path := { s.path with inFlight := [], waiting := [] }
      link := { s.link with receiving := false, buffer := [], count := 0, bits := [], shifted := 0 } }

/-- RESET_ASSERTED. -/
def execResetAsserted (s : State) : Host.Outcome State Fault Refusal := .next (resetAsserted s)

/-- RESET_RELEASED: every block takes its reset state and the initialisation pass begins at word 0 (R152). What is not
the device's to reset stays: the queue of commands, the order choices, the level of MGT_CSN, the record of what the two
buses carried, and the words of table memory until the pass writes them (log entries 5 and 10). -/
def resetReleased (s : State) : State :=
  { State.reset with
      pending := s.pending
      choices := s.choices
      path := { Path.initial with toController := s.path.toController, toMemory := s.path.toMemory }
      prot := { Protection.initial with memory := s.prot.memory }
      link := { Link.initial with csnLow := s.link.csnLow } }

/-- RESET_RELEASED. -/
def execResetReleased (s : State) : Host.Outcome State Fault Refusal := .next (resetReleased s)

end Sys2Proof.Machine
end

