-- ==== Sys2Proof/Machine/Dispatch.lean ====
section
/-! DEFINITION. One arm per command, each a direct call of its meaning. -/

namespace Sys2Proof.Machine

def exec (i : Instr) (s : State) : Host.Outcome State Fault Refusal :=
  match i with
  | .resetAsserted => Sys2Proof.Machine.execResetAsserted s
  | .resetReleased => Sys2Proof.Machine.execResetReleased s
  | .initialisationPassDone => Sys2Proof.Machine.execInitialisationPassDone s
  | .slotBoundary => Sys2Proof.Machine.execSlotBoundary s
  | .cycleBoundary => Sys2Proof.Machine.execCycleBoundary s
  | .transactionStart => Sys2Proof.Machine.execTransactionStart s
  | .transactionEnd => Sys2Proof.Machine.execTransactionEnd s
  | .nop => Sys2Proof.Machine.execNop s
  | .readStatus => Sys2Proof.Machine.execReadStatus s
  | .setGeometry slots ticks => Sys2Proof.Machine.execSetGeometry slots ticks s
  | .setSync port tag phi tolerance maxStep holdoverLimit => Sys2Proof.Machine.execSetSync port tag phi tolerance maxStep holdoverLimit s
  | .loadMap port kinds => Sys2Proof.Machine.execLoadMap port kinds s
  | .commitMap port => Sys2Proof.Machine.execCommitMap port s
  | .cancelMap port => Sys2Proof.Machine.execCancelMap port s
  | .admitStream port tag slot maxLength frames => Sys2Proof.Machine.execAdmit port tag slot maxLength frames s
  | .release index => Sys2Proof.Machine.execRelease index s
  | .purge index => Sys2Proof.Machine.execPurge index s
  | .readReservation index => Sys2Proof.Machine.execReadReservation index s
  | .setRing port ring kind base count => Sys2Proof.Machine.execSetRing port ring kind base count s
  | .clearRing port ring => Sys2Proof.Machine.execClearRing port ring s
  | .setMemory limit => Sys2Proof.Machine.execSetMemory limit s
  | .setPort port rate extra lead guard maxFrame failMode requireLock reclaim unreserved stale silence => Sys2Proof.Machine.execSetPort port rate extra lead guard maxFrame failMode requireLock reclaim unreserved stale silence s
  | .portEnforce port => Sys2Proof.Machine.execPortEnforce port s
  | .portHold port => Sys2Proof.Machine.execPortHold port s
  | .portTransparent port => Sys2Proof.Machine.execPortTransparent port s
  | .readPort port selector => Sys2Proof.Machine.execReadPort port selector s
  | .readEvent => Sys2Proof.Machine.execReadEvent s
  | .setEvents mask enable => Sys2Proof.Machine.execSetEvents mask enable s
  | .clearCounters selector index => Sys2Proof.Machine.execClearCounters selector index s
  | .readAccepted tag address => Sys2Proof.Machine.execReadAccepted tag address s
  | .controllerWrite tag address data lanes => Sys2Proof.Machine.execControllerWrite tag address data lanes s
  | .memoryResponse tag data error => Sys2Proof.Machine.execMemoryResponse tag data error s
  | .readTimeout tag => Sys2Proof.Machine.execReadTimeout tag s
  | .quarantineExpiry tag => Sys2Proof.Machine.execQuarantineExpiry tag s
  | .mgtSckEdge edge => Sys2Proof.Machine.execMgtSckEdge edge s

end Sys2Proof.Machine
end

