-- ==== Sys2Proof/Safety.lean ====
section
/-! DEFINITION. What the device keeps at every instant, as the manual states it: one predicate per block; and the terms in
which the statements about commands speak of a state. -/

namespace Sys2Proof.Machine

/-- Table memory is in its canonical form. -/
abbrev MemoryInv (s : State) : Prop := s.prot.memory.wf

/-- The event queue (R173, R176, R179): at most 32 entries, the overflow flag set only while it is non-empty, the mask
with bit 0 and bits 27 to 31 clear. -/
structure EventInv (s : State) : Prop where
  room : s.events.queue.length ≤ 32
  overflow : s.events.overflow = true → s.events.queue ≠ []
  mask : s.events.mask &&& 0xF8000001#32 = 0

/-- The in-flight read list and the quarantine (R96, R99): at most 4 reads with distinct tags, none of them in
quarantine; no tag is in quarantine twice. -/
structure PathInv (s : State) : Prop where
  room : s.path.inFlight.length ≤ 4
  distinct : (s.path.inFlight.map InFlightRead.tag).Nodup
  apart : ∀ r ∈ s.path.inFlight, ∀ q ∈ s.path.quarantine, r.tag ≠ q.tag
  once : (s.path.quarantine.map Quarantined.tag).Nodup

/-- The admission order list holds each entry that is not FREE once, and no other (R65). -/
structure OrderInv (s : State) : Prop where
  once : s.order.Nodup
  exact : ∀ i, i ∈ s.order ↔ (s.entry i).state ≠ .free

/-- The gates (07, 'Gate State'; R125): a failsafe cause exactly in FAILSAFE, a busy-until in ENFORCING only. -/
structure GateInv (s : State) : Prop where
  cause : ∀ p, (s.port p).cause = .none ↔ (s.port p).gate ≠ .failsafe
  busy : ∀ p, (s.port p).busy.isSome = true → (s.port p).gate = .enforcing

/-- The hold list (R138, R140): at most 32 records, one per descriptor address, on ports in ENFORCING and against entries
in ACTIVE or RELEASING only. -/
structure HoldInv (s : State) : Prop where
  room : s.holds.records.length ≤ 32
  once : (s.holds.records.map HoldRecord.address).Nodup
  enforcing : ∀ r ∈ s.holds.records, (s.port r.port).gate = .enforcing
  inForce : ∀ r ∈ s.holds.records, (s.entry r.entry).state.inForce = true

/-- While the initialisation pass runs the timer is STOPPED (R2, R152): SET_GEOMETRY is answered BUSY until its end (R165). -/
def PassInv (s : State) : Prop := s.prot.busy = true → s.timer = none

/-- A geometry in its ranges (R3). -/
structure Geometry.ok (g : Geometry) : Prop where
  slotsLow : 2 ≤ g.slots
  slotsHigh : g.slots ≤ 48
  ticksLow : 500 ≤ g.ticks
  ticksHigh : g.ticks ≤ 65535

/-- A running timer (R3, R6, R8, R9): geometries in range, a staged one never the active one, the adjustment in range,
the position below the cycle length. -/
structure Timer.ok (t : Timer) (now : DeviceTime) : Prop where
  geometry : t.geometry.ok
  staged : ∀ g, t.staged = some g → g.ok ∧ g ≠ t.geometry
  low : -255 ≤ t.adjustment
  high : t.adjustment < t.geometry.cycleTicks
  position : t.position now < t.length

/-- The lock and the timer together (R7, R16, R19, R24, R26, R27): outside FREE the timer runs, a sync port is set and φ
lies in the cycle; a value is stored only in ALIGNING, as an alignment adjustment, or in LOCKED, as a correction. -/
structure TimingInv (s : State) : Prop where
  timer : ∀ t, s.timer = some t → t.ok s.time
  free : s.lock.state = .free ↔ s.lock.port = none
  running : s.lock.state ≠ .free → s.timer ≠ none
  phi : ∀ t, s.timer = some t → s.lock.state ≠ .free → s.lock.phi < t.geometry.cycleTicks
  maxStep : s.lock.maxStep ≤ 255
  stored : ∀ t v, s.timer = some t → s.lock.stored = some v →
    (s.lock.state = .aligning ∧ 0 ≤ v ∧ v < t.geometry.cycleTicks) ∨ (s.lock.state = .locked ∧ -255 ≤ v ∧ v ≤ 255)

/-- Everything above at once. -/
structure Inv (s : State) : Prop where
  memory : MemoryInv s
  events : EventInv s
  path : PathInv s
  order : OrderInv s
  gates : GateInv s
  holds : HoldInv s
  timing : TimingInv s
  pass : PassInv s

/-! ### Terms of the statements -/

/-- A frame that ends now is taken, and its command reaches its owning block (R162, R165). -/
structure State.ready (s : State) : Prop where
  takes : s.takesFrame = true
  passDone : s.prot.busy = false

/-- The link after a transaction: MGT_CSN high, IDLE, nothing received (R161), with this response record. -/
def restingLink (r : ResponseRecord) : Link where
  csnLow := false
  receiving := false
  buffer := []
  count := 0
  bits := []
  shifted := 0
  record := r

/-- All as in `s`, the transaction ended and the response record replaced (R163). -/
def State.answered (s : State) (code : Byte) (status : Status) (result : List Byte) : State :=
  { s with link := restingLink ⟨status, code, result⟩ }

/-- All as in `s`, the transaction ended and the response record as it was (R161). -/
def State.ended (s : State) : State := { s with link := restingLink s.link.record }

/-- No bit of table memory is wrong. -/
def State.cleanTable (s : State) : Prop := ∀ k, (s.word k).flips = 0

/-- Nothing falls due by the clock but the boundaries of the cycle timer. -/
structure State.quiet (s : State) : Prop where
  released : s.resetAsserted = false
  passDone : s.prot.busy = false
  inFlight : s.path.inFlight = []
  quarantine : s.path.quarantine = []

/-- Nothing falls due by the clock in the next n ticks, nor at their end a boundary of the cycle timer. -/
structure State.nothingDue (s : State) (n : Nat) : Prop where
  released : s.resetAsserted = false
  boundary : ∀ x, s.nextBoundary = some x → n < x.1
  initEnd : s.prot.busy = true → s.time.toNat + n ≤ 1024
  reads : ∀ r ∈ s.path.inFlight, n ≤ ticksUntil s.time r.deadline
  tags : ∀ q ∈ s.path.quarantine, n ≤ ticksUntil s.time q.expiry

/-- The three conditions of R7 under which a staged geometry is applied. -/
structure State.freeForGeometry (s : State) : Prop where
  entries : ∀ i, (s.entry i).state = .free
  gates : ∀ p, (s.port p).gate ≠ .enforcing ∧ (s.port p).gate ≠ .failsafe
  lock : s.lock.state = .free

/-- Entry i counts a miss at the end of slot k (R88): ACTIVE, in this slot, not overbooked, its port ENFORCING, nothing
released in this cycle. -/
def State.misses (s : State) (k : Nat) (i : EntryIndex) : Bool :=
  decide ((s.entry i).state = .active) && decide ((s.reservation i).slot.toNat = k) && !(s.reservation i).overbooked
    && decide ((s.port (s.reservation i).port).gate = .enforcing) && decide ((s.reservation i).used = 0)

/-- Entry i turns silent at the end of slot k (R89): it counts a miss, its flag is clear, and its misses reach the silence
limit of its port. -/
def State.silences (s : State) (k : Nat) (i : EntryIndex) : Bool :=
  s.misses k i && !(s.reservation i).silent
    && decide ((s.port (s.reservation i).port).settings.silence ≤ (satInc (s.reservation i).misses).toNat)

/-- The queue after these offers, in turn. -/
def EventQueue.offers (q : EventQueue) (l : List EventEntry) : EventQueue := l.foldl EventQueue.offer q

/-- An event of the reservation table about entry i, with the port and the tag it has in `s` (R91, R136). -/
def State.tableEvent (s : State) (kind : EventKind) (i : EntryIndex) (cycle : CycleNumber) (d : Nat) : EventEntry :=
  ⟨kind, some (s.reservation i).port, some i, some (s.reservation i).tag, lowCycle cycle, BitVec.ofNat 16 d⟩

/-- An event that carries a port alone (R47, R136). -/
def portEvent (kind : EventKind) (p : PortIndex) (cycle : CycleNumber) (d : Nat) : EventEntry :=
  ⟨kind, some p, none, none, lowCycle cycle, BitVec.ofNat 16 d⟩

/-- The events of a geometry that becomes active at the start of this cycle (R14, R37, R47): MAP_CANCELLED for each port
with a pending map, then GEOMETRY_APPLIED. -/
def State.geometryEvents (s : State) (n : Nat) (cycle : CycleNumber) : List EventEntry :=
  allPorts.filterMap (fun p => (s.mapsOf p).waiting.map (fun m =>
      portEvent .mapCancelled p cycle (if m.committed then 0x101 else 0x001)))
    ++ [⟨.geometryApplied, none, none, none, lowCycle cycle, BitVec.ofNat 16 n⟩]

/-- A gate that an uncorrectable word concerns (R123, R157). -/
def Port.concerned (q : Port) : Port :=
  match q.gate with
  | .enforcing => { q with gate := .failsafe, cause := .memoryError, busy := none }
  | .failsafe => { q with cause := .memoryError }
  | .held => q
  | .transparent => q

/-- The PORT_FAILSAFE event of a gate so concerned, where it raises one (R123, R136). -/
def Port.concernedEvent (q : Port) (p : PortIndex) (cycle : CycleNumber) : List EventEntry :=
  match q.gate, q.cause with
  | .enforcing, _ => [portEvent .portFailsafe p cycle 0x002]
  | .failsafe, .memoryError => []
  | .failsafe, _ => [portEvent .portFailsafe p cycle 0x102]
  | .held, _ => []
  | .transparent, _ => []

/-- Entry i is PENDING, ACTIVE or RELEASING with this port and slot and not overbooked: its cost counts there (R59). -/
def State.counts (s : State) (p : PortIndex) (slot : Nat) (i : EntryIndex) : Bool :=
  s.inUse i && decide ((s.reservation i).port = p) && decide ((s.reservation i).slot.toNat = slot)
    && !(s.reservation i).overbooked

/-- The budgets of the reserved slots (R57 to R59, R79): every entry in use has at most 4 frames, a slot of the running
geometry, and the cost its port's settings give it; in each slot where entries are counted, the sum of their costs is no
greater than the slot's budget; and no hold record's entry is overbooked (R138, R145). -/
structure BudgetInv (s : State) : Prop where
  geometry : ∀ t, s.timer = some t → t.geometry.slots ≤ 48 ∧ ∀ g, t.staged = some g → g.slots ≤ 48
  extra : ∀ p, (s.port p).settings.extra ≤ 32
  frames : ∀ i, s.inUse i = true → (s.reservation i).frames.toNat ≤ 4
  timed : ∀ i, s.inUse i = true → ∃ t, s.timer = some t ∧ (s.reservation i).slot.toNat < t.geometry.slots
  holds : ∀ r ∈ s.holds.records, (s.reservation r.entry).overbooked = false
  costs : ∀ i, s.inUse i = true → (s.reservation i).cost.toNat =
    (s.reservation i).frames.toNat * duration (s.port (s.reservation i).port).settings (s.reservation i).maxLength.toNat
  budget : ∀ t, s.timer = some t → ∀ p k, (∃ i, s.counts p k i = true) →
    (((allEntries.filter (s.counts p k)).map (fun i => (s.reservation i).cost.toNat)).sum : Int) ≤
      t.geometry.ticks - (s.port p).settings.guard - (s.port p).settings.lead
        - (if k + 1 = t.geometry.slots ∧ s.lock.state ≠ .free then (s.lock.maxStep : Int) else 0)

/-- Commands run one after the other, up to the first that has no next state. -/
def execAll : List Instr → State → Host.Outcome State Fault Refusal
  | [], s => .next s
  | c :: cs, s =>
      match exec c s with
      | .next t => execAll cs t
      | .fault f => .fault f
      | .refused r => .refused r

/-- The edges that clock one byte in, most significant bit first (R161). -/
def byteEdges (b : Byte) : List Instr :=
  [7, 6, 5, 4, 3, 2, 1, 0].map (fun n => Instr.mgtSckEdge (.rising (b.getLsbD n)))

/-- The values of the device's state right after reset, as the manual's reset rules give them; `path.expired`, a record of
the model's about the quarantine, is empty with it (log entry 37). -/
structure ResetValues (s : State) : Prop where
  time : s.time = 0
  timer : s.timer = none
  lock : s.lock.state = .free ∧ s.lock.port = none ∧ s.lock.tag = 0 ∧ s.lock.phi = 0 ∧ s.lock.tolerance = 1000
    ∧ s.lock.maxStep = 64 ∧ s.lock.holdoverLimit = 8 ∧ s.lock.goodIntervals = 0 ∧ s.lock.previousMark = none
    ∧ s.lock.stored = none ∧ s.lock.first = .none ∧ s.lock.goodMark = false ∧ s.lock.missRun = 0
    ∧ s.lock.holdoverCount = 0 ∧ s.lock.jitter = false ∧ s.lock.oldest = .none ∧ s.lock.middle = .none
    ∧ s.lock.newest = .none ∧ s.lock.marks = 0 ∧ s.lock.outliers = 0
  maps : ∀ p, s.mapsOf p = ⟨false, none⟩
  entries : ∀ i, s.entry i = ⟨.free, 0, 0, 0, 0⟩
  order : s.order = []
  path : s.path.inFlight = [] ∧ s.path.quarantine = [] ∧ s.path.expired = [] ∧ s.path.responseLimit = 1024
    ∧ s.path.timeouts = 0 ∧ s.path.lates = 0 ∧ s.path.waiting = []
  rings : ∀ e, s.ringValid e = false
  ports : ∀ p, (s.port p).gate = .transparent ∧ (s.port p).cause = .none ∧ (s.port p).busy = none
    ∧ (s.port p).settings = ⟨.rate100M, 0, 0, 0, 1522, .passAll, false, false, .asGeneral, 2, 8⟩
    ∧ (s.port p).counters = ⟨0, 0, 0, 0, 0, 0, 0, 0, 0, 0⟩
  holds : s.holds = ⟨[], 0, 0⟩
  protection : s.prot.scrub = 0 ∧ s.prot.corrected = 0 ∧ s.prot.busy = true
  link : s.link.receiving = false ∧ s.link.buffer = [] ∧ s.link.count = 0 ∧ s.link.bits = [] ∧ s.link.shifted = 0
    ∧ s.link.record = ⟨.ok, 0x00, []⟩
  events : s.events = ⟨[], false, 0x077FFFFE, false, []⟩

end Sys2Proof.Machine
end

