-- ==== Sys2Proof/Certificates/Slice0/Obligations.lean ====
section
/-! DEFINITION. The statements for the provers. Rule numbers are those of spec/; log entries those of notes/assumptions. -/

open Sys2Proof Sys2Proof.Machine

/-! ### The queue of commands and the clock -/

/-- A step takes the front command and runs it on the state with the queue's rest (log entry 25). -/
def Obligations.StepRunsFrontCommand : Prop :=
  ∀ (s : State) (c : Instr) (rest : List Instr), s.pending = c :: rest → step s = exec c { s with pending := rest }

/-- With no command waiting a step is one tick (R1; that it is one tick is log entry 1). Where nothing else falls due in
it, device time grows by 1, in the initialisation pass the word numbered by the tick is written with data 0 and valid
check bits (R152), and all else stays; only the model's marks of the quarantines that expired at the instant before are
gone (log entry 37). -/
def Obligations.EmptyQueueIsOneTick : Prop :=
  ∀ s : State, s.pending = [] → s.nothingDue 1 →
    ∃ t, step s = .next t ∧ t.time = s.time + 1
      ∧ (∀ k, t.word k = if s.prot.busy = true ∧ k = s.time.toNat then blankWord else s.word k)
      ∧ t.path = { s.path with expired := [] }
      ∧ { t with time := s.time, path := s.path, prot := { t.prot with memory := s.prot.memory } } = s

/-! ### Reset -/

/-- The reset pin asserted (R94, R162, R178): reads in flight, waiting requests and the transaction are abandoned; until
the release no request, response, serial edge or clock event has an effect, INT_N is high and MGT_DOUT not driven. That
the rest of the state stands still is the model's choice (log entry 4). -/
def Obligations.ResetPinAsserted : Prop :=
  (∀ s : State, exec .resetAsserted s = .next
    { s with
        resetAsserted := true
        path := { s.path with inFlight := [], waiting := [] }
        link := { s.link with receiving := false, buffer := [], count := 0, bits := [], shifted := 0 } })
  ∧ ∀ s : State, s.resetAsserted = true →
      (∀ tag a, exec (.readAccepted tag a) s = .next s)
      ∧ (∀ tag a d l, exec (.controllerWrite tag a d l) s = .next s)
      ∧ (∀ tag d e, exec (.memoryResponse tag d e) s = .next s)
      ∧ (∀ e, exec (.mgtSckEdge e) s = .next s)
      ∧ (∀ tag, exec (.readTimeout tag) s = .next s) ∧ (∀ tag, exec (.quarantineExpiry tag) s = .next s)
      ∧ exec .slotBoundary s = .next s ∧ exec .cycleBoundary s = .next s ∧ exec .initialisationPassDone s = .next s
      ∧ s.intN = true ∧ s.mgtDout = none

/-- The reset pin released: every piece of state that a reset rule gives a value has that value (R2, R16, R36, R64, R94,
R114, R116, R139, R152, R162, R173), in `State.reset` too. The rest is the model's choice: that the pin need not have been
asserted, that the queue of commands, the order choices, the level of MGT_CSN and the records of the two buses are kept
(log entries 5, 6 and 9), and that the words of table memory stand until the pass writes them, at data 0 in `State.reset`
(log entry 10). -/
def Obligations.ResetPinReleased : Prop :=
  (∀ s : State, ∃ t, exec .resetReleased s = .next t ∧ t.resetAsserted = false ∧ ResetValues t
    ∧ t.pending = s.pending ∧ t.choices = s.choices ∧ t.link.csnLow = s.link.csnLow
    ∧ t.path.toController = s.path.toController ∧ t.path.toMemory = s.path.toMemory ∧ ∀ k, t.word k = s.word k)
  ∧ State.reset.resetAsserted = false ∧ ResetValues State.reset ∧ ∀ k, State.reset.word k = blankWord

/-- The initialisation pass runs to its end at tick 1,024 (R152): every word then holds data 0 with valid check bits and
the flag reads done. That the command lets time pass to that instant is the model's choice (log entry 2); the model's
marks of expired quarantines go with the first tick (log entry 37). -/
def Obligations.InitialisationPassEnds : Prop :=
  ∀ s : State, s.prot.busy = true → s.nothingDue (1024 - s.time.toNat) → s.time.toNat ≤ 1024 →
    ∃ t, exec .initialisationPassDone s = .next t ∧ t.time = 1024 ∧ t.prot.busy = false ∧ (∀ k, t.word k = blankWord)
      ∧ t.path = { s.path with expired := if s.time.toNat = 1024 then s.path.expired else [] }
      ∧ { t with time := s.time, path := s.path, prot := { t.prot with memory := s.prot.memory, busy := true } } = s

/-! ### Slot boundaries and cycle boundaries -/

/-- SLOT_BOUNDARY, nothing else due and no bit of table memory wrong (R9, R11, R88, R89, R159): time is the end of the
slot, the next slot is current, the scrub pointer has advanced, each entry that R88 names counts a miss and turns silent
at its port's silence limit with STREAM_SILENT, and each port counts the misses of its entries. That several entries raise
their events in ascending order is the model's choice (log entry 31). While STOPPED there is no boundary (R2); in
the last slot the cycle boundary comes first (the model's choice: log entry 2). All else stays, but for the marks of
expired quarantines, which are of one instant (log entry 37). -/
def Obligations.SlotBoundaryCountsMisses : Prop :=
  (∀ s : State, s.timer = none → exec .slotBoundary s = .next s)
  ∧ (∀ (s : State) (t : Timer), s.timer = some t → t.ok s.time → s.quiet → t.slot s.time + 1 = t.geometry.slots →
      ∃ u, exec .cycleBoundary s = .next u ∧ exec .slotBoundary s = exec .slotBoundary u)
  ∧ ∀ (s : State) (t : Timer), s.timer = some t → t.ok s.time → s.quiet → MemoryInv s → s.cleanTable →
    t.slot s.time + 1 < t.geometry.slots →
    ∃ u, exec .slotBoundary s = .next u
      ∧ u.time = t.slotEnd (t.slot s.time) ∧ u.currentSlot = some (t.slot s.time + 1)
      ∧ u.prot.scrub = s.prot.scrub + 1
      ∧ (∀ i, u.reservation i =
          if s.misses (t.slot s.time) i then
            { s.reservation i with
                misses := satInc (s.reservation i).misses
                silent := (s.reservation i).silent
                  || decide ((s.port (s.reservation i).port).settings.silence ≤ (satInc (s.reservation i).misses).toNat) }
          else s.reservation i)
      ∧ (∀ i, u.entry i =
          if s.misses (t.slot s.time) i then { s.entry i with totalMisses := satInc (s.entry i).totalMisses } else s.entry i)
      ∧ (∀ p, u.port p =
          { s.port p with
              counters := { (s.port p).counters with
                missedSlots := satAdd (s.port p).counters.missedSlots
                  (allEntries.countP (fun i => s.misses (t.slot s.time) i && decide ((s.reservation i).port = p))) } })
      ∧ u.events = s.events.offers ((allEntries.filter (s.silences (t.slot s.time))).map (fun i =>
          s.tableEvent .streamSilent i t.cycle (satInc (s.reservation i).misses).toNat))
      ∧ (∀ k, 256 ≤ k → u.word k = s.word k) ∧ u.path = { s.path with expired := [] }
      ∧ { u with time := s.time, choices := s.choices, table := s.table, ports := s.ports, events := s.events,
                 path := s.path
                 prot := { u.prot with memory := s.prot.memory, scrub := s.prot.scrub } } = s

/-- CYCLE_BOUNDARY in the last slot, nothing else due: the timer's change of R12 as one change, with the staged geometry
applied exactly where the conditions of R7 hold, and else the adjustment of R10 and R27; the stored adjustment is
consumed, the limit marks are cleared (R175) and the scrub pointer advances (R159). While STOPPED there is no boundary
(R2); in an earlier slot its slot boundary comes first (R11; the model's choice: log entry 2). Of the descriptor path
only the rings' valid flags can change, and the marks of expired quarantines go (log entry 37). -/
def Obligations.CycleBoundaryTurnsTimer : Prop :=
  (∀ s : State, s.timer = none → exec .cycleBoundary s = .next s)
  ∧ (∀ (s : State) (t : Timer), s.timer = some t → t.ok s.time → s.quiet → t.slot s.time + 1 < t.geometry.slots →
      ∃ u, exec .slotBoundary s = .next u ∧ exec .cycleBoundary s = exec .cycleBoundary u)
  ∧ ∀ (s : State) (t : Timer), s.timer = some t → t.ok s.time → s.quiet → t.slot s.time + 1 = t.geometry.slots →
    ∃ u, exec .cycleBoundary s = .next u ∧ u.time = t.cycleEnd
      ∧ (∀ g, t.staged = some g → s.freeForGeometry → u.timer = some ⟨g, none, t.cycle + 1, t.cycleEnd, 0⟩)
      ∧ ((t.staged = none ∨ ¬ s.freeForGeometry) →
          u.timer = some { t with cycle := t.cycle + 1, start := t.cycleEnd, adjustment := s.lock.stored.getD 0 })
      ∧ u.lock.stored = none ∧ u.events.marks = [] ∧ u.prot.scrub = s.prot.scrub + 1
      ∧ u.pending = s.pending ∧ u.link = s.link ∧ u.path = { s.path with ringValid := u.path.ringValid, expired := [] }

/-- CYCLE_BOUNDARY and the slot maps, nothing else due and no bit of table memory wrong: a geometry that is applied opens
every slot of every port, clears the BAD marks and discards the pending maps, with MAP_CANCELLED of cause 1 for each and
one GEOMETRY_APPLIED (R14, R37, R47); else a committed pending map of N kinds becomes the active map with MAP_APPLIED, and
every other port keeps its active and its pending map (R42, R47). Either way only words of active maps and of entries are
written: the words from 280 on, of the pending maps, the ring map and those unused, and the ring map's valid flags stay. That the events of several ports are in ascending order, and MAP_CANCELLED
before GEOMETRY_APPLIED, is the model's choice (log entries 18 and 31). -/
def Obligations.CycleBoundaryChangesMaps : Prop :=
  ∀ (s : State) (t : Timer), s.timer = some t → t.ok s.time → s.quiet → MemoryInv s → s.cleanTable →
    t.slot s.time + 1 = t.geometry.slots →
    let applies := fun p => (s.mapsOf p).waiting = some ⟨t.geometry.slots, true⟩
    let ofMaps := fun e : EventEntry => decide (e.kind ∈ [EventKind.mapApplied, .mapCancelled, .geometryApplied])
    let slots := fun p kind => (List.range t.geometry.slots).countP (fun k => decide (s.pendingKind p k = kind))
    ∃ u l, exec .cycleBoundary s = .next u ∧ u.events = { s.events.offers l with marks := [] }
      ∧ (∀ k, 280 ≤ k → u.word k = s.word k) ∧ (∀ e, u.ringValid e = s.ringValid e)
      ∧ (∀ g, t.staged = some g → s.freeForGeometry →
          (∀ p, u.mapsOf p = ⟨false, none⟩ ∧ ∀ k, k < g.slots → u.activeKind p k = .openSlot)
          ∧ l.filter ofMaps = s.geometryEvents g.slots (t.cycle + 1))
      ∧ ((t.staged = none ∨ ¬ s.freeForGeometry) →
          (∀ p, applies p →
            u.mapsOf p = ⟨false, none⟩ ∧ ∀ k, k < t.geometry.slots → u.activeKind p k = s.pendingKind p k)
          ∧ (∀ p, ¬ applies p →
            u.mapsOf p = s.mapsOf p ∧ (∀ j, j < 3 → u.word (256 + 3 * p.val + j) = s.word (256 + 3 * p.val + j))
            ∧ (∀ k, k < 48 → u.activeKind p k = s.activeKind p k ∧ u.pendingKind p k = s.pendingKind p k))
          ∧ l.filter ofMaps = (allPorts.filter (fun p => decide (applies p))).map (fun p =>
              portEvent .mapApplied p (t.cycle + 1) (256 * slots p .reserved + slots p .closed)))

/-- CYCLE_BOUNDARY, the reservation entries and the hold list, nothing else due and no bit of table memory wrong (R65, R72,
R74, R79 to R82, R88, R89, R91, R145 to R147): the entries of slot N - 1 that R88 names count a miss; RELEASING becomes
FREE and leaves the admission order list, and the pairs so freed are walked, with costs computed anew and entries
overbooked or reinstated in admission order; PENDING becomes ACTIVE; the used counts return to 0; the events of these four
steps follow each other in this order. No hold record is left of an entry that was freed or newly overbooked, of a port
that the loss of lock takes out of ENFORCING, or of age 32; those of age 32 are counted as expired, all of them or those
that no other report has removed before (R149). That STREAM_SILENT goes in ascending order of the entries and a pair freed
twice is walked at its last place is the model's choice (log entry 31), and so is the stored cost of an entry with more than
4 frames, modulo 2^23 (log entry 36). -/
def Obligations.CycleBoundaryMovesEntries : Prop :=
  ∀ (s : State) (t : Timer), s.timer = some t → t.ok s.time → s.quiet → MemoryInv s → s.cleanTable → OrderInv s →
    t.slot s.time + 1 = t.geometry.slots →
    let last := t.geometry.slots - 1
    let began := t.cycle + 1
    let isIn := fun st i => decide ((s.entry i).state = st)
    let stays := fun i => isIn .pending i || isIn .active i
    let pair := fun i => ((s.reservation i).port, (s.reservation i).slot.toNat)
    let freed := allEntries.filter (isIn .releasing)
    let pairs := (freed.map pair).dedup
    let visited := fun x => s.order.filter (fun i => stays i && decide (pair i = x))
    let cost := fun i => (s.reservation i).frames.toNat
      * duration (s.port (s.reservation i).port).settings (s.reservation i).maxLength.toNat
    let budget := fun x : PortIndex × Nat => (t.geometry.ticks : Int) - (s.port x.1).settings.guard
      - (s.port x.1).settings.lead
      - (if x.2 + 1 = t.geometry.slots ∧ s.lock.state ≠ .free then (s.lock.maxStep : Int) else 0)
    ∃ u l, exec .cycleBoundary s = .next u ∧ u.events = { s.events.offers l with marks := [] }
      ∧ (∀ i, u.entry i = { s.entry i with
          state := match (s.entry i).state with
            | .pending => .active
            | .releasing => .free
            | .free => .free
            | .active => .active
            | .faulted => .faulted
          totalMisses := if s.misses last i then satInc (s.entry i).totalMisses else (s.entry i).totalMisses })
      ∧ u.order = s.order.filter (fun i => !isIn .releasing i)
      ∧ (∀ i, stays i = false → u.reservation i = s.reservation i)
      ∧ (∀ i, stays i = true → u.reservation i = { s.reservation i with
          used := 0
          misses := if s.misses last i then satInc (s.reservation i).misses else (s.reservation i).misses
          silent := (s.reservation i).silent || s.silences last i
          cost := (u.reservation i).cost, overbooked := (u.reservation i).overbooked })
      ∧ (∀ i, pair i ∉ pairs → (u.reservation i).cost = (s.reservation i).cost
          ∧ (u.reservation i).overbooked = (s.reservation i).overbooked)
      ∧ (∀ x ∈ pairs, ∀ before i after, visited x = before ++ i :: after →
          (u.reservation i).cost = BitVec.ofNat 23 (cost i)
          ∧ (u.reservation i).overbooked = decide (budget x <
            (((before.filter (fun j => !(u.reservation j).overbooked)).map cost).sum + cost i : Nat)))
      ∧ l.filter (fun e => decide (e.kind ∈ [EventKind.streamSilent, .resFreed, .resOverbooked, .resReinstated, .resActive])) =
          (allEntries.filter (s.silences last)).map (fun i =>
            s.tableEvent .streamSilent i t.cycle (satInc (s.reservation i).misses).toNat)
          ++ freed.map (fun i => s.tableEvent .resFreed i began (s.reservation i).slot.toNat)
          ++ pairs.flatMap (fun x => ((visited x).filter (fun i =>
              (s.reservation i).overbooked != (u.reservation i).overbooked)).map (fun i => s.tableEvent
                (if (u.reservation i).overbooked then .resOverbooked else .resReinstated) i began (min (cost i) 0xFFFF)))
          ++ (allEntries.filter (isIn .pending)).map (fun i => s.tableEvent .resActive i began (s.reservation i).slot.toNat)
      ∧ let lost := decide (s.lock.state = .holdover) && decide (s.lock.holdoverLimit ≤ s.lock.holdoverCount + 1)
        let expires := fun r : HoldRecord => decide ((began - r.firstHeld).toNat = 32)
        let keeps := fun r : HoldRecord => !isIn .releasing r.entry
          && !(!(s.reservation r.entry).overbooked && (u.reservation r.entry).overbooked)
          && !(lost && decide ((s.port r.port).gate = .enforcing) && (s.port r.port).settings.requireLock)
        u.holds.records = s.holds.records.filter (fun r => keeps r && !expires r) ∧ u.holds.full = s.holds.full
        ∧ ∃ n, (n = s.holds.records.countP expires ∨ n = s.holds.records.countP (fun r => keeps r && expires r))
          ∧ u.holds.expired = satAdd s.holds.expired n
          ∧ (l.filter (fun e => decide (e.kind = .holdExpired))).length = if n = 0 then 0 else 1

/-- CYCLE_BOUNDARY and the cycle lock, by the lock's state, nothing else due: FREE and ACQUIRING (R22), ALIGNING (R24),
LOCKED (R28, R29), HOLDOVER (R31); the stored adjustment is consumed in each (R27). With no bit of table memory wrong, the
gates: each counts the misses of slot N - 1 (R88), a loss of lock takes the ENFORCING ports that require lock to FAILSAFE,
an entry into LOCKED takes the ports that lost it back to ENFORCING with a fresh busy-until (R119, R121, R122), and a
busy-until before the boundary becomes absent (R125); and the events of the lock (R34) and of the gates (R136), the
ports' in ascending order after the lock's (the model's choice: log entries 18 and 31). -/
def Obligations.CycleBoundaryInEachLockState : Prop :=
  ∀ (s : State) (t : Timer), s.timer = some t → t.ok s.time → s.quiet → t.slot s.time + 1 = t.geometry.slots →
    ∃ u, exec .cycleBoundary s = .next u
      ∧ (s.lock.state = .free → u.lock = { s.lock with stored := none })
      ∧ (s.lock.state = .acquiring → u.lock =
          if s.lock.previousMark.any (fun m => decide (2 * t.geometry.cycleTicks < (t.cycleEnd - m).toNat)) then
            { s.lock with stored := none, previousMark := none, goodIntervals := 0 }
          else { s.lock with stored := none })
      ∧ (s.lock.state = .aligning → s.lock.stored ≠ none → u.lock = { s.lock with stored := none })
      ∧ (s.lock.state = .aligning → s.lock.stored = none → u.lock =
          { s.lock with state := .locked, missRun := 0, holdoverCount := 0, first := .none, goodMark := false,
                        oldest := .none, middle := .none, newest := .none, jitter := false })
      ∧ (s.lock.state = .locked →
          let history := [s.lock.middle, s.lock.newest, s.lock.first]
          let misses := if s.lock.goodMark then 0 else s.lock.missRun + 1
          u.lock =
            { s.lock with
                stored := none, oldest := s.lock.middle, middle := s.lock.newest, newest := s.lock.first,
                first := .none, goodMark := false, missRun := misses,
                jitter := if s.lock.jitter then !history.all (fun o => decide (o = .good))
                          else decide (2 ≤ history.countP (fun o => decide (o = .outlier)))
                state := if 3 ≤ misses then .holdover else .locked
                holdoverCount := if 3 ≤ misses then 0 else s.lock.holdoverCount })
      ∧ (s.lock.state = .holdover → s.lock.holdoverCount + 1 < s.lock.holdoverLimit →
          u.lock = { s.lock with stored := none, holdoverCount := s.lock.holdoverCount + 1 })
      ∧ (s.lock.state = .holdover → s.lock.holdoverLimit ≤ s.lock.holdoverCount + 1 → u.lock =
          { s.lock with state := .acquiring, goodIntervals := 0, previousMark := none, stored := none, first := .none,
                        goodMark := false, missRun := 0, holdoverCount := 0, jitter := false, oldest := .none,
                        middle := .none, newest := .none })
      ∧ (MemoryInv s → s.cleanTable →
        let began := t.cycle + 1
        let lock := fun kind d => (⟨kind, s.lock.port, none, some s.lock.tag, lowCycle began, BitVec.ofNat 16 d⟩ : EventEntry)
        let lost := decide (s.lock.state = .holdover) && decide (s.lock.holdoverLimit ≤ s.lock.holdoverCount + 1)
        let won := decide (s.lock.state = .aligning) && s.lock.stored.isNone
        let outliers := [s.lock.middle, s.lock.newest, s.lock.first].countP (fun o => decide (o = .outlier))
        let misses := if s.lock.goodMark then 0 else s.lock.missRun + 1
        let loses := fun p => lost && decide ((s.port p).gate = .enforcing) && (s.port p).settings.requireLock
        let returns := fun p => won && decide ((s.port p).gate = .failsafe) && decide ((s.port p).cause = .lockLost)
        (∀ p,
          let q := s.port p
          let q' :=
            if loses p then { q with gate := .failsafe, cause := .lockLost, busy := none }
            else if returns p then
              { q with gate := .enforcing, cause := .none
                       busy := some (afterTicks (afterTicks t.cycleEnd q.settings.lead)
                         (duration q.settings q.settings.maxFrame)) }
            else q
          u.port p = { q' with
            busy := q'.busy.filter (fun b => !later t.cycleEnd b)
            counters := { q.counters with
              missedSlots := satAdd q.counters.missedSlots (allEntries.countP (fun i =>
                s.misses (t.geometry.slots - 1) i && decide ((s.reservation i).port = p))) } })
        ∧ ∃ l, u.events = { s.events.offers l with marks := [] }
          ∧ l.filter (fun e => decide (e.kind ∈ [EventKind.lockAcquired, .lockHoldover, .lockLost, .lockJitter,
              .portFailsafe, .portRecovered])) =
            (if won then [lock .lockAcquired (min t.adjustment.toNat 0xFFFF)] else [])
            ++ (allPorts.filter returns).map (fun p => portEvent .portRecovered p began 1)
            ++ (if s.lock.state = .locked ∧ s.lock.jitter = false ∧ 2 ≤ outliers then [lock .lockJitter outliers] else [])
            ++ (if s.lock.state = .locked ∧ 3 ≤ misses then [lock .lockHoldover misses] else [])
            ++ (if lost then [lock .lockLost 0] else [])
            ++ (allPorts.filter loses).map (fun p => portEvent .portFailsafe p began 1))

/-- The lock's two reports at the gates (R122, R119, R121, R136): at a loss every ENFORCING port with require lock on enters
FAILSAFE with cause LOCK_LOST and PORT_FAILSAFE, and its hold records go; at an entry into LOCKED every port in FAILSAFE
with that cause enters ENFORCING with a fresh busy-until and PORT_RECOVERED; no other port changes. That the events of
several ports are in ascending order is the model's choice (log entry 31). -/
def Obligations.LockReportsMoveGates : Prop :=
  ∀ s : State,
    let loses := fun p => decide ((s.port p).gate = .enforcing) && (s.port p).settings.requireLock
    let returns := fun p => decide ((s.port p).gate = .failsafe) && decide ((s.port p).cause = .lockLost)
    (∀ p, s.reportLockLoss.port p =
        if loses p then { s.port p with gate := .failsafe, cause := .lockLost, busy := none } else s.port p)
    ∧ s.reportLockLoss.holds.records = s.holds.records.filter (fun r => !loses r.port)
    ∧ s.reportLockLoss.events =
        s.events.offers ((allPorts.filter loses).map (fun p => portEvent .portFailsafe p s.cycleNumber 1))
    ∧ { s.reportLockLoss with ports := s.ports, events := s.events,
                              holds := { s.reportLockLoss.holds with records := s.holds.records } } = s
    ∧ (∀ p, s.reportLockWon.port p =
        if returns p then
          { s.port p with gate := .enforcing, cause := .none,
                          busy := some (afterTicks (afterTicks s.time (s.port p).settings.lead)
                            (duration (s.port p).settings (s.port p).settings.maxFrame)) }
        else s.port p)
    ∧ s.reportLockWon.events =
        s.events.offers ((allPorts.filter returns).map (fun p => portEvent .portRecovered p s.cycleNumber 1))
    ∧ { s.reportLockWon with ports := s.ports, events := s.events } = s

/-- Expiry of hold records at a cycle boundary (R147, R150): the records of age 32 go and are counted, and HOLD_EXPIRED is
offered once, with their number and their ports, where any went. -/
def Obligations.HoldRecordsExpireAtAge32 : Prop :=
  ∀ s : State, s.holds.records.length ≤ 32 →
    let gone := s.holds.records.filter (fun r => decide ((s.cycleNumber - r.firstHeld).toNat = 32))
    s.expireHolds.holds.records = s.holds.records.filter (fun r => decide ((s.cycleNumber - r.firstHeld).toNat ≠ 32))
    ∧ s.expireHolds.holds.expired = satAdd s.holds.expired gone.length
    ∧ (gone = [] → s.expireHolds = s)
    ∧ (gone ≠ [] → ∃ e : EventEntry, s.expireHolds.events = s.events.offer e ∧ e.kind = .holdExpired
        ∧ e.port = none ∧ e.index = none ∧ e.tag = none ∧ e.cycle = lowCycle s.cycleNumber
        ∧ e.detail.toNat % 256 = gone.length
        ∧ ∀ p : PortIndex, e.detail.getLsbD (8 + p.val) = gone.any (fun r => decide (r.port = p)))
    ∧ { s.expireHolds with events := s.events,
                           holds := { s.expireHolds.holds with records := s.holds.records, expired := s.holds.expired } } = s

/-! ### The management link -/

/-- The two ends of a transaction (R161, R162, R163): the fall of MGT_CSN enters RECEIVING with an empty buffer; its rise
ends the transaction, with the record as it was where no whole byte was received or the transaction is not the device's,
and with BAD_FRAME and the first byte where the bytes are no frame of a command (R164). -/
def Obligations.TransactionBeginsAndEnds : Prop :=
  (∀ s : State, s.link.csnLow = false → s.resetAsserted = false →
    exec .transactionStart s = .next
      { s with link := ⟨true, true, [], 0, [], 0, s.link.record⟩ })
  ∧ (∀ s : State, s.link.csnLow = true →
      (s.resetAsserted = true ∨ s.link.receiving = false ∨ s.link.count = 0) →
      exec .transactionEnd s = .next s.ended)
  ∧ (∀ s : State, s.link.csnLow = true → s.resetAsserted = false → s.link.receiving = true → s.link.count ≠ 0 →
      decodeFrame s.link.count s.link.buffer = none →
      exec .transactionEnd s = .next (s.answered (s.link.buffer.headD 0) .badFrame []))

/-- Edges of MGT_SCK in a transaction (R161): eight rising edges carry one byte in, most significant bit first, stored
where it is among the first 62 and counted up to 255; a falling edge moves MGT_DOUT to the next bit of the record, a rising
edge leaves it. And what MGT_DOUT carries (R161 to R163, R167, R171): from the fall of MGT_CSN on the record as status code,
echoed code, length m and m result bytes, each byte most significant bit first, and 0 beyond these 3 + m bytes; at high
impedance outside a transaction. -/
def Obligations.EightRisingEdgesCarryOneByte : Prop :=
  ∀ s : State,
    let code : Byte := match s.link.record.status with
      | .ok => 0x00
      | .busy => 0x01
      | .badFrame => 0x02
      | .badArgument => 0x03
      | .state => 0x04
      | .full => 0x05
      | .duplicate => 0x06
      | .notFound => 0x07
      | .noBudget => 0x08
      | .slotKind => 0x09
      | .inUse => 0x0A
      | .overlap => 0x0B
      | .slotCount => 0x0C
    let bytes := [code, s.link.record.code, byteOf s.link.record.result.length] ++ s.link.record.result
    let bit := fun n : Nat => (bytes[n / 8]?.getD 0x00).getLsbD (7 - n % 8)
    (s.resetAsserted = false → s.link.csnLow = false →
      ∃ u, exec .transactionStart s = .next u ∧ u.link.shifted = 0 ∧ u.mgtDout = some (bit 0))
    ∧ (s.resetAsserted = false → s.link.receiving = true →
      s.mgtDout = some (bit s.link.shifted)
      ∧ (s.link.bits = [] → ∀ b : Byte, execAll (byteEdges b) s = .next
        { s with link := { s.link with
            buffer := if s.link.buffer.length < 62 then s.link.buffer ++ [b] else s.link.buffer
            count := min (s.link.count + 1) 255 } })
      ∧ (∀ din, ∃ t, exec (.mgtSckEdge (.rising din)) s = .next t ∧ t.mgtDout = s.mgtDout)
      ∧ ∃ t, exec (.mgtSckEdge .falling) s = .next t
          ∧ t = { s with link := { s.link with shifted := s.link.shifted + 1 } }
          ∧ t.mgtDout = some (bit (s.link.shifted + 1)))
    ∧ (s.resetAsserted = true ∨ s.link.receiving = false → s.mgtDout = none)

/-- At the rise of MGT_CSN the frame received is the command it spells, taken whole (R164, R165, R171). -/
def Obligations.FrameRunsItsCommand : Prop :=
  ∀ (s : State) (c : Instr), c.isManagement = true → c.wellFormed = true →
    s.resetAsserted = false → s.link.csnLow = true → s.link.receiving = true →
    s.link.buffer = encodeFrame c → s.link.count = (encodeFrame c).length →
    exec .transactionEnd s = exec c s

/-- Decoding a frame and encoding a command agree in both directions: every well-formed management command is read back
from its frame, and every frame read as a command is that command's frame (R164, R171). -/
def Obligations.DecodeAndEncodeAgree : Prop :=
  (∀ c : Instr, c.isManagement = true → c.wellFormed = true →
    decodeFrame (encodeFrame c).length (encodeFrame c) = some c)
  ∧ ∀ (bytes : List Byte) (c : Instr), decodeFrame bytes.length bytes = some c →
      c.isManagement = true ∧ c.wellFormed = true ∧ encodeFrame c = bytes

/-- NOP (R166): command code 00h, no argument byte; taken in every state, it leaves the response record and everything
else as they were; only the transaction has ended. -/
def Obligations.NopChangesNothing : Prop :=
  decodeFrame 2 [0x00, 0x00] = some .nop
  ∧ (∀ args : List Byte, decodeCommand 0x00 args = some .nop ↔ args = [])
  ∧ ∀ s : State, ∃ t, exec .nop s = .next t ∧ t.link = restingLink s.link.record ∧ { t with link := s.link } = s

/-- During the initialisation pass every well-formed command but NOP and READ_STATUS is answered BUSY with its code and
reaches no block (R165); what ends as no transaction of the device is discarded whole (R162). -/
def Obligations.BusyDuringInitialisation : Prop :=
  ∀ (s : State) (c : Instr) (code : Byte), commandCode c = some code → c.wellFormed = true →
    (s.takesFrame = true → s.prot.busy = true → c ≠ .nop → c ≠ .readStatus →
      exec c s = .next (s.answered code .busy []))
    ∧ (s.takesFrame = false → exec c s = .next s.ended)

/-- READ_STATUS (R168): OK with 51 bytes, the items in the order of the rule; nothing else changes. -/
def Obligations.ReadStatusAnswers : Prop :=
  ∀ s : State, s.takesFrame = true →
    exec .readStatus s = .next (s.answered 0x01 .ok s.statusBytes) ∧ s.statusBytes.length = 51
    ∧ s.statusBytes[4]? = some (byteOf
        ((if (s.timer.bind Timer.staged).isSome then 1 else 0) + (if s.prot.busy then 2 else 0)
          + (if s.table.any (fun e => decide (e.state = .faulted)) then 4 else 0) + (if s.lock.jitter then 8 else 0)
          + (if s.events.overflow then 16 else 0)))
    ∧ s.statusBytes.drop 12 =
        [byteOf (match s.lock.state with | .free => 0 | .acquiring => 1 | .aligning => 2 | .locked => 3 | .holdover => 4),
         byteOf s.events.queue.length]
          ++ beBytes4 s.path.timeouts.toNat ++ beBytes4 s.path.lates.toNat ++ beBytes4 s.prot.corrected.toNat
          ++ beBytes4 s.holds.full.toNat ++ beBytes4 s.holds.expired.toNat ++ beBytes4 s.lock.marks.toNat
          ++ beBytes4 s.lock.outliers.toNat ++ [byteOf s.holds.records.length]
          ++ allPorts.map (fun p => byteOf (s.holds.records.countP (fun r => decide (r.port = p))))
    ∧ (s.timer = none → s.statusBytes.take 4 = [0, 0, 0, 0] ∧ (s.statusBytes.drop 5).take 7 = [0, 0, 0, 0, 0, 0, 0])
    ∧ (∀ t, s.timer = some t →
        s.statusBytes.take 4 = [1, byteOf t.geometry.slots] ++ beBytes2 t.geometry.ticks
        ∧ (s.statusBytes.drop 5).take 7 = beBytes4 t.cycle.toNat ++ beBytes3 (t.position s.time))

/-! ### The cycle timer's and the lock's commands -/

/-- SET_GEOMETRY while STOPPED (R3, R4, R5, R14, R37): the timer starts with cycle 0 at this instant, every port's map is
all OPEN, GEOMETRY_APPLIED is raised with cycle 0 and N (after MAP_CANCELLED for a pending map, which no port has while
STOPPED), the answer is STARTED; words outside the active maps and all else stay. -/
def Obligations.SetGeometryStartsTimer : Prop :=
  ∀ (s : State) (n : Byte) (ticks : BitVec 16), s.ready → MemoryInv s → s.timer = none → s.freeForGeometry →
    2 ≤ n.toNat → n.toNat ≤ 48 → 500 ≤ ticks.toNat →
    ∃ u, exec (.setGeometry n ticks) s = .next u
      ∧ u.timer = some ⟨⟨n.toNat, ticks.toNat⟩, none, 0, s.time, 0⟩
      ∧ u.link = restingLink ⟨.ok, 0x10, [0x00]⟩
      ∧ (∀ p, u.mapsOf p = ⟨false, none⟩ ∧ ∀ k, k < n.toNat → u.activeKind p k = .openSlot)
      ∧ (∀ k, k < 256 ∨ 280 ≤ k → u.word k = s.word k)
      ∧ u.events = s.events.offers (s.geometryEvents n.toNat 0)
      ∧ { u with timer := s.timer, link := s.link, maps := s.maps, events := s.events,
                 prot := { u.prot with memory := s.prot.memory } } = s

/-- SET_GEOMETRY while RUNNING and its refusals (R3, R4, R6): BAD_ARGUMENT, IN_USE and STATE in this order; a geometry
other than the active one is staged, the active one withdraws what was staged. Nothing else changes. -/
def Obligations.SetGeometryStagesOrRefuses : Prop :=
  ∀ (s : State) (n : Byte) (ticks : BitVec 16), s.ready →
    let valid := 2 ≤ n.toNat ∧ n.toNat ≤ 48 ∧ 500 ≤ ticks.toNat
    let allFree := ∀ i, (s.entry i).state = .free
    (¬ valid → exec (.setGeometry n ticks) s = .next (s.answered 0x10 .badArgument []))
    ∧ (valid → ¬ allFree → exec (.setGeometry n ticks) s = .next (s.answered 0x10 .inUse []))
    ∧ (valid → allFree → ¬ s.freeForGeometry → exec (.setGeometry n ticks) s = .next (s.answered 0x10 .state []))
    ∧ (valid → s.freeForGeometry → ∀ t, s.timer = some t →
        exec (.setGeometry n ticks) s = .next
          (if t.geometry = ⟨n.toNat, ticks.toNat⟩ then
            { s with timer := some { t with staged := none } }.answered 0x10 .ok [0x02]
          else { s with timer := some { t with staged := some ⟨n.toNat, ticks.toNat⟩ } }.answered 0x10 .ok [0x01]))

/-- SET_SYNC (R19, R20): STATE while STOPPED, BAD_ARGUMENT for an argument outside its accepted values or a port whose
receive ring is not valid; else the six settings are stored, acquisition and tracking state is cleared, and the lock is
ACQUIRING with a port, FREE with none; a lock that was held is reported lost to the gates, with LOCK_LOST of the settings
before (R34, R122; what the report does is stated in LockReportsMoveGates); slot N - 1 of every port is walked (R60, R80;
what a walk does is stated in WalkFollowsAdmissionOrder); the answer is the lock's state before. That PORT_FAILSAFE comes
before LOCK_LOST, and the ports are walked in ascending order, is the model's choice (log entries 18 and 31). -/
def Obligations.SetSyncStoresSettings : Prop :=
  ∀ (s : State) (port : Byte) (tag : BitVec 16) (phi tolerance : BitVec 24) (maxStep limit : Byte), s.ready →
    (s.timer = none →
      exec (.setSync port tag phi tolerance maxStep limit) s = .next (s.answered 0x11 .state []))
    ∧ ∀ t, s.timer = some t →
      let c := t.geometry.cycleTicks
      let valid := (port.toNat < 8 ∨ port = 0xFF) ∧ tag.toNat < 4096 ∧ phi.toNat + 1 ≤ c
        ∧ 1 ≤ tolerance.toNat ∧ tolerance.toNat + 1 ≤ c / 2 ∧ 1 ≤ maxStep.toNat ∧ 1 ≤ limit.toNat
        ∧ ∀ p : PortIndex, port.toNat = p.val → s.ringValid (ringIndex p 4) = true
      (¬ valid → exec (.setSync port tag phi tolerance maxStep limit) s = .next (s.answered 0x11 .badArgument []))
      ∧ (valid → ∃ u, exec (.setSync port tag phi tolerance maxStep limit) s = .next u
          ∧ u.link = restingLink ⟨.ok, 0x11, [s.lock.state.byte]⟩
          ∧ (u.lock.port = none ↔ port = 0xFF) ∧ (∀ p, u.lock.port = some p → p.val = port.toNat)
          ∧ u.lock =
              { state := if port = 0xFF then .free else .acquiring, port := u.lock.port, tag := tag.setWidth 12
                phi := phi.toNat, tolerance := tolerance.toNat, maxStep := maxStep.toNat, holdoverLimit := limit.toNat
                goodIntervals := 0, previousMark := none, stored := none, first := .none, goodMark := false
                missRun := 0, holdoverCount := 0, jitter := false, oldest := .none, middle := .none, newest := .none
                marks := s.lock.marks, outliers := s.lock.outliers }
          ∧ u.timer = s.timer ∧ u.time = s.time ∧ u.order = s.order ∧ u.pending = s.pending
          ∧ let v := { s.ended with lock := u.lock }
            let w :=
              if s.lock.state = .locked ∨ s.lock.state = .holdover then
                { v.reportLockLoss with
                    events := v.reportLockLoss.events.offer (⟨.lockLost, s.lock.port, none, some s.lock.tag,
                      lowCycle t.cycle, 1⟩ : EventEntry) }
              else v
            u = (allPorts.foldl (fun x p => x.walk p (t.geometry.slots - 1)) w).answered 0x11 .ok [s.lock.state.byte])

/-- A mark, by the state of the lock (R18, R22, R23, R24, R25, R26, R30). -/
def Obligations.MarkInEachLockState : Prop :=
  ∀ (l : Lock) (t : Timer) (now : DeviceTime),
    let c := t.geometry.cycleTicks
    let e := foldedError c l.phi (t.position now)
    let fix := max (-(l.maxStep : Int)) (min (l.maxStep : Int) (Int.tdiv e (if l.jitter then 8 else 4)))
    (l.state = .free → l.takeMark t now = l)
    ∧ (l.state = .aligning → l.takeMark t now = { l with marks := satInc l.marks })
    ∧ (l.state = .acquiring → l.previousMark = none →
        l.takeMark t now = { l with marks := satInc l.marks, previousMark := some now })
    ∧ (l.state = .acquiring → ∀ before, l.previousMark = some before →
        let count := if (((now - before).toNat : Int) - c).natAbs ≤ l.tolerance then l.goodIntervals + 1 else 0
        l.takeMark t now =
          if 8 ≤ count then
            { l with marks := satInc l.marks, previousMark := some now, goodIntervals := count, state := .aligning
                     stored := some (if 0 ≤ e then e else e + c) }
          else { l with marks := satInc l.marks, previousMark := some now, goodIntervals := count })
    ∧ (l.state = .locked → l.goodMark = true → l.takeMark t now = { l with marks := satInc l.marks })
    ∧ (l.state = .locked → l.goodMark = false → e.natAbs ≤ l.tolerance → l.takeMark t now =
        { l with marks := satInc l.marks, goodMark := true, stored := some fix
                 first := if l.first = .none then .good else l.first })
    ∧ (l.state = .locked → l.goodMark = false → l.tolerance < e.natAbs → l.takeMark t now =
        { l with marks := satInc l.marks, outliers := satInc l.outliers
                 first := if l.first = .none then .outlier else l.first })
    ∧ (l.state = .holdover → e.natAbs ≤ l.tolerance → l.takeMark t now =
        { l with marks := satInc l.marks, state := .locked, stored := some fix, missRun := 0, first := .good
                 goodMark := true })
    ∧ (l.state = .holdover → l.tolerance < e.natAbs → l.takeMark t now =
        { l with marks := satInc l.marks, outliers := satInc l.outliers })

/-- The folded error (R21): C is subtracted from p − φ while it is above C/2, and added once to what is then at or below
−(C/2). Every position of a cycle is below 2C (R8), so two subtractions are enough. -/
def Obligations.FoldedErrorIsDefined : Prop :=
  ∀ c phi position : Nat, 2 ≤ c → phi < c → position < 2 * c →
    let e0 : Int := (position : Int) - phi
    let e1 := if ((c / 2 : Nat) : Int) < e0 then e0 - c else e0
    let e2 := if ((c / 2 : Nat) : Int) < e1 then e1 - c else e1
    foldedError c phi position = (if e2 ≤ -((c / 2 : Nat) : Int) then e2 + c else e2)
    ∧ -((c / 2 : Nat) : Int) ≤ foldedError c phi position ∧ foldedError c phi position ≤ ((c / 2 : Nat) : Int) + 1

/-! ### Slot maps -/

/-- LOAD_MAP (R39): STATE while STOPPED, BAD_ARGUMENT for a port above 7 or a byte that is no kind, SLOT_COUNT for a list
that does not match the staged or else the active N; else the list is the port's pending map, not committed, and the answer
says what it replaced; the active maps, the BAD marks and all else stay. -/
def Obligations.LoadMapStoresPendingMap : Prop :=
  ∀ (s : State) (port : Byte) (kinds : List Byte), s.ready → MemoryInv s → 1 ≤ kinds.length → kinds.length ≤ 48 →
    (s.timer = none → exec (.loadMap port kinds) s = .next (s.answered 0x20 .state []))
    ∧ ∀ t, s.timer = some t →
      let valid := port.toNat < 8 ∧ ∀ b ∈ kinds, b.toNat ≤ 2
      let n := (t.staged.getD t.geometry).slots
      (¬ valid → exec (.loadMap port kinds) s = .next (s.answered 0x20 .badArgument []))
      ∧ (valid → kinds.length ≠ n → exec (.loadMap port kinds) s = .next (s.answered 0x20 .slotCount []))
      ∧ (valid → kinds.length = n → ∀ p : PortIndex, p.val = port.toNat →
          ∃ u, exec (.loadMap port kinds) s = .next u
            ∧ u.mapsOf p = { s.mapsOf p with waiting := some ⟨kinds.length, false⟩ }
            ∧ (∀ q, q ≠ p → u.mapsOf q = s.mapsOf q)
            ∧ (∀ k, ∀ h : k < kinds.length, u.pendingKind p k =
                (if kinds[k] = 0x00 then .openSlot else if kinds[k] = 0x01 then .reserved else .closed))
            ∧ (∀ k, k < 280 + 3 * p.val ∨ 283 + 3 * p.val ≤ k → u.word k = s.word k)
            ∧ u.link = restingLink ⟨.ok, 0x20,
                [match (s.mapsOf p).waiting with | none => 0x00 | some w => if w.committed then 0x02 else 0x01]⟩
            ∧ { u with link := s.link, maps := s.maps, prot := { u.prot with memory := s.prot.memory } } = s)

/-- COMMIT_MAP, no bit of table memory wrong (R40): BAD_ARGUMENT, NOT_FOUND, and IN_USE while an entry is FAULTED or an
entry in use of the port has a slot that the pending map does not reserve; else commit-pending is set. -/
def Obligations.CommitMapMarksPendingMap : Prop :=
  ∀ (s : State) (port : Byte), s.ready → s.cleanTable →
    (8 ≤ port.toNat → exec (.commitMap port) s = .next (s.answered 0x21 .badArgument []))
    ∧ ∀ p : PortIndex, p.val = port.toNat →
      ((s.mapsOf p).waiting = none → exec (.commitMap port) s = .next (s.answered 0x21 .notFound []))
      ∧ ∀ m, (s.mapsOf p).waiting = some m →
        let losing := fun i => s.inUse i = true ∧ (s.reservation i).port = p
          ∧ ¬ ((s.reservation i).slot.toNat < m.length ∧ s.pendingKind p (s.reservation i).slot.toNat = .reserved)
        (((∃ i, (s.entry i).state = .faulted) ∨ ∃ i, losing i) →
          exec (.commitMap port) s = .next (s.answered 0x21 .inUse []))
        ∧ ((∀ i, (s.entry i).state ≠ .faulted) → (∀ i, ¬ losing i) →
          exec (.commitMap port) s = .next
            ((s.setMaps p { s.mapsOf p with waiting := some { m with committed := true } }).answered 0x21 .ok []))

/-- CANCEL_MAP (R41): command code 22h with one argument byte; BAD_ARGUMENT for a port above 7, NOT_FOUND without a
pending map; else the pending map is absent, committed or not, and the answer says which it was; no event, no word of
table memory and nothing else changes. -/
def Obligations.CancelMapDiscardsPendingMap : Prop :=
  ∀ port : Byte, decodeFrame 3 [0x22, 0x01, port] = some (.cancelMap port) ∧
    ∀ s : State, s.ready →
      (8 ≤ port.toNat → exec (.cancelMap port) s = .next (s.answered 0x22 .badArgument []))
      ∧ ∀ p : PortIndex, p.val = port.toNat →
        ((s.mapsOf p).waiting = none → exec (.cancelMap port) s = .next (s.answered 0x22 .notFound []))
        ∧ ∀ m, (s.mapsOf p).waiting = some m →
          ∃ u, exec (.cancelMap port) s = .next u
            ∧ u.mapsOf p = { s.mapsOf p with waiting := none } ∧ (∀ q, q ≠ p → u.mapsOf q = s.mapsOf q)
            ∧ u.link = restingLink ⟨.ok, 0x22, [if m.committed then 0x01 else 0x00]⟩
            ∧ { u with maps := s.maps, link := s.link } = s

/-! ### The reservation table -/

/-- ADMIT, no bit of table memory wrong (R57, R58, R59, R66 to R70): the refusals in their order BAD_ARGUMENT (which
answers while STOPPED too), DUPLICATE, SLOT_KIND, FULL, NO_BUDGET; else the lowest FREE entry is PENDING with the stream's
fields and last in the admission order list, and the answer is its index and cost. -/
def Obligations.AdmitPlacesOrRefuses : Prop :=
  ∀ (s : State) (port : Byte) (tag : BitVec 16) (slot : Byte) (len : BitVec 16) (frames : Byte),
    s.ready → MemoryInv s → s.cleanTable →
    (s.timer = none → exec (.admitStream port tag slot len frames) s = .next (s.answered 0x30 .badArgument []))
    ∧ ∀ t, s.timer = some t →
      let valid := port.toNat < 8 ∧ tag.toNat < 4096 ∧ slot.toNat < t.geometry.slots ∧ 60 ≤ len.toNat ∧ len.toNat ≤ 16383
        ∧ 1 ≤ frames.toNat ∧ frames.toNat ≤ 4
      (¬ valid → exec (.admitStream port tag slot len frames) s = .next (s.answered 0x30 .badArgument []))
      ∧ (valid → ∀ p : PortIndex, p.val = port.toNat →
        let set := (s.port p).settings
        let duplicate := ∃ i, s.inUse i = true ∧ (s.reservation i).port = p ∧ (s.reservation i).tag.toNat = tag.toNat
        let reserved := s.activeKind p slot.toNat = .reserved ∧ s.nextKind p slot.toNat = .reserved
        let cost := frames.toNat * duration set len.toNat
        let counted := ((allEntries.filter (s.counts p slot.toNat)).map (fun i => (s.reservation i).cost.toNat)).sum
        let budget : Int := t.geometry.ticks - set.guard - set.lead
          - (if slot.toNat + 1 = t.geometry.slots ∧ s.lock.state ≠ .free then (s.lock.maxStep : Int) else 0)
        (duplicate → exec (.admitStream port tag slot len frames) s = .next (s.answered 0x30 .duplicate []))
        ∧ (¬ duplicate → ¬ reserved →
            exec (.admitStream port tag slot len frames) s = .next (s.answered 0x30 .slotKind []))
        ∧ (¬ duplicate → reserved → (∀ i, (s.entry i).state ≠ .free) →
            exec (.admitStream port tag slot len frames) s = .next (s.answered 0x30 .full []))
        ∧ (¬ duplicate → reserved → ∀ i, (s.entry i).state = .free → (∀ j, j < i → (s.entry j).state ≠ .free) →
            (budget < counted + cost →
              exec (.admitStream port tag slot len frames) s = .next (s.answered 0x30 .noBudget []))
            ∧ ((counted + cost : Int) ≤ budget →
              ∃ u, exec (.admitStream port tag slot len frames) s = .next u
                ∧ u.entry i = ⟨.pending, 0, 0, 0, 0⟩ ∧ (∀ j, j ≠ i → u.entry j = s.entry j)
                ∧ u.reservation i =
                    { port := p, tag := tag.setWidth 12, slot := slot.setWidth 6, frames := frames.setWidth 3
                      maxLength := len.setWidth 14, used := 0, misses := 0, overbooked := false, silent := false
                      cost := BitVec.ofNat 23 cost, admitted := t.cycle }
                ∧ (set.extra ≤ 32 → cost < 2 ^ 23)
                ∧ (∀ k, k < 4 * i.val ∨ 4 * i.val + 4 ≤ k → u.word k = s.word k)
                ∧ u.order = s.order ++ [i]
                ∧ u.link = restingLink ⟨.ok, 0x30, byteOf i.val :: beBytes3 cost⟩
                ∧ { u with table := s.table, order := s.order, link := s.link,
                           prot := { u.prot with memory := s.prot.memory } } = s)))

/-- A re-evaluation walk of one port and slot, no bit of table memory wrong (R79, R81, R91): the entries in use of the pair are
visited in the order of the admission order list; each has its cost computed anew and is overbooked exactly if that cost
and the costs of the earlier ones found to fit exceed the slot's budget. An entry whose flag changed raises
RES_OVERBOOKED or RES_REINSTATED, one that is newly overbooked loses its hold records, and nothing else changes. That the
cost of an entry with more than 4 frames is stored modulo 2^23 is the model's choice (log entry 36). -/
def Obligations.WalkFollowsAdmissionOrder : Prop :=
  ∀ (s : State) (t : Timer) (p : PortIndex) (k : Nat), MemoryInv s → s.cleanTable → OrderInv s → s.timer = some t →
    let set := (s.port p).settings
    let u := s.walk p k
    let visited := s.order.filter (fun i =>
      s.inUse i && decide ((s.reservation i).port = p) && decide ((s.reservation i).slot.toNat = k))
    let cost := fun i => (s.reservation i).frames.toNat * duration set (s.reservation i).maxLength.toNat
    let budget : Int := t.geometry.ticks - set.guard - set.lead
      - (if k + 1 = t.geometry.slots ∧ s.lock.state ≠ .free then (s.lock.maxStep : Int) else 0)
    (∀ before i after, visited = before ++ i :: after →
      u.reservation i = { s.reservation i with
        cost := BitVec.ofNat 23 (cost i)
        overbooked := decide (budget <
          (((before.filter (fun j => !(u.reservation j).overbooked)).map cost).sum + cost i : Nat)) })
    ∧ (∀ i, i ∉ visited → u.reservation i = s.reservation i)
    ∧ (∀ n, 256 ≤ n → u.word n = s.word n)
    ∧ u.holds.records = s.holds.records.filter (fun r =>
        !(decide (r.entry ∈ visited) && !(s.reservation r.entry).overbooked && (u.reservation r.entry).overbooked))
    ∧ u.events = s.events.offers
        ((visited.filter (fun i => (s.reservation i).overbooked != (u.reservation i).overbooked)).map (fun i =>
          s.tableEvent (if (u.reservation i).overbooked then .resOverbooked else .resReinstated) i t.cycle
            (min (cost i) 0xFFFF)))
    ∧ { u with events := s.events, holds := { u.holds with records := s.holds.records }
               prot := { u.prot with memory := s.prot.memory } } = s

/-- RELEASE (R73): BAD_ARGUMENT above 63; a PENDING entry becomes FREE and leaves the admission order list, with answer
00h; an ACTIVE one becomes RELEASING, with answer 01h; any other is refused with STATE. -/
def Obligations.ReleaseByEntryState : Prop :=
  ∀ (s : State) (index : Byte), s.ready →
    (64 ≤ index.toNat → exec (.release index) s = .next (s.answered 0x31 .badArgument []))
    ∧ ∀ i : EntryIndex, i.val = index.toNat →
      ((s.entry i).state = .pending → exec (.release index) s = .next
        ({ s.setEntryState i .free with order := s.order.filter (fun j => decide (j ≠ i)) }.answered 0x31 .ok [0x00]))
      ∧ ((s.entry i).state = .active → exec (.release index) s = .next
        ((s.setEntryState i .releasing).answered 0x31 .ok [0x01]))
      ∧ ((s.entry i).state = .free ∨ (s.entry i).state = .releasing ∨ (s.entry i).state = .faulted →
        exec (.release index) s = .next (s.answered 0x31 .state []))

/-- PURGE (R76): BAD_ARGUMENT above 63, STATE unless the entry is FAULTED; a FAULTED entry becomes FREE with its counters
kept, leaves the admission order list, and its words are rewritten without wrong bits (with data 0: log entry 21). -/
def Obligations.PurgeFreesFaultedEntry : Prop :=
  ∀ (s : State) (index : Byte), s.ready → MemoryInv s →
    (64 ≤ index.toNat → exec (.purge index) s = .next (s.answered 0x32 .badArgument []))
    ∧ ∀ i : EntryIndex, i.val = index.toNat →
      ((s.entry i).state ≠ .faulted → exec (.purge index) s = .next (s.answered 0x32 .state []))
      ∧ ((s.entry i).state = .faulted →
        ∃ u, exec (.purge index) s = .next u
          ∧ u.entry i = { s.entry i with state := .free } ∧ (∀ j, j ≠ i → u.entry j = s.entry j)
          ∧ u.order = s.order.filter (fun j => decide (j ≠ i))
          ∧ (∀ k, u.word k = if 4 * i.val ≤ k ∧ k < 4 * i.val + 4 then blankWord else s.word k)
          ∧ u.link = restingLink ⟨.ok, 0x32, []⟩
          ∧ { u with table := s.table, order := s.order, link := s.link,
                     prot := { u.prot with memory := s.prot.memory } } = s)

/-- READ_RESERVATION, no bit of table memory wrong (R78): BAD_ARGUMENT above 63, one byte 00h for a FREE entry, else 29
bytes, those of the absent fields 0 for a FAULTED entry; nothing else changes. -/
def Obligations.ReadReservationReports : Prop :=
  ∀ (s : State) (index : Byte), s.ready → s.cleanTable →
    (64 ≤ index.toNat → exec (.readReservation index) s = .next (s.answered 0x33 .badArgument []))
    ∧ ∀ i : EntryIndex, i.val = index.toNat →
      let e := s.entry i
      let r := s.reservation i
      let counters := beBytes2 e.totalMisses.toNat ++ beBytes2 e.overrunDrops.toNat ++ beBytes2 e.staleDrops.toNat
        ++ beBytes4 e.passed.toNat
      (e.state = .free → exec (.readReservation index) s = .next (s.answered 0x33 .ok [0x00]))
      ∧ (e.state = .faulted → exec (.readReservation index) s = .next (s.answered 0x33 .ok
          ([0x04] ++ List.replicate 14 0x00 ++ counters ++ [0x00, 0x00, 0x00, 0x00])))
      ∧ (s.inUse i = true → exec (.readReservation index) s = .next (s.answered 0x33 .ok
          ([match e.state with | .pending => 0x01 | .active => 0x02 | _ => 0x03, byteOf r.port.val]
            ++ beBytes2 r.tag.toNat ++ [byteOf r.slot.toNat] ++ beBytes2 r.maxLength.toNat ++ [byteOf r.frames.toNat]
            ++ beBytes3 r.cost.toNat
            ++ [if r.overbooked then 1 else 0, if r.silent then 1 else 0, byteOf r.used.toNat, byteOf r.misses.toNat]
            ++ counters ++ beBytes4 r.admitted.toNat)))

/-! ### The descriptor path -/

/-- SET_RING, no bit of table memory wrong (R102, R103): BAD_ARGUMENT, STATE, OVERLAP in this order; else the entry is
valid with these fields, and the answer says whether it was valid before; nothing else changes. -/
def Obligations.SetRingStoresRing : Prop :=
  ∀ (s : State) (port ring kind : Byte) (base : BitVec 24) (count : BitVec 16), s.ready → MemoryInv s → s.cleanTable →
    let valid := port.toNat < 8 ∧ ((ring.toNat < 4 ∧ kind.toNat < 2) ∨ (ring.toNat = 4 ∧ kind.toNat = 2))
      ∧ base.toNat % 8 = 0 ∧ 4 ≤ count.toNat ∧ count.toNat ≤ 4096 ∧ base.toNat + 8 * count.toNat ≤ 0x1000000
    (¬ valid → exec (.setRing port ring kind base count) s = .next (s.answered 0x40 .badArgument []))
    ∧ (valid → ∀ e : RingIndex, e.val = 5 * port.toNat + ring.toNat →
      let gate := (s.port (ringPort e)).gate
      let busy := (ring.toNat < 4 ∧ (gate = .enforcing ∨ gate = .failsafe))
        ∨ (ring.toNat = 4 ∧ s.lock.port = some (ringPort e) ∧ s.lock.state ≠ .free)
      let overlap := ∃ o, o ≠ e ∧ s.ringValid o = true ∧ base.toNat < (s.ring o).limit
        ∧ (s.ring o).base.toNat < base.toNat + 8 * count.toNat
      (busy → exec (.setRing port ring kind base count) s = .next (s.answered 0x40 .state []))
      ∧ (¬ busy → overlap → exec (.setRing port ring kind base count) s = .next (s.answered 0x40 .overlap []))
      ∧ (¬ busy → ¬ overlap → ∃ u, exec (.setRing port ring kind base count) s = .next u
          ∧ u.ringValid e = true ∧ (∀ o, o ≠ e → u.ringValid o = s.ringValid o)
          ∧ (u.ring e).base = base ∧ (u.ring e).count.toNat = count.toNat
          ∧ (u.ring e).kind = (if kind = 0x00 then .txMotion else if kind = 0x01 then .txGeneral else .rxSync)
          ∧ (∀ k, k < 304 + 2 * e.val ∨ 306 + 2 * e.val ≤ k → u.word k = s.word k)
          ∧ u.link = restingLink ⟨.ok, 0x40, [if s.ringValid e then 0x01 else 0x00]⟩
          ∧ { u with link := s.link, path := { u.path with ringValid := s.path.ringValid },
                     prot := { u.prot with memory := s.prot.memory } } = s))

/-- CLEAR_RING (R104, with the state check of R103): command code 41h and two argument bytes; BAD_ARGUMENT, STATE,
NOT_FOUND in this order; else the entry is invalid and nothing else changes, no event and no word of table memory. -/
def Obligations.ClearRingInvalidatesRing : Prop :=
  ∀ port ring : Byte, decodeFrame 4 [0x41, 0x02, port, ring] = some (.clearRing port ring) ∧
    ∀ s : State, s.ready →
      ((8 ≤ port.toNat ∨ 5 ≤ ring.toNat) → exec (.clearRing port ring) s = .next (s.answered 0x41 .badArgument []))
      ∧ (port.toNat < 8 → ring.toNat < 5 → ∀ e : RingIndex, e.val = 5 * port.toNat + ring.toNat →
        let gate := (s.port (ringPort e)).gate
        let busy := (ring.toNat < 4 ∧ (gate = .enforcing ∨ gate = .failsafe))
          ∨ (ring.toNat = 4 ∧ s.lock.port = some (ringPort e) ∧ s.lock.state ≠ .free)
        (busy → exec (.clearRing port ring) s = .next (s.answered 0x41 .state []))
        ∧ (¬ busy → s.ringValid e = false → exec (.clearRing port ring) s = .next (s.answered 0x41 .notFound []))
        ∧ (¬ busy → s.ringValid e = true → ∃ u, exec (.clearRing port ring) s = .next u
            ∧ u.ringValid e = false ∧ (∀ o, o ≠ e → u.ringValid o = s.ringValid o)
            ∧ u.link = restingLink ⟨.ok, 0x41, []⟩
            ∧ { u with link := s.link, path := { u.path with ringValid := s.path.ringValid } } = s))

/-- SET_MEMORY (R101): BAD_ARGUMENT for a limit below 16 or above 4,095; else the response limit is replaced, the answer is
the limit before, and no read in the list changes. -/
def Obligations.SetMemoryReplacesLimit : Prop :=
  ∀ (s : State) (limit : BitVec 16), s.ready →
    exec (.setMemory limit) s = .next
      (if 16 ≤ limit.toNat ∧ limit.toNat ≤ 4095 then
        { s with path := { s.path with responseLimit := limit.toNat } }.answered 0x42 .ok
          [byteOf (s.path.responseLimit / 256), byteOf s.path.responseLimit]
      else s.answered 0x42 .badArgument [])

/-- A read presented by the controller (R92, R96, R106): it stands behind the requests that wait, and they pass in turn as
far as they can. A read at the head passes exactly with fewer than 4 reads in the list and its tag in neither the list nor
quarantine. Where it does not pass nothing does; where it does, no bit of table memory wrong, it is forwarded unchanged,
and listed with the time, the present limit and the ring that recognises its address, and the requests behind it have
their turn. That waiting requests stand in the state, and pass in the event that frees them, is log entry 8. -/
def Obligations.ReadIsAcceptedOrWaits : Prop :=
  ∀ (s : State) (tag : Tag) (a : Address),
    let free := s.path.inFlight.length < 4 ∧ (∀ r ∈ s.path.inFlight, r.tag ≠ tag) ∧ ∀ q ∈ s.path.quarantine, q.tag ≠ tag
    let waits := fun w : List Request => { s with path := { s.path with waiting := w } }
    let accepted := fun (ring : Option RingIndex) (rest : List Request) => { s with path := { s.path with
      waiting := rest
      inFlight := s.path.inFlight ++ [⟨tag, a, s.time, s.path.responseLimit, ring⟩]
      toMemory := s.path.toMemory ++ [.read tag a] } }
    let recognised := fun ring : Option RingIndex =>
      (∀ e, ring = some e → s.ringValid e = true ∧ e.val % 5 ≠ 4 ∧ (s.ring e).kind ≠ .rxSync
        ∧ (s.ring e).base.toNat ≤ a.toNat ∧ a.toNat < (s.ring e).base.toNat + 8 * (s.ring e).count.toNat
        ∧ (a.toNat - (s.ring e).base.toNat) % 8 = 0)
      ∧ (ring = none → ∀ e, s.ringValid e = true → e.val % 5 ≠ 4 → (s.ring e).kind ≠ .rxSync →
          (s.ring e).base.toNat ≤ a.toNat → a.toNat < (s.ring e).base.toNat + 8 * (s.ring e).count.toNat →
          (a.toNat - (s.ring e).base.toNat) % 8 ≠ 0)
    (s.resetAsserted = false →
      exec (.readAccepted tag a) s = .next (waits (s.path.waiting ++ [.read tag a])).drain)
    ∧ (s.path.waiting = [] → s.drain = s)
    ∧ (∀ rest, s.path.waiting = .read tag a :: rest → ¬ free → s.drain = s
        ∧ (s.resetAsserted = false → ∀ tag' a', exec (.readAccepted tag' a') s =
            .next (waits (s.path.waiting ++ [.read tag' a']))))
    ∧ (s.cleanTable → ∀ rest, s.path.waiting = .read tag a :: rest → free →
        ∃ ring, s.drain = (accepted ring rest).drain ∧ recognised ring)
    ∧ (s.resetAsserted = false → s.path.waiting = [] → s.cleanTable →
        (¬ free → exec (.readAccepted tag a) s = .next (waits [.read tag a]))
        ∧ (free → ∃ ring, exec (.readAccepted tag a) s = .next (accepted ring []) ∧ recognised ring))

/-- A write presented by the controller (R17, R18, R92, R110, R144): it stands behind the requests that wait. A write at
the head passes always, no bit of table memory wrong: it goes to memory unchanged, the hold record of its descriptor goes,
and the lock takes it as a mark exactly where it meets the tests of R17; the requests behind it have their turn. Behind a
read that is not accepted it waits (log entry 8). -/
def Obligations.WritePassesAndIsSeen : Prop :=
  ∀ (s : State) (tag : Tag) (a : Address) (data : Word) (lanes : BitVec 4),
    let waits := fun w : List Request => { s with path := { s.path with waiting := w } }
    let passed := fun rest : List Request => { s with
      path := { s.path with waiting := rest, toMemory := s.path.toMemory ++ [.write tag a data lanes] }
      holds := { s.holds with records := s.holds.records.filter (fun r => decide (r.address.toNat / 8 ≠ a.toNat / 8
        ∨ r.address.toNat % 8 ≠ 0)) } }
    let isMark := ∃ p e, s.lock.port = some p ∧ e = ringIndex p 4 ∧ s.ringValid e = true ∧ (s.ring e).kind = .rxSync
      ∧ (s.ring e).base.toNat ≤ a.toNat ∧ a.toNat < (s.ring e).base.toNat + 8 * (s.ring e).count.toNat
      ∧ (a.toNat - (s.ring e).base.toNat) % 8 = 0 ∧ lanes.getLsbD 3 = true ∧ lanes.getLsbD 2 = true
      ∧ data.getLsbD 31 = true ∧ data.extractLsb' 16 12 = s.lock.tag
    (s.resetAsserted = false →
      exec (.controllerWrite tag a data lanes) s = .next (waits (s.path.waiting ++ [.write tag a data lanes])).drain)
    ∧ (s.resetAsserted = false → ∀ tag' a' rest, s.path.waiting = .read tag' a' :: rest → s.path.accepts tag' = false →
        exec (.controllerWrite tag a data lanes) s = .next (waits (s.path.waiting ++ [.write tag a data lanes])))
    ∧ (s.cleanTable → ∀ rest, s.path.waiting = .write tag a data lanes :: rest →
        ((¬ isMark ∨ s.timer = none) → s.drain = (passed rest).drain)
        ∧ (isMark → ∀ t, s.timer = some t → s.drain = { passed rest with lock := s.lock.takeMark t s.time }.drain))
    ∧ (s.resetAsserted = false → s.path.waiting = [] → s.cleanTable →
        ((¬ isMark ∨ s.timer = none) → exec (.controllerWrite tag a data lanes) s = .next (passed []))
        ∧ (isMark → ∀ t, s.timer = some t → exec (.controllerWrite tag a data lanes) s =
            .next { passed [] with lock := s.lock.takeMark t s.time }))

/-- A response of memory that is not decided, no bit of table memory wrong (R93, R99, R100, R107, R112): with error status,
or to a read that is no candidate, it passes unchanged and the read leaves the list; matching no read it is late: nothing is
passed on, it is counted and reported, and the quarantine of its tag ends. What that frees lets waiting requests pass
(`State.drain`, stated in ReadIsAcceptedOrWaits and WritePassesAndIsSeen). A response at the instant at which the quarantine
of its tag has expired is late too, once, also where a read of the tag has been accepted at that instant: that read stays in
the list (R99; how the model keeps that instant is log entry 37). -/
def Obligations.ResponsePassesOrIsLate : Prop :=
  ∀ (s : State) (tag : Tag) (data : Word) (error : Bool), s.resetAsserted = false → s.cleanTable →
    (∀ r, tag ∉ s.path.expired → s.path.readWith tag = some r → (error = true ∨ s.candidateOf r data = none) →
      exec (.memoryResponse tag data error) s = .next
        (State.drain { s with path := { s.path with
            inFlight := s.path.inFlight.filter (fun x => decide (x.tag ≠ tag))
            toController := s.path.toController ++ [⟨tag, data, error⟩] } }))
    ∧ (∀ r, (r.ring = none ∨ data.getLsbD 31 = false ∨ data.getLsbD 30 = true) → s.candidateOf r data = none)
    ∧ (((∀ r ∈ s.path.inFlight, r.tag ≠ tag) ∨ tag ∈ s.path.expired) →
      exec (.memoryResponse tag data error) s = .next
        (State.drain { s with
            path := { s.path with quarantine := s.path.quarantine.filter (fun q => decide (q.tag ≠ tag))
                                  expired := s.path.expired.filter (fun x => decide (x ≠ tag))
                                  lates := satInc s.path.lates }
            events := s.events.offer
              { kind := .lateResponse, port := none, index := none, tag := none, cycle := lowCycle s.cycleNumber
                detail := BitVec.ofNat 16
                  ((if s.path.quarantine.any (fun q => decide (q.tag = tag)) then 0x100 else 0) + tag.toNat) } }))

/-- A response without error status to a read that names a ring (R93, R107, R108, R153, R158), not at the instant at which
the quarantine of its tag has expired (there it is late: ResponsePassesOrIsLate, log entry 37): the read leaves the list and
the ring's words are read again, wrong bits among them or not; it is a candidate exactly where the read names a ring that is
valid, of a transmit kind, and has the read's address as a status word, and the word is READY and not SKIP. Then the gate
decides, and the controller receives memory's word for PASS, with READY and SKIP clear for HOLD, with both set for DROP,
every other bit as memory holds it; else it receives the word unchanged. Nothing goes to memory but what waits
(`State.drain`). -/
def Obligations.CandidateReceivesItsOutcome : Prop :=
  ∀ (s : State) (tag : Tag) (data : Word) (r : InFlightRead) (e : RingIndex), s.resetAsserted = false →
    tag ∉ s.path.expired → s.path.readWith tag = some r → r.ring = some e →
    let left := { s with path := { s.path with inFlight := s.path.inFlight.filter (fun x => decide (x.tag ≠ tag)) } }
    let v := if s.ringValid e then left.checkWords [304 + 2 * e.val, 305 + 2 * e.val] else left
    (s.cleanTable → v = left)
    ∧ (∀ c, v.candidateOf r data = some c ↔
        (v.ringValid e = true ∧ (v.ring e).kind ≠ .rxSync ∧ (v.ring e).base.toNat ≤ r.address.toNat
          ∧ r.address.toNat < (v.ring e).base.toNat + 8 * (v.ring e).count.toNat
          ∧ (r.address.toNat - (v.ring e).base.toNat) % 8 = 0 ∧ data.getLsbD 31 = true ∧ data.getLsbD 30 = false
          ∧ c = ⟨ringPort e, decide ((v.ring e).kind = .txMotion), r.address, data⟩))
    ∧ (v.candidateOf r data = none → exec (.memoryResponse tag data false) s = .next
        (State.drain { v with path := { v.path with toController := s.path.toController ++ [⟨tag, data, false⟩] } }))
    ∧ (∀ c, v.candidateOf r data = some c → ∃ d s' word, gateDecision c v = (d, s')
        ∧ exec (.memoryResponse tag data false) s = .next
            (State.drain { s' with path := { s'.path with toController := s.path.toController ++ [⟨tag, word, false⟩] } })
        ∧ s'.path.toController = s.path.toController ∧ s'.path.toMemory = s.path.toMemory
        ∧ (∀ n, n < 30 → word.getLsbD n = data.getLsbD n)
        ∧ word.getLsbD 31 = decide (d ≠ .hold) ∧ word.getLsbD 30 = decide (d = .drop))

/-- A read that memory does not answer in time, nothing due before its deadline (R98, R112): it leaves the list, the
controller receives an error response with data 0, the tag enters quarantine for four times the recorded limit, the timeout
is counted and reported, and waiting requests may pass (`State.drain`); nothing else changes. That the command lets time
pass to the deadline is the model's choice (log entry 2); the marks of expired quarantines are of one instant (log entry
37). -/
def Obligations.ReadTimesOut : Prop :=
  ∀ (s : State) (r : InFlightRead), s.path.readWith r.tag = some r → s.prot.busy = false →
    s.nothingDue (ticksUntil s.time r.deadline) →
    ∃ now, now = afterTicks s.time (ticksUntil s.time (afterTicks r.forwarded r.limit))
      ∧ exec (.readTimeout r.tag) s = .next
        (State.drain { s with
            time := now
            path := { s.path with
              inFlight := s.path.inFlight.filter (fun x => decide (x.tag ≠ r.tag))
              toController := s.path.toController ++ [⟨r.tag, 0, true⟩]
              quarantine := s.path.quarantine ++ [⟨r.tag, afterTicks now (4 * r.limit)⟩]
              expired := if ticksUntil s.time r.deadline = 0 then s.path.expired else []
              timeouts := satInc s.path.timeouts }
            events := s.events.offer
              { kind := .readTimeout, port := r.ring.map ringPort, index := none, tag := none
                cycle := lowCycle s.cycleNumber
                detail := BitVec.ofNat 16 ((if r.ring.isSome then 0x100 else 0) + r.tag.toNat) } })

/-- The expiry of a tag's quarantine, nothing due before it (R99): the tag leaves quarantine, no event is raised, waiting
requests may pass (`State.drain`), and nothing else changes; and a memory response with the tag at that instant, whatever
read is in the list by then, is discarded as late: the controller is given nothing, the late response count grows, every
read stays in the list, and the next response with the tag is not late by this. That the command lets time pass to the
expiry is the model's choice (log entry 2); the mark that the tag carries for this one instant is log entry 37. -/
def Obligations.QuarantineExpires : Prop :=
  ∀ (s : State) (q : Quarantined), s.path.quarantineOf q.tag = some q → s.prot.busy = false →
    s.nothingDue (ticksUntil s.time q.expiry) →
    let n := ticksUntil s.time q.expiry
    ∃ u, exec (.quarantineExpiry q.tag) s = .next u
      ∧ u = State.drain { s with
          time := afterTicks s.time n
          path := { s.path with
            quarantine := s.path.quarantine.filter (fun x => decide (x.tag ≠ q.tag))
            expired := (if n = 0 then s.path.expired else []) ++ [q.tag] } }
      ∧ ∀ data error, ∃ v, exec (.memoryResponse q.tag data error) u = .next v
          ∧ v.path.toController = s.path.toController ∧ v.path.lates = satInc s.path.lates
          ∧ (∀ r ∈ u.path.inFlight, r ∈ v.path.inFlight) ∧ q.tag ∉ v.path.expired

/-! ### The egress gates -/

/-- SET_PORT, no bit of table memory wrong and the admission order list sound (R60, R79, R116, R117): BAD_ARGUMENT for any
value outside its accepted values; else the port has the eleven settings and keeps its gate, cause, busy-until and
counters, the answer says whether a budget input changed, and if one did the slots 0 to N - 1 of the port are walked (R80;
what a walk does is stated in WalkFollowsAdmissionOrder), so that every entry in use of the port has its cost computed
anew. That they are walked in ascending order, and that the cost of an entry with more than 4 frames is stored modulo 2^23,
is the model's choice (log entries 31 and 36). -/
def Obligations.SetPortReplacesSettings : Prop :=
  ∀ (s : State) (port rate extra : Byte) (lead guard frame : BitVec 16) (mode lock reclaim policy stale silence : Byte),
    s.ready → MemoryInv s → s.cleanTable → OrderInv s →
    let valid := port.toNat < 8 ∧ rate.toNat < 4 ∧ extra.toNat ≤ 32 ∧ lead.toNat ≤ 1023 ∧ guard.toNat ≤ 4095
      ∧ 64 ≤ frame.toNat ∧ frame.toNat ≤ 16383 ∧ mode.toNat < 2 ∧ lock.toNat < 2 ∧ reclaim.toNat < 2 ∧ policy.toNat < 2
      ∧ 1 ≤ stale.toNat ∧ stale.toNat ≤ 15 ∧ 1 ≤ silence.toNat
    (¬ valid → exec (.setPort port rate extra lead guard frame mode lock reclaim policy stale silence) s =
      .next (s.answered 0x50 .badArgument []))
    ∧ (valid → ∀ p : PortIndex, p.val = port.toNat →
      let old := (s.port p).settings
      let new : Settings :=
        { rate := match rate.toNat with | 0 => .rate10M | 1 => .rate100M | 2 => .rate1G | _ => .rate2G5
          extra := extra.toNat, lead := lead.toNat, guard := guard.toNat, maxFrame := frame.toNat
          failMode := if mode = 0x00 then .passAll else .motionOnly, requireLock := decide (lock = 0x01)
          reclaim := decide (reclaim = 0x01), unreserved := if policy = 0x00 then .asGeneral else .drop
          stale := stale.toNat, silence := silence.toNat }
      let same := old.rate = new.rate ∧ old.extra = new.extra ∧ old.lead = new.lead ∧ old.guard = new.guard
      (same → exec (.setPort port rate extra lead guard frame mode lock reclaim policy stale silence) s =
        .next ((s.updPort p (fun q => { q with settings := new })).answered 0x50 .ok [0x00]))
      ∧ (¬ same → ∃ u, exec (.setPort port rate extra lead guard frame mode lock reclaim policy stale silence) s = .next u
        ∧ u.port p = { s.port p with settings := new } ∧ (∀ q, q ≠ p → u.port q = s.port q)
        ∧ (∀ i, u.entry i = s.entry i)
        ∧ (∀ t, s.timer = some t → ∀ i, s.inUse i = true → (s.reservation i).port = p →
            (s.reservation i).slot.toNat < t.geometry.slots →
            u.reservation i = { s.reservation i with
              overbooked := (u.reservation i).overbooked
              cost := BitVec.ofNat 23
                ((s.reservation i).frames.toNat * duration new (s.reservation i).maxLength.toNat) })
        ∧ u.link = restingLink ⟨.ok, 0x50, [0x01]⟩
        ∧ u = ((List.range ((s.timer.map (fun t => t.geometry.slots)).getD 0)).foldl (fun x k => x.walk p k)
            (s.ended.updPort p (fun q => { q with settings := new }))).answered 0x50 .ok [0x01]
        ∧ { u with ports := s.ports, link := s.link, events := s.events
                   holds := { u.holds with records := s.holds.records }
                   prot := { u.prot with memory := s.prot.memory } } = s))

/-- PORT_ENFORCE (R118, R119): BAD_ARGUMENT, then STATE while STOPPED, with the BAD mark or with a FAULTED entry; else an
ENFORCING port is unchanged, a port with require lock on and no lock is in FAILSAFE with cause LOCK_LOST, and any other is
ENFORCING with a fresh busy-until; the answer is the gate state and the cause after the command. -/
def Obligations.PortEnforceByTable : Prop :=
  ∀ (s : State) (port : Byte), s.ready →
    (8 ≤ port.toNat → exec (.portEnforce port) s = .next (s.answered 0x51 .badArgument []))
    ∧ ∀ p : PortIndex, p.val = port.toNat →
      let q := s.port p
      let refused := s.timer = none ∨ (s.mapsOf p).bad = true ∨ ∃ i, (s.entry i).state = .faulted
      let lockless := q.settings.requireLock = true ∧ s.lock.state ≠ .locked ∧ s.lock.state ≠ .holdover
      (refused → exec (.portEnforce port) s = .next (s.answered 0x51 .state []))
      ∧ (¬ refused → q.gate = .enforcing →
          exec (.portEnforce port) s = .next (s.answered 0x51 .ok [0x02, q.cause.byte]))
      ∧ (¬ refused → q.gate ≠ .enforcing → ¬ lockless → exec (.portEnforce port) s = .next
          ((s.updPort p (fun q => { q with
              gate := .enforcing, cause := .none
              busy := some (afterTicks (afterTicks s.time q.settings.lead) (duration q.settings q.settings.maxFrame)) })
            ).answered 0x51 .ok [0x02, 0x00]))
      ∧ (¬ refused → lockless → q.gate = .failsafe → q.cause = .lockLost →
          exec (.portEnforce port) s = .next (s.answered 0x51 .ok [0x03, 0x01]))
      ∧ (¬ refused → lockless → (q.gate = .transparent ∨ q.gate = .held ∨ (q.gate = .failsafe ∧ q.cause ≠ .lockLost)) →
          ∃ e : EventEntry, e.kind = .portFailsafe ∧ e.port = some p ∧ e.index = none ∧ e.tag = none
            ∧ e.cycle = lowCycle s.cycleNumber ∧ e.detail = (if q.gate = .failsafe then 0x0101 else 0x0001)
            ∧ exec (.portEnforce port) s = .next
              ({ (s.updPort p (fun q => { q with gate := .failsafe, cause := .lockLost })) with
                  events := s.events.offer e }.answered 0x51 .ok [0x03, 0x01]))

/-- PORT_HOLD and PORT_TRANSPARENT (R120, R121): BAD_ARGUMENT above 7; else the gate is HELD or TRANSPARENT with cause NONE
and busy-until absent, a port that leaves ENFORCING loses its hold records, and the answer is the gate state before. -/
def Obligations.PortLeavesEnforcement : Prop :=
  ∀ (s : State) (port : Byte), s.ready →
    (8 ≤ port.toNat → exec (.portHold port) s = .next (s.answered 0x52 .badArgument [])
      ∧ exec (.portTransparent port) s = .next (s.answered 0x53 .badArgument []))
    ∧ ∀ p : PortIndex, p.val = port.toNat →
      let before : Byte := match (s.port p).gate with | .transparent => 0 | .held => 1 | .enforcing => 2 | .failsafe => 3
      let left := { s with holds := { s.holds with records := s.holds.records.filter (fun r =>
        decide ((s.port p).gate ≠ GateState.enforcing ∨ r.port ≠ p)) } }
      exec (.portHold port) s = .next
        ((left.updPort p (fun q => { q with gate := .held, cause := .none, busy := none })).answered 0x52 .ok [before])
      ∧ exec (.portTransparent port) s = .next
        ((left.updPort p (fun q => { q with gate := .transparent, cause := .none, busy := none })).answered 0x53 .ok
          [before])

/-- READ_PORT (R134, R135): BAD_ARGUMENT for a port above 7 or a selector above 01h; selector 00h answers 21 bytes,
selector 01h the ten counters in 40 bytes; nothing else changes. -/
def Obligations.ReadPortReports : Prop :=
  ∀ (s : State) (port selector : Byte), s.ready →
    ((8 ≤ port.toNat ∨ 2 ≤ selector.toNat) →
      exec (.readPort port selector) s = .next (s.answered 0x54 .badArgument []))
    ∧ ∀ p : PortIndex, p.val = port.toNat →
      let q := s.port p
      let c := q.settings
      let k := q.counters
      let remaining := match q.busy with | none => 0 | some b => min (ticksUntil s.time b) 0xFFFFFF
      let head : List Byte := [q.gate.byte, q.cause.byte, c.rate.byte, byteOf c.extra] ++ beBytes2 c.lead
        ++ beBytes2 c.guard ++ beBytes2 c.maxFrame
        ++ [c.failMode.byte, if c.requireLock then 1 else 0, if c.reclaim then 1 else 0, c.unreserved.byte,
            byteOf c.stale, byteOf c.silence] ++ beBytes3 remaining
      (selector = 0x00 → ∃ flags length : Byte,
        exec (.readPort port selector) s = .next (s.answered 0x54 .ok (head ++ [flags, length]))
        ∧ (head ++ [flags, length]).length = 21
        ∧ ((s.mapsOf p).waiting = none → flags = (if (s.mapsOf p).bad then 0x01 else 0x00) ∧ length = 0x00)
        ∧ (∀ m, (s.mapsOf p).waiting = some m → length = byteOf m.length
            ∧ flags = (if (s.mapsOf p).bad then 0x01 else 0x00) + (if m.committed then 0x06 else 0x02)))
      ∧ (selector = 0x01 → exec (.readPort port selector) s = .next (s.answered 0x54 .ok
          (beBytes4 k.motionPassed.toNat ++ beBytes4 k.generalPassed.toNat ++ beBytes4 k.reclaimed.toNat
            ++ beBytes4 k.motionHeld.toNat ++ beBytes4 k.generalHeld.toNat ++ beBytes4 k.overrunDrops.toNat
            ++ beBytes4 k.staleDrops.toNat ++ beBytes4 k.unreservedDrops.toNat ++ beBytes4 k.lateMotion.toNat
            ++ beBytes4 k.missedSlots.toNat)))

/-- The decision outside ENFORCING (R115, R124, R134): TRANSPARENT passes and counts nothing, HELD holds, FAILSAFE passes
everything or only motion by the fail mode; only the port's passed or held count of the ring's kind changes. -/
def Obligations.DecisionOutsideEnforcing : Prop :=
  ∀ (s : State) (c : Candidate),
    let passed := s.countPort c.port (fun k => if c.motion then { k with motionPassed := satInc k.motionPassed }
      else { k with generalPassed := satInc k.generalPassed })
    let held := s.countPort c.port (fun k => if c.motion then { k with motionHeld := satInc k.motionHeld }
      else { k with generalHeld := satInc k.generalHeld })
    ((s.port c.port).gate = .transparent → gateDecision c s = (.pass, s))
    ∧ ((s.port c.port).gate = .held → gateDecision c s = (.hold, held))
    ∧ ((s.port c.port).gate = .failsafe →
        gateDecision c s =
          if (s.port c.port).settings.failMode = .passAll ∨ c.motion = true then (.pass, passed) else (.hold, held))

/-- The decision on a motion candidate in ENFORCING whose stream has a usable entry: one of its port and tag that is ACTIVE
or RELEASING and not overbooked (of several, which only corrupted words can bring about, the lowest: the model's choice,
log entry 20); no bit of table memory wrong (R84 to R86, R91, R126 to R130, R134, R136, R138, R141 to R143, R150), in the order of the checks: stale and overrun are dropped,
counted at the entry and the port, and reported; in the entry's slot with its count not used up the frame is released, with
RES_RESUMED for a silent stream and LATE_MOTION past the slot's end; else it is held, with a record if it has none and the
list has room, with HOLD_LIST_FULL if it has not. Of table memory a release writes only the entry's
second word, which holds its counts and marks (R151); the other decisions write none. -/
def Obligations.MotionDecisionWithEntry : Prop :=
  ∀ (s : State) (c : Candidate) (i : EntryIndex) (t : Timer), MemoryInv s → s.cleanTable → s.timer = some t →
    (s.port c.port).gate = .enforcing → c.motion = true →
    let usable := fun j => ((s.entry j).state = .active ∨ (s.entry j).state = .releasing)
      ∧ (s.reservation j).port = c.port ∧ (s.reservation j).tag = tagOf c.word ∧ (s.reservation j).overbooked = false
    usable i → (∀ j, usable j → i ≤ j) →
    let set := (s.port c.port).settings
    let k := (s.port c.port).counters
    let r := s.reservation i
    let others := s.holds.records.filter (fun x => decide (x.address ≠ c.address))
    let stale := fun x => s.holdOf c.address = some x ∧ set.stale < (t.cycle - x.firstHeld).toNat
    let inSlot := t.slot s.time = r.slot.toNat ∧ r.used.toNat < r.frames.toNat
    let finish := afterTicks (expectedStart set (s.port c.port).busy s.time) (duration set (lengthOf c.word))
    let slotEnd := t.slotEnd (t.slot s.time)
    let late := later finish slotEnd
    s.lookup c.port (tagOf c.word) = some i
    ∧ (∀ x, stale x → ∃ u, gateDecision c s = (.drop, u)
        ∧ u.entry i = { s.entry i with staleDrops := satInc (s.entry i).staleDrops } ∧ (∀ j, j ≠ i → u.entry j = s.entry j)
        ∧ u.port c.port = { s.port c.port with counters := { k with staleDrops := satInc k.staleDrops } }
        ∧ (∀ p, p ≠ c.port → u.port p = s.port p) ∧ u.holds.records = others
        ∧ u.events = s.events.offer (s.tableEvent .staleDrop i t.cycle (t.cycle - x.firstHeld).toNat)
        ∧ { u with table := s.table, ports := s.ports, events := s.events,
                   holds := { u.holds with records := s.holds.records } } = s)
    ∧ ((∀ x, ¬ stale x) → r.maxLength.toNat < lengthOf c.word → ∃ u, gateDecision c s = (.drop, u)
        ∧ u.entry i = { s.entry i with overrunDrops := satInc (s.entry i).overrunDrops }
        ∧ (∀ j, j ≠ i → u.entry j = s.entry j)
        ∧ u.port c.port = { s.port c.port with counters := { k with overrunDrops := satInc k.overrunDrops } }
        ∧ (∀ p, p ≠ c.port → u.port p = s.port p) ∧ u.holds.records = others
        ∧ u.events = s.events.offer (s.tableEvent .overrunDrop i t.cycle (lengthOf c.word))
        ∧ { u with table := s.table, ports := s.ports, events := s.events,
                   holds := { u.holds with records := s.holds.records } } = s)
    ∧ ((∀ x, ¬ stale x) → lengthOf c.word ≤ r.maxLength.toNat → inSlot → ∃ u, gateDecision c s = (.pass, u)
        ∧ u.reservation i = { r with used := r.used + 1, misses := 0, silent := false }
        ∧ (∀ j, j ≠ i → u.reservation j = s.reservation j) ∧ (∀ n, n ≠ 4 * i.val + 1 → u.word n = s.word n)
        ∧ u.entry i = { s.entry i with passed := satInc (s.entry i).passed } ∧ (∀ j, j ≠ i → u.entry j = s.entry j)
        ∧ u.port c.port = { s.port c.port with
            busy := some finish
            counters := { k with motionPassed := satInc k.motionPassed
                                 lateMotion := if late then satInc k.lateMotion else k.lateMotion } }
        ∧ (∀ p, p ≠ c.port → u.port p = s.port p) ∧ u.holds.records = others
        ∧ u.events = s.events.offers
            ((if r.silent then [s.tableEvent .resResumed i t.cycle r.misses.toNat] else [])
              ++ if late then [s.tableEvent .lateMotion i t.cycle (min (finish - slotEnd).toNat 0xFFFF)] else [])
        ∧ { u with table := s.table, ports := s.ports, events := s.events,
                   holds := { u.holds with records := s.holds.records }
                   prot := { u.prot with memory := s.prot.memory } } = s)
    ∧ ((∀ x, ¬ stale x) → lengthOf c.word ≤ r.maxLength.toNat → ¬ inSlot → ∃ u, gateDecision c s = (.hold, u)
        ∧ u.port c.port = { s.port c.port with counters := { k with motionHeld := satInc k.motionHeld } }
        ∧ (∀ p, p ≠ c.port → u.port p = s.port p)
        ∧ (s.holdOf c.address ≠ none → u.holds = s.holds ∧ u.events = s.events)
        ∧ (s.holdOf c.address = none → s.holds.records.length < 32 → u.events = s.events ∧
            u.holds = { s.holds with records := s.holds.records ++ [⟨c.address, c.port, i, t.cycle⟩] })
        ∧ (s.holdOf c.address = none → 32 ≤ s.holds.records.length →
            u.holds = { s.holds with full := satInc s.holds.full }
            ∧ u.events = s.events.offer (s.tableEvent .holdListFull i t.cycle
                (s.holds.records.countP (fun x => decide (x.port = c.port)))))
        ∧ { u with ports := s.ports, events := s.events, holds := s.holds } = s)

/-- The arithmetic of a decision: a frame's duration is the smallest whole number of ticks not less than its wire bytes at
the port's byte time, and it is expected to start at the later of now plus the lead and busy-until (R49 to R52). And the
decision in ENFORCING on a general candidate, and on a motion frame without a usable entry, no bit of table memory wrong
(R35, R38, R53, R54, R56, R84, R87, R125, R126, R131, R132, R134, R136). Under policy DROP the motion frame is dropped,
counted and reported; under AS_GENERAL it is decided as a general one, in the counts of its own ring's kind: held in a CLOSED slot and
in a RESERVED slot that is not reclaimed; in an OPEN slot, and in a RESERVED one that reclaim has freed, it passes exactly
if its expected end plus the guard is not later than the next protected boundary, and busy-until becomes its expected end.
The boundary is the start of the first slot after the current one, up to the end of the cycle, that the active map protects;
else of the first slot of the next cycle, up to the one with the current index, that the next-cycle map protects; else
there is none. That it is held while STOPPED, where no run has a gate ENFORCING, is the model's choice (log entry 34). -/
def Obligations.GeneralDecisionBySlotKind : Prop :=
  (∀ (set : Settings) (length : Nat),
    let exact := (max (length + set.extra) 60 + 24) *
      match set.rate with | .rate10M => 800000 | .rate100M => 80000 | .rate1G => 8000 | .rate2G5 => 3200
    exact ≤ 10000 * duration set length ∧ 10000 * duration set length < exact + 10000)
  ∧ (∀ (set : Settings) (busy : Option DeviceTime) (now : DeviceTime),
    let ready := now + BitVec.ofNat 48 set.lead
    expectedStart set busy now =
      match busy with | none => ready | some b => if 0 < (b - ready).toInt then b else ready)
  ∧ ∀ (s : State) (c : Candidate), s.cleanTable → (s.port c.port).gate = .enforcing →
    let set := (s.port c.port).settings
    let k := (s.port c.port).counters
    let usable := fun i => ((s.entry i).state = .active ∨ (s.entry i).state = .releasing)
      ∧ (s.reservation i).port = c.port ∧ (s.reservation i).tag = tagOf c.word ∧ (s.reservation i).overbooked = false
    let unreserved := c.motion = true ∧ ∀ i, ¬ usable i
    let counted := fun k : PortCounters => s.updPort c.port (fun q => { q with counters := k })
    let held := (Decision.hold, counted (if c.motion then { k with motionHeld := satInc k.motionHeld }
      else { k with generalHeld := satInc k.generalHeld }))
    let counts := if c.motion then { k with motionPassed := satInc k.motionPassed }
      else { k with generalPassed := satInc k.generalPassed }
    let finish := afterTicks (expectedStart set (s.port c.port).busy s.time) (duration set (lengthOf c.word))
    let passed := fun k : PortCounters =>
      (Decision.pass, s.updPort c.port (fun q => { q with busy := some finish, counters := k }))
    (unreserved → set.unreserved = .drop → gateDecision c s = (.drop,
        { counted { k with unreservedDrops := satInc k.unreservedDrops } with
            events := s.events.offer (⟨.unreservedDrop, some c.port, none, some (tagOf c.word), lowCycle s.cycleNumber,
              BitVec.ofNat 16 (lengthOf c.word)⟩ : EventEntry) }))
    ∧ ((c.motion = false ∨ (unreserved ∧ set.unreserved = .asGeneral)) →
      (s.timer = none → gateDecision c s = held)
      ∧ ∀ t, s.timer = some t →
        let slot := t.slot s.time
        let n := t.geometry.slots
        let next := fun k => if (s.mapsOf c.port).waiting = some ⟨n, true⟩ then s.pendingKind c.port k
          else s.activeKind c.port k
        let first := fun (kind : Nat → SlotKind) low high k => low ≤ k ∧ k < high ∧ kind k ≠ .openSlot
          ∧ ∀ j, low ≤ j → j < k → kind j = .openSlot
        let boundary := fun b =>
          (∃ k, first (s.activeKind c.port) (slot + 1) n k ∧ b = afterTicks t.start (k * t.geometry.ticks))
          ∨ ((∀ k, slot < k → k < n → s.activeKind c.port k = .openSlot)
            ∧ ∃ k, first next 0 (slot + 1) k ∧ b = afterTicks t.start (t.length + k * t.geometry.ticks))
        let fit := ∀ b, boundary b → later (afterTicks finish set.guard) b = false
        let free := set.reclaim = true ∧ ∀ i, (s.entry i).state = .active → (s.reservation i).port = c.port →
          (s.reservation i).slot.toNat = slot → (s.reservation i).overbooked = false →
          (s.reservation i).used = (s.reservation i).frames ∨ (s.reservation i).silent = true
        (s.activeKind c.port slot = .closed → gateDecision c s = held)
        ∧ (s.activeKind c.port slot = .reserved → ¬ free → gateDecision c s = held)
        ∧ (s.activeKind c.port slot = .openSlot ∨ (s.activeKind c.port slot = .reserved ∧ free) → ¬ fit →
            gateDecision c s = held)
        ∧ (s.activeKind c.port slot = .openSlot → fit → gateDecision c s = passed counts)
        ∧ (s.activeKind c.port slot = .reserved → free → fit →
            gateDecision c s = passed { counts with reclaimed := satInc counts.reclaimed }))

/-! ### Table memory protection -/

/-- A read of a word with exactly one wrong bit, by any reader (R154, R160): the word is written back with the data last
written and valid check bits, the error is counted, MEM_CORRECTED is offered with the word's number; nothing else changes.
And which words the readers of table memory check, whatever bits of them are wrong (R153, R155, R158): each acts as on the
state that the checks of its words leave, those it comes to only after others as on the state that these leave. So a gate
decision (the lookup, the current slot kind, the reclaim question, the boundary search), COMMIT_MAP (the pending map before
the entries, the model's choice: log entry 19), ADMIT (DUPLICATE, then SLOT_KIND, with the pending map only where it is
consulted: log entry 19), READ_RESERVATION, the overlap check of SET_RING, each walk, the missed-slot check, recognition,
and the sync test. The candidate test is in CandidateReceivesItsOutcome. At a slot boundary (SLOT_BOUNDARY lets time pass to
it: log entry 2) the scrub checks the word at its pointer before the missed-slot check or after it, and a check before it
finds the scrub's uncorrectable word itself or leaves it to the scrub, a word that it has rewritten clean or struck as
before (R63, R159; the model's choice: log entry 33); the marks of log entry 37 are gone by then. What the check of one word does is stated here and in
DoubleBitErrorByOwner; the order in which a reader checks its words is the model's choice (log entry 15). -/
def Obligations.SingleBitErrorIsCorrected : Prop :=
  (∀ (s : State) (scrubbing : Bool) (k : Nat), MemoryInv s → k < 1024 → wrongBits (s.word k).flips = 1 →
    ∃ e : EventEntry, e.kind = .memCorrected ∧ e.tag = none ∧ e.detail = BitVec.ofNat 16 k
      ∧ e.cycle = lowCycle s.cycleNumber
      ∧ (∀ i : EntryIndex, e.index = some i ↔ 4 * i.val ≤ k ∧ k < 4 * i.val + 4)
      ∧ (∀ p : PortIndex, e.port = some p ↔ (256 + 3 * p.val ≤ k ∧ k < 259 + 3 * p.val)
          ∨ (280 + 3 * p.val ≤ k ∧ k < 283 + 3 * p.val) ∨ (304 + 10 * p.val ≤ k ∧ k < 314 + 10 * p.val))
      ∧ let u := s.checkWord scrubbing k
        (∀ j, u.word j = if j = k then ⟨(s.word k).data, 0⟩ else s.word j)
        ∧ u.prot.corrected = satInc s.prot.corrected ∧ u.events = s.events.offer e
        ∧ { u with events := s.events,
                   prot := { u.prot with memory := s.prot.memory, corrected := s.prot.corrected } } = s)
  ∧ ∀ s : State, MemoryInv s →
    let words := fun i : EntryIndex => [4 * i.val, 4 * i.val + 1, 4 * i.val + 2, 4 * i.val + 3]
    let entries := fun (x : State) (which : EntryState → Bool) =>
      (allEntries.filter (fun i => which (x.entry i).state)).flatMap words
    let map := fun first n => ((List.range 3).filter (fun j => decide (16 * j < n))).map (fun j => first + j)
    let rings := fun which : RingIndex → Bool =>
      (allRings.filter (fun o => which o && s.ringValid o)).flatMap (fun o => [304 + 2 * o.val, 305 + 2 * o.val])
    (∀ c : Candidate, (s.port c.port).gate = .enforcing →
      let v := if c.motion then s.checkWords (entries s EntryState.inForce) else s
      gateDecision c s = gateDecision c v
      ∧ ∀ t, s.timer = some t → (v.port c.port).gate = .enforcing →
        (c.motion = false
          ∨ (v.lookup c.port (tagOf c.word) = none ∧ (v.port c.port).settings.unreserved = .asGeneral)) →
        let slot := t.slot s.time
        let n := t.geometry.slots
        let search := fun x : State => (∀ k, slot < k → k < n → x.activeKind c.port k = .openSlot) →
          (x.mapsOf c.port).waiting = some ⟨n, true⟩ →
          gateDecision c s = gateDecision c (x.checkWords (map (280 + 3 * c.port.val) n))
        let w := v.checkWords (map (256 + 3 * c.port.val) n)
        gateDecision c s = gateDecision c w
        ∧ ((w.port c.port).gate = .enforcing → w.activeKind c.port slot = .openSlot → search w)
        ∧ ((w.port c.port).gate = .enforcing → w.activeKind c.port slot = .reserved →
            (w.port c.port).settings.reclaim = true →
            let x := w.checkWords (entries w EntryState.inForce)
            gateDecision c s = gateDecision c x
            ∧ ((x.port c.port).gate = .enforcing → x.reclaimAnswer c.port slot = true → search x)))
    ∧ (∀ (port : Byte) (p : PortIndex) (m : PendingMap), s.ready → p.val = port.toNat → (s.mapsOf p).waiting = some m →
        let v := s.ended.checkWords (map (280 + 3 * p.val) m.length)
        exec (.commitMap port) s = exec (.commitMap port) v
        ∧ ((v.mapsOf p).waiting ≠ none →
            exec (.commitMap port) s = exec (.commitMap port) (v.checkWords (entries v EntryState.inUse))))
    ∧ (∀ (t : Timer) (port : Byte) (tag : BitVec 16) (slot : Byte) (len : BitVec 16) (frames : Byte) (a : AdmitRequest),
        s.ready → s.timer = some t → admitOperand t.geometry.slots port tag slot len frames = some a →
        let run := exec (.admitStream port tag slot len frames)
        let v := s.ended.checkWords (entries s EntryState.inUse)
        let w := v.checkWords (map (256 + 3 * a.port.val) t.geometry.slots)
        run s = run v
        ∧ ((∀ i, ¬ (v.inUse i = true ∧ (v.reservation i).port = a.port ∧ (v.reservation i).tag = a.tag)) →
            run s = run w
            ∧ (w.activeKind a.port a.slot = .reserved → (w.mapsOf a.port).waiting = some ⟨t.geometry.slots, true⟩ →
                run s = run (w.checkWords (map (280 + 3 * a.port.val) t.geometry.slots)))))
    ∧ (∀ (index : Byte) (i : EntryIndex), s.ready → i.val = index.toNat → (s.entry i).state ≠ .free →
        exec (.readReservation index) s = exec (.readReservation index) (s.ended.checkWords (words i)))
    ∧ (∀ (p : PortIndex) (n : Fin 5) (port ring kind : Byte) (base : BitVec 24) (count : BitVec 16), s.ready →
        p.val = port.toNat → n.val = ring.toNat → (setRingOperand n kind base count).isSome = true →
        s.ringBusy p n = false →
        exec (.setRing port ring kind base count) s = exec (.setRing port ring kind base count)
          (s.ended.checkWords (rings (fun o => decide (o ≠ ringIndex p n)))))
    ∧ (∀ p slot, s.timer ≠ none → s.walk p slot = (s.checkWords (entries s EntryState.inUse)).walk p slot)
    ∧ (∀ slot ended, s.missedSlotCheck slot ended =
        (s.checkWords (entries s (fun st => decide (st = .active)))).missedSlotCheck slot ended)
    ∧ (∀ tag a rest, s.path.waiting = .read tag a :: rest → s.path.accepts tag = true →
        s.drain = (s.checkWords (rings (fun o => decide (o.val % 5 ≠ 4)))).drain)
    ∧ (∀ tag a data lanes rest p, s.path.waiting = .write tag a data lanes :: rest → s.lock.port = some p →
        s.drain = (s.checkWords (rings (fun o => decide (o = ringIndex p 4)))).drain)
    ∧ (∀ t : Timer, s.timer = some t → t.ok s.time → s.quiet → t.slot s.time + 1 < t.geometry.slots →
        let v := { s with time := t.slotEnd (t.slot s.time), path := { s.path with expired := [] } }
        let k := s.prot.scrub.val
        let stood := v.setFlips k 0
        let check := fun x : State => x.missedSlotCheck (t.slot s.time) t.cycle
        let scrub := fun x : State => { x.checkWord true k with
          prot := { (x.checkWord true k).prot with scrub := s.prot.scrub + 1 } }
        let left := fun i => (s.entry i).state = .active ∧ 4 * i.val ≤ k ∧ k < 4 * i.val + 4
          ∧ (s.word k).verdict = .lost
        ∃ u, exec .slotBoundary s = .next u ∧ let u := { u with choices := s.choices }
          u = check (scrub v) ∨ u = scrub (check v)
          ∨ ∃ i bitsReturn, left i ∧ u = scrub (if ((check stood).entry i).state = .faulted
                ∨ (bitsReturn = false ∧ (check stood).word k ≠ stood.word k)
              then check stood else (check stood).setFlips k (s.word k).flips))

/-- A read of a word with exactly two wrong bits, by the owner of the word (R44, R45, R63, R77, R105, R123, R145, R146,
R155 to R157, R160). MEM_UNCORRECTABLE comes first. An entry in PENDING, ACTIVE or RELEASING is FAULTED with its place in
the admission order list, its hold records go, RES_FAULTED is raised, and every gate is concerned; of an entry that is FREE
or FAULTED the words are rewritten. A used word of an active map sets the BAD mark, every slot reads CLOSED, and the port's
gate is concerned; one of a pending map loses the map, with MAP_CANCELLED of cause 2. A valid ring becomes invalid, and a
transmit ring concerns its port's gate. Any other word is rewritten alone. A gate that is concerned and ENFORCING or
FAILSAFE is FAILSAFE with cause MEMORY_ERROR, one that leaves ENFORCING loses its hold records, and PORT_FAILSAFE comes last,
in ascending port order. What is rewritten holds data 0 without wrong bits, an active map CLOSED in every slot. -/
def Obligations.DoubleBitErrorByOwner : Prop :=
  ∀ (s : State) (scrubbing : Bool) (k : Nat), MemoryInv s → wrongBits (s.word k).flips = 2 →
    let u := s.checkWord scrubbing k
    let found := fun (p : Option PortIndex) (i : Option EntryIndex) => (⟨.memUncorrectable, p, i, none,
      lowCycle s.cycleNumber, BitVec.ofNat 16 (k + if scrubbing then 0x8000 else 0)⟩ : EventEntry)
    let blank := fun a n => ∀ j, u.word j = if a ≤ j ∧ j < a + n then blankWord else s.word j
    let rest := { u with events := s.events, prot := { u.prot with memory := s.prot.memory } }
    let concerned := fun ps : List PortIndex => (∀ q, u.port q = if q ∈ ps then (s.port q).concerned else s.port q)
    let leaves := fun q => decide ((s.port q).gate = .enforcing)
    let reports := fun ps : List PortIndex => ps.flatMap (fun q => (s.port q).concernedEvent q s.cycleNumber)
    let unaffected := fun (p : Option PortIndex) (i : Option EntryIndex) a n =>
      blank a n ∧ u.events = s.events.offer (found p i) ∧ rest = s
    (∀ i : EntryIndex, 4 * i.val ≤ k → k < 4 * i.val + 4 →
      (s.inUse i = false → unaffected none (some i) (4 * i.val) 4)
      ∧ (s.inUse i = true →
          u.entry i = { s.entry i with state := .faulted } ∧ (∀ j, j ≠ i → u.entry j = s.entry j) ∧ blank (4 * i.val) 4
          ∧ concerned allPorts
          ∧ u.holds.records = s.holds.records.filter (fun r => decide (r.entry ≠ i) && !leaves r.port)
          ∧ u.events = s.events.offers ([found none (some i), ⟨.resFaulted, none, some i, none, lowCycle s.cycleNumber,
              BitVec.ofNat 16 (s.entry i).state.byte.toNat⟩] ++ reports allPorts)
          ∧ { rest with table := s.table, ports := s.ports, holds := { u.holds with records := s.holds.records } } = s))
    ∧ (∀ (p : PortIndex) (part : Nat), part < 3 → k = 256 + 3 * p.val + part →
      let used := ∃ t, s.timer = some t ∧ 16 * part < t.geometry.slots
      (¬ used → unaffected (some p) none k 1)
      ∧ (used →
          u.mapsOf p = { s.mapsOf p with bad := true } ∧ (∀ q, q ≠ p → u.mapsOf q = s.mapsOf q)
          ∧ (∀ n, n < 48 → kindInWord (u.data (256 + 3 * p.val + n / 16)) (n % 16) = .closed ∧ u.activeKind p n = .closed)
          ∧ (∀ j, j < 3 → (u.word (256 + 3 * p.val + j)).flips = 0)
          ∧ (∀ j, j < 256 + 3 * p.val ∨ 259 + 3 * p.val ≤ j → u.word j = s.word j)
          ∧ concerned [p] ∧ u.holds.records = s.holds.records.filter (fun r => !(decide (r.port = p) && leaves p))
          ∧ u.events = s.events.offers (found (some p) none :: reports [p])
          ∧ { rest with maps := s.maps, ports := s.ports, holds := { u.holds with records := s.holds.records } } = s))
    ∧ (∀ (p : PortIndex) (part : Nat), part < 3 → k = 280 + 3 * p.val + part →
      let used := fun m => (s.mapsOf p).waiting = some m ∧ 16 * part < m.length ∧ s.timer ≠ none
      ((∀ m, ¬ used m) → unaffected (some p) none k 1)
      ∧ (∀ m, used m →
          u.mapsOf p = { s.mapsOf p with waiting := none } ∧ (∀ q, q ≠ p → u.mapsOf q = s.mapsOf q)
          ∧ blank (280 + 3 * p.val) 3
          ∧ u.events = s.events.offers [found (some p) none,
              portEvent .mapCancelled p s.cycleNumber (if m.committed then 0x102 else 0x002)]
          ∧ { rest with maps := s.maps } = s))
    ∧ (∀ (e : RingIndex), 304 + 2 * e.val ≤ k → k < 306 + 2 * e.val →
      (s.ringValid e = false → unaffected (some (ringPort e)) none k 1)
      ∧ (s.ringValid e = true →
          let ps := if e.val % 5 = 4 then [] else [ringPort e]
          u.ringValid e = false ∧ (∀ o, o ≠ e → u.ringValid o = s.ringValid o) ∧ blank (304 + 2 * e.val) 2
          ∧ concerned ps ∧ u.holds.records = s.holds.records.filter (fun r => !(decide (r.port ∈ ps) && leaves r.port))
          ∧ u.events = s.events.offers (found (some (ringPort e)) none :: reports ps)
          ∧ { rest with path := { u.path with ringValid := s.path.ringValid }, ports := s.ports,
                        holds := { u.holds with records := s.holds.records } } = s))
    ∧ (384 ≤ k → k < 1024 → unaffected none none k 1)

/-! ### Events and counters -/

/-- READ_EVENT (R177): command code 60h with no argument byte; the answer is the oldest entry or ten bytes of 00h, the
overflow flag as it stood, and the number of entries left; the entry is removed, and with the last one the overflow flag is
cleared; nothing else changes. And the kind code of every kind (R172), which byte 0 of the entry holds here and the
statements on the event mask, the tests of an offer and the entries of the queue count by. -/
def Obligations.ReadEventTakesOldest : Prop :=
  let codes : List (EventKind × Byte) :=
    [(.lockAcquired, 0x01), (.lockHoldover, 0x02), (.lockLost, 0x03), (.lockJitter, 0x04), (.geometryApplied, 0x05),
     (.mapApplied, 0x06), (.mapCancelled, 0x07), (.resActive, 0x08), (.resFreed, 0x09), (.resOverbooked, 0x0A),
     (.resReinstated, 0x0B), (.streamSilent, 0x0C), (.resResumed, 0x0D), (.resFaulted, 0x0E), (.overrunDrop, 0x0F),
     (.staleDrop, 0x10), (.unreservedDrop, 0x11), (.lateMotion, 0x12), (.holdListFull, 0x13), (.holdExpired, 0x14),
     (.portFailsafe, 0x15), (.portRecovered, 0x16), (.memCorrected, 0x17), (.memUncorrectable, 0x18), (.readTimeout, 0x19),
     (.lateResponse, 0x1A)]
  (∀ kind : EventKind, ∃ x ∈ codes, x = (kind, kind.byte)) ∧
  decodeFrame 2 [0x60, 0x00] = some .readEvent ∧
  ∀ s : State, s.ready → EventInv s →
    (s.events.queue = [] → exec .readEvent s = .next (s.answered 0x60 .ok (List.replicate 12 0x00)))
    ∧ ∀ e rest, s.events.queue = e :: rest → exec .readEvent s = .next
        ({ s with events := { s.events with
            queue := rest, overflow := if rest = [] then false else s.events.overflow } }.answered 0x60 .ok
          ([e.kind.byte,
            byteOf ((if e.port.isSome then 1 else 0) + (if e.index.isSome then 2 else 0) + (if e.tag.isSome then 4 else 0)),
            byteOf ((e.port.map Fin.val).getD 0), byteOf ((e.index.map Fin.val).getD 0)]
            ++ beBytes2 ((e.tag.map BitVec.toNat).getD 0) ++ beBytes2 e.cycle.toNat ++ beBytes2 e.detail.toNat
            ++ [if s.events.overflow then 0x01 else 0x00, byteOf rest.length]))

/-- SET_EVENTS (R179, with the line of R178): command code 61h and five argument bytes; BAD_ARGUMENT where bit 0 or one of
bits 27 to 31 of the mask is set or the fifth byte is neither 00h nor 01h; else the mask and the enable are replaced, the
answer is what stood before, and INT_N follows at once; after reset the mask is 077FFFFEh. -/
def Obligations.SetEventsReplacesMask : Prop :=
  State.reset.events.mask = 0x077FFFFE ∧
  (∀ (a b c d enable : Byte),
    decodeFrame 7 [0x61, 0x05, a, b, c, d, enable] = some (.setEvents (a ++ b ++ c ++ d) enable)) ∧
  ∀ (s : State) (mask : BitVec 32) (enable : Byte), s.ready →
    let valid := (∀ k, mask.getLsbD k = true → 1 ≤ k ∧ k ≤ 26) ∧ enable.toNat ≤ 1
    (¬ valid → exec (.setEvents mask enable) s = .next (s.answered 0x61 .badArgument []))
    ∧ (valid → ∃ u, exec (.setEvents mask enable) s = .next u
        ∧ u = { s with events := { s.events with mask := mask, enable := decide (enable = 0x01) } }.answered 0x61 .ok
          (bytes32 s.events.mask ++ [if s.events.enable then 0x01 else 0x00])
        ∧ (∀ kind : EventKind, u.events.enabled kind = mask.getLsbD kind.byte.toNat)
        ∧ (u.intN = false ↔ s.events.queue ≠ [] ∧ enable = 0x01))

/-- CLEAR_COUNTERS (R180): command code 62h and two argument bytes; by the selector the ten counters of a port, the four of
an entry in any state, or the seven global counts return to 0; any other combination is refused with BAD_ARGUMENT; nothing
else changes. -/
def Obligations.ClearCountersClearsOneSet : Prop :=
  ∀ selector index : Byte, decodeFrame 4 [0x62, 0x02, selector, index] = some (.clearCounters selector index) ∧
    ∀ s : State, s.ready →
      (∀ p : PortIndex, selector = 0x00 → p.val = index.toNat → exec (.clearCounters selector index) s = .next
        ((s.updPort p (fun q => { q with counters := ⟨0, 0, 0, 0, 0, 0, 0, 0, 0, 0⟩ })).answered 0x62 .ok []))
      ∧ (∀ i : EntryIndex, selector = 0x01 → i.val = index.toNat → exec (.clearCounters selector index) s = .next
        ((s.updEntry i (fun e => ⟨e.state, 0, 0, 0, 0⟩)).answered 0x62 .ok []))
      ∧ (selector = 0x02 → index = 0x00 → exec (.clearCounters selector index) s = .next
        ({ s with
            path := { s.path with timeouts := 0, lates := 0 }
            prot := { s.prot with corrected := 0 }
            holds := { s.holds with full := 0, expired := 0 }
            lock := { s.lock with marks := 0, outliers := 0 } }.answered 0x62 .ok []))
      ∧ ((2 < selector.toNat ∨ (selector = 0x00 ∧ 8 ≤ index.toNat) ∨ (selector = 0x01 ∧ 64 ≤ index.toNat)
          ∨ (selector = 0x02 ∧ index ≠ 0x00)) →
        exec (.clearCounters selector index) s = .next (s.answered 0x62 .badArgument []))

/-- The offer of an event (R174, R175, R176): a disabled kind and a kind whose limit mark is set leave the queue as it is;
at 32 entries only the overflow flag is set; else the entry is last in the queue and its limit mark is set. The limit of
UNRESERVED_DROP is per port, of STALE_DROP and OVERRUN_DROP per entry, of HOLD_LIST_FULL for the device; no other kind has
one. -/
def Obligations.OfferPassesThreeTests : Prop :=
  ∀ (q : EventQueue) (e : EventEntry),
    let limited := ∃ m, e.limit = some m ∧ m ∈ q.marks
    (q.mask.getLsbD e.kind.byte.toNat = false → q.offer e = q)
    ∧ (q.mask.getLsbD e.kind.byte.toNat = true → limited → q.offer e = q)
    ∧ (q.mask.getLsbD e.kind.byte.toNat = true → ¬ limited → 32 ≤ q.queue.length → q.offer e = { q with overflow := true })
    ∧ (q.mask.getLsbD e.kind.byte.toNat = true → ¬ limited → q.queue.length < 32 →
        q.offer e = { q with queue := q.queue ++ [e], marks := e.limit.toList ++ q.marks })
    ∧ e.limit =
        match e.kind with
        | .unreservedDrop => e.port.map LimitMark.unreservedDrop
        | .staleDrop => e.index.map LimitMark.staleDrop
        | .overrunDrop => e.index.map LimitMark.overrunDrop
        | .holdListFull => some LimitMark.holdListFull
        | _ => none

/-! ### The whole device -/

/-- A management command whose answer is not OK has changed nothing but the link, where no bit of table memory is wrong
(R164, R165, R167). -/
def Obligations.RefusedCommandChangesNothing : Prop :=
  ∀ (c : Instr) (s t : State), c.isManagement = true → s.cleanTable → exec c s = .next t →
    t.link.record.status ≠ .ok → { t with link := s.link } = s

/-- The state right after reset satisfies every invariant of the device, from the reset values of the timer (R2), the lock
(R16), the entries and their order list (R64), the descriptor path (R94), the gates and port settings (R114, R116), the hold
list (R139), the protection (R152) and the event queue (R173). That table memory, before the initialisation pass has written
it, is in its canonical form with no bit wrong is the model's choice: nothing is listed, and an unlisted word reads data 0
with valid check bits (log entry 10). -/
def Obligations.ResetSatisfiesInv : Prop := Inv State.reset ∧ BudgetInv State.reset ∧ State.reset.cleanTable

/-- Every step keeps the shared tables sound: table memory in its canonical form, the event queue in its bounds (R173,
R176, R179), the admission order list exact (R65), the gates' causes and busy-untils in their states (R114, R125), the hold
list within its bounds and on its ports and entries (R138). -/
def Obligations.StepKeepsTables : Prop :=
  ∀ s t : State, MemoryInv s → EventInv s → OrderInv s → GateInv s → HoldInv s → step s = .next t →
    MemoryInv t ∧ EventInv t ∧ OrderInv t ∧ GateInv t ∧ HoldInv t

/-- Every step keeps at most four reads in flight, with distinct tags, none of them in quarantine (R96, R99). -/
def Obligations.StepKeepsPath : Prop := ∀ s t : State, PathInv s → step s = .next t → PathInv t

/-- Every step keeps the timer and the lock in their ranges and consistent: the geometry, the staged geometry, the
adjustment, the position below the cycle length, the lock FREE exactly without a sync port, φ inside the cycle (R3, R6, R8,
R9, R16, R19, R27). -/
def Obligations.StepKeepsTiming : Prop := ∀ s t : State, TimingInv s → step s = .next t → TimingInv t

/-- Every step keeps the budgets of the reserved slots (R79): while no bit of table memory is wrong, the summed cost of the
entries of a port and slot that are PENDING, ACTIVE or RELEASING and not overbooked never exceeds the slot's budget,
computed from the present settings, geometry and sync settings. Where no entry is counted there is no sum to compare: a
budget can be negative. And no hold record is against an entry that is overbooked (R138, R145). No command makes a bit of
table memory wrong (log entry 11). During the initialisation pass the timer stays STOPPED (R2, R152, R165). -/
def Obligations.StepKeepsBudgets : Prop :=
  ∀ s t : State, MemoryInv s → s.cleanTable → OrderInv s → PassInv s → BudgetInv s → step s = .next t →
    BudgetInv t ∧ PassInv t ∧ t.cleanTable
end

