-- ==== Sys2Proof/Laws/State.lean ====
section
/-! SUPPORT. One lemma per field per update of State: what each named update leaves as it was, and what it writes. -/

namespace Sys2Proof.Machine

/-! ### State.updPort -/

@[simp] theorem State.updPort_pending (s : State) (p : PortIndex) (f : Port → Port) : (s.updPort p f).pending = s.pending := rfl
@[simp] theorem State.updPort_choices (s : State) (p : PortIndex) (f : Port → Port) : (s.updPort p f).choices = s.choices := rfl
@[simp] theorem State.updPort_resetAsserted (s : State) (p : PortIndex) (f : Port → Port) : (s.updPort p f).resetAsserted = s.resetAsserted := rfl
@[simp] theorem State.updPort_time (s : State) (p : PortIndex) (f : Port → Port) : (s.updPort p f).time = s.time := rfl
@[simp] theorem State.updPort_timer (s : State) (p : PortIndex) (f : Port → Port) : (s.updPort p f).timer = s.timer := rfl
@[simp] theorem State.updPort_lock (s : State) (p : PortIndex) (f : Port → Port) : (s.updPort p f).lock = s.lock := rfl
@[simp] theorem State.updPort_maps (s : State) (p : PortIndex) (f : Port → Port) : (s.updPort p f).maps = s.maps := rfl
@[simp] theorem State.updPort_table (s : State) (p : PortIndex) (f : Port → Port) : (s.updPort p f).table = s.table := rfl
@[simp] theorem State.updPort_order (s : State) (p : PortIndex) (f : Port → Port) : (s.updPort p f).order = s.order := rfl
@[simp] theorem State.updPort_path (s : State) (p : PortIndex) (f : Port → Port) : (s.updPort p f).path = s.path := rfl
@[simp] theorem State.updPort_holds (s : State) (p : PortIndex) (f : Port → Port) : (s.updPort p f).holds = s.holds := rfl
@[simp] theorem State.updPort_prot (s : State) (p : PortIndex) (f : Port → Port) : (s.updPort p f).prot = s.prot := rfl
@[simp] theorem State.updPort_link (s : State) (p : PortIndex) (f : Port → Port) : (s.updPort p f).link = s.link := rfl
@[simp] theorem State.updPort_events (s : State) (p : PortIndex) (f : Port → Port) : (s.updPort p f).events = s.events := rfl

/-! ### State.countPort -/

@[simp] theorem State.countPort_pending (s : State) (p : PortIndex) (f : PortCounters → PortCounters) : (s.countPort p f).pending = s.pending := rfl
@[simp] theorem State.countPort_choices (s : State) (p : PortIndex) (f : PortCounters → PortCounters) : (s.countPort p f).choices = s.choices := rfl
@[simp] theorem State.countPort_resetAsserted (s : State) (p : PortIndex) (f : PortCounters → PortCounters) : (s.countPort p f).resetAsserted = s.resetAsserted := rfl
@[simp] theorem State.countPort_time (s : State) (p : PortIndex) (f : PortCounters → PortCounters) : (s.countPort p f).time = s.time := rfl
@[simp] theorem State.countPort_timer (s : State) (p : PortIndex) (f : PortCounters → PortCounters) : (s.countPort p f).timer = s.timer := rfl
@[simp] theorem State.countPort_lock (s : State) (p : PortIndex) (f : PortCounters → PortCounters) : (s.countPort p f).lock = s.lock := rfl
@[simp] theorem State.countPort_maps (s : State) (p : PortIndex) (f : PortCounters → PortCounters) : (s.countPort p f).maps = s.maps := rfl
@[simp] theorem State.countPort_table (s : State) (p : PortIndex) (f : PortCounters → PortCounters) : (s.countPort p f).table = s.table := rfl
@[simp] theorem State.countPort_order (s : State) (p : PortIndex) (f : PortCounters → PortCounters) : (s.countPort p f).order = s.order := rfl
@[simp] theorem State.countPort_path (s : State) (p : PortIndex) (f : PortCounters → PortCounters) : (s.countPort p f).path = s.path := rfl
@[simp] theorem State.countPort_holds (s : State) (p : PortIndex) (f : PortCounters → PortCounters) : (s.countPort p f).holds = s.holds := rfl
@[simp] theorem State.countPort_prot (s : State) (p : PortIndex) (f : PortCounters → PortCounters) : (s.countPort p f).prot = s.prot := rfl
@[simp] theorem State.countPort_link (s : State) (p : PortIndex) (f : PortCounters → PortCounters) : (s.countPort p f).link = s.link := rfl
@[simp] theorem State.countPort_events (s : State) (p : PortIndex) (f : PortCounters → PortCounters) : (s.countPort p f).events = s.events := rfl

/-! ### State.moveBusy -/

@[simp] theorem State.moveBusy_pending (s : State) (p : PortIndex) (e : DeviceTime) : (s.moveBusy p e).pending = s.pending := rfl
@[simp] theorem State.moveBusy_choices (s : State) (p : PortIndex) (e : DeviceTime) : (s.moveBusy p e).choices = s.choices := rfl
@[simp] theorem State.moveBusy_resetAsserted (s : State) (p : PortIndex) (e : DeviceTime) : (s.moveBusy p e).resetAsserted = s.resetAsserted := rfl
@[simp] theorem State.moveBusy_time (s : State) (p : PortIndex) (e : DeviceTime) : (s.moveBusy p e).time = s.time := rfl
@[simp] theorem State.moveBusy_timer (s : State) (p : PortIndex) (e : DeviceTime) : (s.moveBusy p e).timer = s.timer := rfl
@[simp] theorem State.moveBusy_lock (s : State) (p : PortIndex) (e : DeviceTime) : (s.moveBusy p e).lock = s.lock := rfl
@[simp] theorem State.moveBusy_maps (s : State) (p : PortIndex) (e : DeviceTime) : (s.moveBusy p e).maps = s.maps := rfl
@[simp] theorem State.moveBusy_table (s : State) (p : PortIndex) (e : DeviceTime) : (s.moveBusy p e).table = s.table := rfl
@[simp] theorem State.moveBusy_order (s : State) (p : PortIndex) (e : DeviceTime) : (s.moveBusy p e).order = s.order := rfl
@[simp] theorem State.moveBusy_path (s : State) (p : PortIndex) (e : DeviceTime) : (s.moveBusy p e).path = s.path := rfl
@[simp] theorem State.moveBusy_holds (s : State) (p : PortIndex) (e : DeviceTime) : (s.moveBusy p e).holds = s.holds := rfl
@[simp] theorem State.moveBusy_prot (s : State) (p : PortIndex) (e : DeviceTime) : (s.moveBusy p e).prot = s.prot := rfl
@[simp] theorem State.moveBusy_link (s : State) (p : PortIndex) (e : DeviceTime) : (s.moveBusy p e).link = s.link := rfl
@[simp] theorem State.moveBusy_events (s : State) (p : PortIndex) (e : DeviceTime) : (s.moveBusy p e).events = s.events := rfl

/-! ### State.enterEnforcing -/

@[simp] theorem State.enterEnforcing_pending (s : State) (p : PortIndex) : (s.enterEnforcing p).pending = s.pending := rfl
@[simp] theorem State.enterEnforcing_choices (s : State) (p : PortIndex) : (s.enterEnforcing p).choices = s.choices := rfl
@[simp] theorem State.enterEnforcing_resetAsserted (s : State) (p : PortIndex) : (s.enterEnforcing p).resetAsserted = s.resetAsserted := rfl
@[simp] theorem State.enterEnforcing_time (s : State) (p : PortIndex) : (s.enterEnforcing p).time = s.time := rfl
@[simp] theorem State.enterEnforcing_timer (s : State) (p : PortIndex) : (s.enterEnforcing p).timer = s.timer := rfl
@[simp] theorem State.enterEnforcing_lock (s : State) (p : PortIndex) : (s.enterEnforcing p).lock = s.lock := rfl
@[simp] theorem State.enterEnforcing_maps (s : State) (p : PortIndex) : (s.enterEnforcing p).maps = s.maps := rfl
@[simp] theorem State.enterEnforcing_table (s : State) (p : PortIndex) : (s.enterEnforcing p).table = s.table := rfl
@[simp] theorem State.enterEnforcing_order (s : State) (p : PortIndex) : (s.enterEnforcing p).order = s.order := rfl
@[simp] theorem State.enterEnforcing_path (s : State) (p : PortIndex) : (s.enterEnforcing p).path = s.path := rfl
@[simp] theorem State.enterEnforcing_holds (s : State) (p : PortIndex) : (s.enterEnforcing p).holds = s.holds := rfl
@[simp] theorem State.enterEnforcing_prot (s : State) (p : PortIndex) : (s.enterEnforcing p).prot = s.prot := rfl
@[simp] theorem State.enterEnforcing_link (s : State) (p : PortIndex) : (s.enterEnforcing p).link = s.link := rfl
@[simp] theorem State.enterEnforcing_events (s : State) (p : PortIndex) : (s.enterEnforcing p).events = s.events := rfl

/-! ### State.clearPastBusy -/

@[simp] theorem State.clearPastBusy_pending (s : State) (p : PortIndex) : (s.clearPastBusy p).pending = s.pending := rfl
@[simp] theorem State.clearPastBusy_choices (s : State) (p : PortIndex) : (s.clearPastBusy p).choices = s.choices := rfl
@[simp] theorem State.clearPastBusy_resetAsserted (s : State) (p : PortIndex) : (s.clearPastBusy p).resetAsserted = s.resetAsserted := rfl
@[simp] theorem State.clearPastBusy_time (s : State) (p : PortIndex) : (s.clearPastBusy p).time = s.time := rfl
@[simp] theorem State.clearPastBusy_timer (s : State) (p : PortIndex) : (s.clearPastBusy p).timer = s.timer := rfl
@[simp] theorem State.clearPastBusy_lock (s : State) (p : PortIndex) : (s.clearPastBusy p).lock = s.lock := rfl
@[simp] theorem State.clearPastBusy_maps (s : State) (p : PortIndex) : (s.clearPastBusy p).maps = s.maps := rfl
@[simp] theorem State.clearPastBusy_table (s : State) (p : PortIndex) : (s.clearPastBusy p).table = s.table := rfl
@[simp] theorem State.clearPastBusy_order (s : State) (p : PortIndex) : (s.clearPastBusy p).order = s.order := rfl
@[simp] theorem State.clearPastBusy_path (s : State) (p : PortIndex) : (s.clearPastBusy p).path = s.path := rfl
@[simp] theorem State.clearPastBusy_holds (s : State) (p : PortIndex) : (s.clearPastBusy p).holds = s.holds := rfl
@[simp] theorem State.clearPastBusy_prot (s : State) (p : PortIndex) : (s.clearPastBusy p).prot = s.prot := rfl
@[simp] theorem State.clearPastBusy_link (s : State) (p : PortIndex) : (s.clearPastBusy p).link = s.link := rfl
@[simp] theorem State.clearPastBusy_events (s : State) (p : PortIndex) : (s.clearPastBusy p).events = s.events := rfl

/-! ### State.setMaps -/

@[simp] theorem State.setMaps_pending (s : State) (p : PortIndex) (m : PortMaps) : (s.setMaps p m).pending = s.pending := rfl
@[simp] theorem State.setMaps_choices (s : State) (p : PortIndex) (m : PortMaps) : (s.setMaps p m).choices = s.choices := rfl
@[simp] theorem State.setMaps_resetAsserted (s : State) (p : PortIndex) (m : PortMaps) : (s.setMaps p m).resetAsserted = s.resetAsserted := rfl
@[simp] theorem State.setMaps_time (s : State) (p : PortIndex) (m : PortMaps) : (s.setMaps p m).time = s.time := rfl
@[simp] theorem State.setMaps_timer (s : State) (p : PortIndex) (m : PortMaps) : (s.setMaps p m).timer = s.timer := rfl
@[simp] theorem State.setMaps_lock (s : State) (p : PortIndex) (m : PortMaps) : (s.setMaps p m).lock = s.lock := rfl
@[simp] theorem State.setMaps_table (s : State) (p : PortIndex) (m : PortMaps) : (s.setMaps p m).table = s.table := rfl
@[simp] theorem State.setMaps_order (s : State) (p : PortIndex) (m : PortMaps) : (s.setMaps p m).order = s.order := rfl
@[simp] theorem State.setMaps_path (s : State) (p : PortIndex) (m : PortMaps) : (s.setMaps p m).path = s.path := rfl
@[simp] theorem State.setMaps_ports (s : State) (p : PortIndex) (m : PortMaps) : (s.setMaps p m).ports = s.ports := rfl
@[simp] theorem State.setMaps_holds (s : State) (p : PortIndex) (m : PortMaps) : (s.setMaps p m).holds = s.holds := rfl
@[simp] theorem State.setMaps_prot (s : State) (p : PortIndex) (m : PortMaps) : (s.setMaps p m).prot = s.prot := rfl
@[simp] theorem State.setMaps_link (s : State) (p : PortIndex) (m : PortMaps) : (s.setMaps p m).link = s.link := rfl
@[simp] theorem State.setMaps_events (s : State) (p : PortIndex) (m : PortMaps) : (s.setMaps p m).events = s.events := rfl

/-! ### State.updEntry -/

@[simp] theorem State.updEntry_pending (s : State) (i : EntryIndex) (f : Entry → Entry) : (s.updEntry i f).pending = s.pending := rfl
@[simp] theorem State.updEntry_choices (s : State) (i : EntryIndex) (f : Entry → Entry) : (s.updEntry i f).choices = s.choices := rfl
@[simp] theorem State.updEntry_resetAsserted (s : State) (i : EntryIndex) (f : Entry → Entry) : (s.updEntry i f).resetAsserted = s.resetAsserted := rfl
@[simp] theorem State.updEntry_time (s : State) (i : EntryIndex) (f : Entry → Entry) : (s.updEntry i f).time = s.time := rfl
@[simp] theorem State.updEntry_timer (s : State) (i : EntryIndex) (f : Entry → Entry) : (s.updEntry i f).timer = s.timer := rfl
@[simp] theorem State.updEntry_lock (s : State) (i : EntryIndex) (f : Entry → Entry) : (s.updEntry i f).lock = s.lock := rfl
@[simp] theorem State.updEntry_maps (s : State) (i : EntryIndex) (f : Entry → Entry) : (s.updEntry i f).maps = s.maps := rfl
@[simp] theorem State.updEntry_order (s : State) (i : EntryIndex) (f : Entry → Entry) : (s.updEntry i f).order = s.order := rfl
@[simp] theorem State.updEntry_path (s : State) (i : EntryIndex) (f : Entry → Entry) : (s.updEntry i f).path = s.path := rfl
@[simp] theorem State.updEntry_ports (s : State) (i : EntryIndex) (f : Entry → Entry) : (s.updEntry i f).ports = s.ports := rfl
@[simp] theorem State.updEntry_holds (s : State) (i : EntryIndex) (f : Entry → Entry) : (s.updEntry i f).holds = s.holds := rfl
@[simp] theorem State.updEntry_prot (s : State) (i : EntryIndex) (f : Entry → Entry) : (s.updEntry i f).prot = s.prot := rfl
@[simp] theorem State.updEntry_link (s : State) (i : EntryIndex) (f : Entry → Entry) : (s.updEntry i f).link = s.link := rfl
@[simp] theorem State.updEntry_events (s : State) (i : EntryIndex) (f : Entry → Entry) : (s.updEntry i f).events = s.events := rfl

/-! ### State.setEntryState -/

@[simp] theorem State.setEntryState_pending (s : State) (i : EntryIndex) (st : EntryState) : (s.setEntryState i st).pending = s.pending := rfl
@[simp] theorem State.setEntryState_choices (s : State) (i : EntryIndex) (st : EntryState) : (s.setEntryState i st).choices = s.choices := rfl
@[simp] theorem State.setEntryState_resetAsserted (s : State) (i : EntryIndex) (st : EntryState) : (s.setEntryState i st).resetAsserted = s.resetAsserted := rfl
@[simp] theorem State.setEntryState_time (s : State) (i : EntryIndex) (st : EntryState) : (s.setEntryState i st).time = s.time := rfl
@[simp] theorem State.setEntryState_timer (s : State) (i : EntryIndex) (st : EntryState) : (s.setEntryState i st).timer = s.timer := rfl
@[simp] theorem State.setEntryState_lock (s : State) (i : EntryIndex) (st : EntryState) : (s.setEntryState i st).lock = s.lock := rfl
@[simp] theorem State.setEntryState_maps (s : State) (i : EntryIndex) (st : EntryState) : (s.setEntryState i st).maps = s.maps := rfl
@[simp] theorem State.setEntryState_order (s : State) (i : EntryIndex) (st : EntryState) : (s.setEntryState i st).order = s.order := rfl
@[simp] theorem State.setEntryState_path (s : State) (i : EntryIndex) (st : EntryState) : (s.setEntryState i st).path = s.path := rfl
@[simp] theorem State.setEntryState_ports (s : State) (i : EntryIndex) (st : EntryState) : (s.setEntryState i st).ports = s.ports := rfl
@[simp] theorem State.setEntryState_holds (s : State) (i : EntryIndex) (st : EntryState) : (s.setEntryState i st).holds = s.holds := rfl
@[simp] theorem State.setEntryState_prot (s : State) (i : EntryIndex) (st : EntryState) : (s.setEntryState i st).prot = s.prot := rfl
@[simp] theorem State.setEntryState_link (s : State) (i : EntryIndex) (st : EntryState) : (s.setEntryState i st).link = s.link := rfl
@[simp] theorem State.setEntryState_events (s : State) (i : EntryIndex) (st : EntryState) : (s.setEntryState i st).events = s.events := rfl

/-! ### State.freeEntry -/

@[simp] theorem State.freeEntry_pending (s : State) (i : EntryIndex) : (s.freeEntry i).pending = s.pending := rfl
@[simp] theorem State.freeEntry_choices (s : State) (i : EntryIndex) : (s.freeEntry i).choices = s.choices := rfl
@[simp] theorem State.freeEntry_resetAsserted (s : State) (i : EntryIndex) : (s.freeEntry i).resetAsserted = s.resetAsserted := rfl
@[simp] theorem State.freeEntry_time (s : State) (i : EntryIndex) : (s.freeEntry i).time = s.time := rfl
@[simp] theorem State.freeEntry_timer (s : State) (i : EntryIndex) : (s.freeEntry i).timer = s.timer := rfl
@[simp] theorem State.freeEntry_lock (s : State) (i : EntryIndex) : (s.freeEntry i).lock = s.lock := rfl
@[simp] theorem State.freeEntry_maps (s : State) (i : EntryIndex) : (s.freeEntry i).maps = s.maps := rfl
@[simp] theorem State.freeEntry_path (s : State) (i : EntryIndex) : (s.freeEntry i).path = s.path := rfl
@[simp] theorem State.freeEntry_ports (s : State) (i : EntryIndex) : (s.freeEntry i).ports = s.ports := rfl
@[simp] theorem State.freeEntry_holds (s : State) (i : EntryIndex) : (s.freeEntry i).holds = s.holds := rfl
@[simp] theorem State.freeEntry_prot (s : State) (i : EntryIndex) : (s.freeEntry i).prot = s.prot := rfl
@[simp] theorem State.freeEntry_link (s : State) (i : EntryIndex) : (s.freeEntry i).link = s.link := rfl
@[simp] theorem State.freeEntry_events (s : State) (i : EntryIndex) : (s.freeEntry i).events = s.events := rfl

/-! ### State.setRingValid -/

@[simp] theorem State.setRingValid_pending (s : State) (e : RingIndex) (v : Bool) : (s.setRingValid e v).pending = s.pending := rfl
@[simp] theorem State.setRingValid_choices (s : State) (e : RingIndex) (v : Bool) : (s.setRingValid e v).choices = s.choices := rfl
@[simp] theorem State.setRingValid_resetAsserted (s : State) (e : RingIndex) (v : Bool) : (s.setRingValid e v).resetAsserted = s.resetAsserted := rfl
@[simp] theorem State.setRingValid_time (s : State) (e : RingIndex) (v : Bool) : (s.setRingValid e v).time = s.time := rfl
@[simp] theorem State.setRingValid_timer (s : State) (e : RingIndex) (v : Bool) : (s.setRingValid e v).timer = s.timer := rfl
@[simp] theorem State.setRingValid_lock (s : State) (e : RingIndex) (v : Bool) : (s.setRingValid e v).lock = s.lock := rfl
@[simp] theorem State.setRingValid_maps (s : State) (e : RingIndex) (v : Bool) : (s.setRingValid e v).maps = s.maps := rfl
@[simp] theorem State.setRingValid_table (s : State) (e : RingIndex) (v : Bool) : (s.setRingValid e v).table = s.table := rfl
@[simp] theorem State.setRingValid_order (s : State) (e : RingIndex) (v : Bool) : (s.setRingValid e v).order = s.order := rfl
@[simp] theorem State.setRingValid_ports (s : State) (e : RingIndex) (v : Bool) : (s.setRingValid e v).ports = s.ports := rfl
@[simp] theorem State.setRingValid_holds (s : State) (e : RingIndex) (v : Bool) : (s.setRingValid e v).holds = s.holds := rfl
@[simp] theorem State.setRingValid_prot (s : State) (e : RingIndex) (v : Bool) : (s.setRingValid e v).prot = s.prot := rfl
@[simp] theorem State.setRingValid_link (s : State) (e : RingIndex) (v : Bool) : (s.setRingValid e v).link = s.link := rfl
@[simp] theorem State.setRingValid_events (s : State) (e : RingIndex) (v : Bool) : (s.setRingValid e v).events = s.events := rfl

/-! ### State.updPath -/

@[simp] theorem State.updPath_pending (s : State) (f : Path → Path) : (s.updPath f).pending = s.pending := rfl
@[simp] theorem State.updPath_choices (s : State) (f : Path → Path) : (s.updPath f).choices = s.choices := rfl
@[simp] theorem State.updPath_resetAsserted (s : State) (f : Path → Path) : (s.updPath f).resetAsserted = s.resetAsserted := rfl
@[simp] theorem State.updPath_time (s : State) (f : Path → Path) : (s.updPath f).time = s.time := rfl
@[simp] theorem State.updPath_timer (s : State) (f : Path → Path) : (s.updPath f).timer = s.timer := rfl
@[simp] theorem State.updPath_lock (s : State) (f : Path → Path) : (s.updPath f).lock = s.lock := rfl
@[simp] theorem State.updPath_maps (s : State) (f : Path → Path) : (s.updPath f).maps = s.maps := rfl
@[simp] theorem State.updPath_table (s : State) (f : Path → Path) : (s.updPath f).table = s.table := rfl
@[simp] theorem State.updPath_order (s : State) (f : Path → Path) : (s.updPath f).order = s.order := rfl
@[simp] theorem State.updPath_ports (s : State) (f : Path → Path) : (s.updPath f).ports = s.ports := rfl
@[simp] theorem State.updPath_holds (s : State) (f : Path → Path) : (s.updPath f).holds = s.holds := rfl
@[simp] theorem State.updPath_prot (s : State) (f : Path → Path) : (s.updPath f).prot = s.prot := rfl
@[simp] theorem State.updPath_link (s : State) (f : Path → Path) : (s.updPath f).link = s.link := rfl
@[simp] theorem State.updPath_events (s : State) (f : Path → Path) : (s.updPath f).events = s.events := rfl

/-! ### State.answer -/

@[simp] theorem State.answer_pending (s : State) (tag : Tag) (data : Word) (error : Bool) : (s.answer tag data error).pending = s.pending := rfl
@[simp] theorem State.answer_choices (s : State) (tag : Tag) (data : Word) (error : Bool) : (s.answer tag data error).choices = s.choices := rfl
@[simp] theorem State.answer_resetAsserted (s : State) (tag : Tag) (data : Word) (error : Bool) : (s.answer tag data error).resetAsserted = s.resetAsserted := rfl
@[simp] theorem State.answer_time (s : State) (tag : Tag) (data : Word) (error : Bool) : (s.answer tag data error).time = s.time := rfl
@[simp] theorem State.answer_timer (s : State) (tag : Tag) (data : Word) (error : Bool) : (s.answer tag data error).timer = s.timer := rfl
@[simp] theorem State.answer_lock (s : State) (tag : Tag) (data : Word) (error : Bool) : (s.answer tag data error).lock = s.lock := rfl
@[simp] theorem State.answer_maps (s : State) (tag : Tag) (data : Word) (error : Bool) : (s.answer tag data error).maps = s.maps := rfl
@[simp] theorem State.answer_table (s : State) (tag : Tag) (data : Word) (error : Bool) : (s.answer tag data error).table = s.table := rfl
@[simp] theorem State.answer_order (s : State) (tag : Tag) (data : Word) (error : Bool) : (s.answer tag data error).order = s.order := rfl
@[simp] theorem State.answer_ports (s : State) (tag : Tag) (data : Word) (error : Bool) : (s.answer tag data error).ports = s.ports := rfl
@[simp] theorem State.answer_holds (s : State) (tag : Tag) (data : Word) (error : Bool) : (s.answer tag data error).holds = s.holds := rfl
@[simp] theorem State.answer_prot (s : State) (tag : Tag) (data : Word) (error : Bool) : (s.answer tag data error).prot = s.prot := rfl
@[simp] theorem State.answer_link (s : State) (tag : Tag) (data : Word) (error : Bool) : (s.answer tag data error).link = s.link := rfl
@[simp] theorem State.answer_events (s : State) (tag : Tag) (data : Word) (error : Bool) : (s.answer tag data error).events = s.events := rfl

/-! ### State.dropRead -/

@[simp] theorem State.dropRead_pending (s : State) (tag : Tag) : (s.dropRead tag).pending = s.pending := rfl
@[simp] theorem State.dropRead_choices (s : State) (tag : Tag) : (s.dropRead tag).choices = s.choices := rfl
@[simp] theorem State.dropRead_resetAsserted (s : State) (tag : Tag) : (s.dropRead tag).resetAsserted = s.resetAsserted := rfl
@[simp] theorem State.dropRead_time (s : State) (tag : Tag) : (s.dropRead tag).time = s.time := rfl
@[simp] theorem State.dropRead_timer (s : State) (tag : Tag) : (s.dropRead tag).timer = s.timer := rfl
@[simp] theorem State.dropRead_lock (s : State) (tag : Tag) : (s.dropRead tag).lock = s.lock := rfl
@[simp] theorem State.dropRead_maps (s : State) (tag : Tag) : (s.dropRead tag).maps = s.maps := rfl
@[simp] theorem State.dropRead_table (s : State) (tag : Tag) : (s.dropRead tag).table = s.table := rfl
@[simp] theorem State.dropRead_order (s : State) (tag : Tag) : (s.dropRead tag).order = s.order := rfl
@[simp] theorem State.dropRead_ports (s : State) (tag : Tag) : (s.dropRead tag).ports = s.ports := rfl
@[simp] theorem State.dropRead_holds (s : State) (tag : Tag) : (s.dropRead tag).holds = s.holds := rfl
@[simp] theorem State.dropRead_prot (s : State) (tag : Tag) : (s.dropRead tag).prot = s.prot := rfl
@[simp] theorem State.dropRead_link (s : State) (tag : Tag) : (s.dropRead tag).link = s.link := rfl
@[simp] theorem State.dropRead_events (s : State) (tag : Tag) : (s.dropRead tag).events = s.events := rfl

/-! ### State.endQuarantine -/

@[simp] theorem State.endQuarantine_pending (s : State) (tag : Tag) : (s.endQuarantine tag).pending = s.pending := rfl
@[simp] theorem State.endQuarantine_choices (s : State) (tag : Tag) : (s.endQuarantine tag).choices = s.choices := rfl
@[simp] theorem State.endQuarantine_resetAsserted (s : State) (tag : Tag) : (s.endQuarantine tag).resetAsserted = s.resetAsserted := rfl
@[simp] theorem State.endQuarantine_time (s : State) (tag : Tag) : (s.endQuarantine tag).time = s.time := rfl
@[simp] theorem State.endQuarantine_timer (s : State) (tag : Tag) : (s.endQuarantine tag).timer = s.timer := rfl
@[simp] theorem State.endQuarantine_lock (s : State) (tag : Tag) : (s.endQuarantine tag).lock = s.lock := rfl
@[simp] theorem State.endQuarantine_maps (s : State) (tag : Tag) : (s.endQuarantine tag).maps = s.maps := rfl
@[simp] theorem State.endQuarantine_table (s : State) (tag : Tag) : (s.endQuarantine tag).table = s.table := rfl
@[simp] theorem State.endQuarantine_order (s : State) (tag : Tag) : (s.endQuarantine tag).order = s.order := rfl
@[simp] theorem State.endQuarantine_ports (s : State) (tag : Tag) : (s.endQuarantine tag).ports = s.ports := rfl
@[simp] theorem State.endQuarantine_holds (s : State) (tag : Tag) : (s.endQuarantine tag).holds = s.holds := rfl
@[simp] theorem State.endQuarantine_prot (s : State) (tag : Tag) : (s.endQuarantine tag).prot = s.prot := rfl
@[simp] theorem State.endQuarantine_link (s : State) (tag : Tag) : (s.endQuarantine tag).link = s.link := rfl
@[simp] theorem State.endQuarantine_events (s : State) (tag : Tag) : (s.endQuarantine tag).events = s.events := rfl

/-! ### State.markExpired -/

@[simp] theorem State.markExpired_pending (s : State) (tag : Tag) : (s.markExpired tag).pending = s.pending := rfl
@[simp] theorem State.markExpired_choices (s : State) (tag : Tag) : (s.markExpired tag).choices = s.choices := rfl
@[simp] theorem State.markExpired_resetAsserted (s : State) (tag : Tag) : (s.markExpired tag).resetAsserted = s.resetAsserted := rfl
@[simp] theorem State.markExpired_time (s : State) (tag : Tag) : (s.markExpired tag).time = s.time := rfl
@[simp] theorem State.markExpired_timer (s : State) (tag : Tag) : (s.markExpired tag).timer = s.timer := rfl
@[simp] theorem State.markExpired_lock (s : State) (tag : Tag) : (s.markExpired tag).lock = s.lock := rfl
@[simp] theorem State.markExpired_maps (s : State) (tag : Tag) : (s.markExpired tag).maps = s.maps := rfl
@[simp] theorem State.markExpired_table (s : State) (tag : Tag) : (s.markExpired tag).table = s.table := rfl
@[simp] theorem State.markExpired_order (s : State) (tag : Tag) : (s.markExpired tag).order = s.order := rfl
@[simp] theorem State.markExpired_ports (s : State) (tag : Tag) : (s.markExpired tag).ports = s.ports := rfl
@[simp] theorem State.markExpired_holds (s : State) (tag : Tag) : (s.markExpired tag).holds = s.holds := rfl
@[simp] theorem State.markExpired_prot (s : State) (tag : Tag) : (s.markExpired tag).prot = s.prot := rfl
@[simp] theorem State.markExpired_link (s : State) (tag : Tag) : (s.markExpired tag).link = s.link := rfl
@[simp] theorem State.markExpired_events (s : State) (tag : Tag) : (s.markExpired tag).events = s.events := rfl

/-! ### State.unmarkExpired -/

@[simp] theorem State.unmarkExpired_pending (s : State) (tag : Tag) : (s.unmarkExpired tag).pending = s.pending := rfl
@[simp] theorem State.unmarkExpired_choices (s : State) (tag : Tag) : (s.unmarkExpired tag).choices = s.choices := rfl
@[simp] theorem State.unmarkExpired_resetAsserted (s : State) (tag : Tag) : (s.unmarkExpired tag).resetAsserted = s.resetAsserted := rfl
@[simp] theorem State.unmarkExpired_time (s : State) (tag : Tag) : (s.unmarkExpired tag).time = s.time := rfl
@[simp] theorem State.unmarkExpired_timer (s : State) (tag : Tag) : (s.unmarkExpired tag).timer = s.timer := rfl
@[simp] theorem State.unmarkExpired_lock (s : State) (tag : Tag) : (s.unmarkExpired tag).lock = s.lock := rfl
@[simp] theorem State.unmarkExpired_maps (s : State) (tag : Tag) : (s.unmarkExpired tag).maps = s.maps := rfl
@[simp] theorem State.unmarkExpired_table (s : State) (tag : Tag) : (s.unmarkExpired tag).table = s.table := rfl
@[simp] theorem State.unmarkExpired_order (s : State) (tag : Tag) : (s.unmarkExpired tag).order = s.order := rfl
@[simp] theorem State.unmarkExpired_ports (s : State) (tag : Tag) : (s.unmarkExpired tag).ports = s.ports := rfl
@[simp] theorem State.unmarkExpired_holds (s : State) (tag : Tag) : (s.unmarkExpired tag).holds = s.holds := rfl
@[simp] theorem State.unmarkExpired_prot (s : State) (tag : Tag) : (s.unmarkExpired tag).prot = s.prot := rfl
@[simp] theorem State.unmarkExpired_link (s : State) (tag : Tag) : (s.unmarkExpired tag).link = s.link := rfl
@[simp] theorem State.unmarkExpired_events (s : State) (tag : Tag) : (s.unmarkExpired tag).events = s.events := rfl

/-! ### State.setMemory -/

@[simp] theorem State.setMemory_pending (s : State) (m : Memory) : (s.setMemory m).pending = s.pending := rfl
@[simp] theorem State.setMemory_choices (s : State) (m : Memory) : (s.setMemory m).choices = s.choices := rfl
@[simp] theorem State.setMemory_resetAsserted (s : State) (m : Memory) : (s.setMemory m).resetAsserted = s.resetAsserted := rfl
@[simp] theorem State.setMemory_time (s : State) (m : Memory) : (s.setMemory m).time = s.time := rfl
@[simp] theorem State.setMemory_timer (s : State) (m : Memory) : (s.setMemory m).timer = s.timer := rfl
@[simp] theorem State.setMemory_lock (s : State) (m : Memory) : (s.setMemory m).lock = s.lock := rfl
@[simp] theorem State.setMemory_maps (s : State) (m : Memory) : (s.setMemory m).maps = s.maps := rfl
@[simp] theorem State.setMemory_table (s : State) (m : Memory) : (s.setMemory m).table = s.table := rfl
@[simp] theorem State.setMemory_order (s : State) (m : Memory) : (s.setMemory m).order = s.order := rfl
@[simp] theorem State.setMemory_path (s : State) (m : Memory) : (s.setMemory m).path = s.path := rfl
@[simp] theorem State.setMemory_ports (s : State) (m : Memory) : (s.setMemory m).ports = s.ports := rfl
@[simp] theorem State.setMemory_holds (s : State) (m : Memory) : (s.setMemory m).holds = s.holds := rfl
@[simp] theorem State.setMemory_link (s : State) (m : Memory) : (s.setMemory m).link = s.link := rfl
@[simp] theorem State.setMemory_events (s : State) (m : Memory) : (s.setMemory m).events = s.events := rfl

/-! ### State.putWord -/

@[simp] theorem State.putWord_pending (s : State) (k : Nat) (d : Word) : (s.putWord k d).pending = s.pending := rfl
@[simp] theorem State.putWord_choices (s : State) (k : Nat) (d : Word) : (s.putWord k d).choices = s.choices := rfl
@[simp] theorem State.putWord_resetAsserted (s : State) (k : Nat) (d : Word) : (s.putWord k d).resetAsserted = s.resetAsserted := rfl
@[simp] theorem State.putWord_time (s : State) (k : Nat) (d : Word) : (s.putWord k d).time = s.time := rfl
@[simp] theorem State.putWord_timer (s : State) (k : Nat) (d : Word) : (s.putWord k d).timer = s.timer := rfl
@[simp] theorem State.putWord_lock (s : State) (k : Nat) (d : Word) : (s.putWord k d).lock = s.lock := rfl
@[simp] theorem State.putWord_maps (s : State) (k : Nat) (d : Word) : (s.putWord k d).maps = s.maps := rfl
@[simp] theorem State.putWord_table (s : State) (k : Nat) (d : Word) : (s.putWord k d).table = s.table := rfl
@[simp] theorem State.putWord_order (s : State) (k : Nat) (d : Word) : (s.putWord k d).order = s.order := rfl
@[simp] theorem State.putWord_path (s : State) (k : Nat) (d : Word) : (s.putWord k d).path = s.path := rfl
@[simp] theorem State.putWord_ports (s : State) (k : Nat) (d : Word) : (s.putWord k d).ports = s.ports := rfl
@[simp] theorem State.putWord_holds (s : State) (k : Nat) (d : Word) : (s.putWord k d).holds = s.holds := rfl
@[simp] theorem State.putWord_link (s : State) (k : Nat) (d : Word) : (s.putWord k d).link = s.link := rfl
@[simp] theorem State.putWord_events (s : State) (k : Nat) (d : Word) : (s.putWord k d).events = s.events := rfl

/-! ### State.putReservation -/

@[simp] theorem State.putReservation_pending (s : State) (i : EntryIndex) (r : Reservation) : (s.putReservation i r).pending = s.pending := rfl
@[simp] theorem State.putReservation_choices (s : State) (i : EntryIndex) (r : Reservation) : (s.putReservation i r).choices = s.choices := rfl
@[simp] theorem State.putReservation_resetAsserted (s : State) (i : EntryIndex) (r : Reservation) : (s.putReservation i r).resetAsserted = s.resetAsserted := rfl
@[simp] theorem State.putReservation_time (s : State) (i : EntryIndex) (r : Reservation) : (s.putReservation i r).time = s.time := rfl
@[simp] theorem State.putReservation_timer (s : State) (i : EntryIndex) (r : Reservation) : (s.putReservation i r).timer = s.timer := rfl
@[simp] theorem State.putReservation_lock (s : State) (i : EntryIndex) (r : Reservation) : (s.putReservation i r).lock = s.lock := rfl
@[simp] theorem State.putReservation_maps (s : State) (i : EntryIndex) (r : Reservation) : (s.putReservation i r).maps = s.maps := rfl
@[simp] theorem State.putReservation_table (s : State) (i : EntryIndex) (r : Reservation) : (s.putReservation i r).table = s.table := rfl
@[simp] theorem State.putReservation_order (s : State) (i : EntryIndex) (r : Reservation) : (s.putReservation i r).order = s.order := rfl
@[simp] theorem State.putReservation_path (s : State) (i : EntryIndex) (r : Reservation) : (s.putReservation i r).path = s.path := rfl
@[simp] theorem State.putReservation_ports (s : State) (i : EntryIndex) (r : Reservation) : (s.putReservation i r).ports = s.ports := rfl
@[simp] theorem State.putReservation_holds (s : State) (i : EntryIndex) (r : Reservation) : (s.putReservation i r).holds = s.holds := rfl
@[simp] theorem State.putReservation_link (s : State) (i : EntryIndex) (r : Reservation) : (s.putReservation i r).link = s.link := rfl
@[simp] theorem State.putReservation_events (s : State) (i : EntryIndex) (r : Reservation) : (s.putReservation i r).events = s.events := rfl

/-! ### State.putUse -/

@[simp] theorem State.putUse_pending (s : State) (i : EntryIndex) (f : Reservation → Reservation) : (s.putUse i f).pending = s.pending := rfl
@[simp] theorem State.putUse_choices (s : State) (i : EntryIndex) (f : Reservation → Reservation) : (s.putUse i f).choices = s.choices := rfl
@[simp] theorem State.putUse_resetAsserted (s : State) (i : EntryIndex) (f : Reservation → Reservation) : (s.putUse i f).resetAsserted = s.resetAsserted := rfl
@[simp] theorem State.putUse_time (s : State) (i : EntryIndex) (f : Reservation → Reservation) : (s.putUse i f).time = s.time := rfl
@[simp] theorem State.putUse_timer (s : State) (i : EntryIndex) (f : Reservation → Reservation) : (s.putUse i f).timer = s.timer := rfl
@[simp] theorem State.putUse_lock (s : State) (i : EntryIndex) (f : Reservation → Reservation) : (s.putUse i f).lock = s.lock := rfl
@[simp] theorem State.putUse_maps (s : State) (i : EntryIndex) (f : Reservation → Reservation) : (s.putUse i f).maps = s.maps := rfl
@[simp] theorem State.putUse_table (s : State) (i : EntryIndex) (f : Reservation → Reservation) : (s.putUse i f).table = s.table := rfl
@[simp] theorem State.putUse_order (s : State) (i : EntryIndex) (f : Reservation → Reservation) : (s.putUse i f).order = s.order := rfl
@[simp] theorem State.putUse_path (s : State) (i : EntryIndex) (f : Reservation → Reservation) : (s.putUse i f).path = s.path := rfl
@[simp] theorem State.putUse_ports (s : State) (i : EntryIndex) (f : Reservation → Reservation) : (s.putUse i f).ports = s.ports := rfl
@[simp] theorem State.putUse_holds (s : State) (i : EntryIndex) (f : Reservation → Reservation) : (s.putUse i f).holds = s.holds := rfl
@[simp] theorem State.putUse_link (s : State) (i : EntryIndex) (f : Reservation → Reservation) : (s.putUse i f).link = s.link := rfl
@[simp] theorem State.putUse_events (s : State) (i : EntryIndex) (f : Reservation → Reservation) : (s.putUse i f).events = s.events := rfl

/-! ### State.putCost -/

@[simp] theorem State.putCost_pending (s : State) (i : EntryIndex) (cost : BitVec 23) : (s.putCost i cost).pending = s.pending := rfl
@[simp] theorem State.putCost_choices (s : State) (i : EntryIndex) (cost : BitVec 23) : (s.putCost i cost).choices = s.choices := rfl
@[simp] theorem State.putCost_resetAsserted (s : State) (i : EntryIndex) (cost : BitVec 23) : (s.putCost i cost).resetAsserted = s.resetAsserted := rfl
@[simp] theorem State.putCost_time (s : State) (i : EntryIndex) (cost : BitVec 23) : (s.putCost i cost).time = s.time := rfl
@[simp] theorem State.putCost_timer (s : State) (i : EntryIndex) (cost : BitVec 23) : (s.putCost i cost).timer = s.timer := rfl
@[simp] theorem State.putCost_lock (s : State) (i : EntryIndex) (cost : BitVec 23) : (s.putCost i cost).lock = s.lock := rfl
@[simp] theorem State.putCost_maps (s : State) (i : EntryIndex) (cost : BitVec 23) : (s.putCost i cost).maps = s.maps := rfl
@[simp] theorem State.putCost_table (s : State) (i : EntryIndex) (cost : BitVec 23) : (s.putCost i cost).table = s.table := rfl
@[simp] theorem State.putCost_order (s : State) (i : EntryIndex) (cost : BitVec 23) : (s.putCost i cost).order = s.order := rfl
@[simp] theorem State.putCost_path (s : State) (i : EntryIndex) (cost : BitVec 23) : (s.putCost i cost).path = s.path := rfl
@[simp] theorem State.putCost_ports (s : State) (i : EntryIndex) (cost : BitVec 23) : (s.putCost i cost).ports = s.ports := rfl
@[simp] theorem State.putCost_holds (s : State) (i : EntryIndex) (cost : BitVec 23) : (s.putCost i cost).holds = s.holds := rfl
@[simp] theorem State.putCost_link (s : State) (i : EntryIndex) (cost : BitVec 23) : (s.putCost i cost).link = s.link := rfl
@[simp] theorem State.putCost_events (s : State) (i : EntryIndex) (cost : BitVec 23) : (s.putCost i cost).events = s.events := rfl

/-! ### State.blankReservation -/

@[simp] theorem State.blankReservation_pending (s : State) (i : EntryIndex) : (s.blankReservation i).pending = s.pending := rfl
@[simp] theorem State.blankReservation_choices (s : State) (i : EntryIndex) : (s.blankReservation i).choices = s.choices := rfl
@[simp] theorem State.blankReservation_resetAsserted (s : State) (i : EntryIndex) : (s.blankReservation i).resetAsserted = s.resetAsserted := rfl
@[simp] theorem State.blankReservation_time (s : State) (i : EntryIndex) : (s.blankReservation i).time = s.time := rfl
@[simp] theorem State.blankReservation_timer (s : State) (i : EntryIndex) : (s.blankReservation i).timer = s.timer := rfl
@[simp] theorem State.blankReservation_lock (s : State) (i : EntryIndex) : (s.blankReservation i).lock = s.lock := rfl
@[simp] theorem State.blankReservation_maps (s : State) (i : EntryIndex) : (s.blankReservation i).maps = s.maps := rfl
@[simp] theorem State.blankReservation_table (s : State) (i : EntryIndex) : (s.blankReservation i).table = s.table := rfl
@[simp] theorem State.blankReservation_order (s : State) (i : EntryIndex) : (s.blankReservation i).order = s.order := rfl
@[simp] theorem State.blankReservation_path (s : State) (i : EntryIndex) : (s.blankReservation i).path = s.path := rfl
@[simp] theorem State.blankReservation_ports (s : State) (i : EntryIndex) : (s.blankReservation i).ports = s.ports := rfl
@[simp] theorem State.blankReservation_holds (s : State) (i : EntryIndex) : (s.blankReservation i).holds = s.holds := rfl
@[simp] theorem State.blankReservation_link (s : State) (i : EntryIndex) : (s.blankReservation i).link = s.link := rfl
@[simp] theorem State.blankReservation_events (s : State) (i : EntryIndex) : (s.blankReservation i).events = s.events := rfl

/-! ### State.putActive -/

@[simp] theorem State.putActive_pending (s : State) (p : PortIndex) (kinds : List SlotKind) : (s.putActive p kinds).pending = s.pending := rfl
@[simp] theorem State.putActive_choices (s : State) (p : PortIndex) (kinds : List SlotKind) : (s.putActive p kinds).choices = s.choices := rfl
@[simp] theorem State.putActive_resetAsserted (s : State) (p : PortIndex) (kinds : List SlotKind) : (s.putActive p kinds).resetAsserted = s.resetAsserted := rfl
@[simp] theorem State.putActive_time (s : State) (p : PortIndex) (kinds : List SlotKind) : (s.putActive p kinds).time = s.time := rfl
@[simp] theorem State.putActive_timer (s : State) (p : PortIndex) (kinds : List SlotKind) : (s.putActive p kinds).timer = s.timer := rfl
@[simp] theorem State.putActive_lock (s : State) (p : PortIndex) (kinds : List SlotKind) : (s.putActive p kinds).lock = s.lock := rfl
@[simp] theorem State.putActive_maps (s : State) (p : PortIndex) (kinds : List SlotKind) : (s.putActive p kinds).maps = s.maps := rfl
@[simp] theorem State.putActive_table (s : State) (p : PortIndex) (kinds : List SlotKind) : (s.putActive p kinds).table = s.table := rfl
@[simp] theorem State.putActive_order (s : State) (p : PortIndex) (kinds : List SlotKind) : (s.putActive p kinds).order = s.order := rfl
@[simp] theorem State.putActive_path (s : State) (p : PortIndex) (kinds : List SlotKind) : (s.putActive p kinds).path = s.path := rfl
@[simp] theorem State.putActive_ports (s : State) (p : PortIndex) (kinds : List SlotKind) : (s.putActive p kinds).ports = s.ports := rfl
@[simp] theorem State.putActive_holds (s : State) (p : PortIndex) (kinds : List SlotKind) : (s.putActive p kinds).holds = s.holds := rfl
@[simp] theorem State.putActive_link (s : State) (p : PortIndex) (kinds : List SlotKind) : (s.putActive p kinds).link = s.link := rfl
@[simp] theorem State.putActive_events (s : State) (p : PortIndex) (kinds : List SlotKind) : (s.putActive p kinds).events = s.events := rfl

/-! ### State.putPending -/

@[simp] theorem State.putPending_pending (s : State) (p : PortIndex) (kinds : List SlotKind) : (s.putPending p kinds).pending = s.pending := rfl
@[simp] theorem State.putPending_choices (s : State) (p : PortIndex) (kinds : List SlotKind) : (s.putPending p kinds).choices = s.choices := rfl
@[simp] theorem State.putPending_resetAsserted (s : State) (p : PortIndex) (kinds : List SlotKind) : (s.putPending p kinds).resetAsserted = s.resetAsserted := rfl
@[simp] theorem State.putPending_time (s : State) (p : PortIndex) (kinds : List SlotKind) : (s.putPending p kinds).time = s.time := rfl
@[simp] theorem State.putPending_timer (s : State) (p : PortIndex) (kinds : List SlotKind) : (s.putPending p kinds).timer = s.timer := rfl
@[simp] theorem State.putPending_lock (s : State) (p : PortIndex) (kinds : List SlotKind) : (s.putPending p kinds).lock = s.lock := rfl
@[simp] theorem State.putPending_maps (s : State) (p : PortIndex) (kinds : List SlotKind) : (s.putPending p kinds).maps = s.maps := rfl
@[simp] theorem State.putPending_table (s : State) (p : PortIndex) (kinds : List SlotKind) : (s.putPending p kinds).table = s.table := rfl
@[simp] theorem State.putPending_order (s : State) (p : PortIndex) (kinds : List SlotKind) : (s.putPending p kinds).order = s.order := rfl
@[simp] theorem State.putPending_path (s : State) (p : PortIndex) (kinds : List SlotKind) : (s.putPending p kinds).path = s.path := rfl
@[simp] theorem State.putPending_ports (s : State) (p : PortIndex) (kinds : List SlotKind) : (s.putPending p kinds).ports = s.ports := rfl
@[simp] theorem State.putPending_holds (s : State) (p : PortIndex) (kinds : List SlotKind) : (s.putPending p kinds).holds = s.holds := rfl
@[simp] theorem State.putPending_link (s : State) (p : PortIndex) (kinds : List SlotKind) : (s.putPending p kinds).link = s.link := rfl
@[simp] theorem State.putPending_events (s : State) (p : PortIndex) (kinds : List SlotKind) : (s.putPending p kinds).events = s.events := rfl

/-! ### State.putRing -/

@[simp] theorem State.putRing_pending (s : State) (e : RingIndex) (r : Ring) : (s.putRing e r).pending = s.pending := rfl
@[simp] theorem State.putRing_choices (s : State) (e : RingIndex) (r : Ring) : (s.putRing e r).choices = s.choices := rfl
@[simp] theorem State.putRing_resetAsserted (s : State) (e : RingIndex) (r : Ring) : (s.putRing e r).resetAsserted = s.resetAsserted := rfl
@[simp] theorem State.putRing_time (s : State) (e : RingIndex) (r : Ring) : (s.putRing e r).time = s.time := rfl
@[simp] theorem State.putRing_timer (s : State) (e : RingIndex) (r : Ring) : (s.putRing e r).timer = s.timer := rfl
@[simp] theorem State.putRing_lock (s : State) (e : RingIndex) (r : Ring) : (s.putRing e r).lock = s.lock := rfl
@[simp] theorem State.putRing_maps (s : State) (e : RingIndex) (r : Ring) : (s.putRing e r).maps = s.maps := rfl
@[simp] theorem State.putRing_table (s : State) (e : RingIndex) (r : Ring) : (s.putRing e r).table = s.table := rfl
@[simp] theorem State.putRing_order (s : State) (e : RingIndex) (r : Ring) : (s.putRing e r).order = s.order := rfl
@[simp] theorem State.putRing_path (s : State) (e : RingIndex) (r : Ring) : (s.putRing e r).path = s.path := rfl
@[simp] theorem State.putRing_ports (s : State) (e : RingIndex) (r : Ring) : (s.putRing e r).ports = s.ports := rfl
@[simp] theorem State.putRing_holds (s : State) (e : RingIndex) (r : Ring) : (s.putRing e r).holds = s.holds := rfl
@[simp] theorem State.putRing_link (s : State) (e : RingIndex) (r : Ring) : (s.putRing e r).link = s.link := rfl
@[simp] theorem State.putRing_events (s : State) (e : RingIndex) (r : Ring) : (s.putRing e r).events = s.events := rfl

/-! ### State.finishInit -/

@[simp] theorem State.finishInit_pending (s : State) : (s.finishInit).pending = s.pending := rfl
@[simp] theorem State.finishInit_choices (s : State) : (s.finishInit).choices = s.choices := rfl
@[simp] theorem State.finishInit_resetAsserted (s : State) : (s.finishInit).resetAsserted = s.resetAsserted := rfl
@[simp] theorem State.finishInit_time (s : State) : (s.finishInit).time = s.time := rfl
@[simp] theorem State.finishInit_timer (s : State) : (s.finishInit).timer = s.timer := rfl
@[simp] theorem State.finishInit_lock (s : State) : (s.finishInit).lock = s.lock := rfl
@[simp] theorem State.finishInit_maps (s : State) : (s.finishInit).maps = s.maps := rfl
@[simp] theorem State.finishInit_table (s : State) : (s.finishInit).table = s.table := rfl
@[simp] theorem State.finishInit_order (s : State) : (s.finishInit).order = s.order := rfl
@[simp] theorem State.finishInit_path (s : State) : (s.finishInit).path = s.path := rfl
@[simp] theorem State.finishInit_ports (s : State) : (s.finishInit).ports = s.ports := rfl
@[simp] theorem State.finishInit_holds (s : State) : (s.finishInit).holds = s.holds := rfl
@[simp] theorem State.finishInit_link (s : State) : (s.finishInit).link = s.link := rfl
@[simp] theorem State.finishInit_events (s : State) : (s.finishInit).events = s.events := rfl

/-! ### State.raise -/

@[simp] theorem State.raise_pending (s : State) (e : EventEntry) : (s.raise e).pending = s.pending := rfl
@[simp] theorem State.raise_choices (s : State) (e : EventEntry) : (s.raise e).choices = s.choices := rfl
@[simp] theorem State.raise_resetAsserted (s : State) (e : EventEntry) : (s.raise e).resetAsserted = s.resetAsserted := rfl
@[simp] theorem State.raise_time (s : State) (e : EventEntry) : (s.raise e).time = s.time := rfl
@[simp] theorem State.raise_timer (s : State) (e : EventEntry) : (s.raise e).timer = s.timer := rfl
@[simp] theorem State.raise_lock (s : State) (e : EventEntry) : (s.raise e).lock = s.lock := rfl
@[simp] theorem State.raise_maps (s : State) (e : EventEntry) : (s.raise e).maps = s.maps := rfl
@[simp] theorem State.raise_table (s : State) (e : EventEntry) : (s.raise e).table = s.table := rfl
@[simp] theorem State.raise_order (s : State) (e : EventEntry) : (s.raise e).order = s.order := rfl
@[simp] theorem State.raise_path (s : State) (e : EventEntry) : (s.raise e).path = s.path := rfl
@[simp] theorem State.raise_ports (s : State) (e : EventEntry) : (s.raise e).ports = s.ports := rfl
@[simp] theorem State.raise_holds (s : State) (e : EventEntry) : (s.raise e).holds = s.holds := rfl
@[simp] theorem State.raise_prot (s : State) (e : EventEntry) : (s.raise e).prot = s.prot := rfl
@[simp] theorem State.raise_link (s : State) (e : EventEntry) : (s.raise e).link = s.link := rfl

/-! ### State.clearMarks -/

@[simp] theorem State.clearMarks_pending (s : State) : (s.clearMarks).pending = s.pending := rfl
@[simp] theorem State.clearMarks_choices (s : State) : (s.clearMarks).choices = s.choices := rfl
@[simp] theorem State.clearMarks_resetAsserted (s : State) : (s.clearMarks).resetAsserted = s.resetAsserted := rfl
@[simp] theorem State.clearMarks_time (s : State) : (s.clearMarks).time = s.time := rfl
@[simp] theorem State.clearMarks_timer (s : State) : (s.clearMarks).timer = s.timer := rfl
@[simp] theorem State.clearMarks_lock (s : State) : (s.clearMarks).lock = s.lock := rfl
@[simp] theorem State.clearMarks_maps (s : State) : (s.clearMarks).maps = s.maps := rfl
@[simp] theorem State.clearMarks_table (s : State) : (s.clearMarks).table = s.table := rfl
@[simp] theorem State.clearMarks_order (s : State) : (s.clearMarks).order = s.order := rfl
@[simp] theorem State.clearMarks_path (s : State) : (s.clearMarks).path = s.path := rfl
@[simp] theorem State.clearMarks_ports (s : State) : (s.clearMarks).ports = s.ports := rfl
@[simp] theorem State.clearMarks_holds (s : State) : (s.clearMarks).holds = s.holds := rfl
@[simp] theorem State.clearMarks_prot (s : State) : (s.clearMarks).prot = s.prot := rfl
@[simp] theorem State.clearMarks_link (s : State) : (s.clearMarks).link = s.link := rfl

/-! ### State.respond -/

@[simp] theorem State.respond_pending (s : State) (code : Byte) (status : Status) (result : List Byte) : (s.respond code status result).pending = s.pending := rfl
@[simp] theorem State.respond_choices (s : State) (code : Byte) (status : Status) (result : List Byte) : (s.respond code status result).choices = s.choices := rfl
@[simp] theorem State.respond_resetAsserted (s : State) (code : Byte) (status : Status) (result : List Byte) : (s.respond code status result).resetAsserted = s.resetAsserted := rfl
@[simp] theorem State.respond_time (s : State) (code : Byte) (status : Status) (result : List Byte) : (s.respond code status result).time = s.time := rfl
@[simp] theorem State.respond_timer (s : State) (code : Byte) (status : Status) (result : List Byte) : (s.respond code status result).timer = s.timer := rfl
@[simp] theorem State.respond_lock (s : State) (code : Byte) (status : Status) (result : List Byte) : (s.respond code status result).lock = s.lock := rfl
@[simp] theorem State.respond_maps (s : State) (code : Byte) (status : Status) (result : List Byte) : (s.respond code status result).maps = s.maps := rfl
@[simp] theorem State.respond_table (s : State) (code : Byte) (status : Status) (result : List Byte) : (s.respond code status result).table = s.table := rfl
@[simp] theorem State.respond_order (s : State) (code : Byte) (status : Status) (result : List Byte) : (s.respond code status result).order = s.order := rfl
@[simp] theorem State.respond_path (s : State) (code : Byte) (status : Status) (result : List Byte) : (s.respond code status result).path = s.path := rfl
@[simp] theorem State.respond_ports (s : State) (code : Byte) (status : Status) (result : List Byte) : (s.respond code status result).ports = s.ports := rfl
@[simp] theorem State.respond_holds (s : State) (code : Byte) (status : Status) (result : List Byte) : (s.respond code status result).holds = s.holds := rfl
@[simp] theorem State.respond_prot (s : State) (code : Byte) (status : Status) (result : List Byte) : (s.respond code status result).prot = s.prot := rfl
@[simp] theorem State.respond_events (s : State) (code : Byte) (status : Status) (result : List Byte) : (s.respond code status result).events = s.events := rfl

/-! ### State.endTransaction -/

@[simp] theorem State.endTransaction_pending (s : State) : (s.endTransaction).pending = s.pending := rfl
@[simp] theorem State.endTransaction_choices (s : State) : (s.endTransaction).choices = s.choices := rfl
@[simp] theorem State.endTransaction_resetAsserted (s : State) : (s.endTransaction).resetAsserted = s.resetAsserted := rfl
@[simp] theorem State.endTransaction_time (s : State) : (s.endTransaction).time = s.time := rfl
@[simp] theorem State.endTransaction_timer (s : State) : (s.endTransaction).timer = s.timer := rfl
@[simp] theorem State.endTransaction_lock (s : State) : (s.endTransaction).lock = s.lock := rfl
@[simp] theorem State.endTransaction_maps (s : State) : (s.endTransaction).maps = s.maps := rfl
@[simp] theorem State.endTransaction_table (s : State) : (s.endTransaction).table = s.table := rfl
@[simp] theorem State.endTransaction_order (s : State) : (s.endTransaction).order = s.order := rfl
@[simp] theorem State.endTransaction_path (s : State) : (s.endTransaction).path = s.path := rfl
@[simp] theorem State.endTransaction_ports (s : State) : (s.endTransaction).ports = s.ports := rfl
@[simp] theorem State.endTransaction_holds (s : State) : (s.endTransaction).holds = s.holds := rfl
@[simp] theorem State.endTransaction_prot (s : State) : (s.endTransaction).prot = s.prot := rfl
@[simp] theorem State.endTransaction_events (s : State) : (s.endTransaction).events = s.events := rfl

/-! ### State.keepHolds -/

@[simp] theorem State.keepHolds_pending (s : State) (keep : HoldRecord → Bool) : (s.keepHolds keep).pending = s.pending := rfl
@[simp] theorem State.keepHolds_choices (s : State) (keep : HoldRecord → Bool) : (s.keepHolds keep).choices = s.choices := rfl
@[simp] theorem State.keepHolds_resetAsserted (s : State) (keep : HoldRecord → Bool) : (s.keepHolds keep).resetAsserted = s.resetAsserted := rfl
@[simp] theorem State.keepHolds_time (s : State) (keep : HoldRecord → Bool) : (s.keepHolds keep).time = s.time := rfl
@[simp] theorem State.keepHolds_timer (s : State) (keep : HoldRecord → Bool) : (s.keepHolds keep).timer = s.timer := rfl
@[simp] theorem State.keepHolds_lock (s : State) (keep : HoldRecord → Bool) : (s.keepHolds keep).lock = s.lock := rfl
@[simp] theorem State.keepHolds_maps (s : State) (keep : HoldRecord → Bool) : (s.keepHolds keep).maps = s.maps := rfl
@[simp] theorem State.keepHolds_table (s : State) (keep : HoldRecord → Bool) : (s.keepHolds keep).table = s.table := rfl
@[simp] theorem State.keepHolds_order (s : State) (keep : HoldRecord → Bool) : (s.keepHolds keep).order = s.order := rfl
@[simp] theorem State.keepHolds_path (s : State) (keep : HoldRecord → Bool) : (s.keepHolds keep).path = s.path := rfl
@[simp] theorem State.keepHolds_ports (s : State) (keep : HoldRecord → Bool) : (s.keepHolds keep).ports = s.ports := rfl
@[simp] theorem State.keepHolds_prot (s : State) (keep : HoldRecord → Bool) : (s.keepHolds keep).prot = s.prot := rfl
@[simp] theorem State.keepHolds_link (s : State) (keep : HoldRecord → Bool) : (s.keepHolds keep).link = s.link := rfl
@[simp] theorem State.keepHolds_events (s : State) (keep : HoldRecord → Bool) : (s.keepHolds keep).events = s.events := rfl

/-! ### State.removeHold -/

@[simp] theorem State.removeHold_pending (s : State) (a : Address) : (s.removeHold a).pending = s.pending := rfl
@[simp] theorem State.removeHold_choices (s : State) (a : Address) : (s.removeHold a).choices = s.choices := rfl
@[simp] theorem State.removeHold_resetAsserted (s : State) (a : Address) : (s.removeHold a).resetAsserted = s.resetAsserted := rfl
@[simp] theorem State.removeHold_time (s : State) (a : Address) : (s.removeHold a).time = s.time := rfl
@[simp] theorem State.removeHold_timer (s : State) (a : Address) : (s.removeHold a).timer = s.timer := rfl
@[simp] theorem State.removeHold_lock (s : State) (a : Address) : (s.removeHold a).lock = s.lock := rfl
@[simp] theorem State.removeHold_maps (s : State) (a : Address) : (s.removeHold a).maps = s.maps := rfl
@[simp] theorem State.removeHold_table (s : State) (a : Address) : (s.removeHold a).table = s.table := rfl
@[simp] theorem State.removeHold_order (s : State) (a : Address) : (s.removeHold a).order = s.order := rfl
@[simp] theorem State.removeHold_path (s : State) (a : Address) : (s.removeHold a).path = s.path := rfl
@[simp] theorem State.removeHold_ports (s : State) (a : Address) : (s.removeHold a).ports = s.ports := rfl
@[simp] theorem State.removeHold_prot (s : State) (a : Address) : (s.removeHold a).prot = s.prot := rfl
@[simp] theorem State.removeHold_link (s : State) (a : Address) : (s.removeHold a).link = s.link := rfl
@[simp] theorem State.removeHold_events (s : State) (a : Address) : (s.removeHold a).events = s.events := rfl

/-! ### State.removeEntryHolds -/

@[simp] theorem State.removeEntryHolds_pending (s : State) (i : EntryIndex) : (s.removeEntryHolds i).pending = s.pending := rfl
@[simp] theorem State.removeEntryHolds_choices (s : State) (i : EntryIndex) : (s.removeEntryHolds i).choices = s.choices := rfl
@[simp] theorem State.removeEntryHolds_resetAsserted (s : State) (i : EntryIndex) : (s.removeEntryHolds i).resetAsserted = s.resetAsserted := rfl
@[simp] theorem State.removeEntryHolds_time (s : State) (i : EntryIndex) : (s.removeEntryHolds i).time = s.time := rfl
@[simp] theorem State.removeEntryHolds_timer (s : State) (i : EntryIndex) : (s.removeEntryHolds i).timer = s.timer := rfl
@[simp] theorem State.removeEntryHolds_lock (s : State) (i : EntryIndex) : (s.removeEntryHolds i).lock = s.lock := rfl
@[simp] theorem State.removeEntryHolds_maps (s : State) (i : EntryIndex) : (s.removeEntryHolds i).maps = s.maps := rfl
@[simp] theorem State.removeEntryHolds_table (s : State) (i : EntryIndex) : (s.removeEntryHolds i).table = s.table := rfl
@[simp] theorem State.removeEntryHolds_order (s : State) (i : EntryIndex) : (s.removeEntryHolds i).order = s.order := rfl
@[simp] theorem State.removeEntryHolds_path (s : State) (i : EntryIndex) : (s.removeEntryHolds i).path = s.path := rfl
@[simp] theorem State.removeEntryHolds_ports (s : State) (i : EntryIndex) : (s.removeEntryHolds i).ports = s.ports := rfl
@[simp] theorem State.removeEntryHolds_prot (s : State) (i : EntryIndex) : (s.removeEntryHolds i).prot = s.prot := rfl
@[simp] theorem State.removeEntryHolds_link (s : State) (i : EntryIndex) : (s.removeEntryHolds i).link = s.link := rfl
@[simp] theorem State.removeEntryHolds_events (s : State) (i : EntryIndex) : (s.removeEntryHolds i).events = s.events := rfl

/-! ### State.removePortHolds -/

@[simp] theorem State.removePortHolds_pending (s : State) (p : PortIndex) : (s.removePortHolds p).pending = s.pending := rfl
@[simp] theorem State.removePortHolds_choices (s : State) (p : PortIndex) : (s.removePortHolds p).choices = s.choices := rfl
@[simp] theorem State.removePortHolds_resetAsserted (s : State) (p : PortIndex) : (s.removePortHolds p).resetAsserted = s.resetAsserted := rfl
@[simp] theorem State.removePortHolds_time (s : State) (p : PortIndex) : (s.removePortHolds p).time = s.time := rfl
@[simp] theorem State.removePortHolds_timer (s : State) (p : PortIndex) : (s.removePortHolds p).timer = s.timer := rfl
@[simp] theorem State.removePortHolds_lock (s : State) (p : PortIndex) : (s.removePortHolds p).lock = s.lock := rfl
@[simp] theorem State.removePortHolds_maps (s : State) (p : PortIndex) : (s.removePortHolds p).maps = s.maps := rfl
@[simp] theorem State.removePortHolds_table (s : State) (p : PortIndex) : (s.removePortHolds p).table = s.table := rfl
@[simp] theorem State.removePortHolds_order (s : State) (p : PortIndex) : (s.removePortHolds p).order = s.order := rfl
@[simp] theorem State.removePortHolds_path (s : State) (p : PortIndex) : (s.removePortHolds p).path = s.path := rfl
@[simp] theorem State.removePortHolds_ports (s : State) (p : PortIndex) : (s.removePortHolds p).ports = s.ports := rfl
@[simp] theorem State.removePortHolds_prot (s : State) (p : PortIndex) : (s.removePortHolds p).prot = s.prot := rfl
@[simp] theorem State.removePortHolds_link (s : State) (p : PortIndex) : (s.removePortHolds p).link = s.link := rfl
@[simp] theorem State.removePortHolds_events (s : State) (p : PortIndex) : (s.removePortHolds p).events = s.events := rfl

/-! ### State.leaveEnforcing -/

@[simp] theorem State.leaveEnforcing_pending (s : State) (p : PortIndex) : (s.leaveEnforcing p).pending = s.pending := rfl
@[simp] theorem State.leaveEnforcing_choices (s : State) (p : PortIndex) : (s.leaveEnforcing p).choices = s.choices := rfl
@[simp] theorem State.leaveEnforcing_resetAsserted (s : State) (p : PortIndex) : (s.leaveEnforcing p).resetAsserted = s.resetAsserted := rfl
@[simp] theorem State.leaveEnforcing_time (s : State) (p : PortIndex) : (s.leaveEnforcing p).time = s.time := rfl
@[simp] theorem State.leaveEnforcing_timer (s : State) (p : PortIndex) : (s.leaveEnforcing p).timer = s.timer := rfl
@[simp] theorem State.leaveEnforcing_lock (s : State) (p : PortIndex) : (s.leaveEnforcing p).lock = s.lock := rfl
@[simp] theorem State.leaveEnforcing_maps (s : State) (p : PortIndex) : (s.leaveEnforcing p).maps = s.maps := rfl
@[simp] theorem State.leaveEnforcing_table (s : State) (p : PortIndex) : (s.leaveEnforcing p).table = s.table := rfl
@[simp] theorem State.leaveEnforcing_order (s : State) (p : PortIndex) : (s.leaveEnforcing p).order = s.order := rfl
@[simp] theorem State.leaveEnforcing_path (s : State) (p : PortIndex) : (s.leaveEnforcing p).path = s.path := rfl
@[simp] theorem State.leaveEnforcing_prot (s : State) (p : PortIndex) : (s.leaveEnforcing p).prot = s.prot := rfl
@[simp] theorem State.leaveEnforcing_link (s : State) (p : PortIndex) : (s.leaveEnforcing p).link = s.link := rfl
@[simp] theorem State.leaveEnforcing_events (s : State) (p : PortIndex) : (s.leaveEnforcing p).events = s.events := rfl

/-! ### State.dropChoices -/

@[simp] theorem State.dropChoices_pending (s : State) (n : Nat) : (s.dropChoices n).pending = s.pending := rfl
@[simp] theorem State.dropChoices_resetAsserted (s : State) (n : Nat) : (s.dropChoices n).resetAsserted = s.resetAsserted := rfl
@[simp] theorem State.dropChoices_time (s : State) (n : Nat) : (s.dropChoices n).time = s.time := rfl
@[simp] theorem State.dropChoices_timer (s : State) (n : Nat) : (s.dropChoices n).timer = s.timer := rfl
@[simp] theorem State.dropChoices_lock (s : State) (n : Nat) : (s.dropChoices n).lock = s.lock := rfl
@[simp] theorem State.dropChoices_maps (s : State) (n : Nat) : (s.dropChoices n).maps = s.maps := rfl
@[simp] theorem State.dropChoices_table (s : State) (n : Nat) : (s.dropChoices n).table = s.table := rfl
@[simp] theorem State.dropChoices_order (s : State) (n : Nat) : (s.dropChoices n).order = s.order := rfl
@[simp] theorem State.dropChoices_path (s : State) (n : Nat) : (s.dropChoices n).path = s.path := rfl
@[simp] theorem State.dropChoices_ports (s : State) (n : Nat) : (s.dropChoices n).ports = s.ports := rfl
@[simp] theorem State.dropChoices_holds (s : State) (n : Nat) : (s.dropChoices n).holds = s.holds := rfl
@[simp] theorem State.dropChoices_prot (s : State) (n : Nat) : (s.dropChoices n).prot = s.prot := rfl
@[simp] theorem State.dropChoices_link (s : State) (n : Nat) : (s.dropChoices n).link = s.link := rfl
@[simp] theorem State.dropChoices_events (s : State) (n : Nat) : (s.dropChoices n).events = s.events := rfl

/-! ### State.setLock -/

@[simp] theorem State.setLock_pending (s : State) (l : Lock) : (s.setLock l).pending = s.pending := rfl
@[simp] theorem State.setLock_choices (s : State) (l : Lock) : (s.setLock l).choices = s.choices := rfl
@[simp] theorem State.setLock_resetAsserted (s : State) (l : Lock) : (s.setLock l).resetAsserted = s.resetAsserted := rfl
@[simp] theorem State.setLock_time (s : State) (l : Lock) : (s.setLock l).time = s.time := rfl
@[simp] theorem State.setLock_timer (s : State) (l : Lock) : (s.setLock l).timer = s.timer := rfl
@[simp] theorem State.setLock_maps (s : State) (l : Lock) : (s.setLock l).maps = s.maps := rfl
@[simp] theorem State.setLock_table (s : State) (l : Lock) : (s.setLock l).table = s.table := rfl
@[simp] theorem State.setLock_order (s : State) (l : Lock) : (s.setLock l).order = s.order := rfl
@[simp] theorem State.setLock_path (s : State) (l : Lock) : (s.setLock l).path = s.path := rfl
@[simp] theorem State.setLock_ports (s : State) (l : Lock) : (s.setLock l).ports = s.ports := rfl
@[simp] theorem State.setLock_holds (s : State) (l : Lock) : (s.setLock l).holds = s.holds := rfl
@[simp] theorem State.setLock_prot (s : State) (l : Lock) : (s.setLock l).prot = s.prot := rfl
@[simp] theorem State.setLock_link (s : State) (l : Lock) : (s.setLock l).link = s.link := rfl
@[simp] theorem State.setLock_events (s : State) (l : Lock) : (s.setLock l).events = s.events := rfl

/-! ### State.turnTimer -/

@[simp] theorem State.turnTimer_pending (s : State) (t : Timer) (g : Option Geometry) : (s.turnTimer t g).pending = s.pending := rfl
@[simp] theorem State.turnTimer_choices (s : State) (t : Timer) (g : Option Geometry) : (s.turnTimer t g).choices = s.choices := rfl
@[simp] theorem State.turnTimer_resetAsserted (s : State) (t : Timer) (g : Option Geometry) : (s.turnTimer t g).resetAsserted = s.resetAsserted := rfl
@[simp] theorem State.turnTimer_time (s : State) (t : Timer) (g : Option Geometry) : (s.turnTimer t g).time = s.time := rfl
@[simp] theorem State.turnTimer_maps (s : State) (t : Timer) (g : Option Geometry) : (s.turnTimer t g).maps = s.maps := rfl
@[simp] theorem State.turnTimer_table (s : State) (t : Timer) (g : Option Geometry) : (s.turnTimer t g).table = s.table := rfl
@[simp] theorem State.turnTimer_order (s : State) (t : Timer) (g : Option Geometry) : (s.turnTimer t g).order = s.order := rfl
@[simp] theorem State.turnTimer_path (s : State) (t : Timer) (g : Option Geometry) : (s.turnTimer t g).path = s.path := rfl
@[simp] theorem State.turnTimer_ports (s : State) (t : Timer) (g : Option Geometry) : (s.turnTimer t g).ports = s.ports := rfl
@[simp] theorem State.turnTimer_holds (s : State) (t : Timer) (g : Option Geometry) : (s.turnTimer t g).holds = s.holds := rfl
@[simp] theorem State.turnTimer_prot (s : State) (t : Timer) (g : Option Geometry) : (s.turnTimer t g).prot = s.prot := rfl
@[simp] theorem State.turnTimer_link (s : State) (t : Timer) (g : Option Geometry) : (s.turnTimer t g).link = s.link := rfl
@[simp] theorem State.turnTimer_events (s : State) (t : Timer) (g : Option Geometry) : (s.turnTimer t g).events = s.events := rfl

/-! ### What the updates write -/

@[simp] theorem State.setMemory_memory (s : State) (m : Memory) : (s.setMemory m).prot.memory = m := rfl
@[simp] theorem State.setMemory_scrub (s : State) (m : Memory) : (s.setMemory m).prot.scrub = s.prot.scrub := rfl
@[simp] theorem State.setMemory_corrected (s : State) (m : Memory) : (s.setMemory m).prot.corrected = s.prot.corrected := rfl
@[simp] theorem State.setMemory_busy (s : State) (m : Memory) : (s.setMemory m).prot.busy = s.prot.busy := rfl
@[simp] theorem State.putWord_memory (s : State) (k : Nat) (d : Word) :
    (s.putWord k d).prot.memory = s.prot.memory.write k (cleanWord d) := rfl
@[simp] theorem State.putWord_scrub (s : State) (k : Nat) (d : Word) : (s.putWord k d).prot.scrub = s.prot.scrub := rfl
@[simp] theorem State.putWord_corrected (s : State) (k : Nat) (d : Word) :
    (s.putWord k d).prot.corrected = s.prot.corrected := rfl
@[simp] theorem State.putWord_busy (s : State) (k : Nat) (d : Word) : (s.putWord k d).prot.busy = s.prot.busy := rfl
@[simp] theorem State.raise_events (s : State) (e : EventEntry) : (s.raise e).events = s.events.offer e := rfl
@[simp] theorem State.clearMarks_queue (s : State) : s.clearMarks.events.queue = s.events.queue := rfl
@[simp] theorem State.clearMarks_marks (s : State) : s.clearMarks.events.marks = [] := rfl
@[simp] theorem State.respond_record (s : State) (code : Byte) (status : Status) (result : List Byte) :
    (s.respond code status result).link.record = ⟨status, code, result⟩ := rfl
@[simp] theorem State.endTransaction_record (s : State) : s.endTransaction.link.record = s.link.record := rfl
@[simp] theorem State.setLock_lock (s : State) (l : Lock) : (s.setLock l).lock = l := rfl
@[simp] theorem State.updPath_path (s : State) (f : Path → Path) : (s.updPath f).path = f s.path := rfl
theorem Path.answeredRead_expired {p : Path} {tag : Tag} (h : tag ∈ p.expired) : p.answeredRead tag = none := if_pos h
theorem Path.answeredRead_open {p : Path} {tag : Tag} (h : tag ∉ p.expired) : p.answeredRead tag = p.readWith tag := if_neg h
@[simp] theorem Path.afterTicks_zero (p : Path) : p.afterTicks 0 = p := rfl
@[simp] theorem Path.afterTicks_succ (p : Path) (n : Nat) : p.afterTicks (n + 1) = { p with expired := [] } := rfl
@[simp] theorem State.markExpired_expired (s : State) (tag : Tag) : (s.markExpired tag).path.expired = s.path.expired ++ [tag] := rfl
@[simp] theorem State.markExpired_inFlight (s : State) (tag : Tag) : (s.markExpired tag).path.inFlight = s.path.inFlight := rfl
@[simp] theorem State.markExpired_quarantine (s : State) (tag : Tag) : (s.markExpired tag).path.quarantine = s.path.quarantine := rfl
@[simp] theorem State.unmarkExpired_expired (s : State) (tag : Tag) :
    (s.unmarkExpired tag).path.expired = s.path.expired.filter (fun x => decide (x ≠ tag)) := rfl
@[simp] theorem State.unmarkExpired_inFlight (s : State) (tag : Tag) :
    (s.unmarkExpired tag).path.inFlight = s.path.inFlight := rfl
@[simp] theorem State.unmarkExpired_quarantine (s : State) (tag : Tag) :
    (s.unmarkExpired tag).path.quarantine = s.path.quarantine := rfl
@[simp] theorem State.dropChoices_choices (s : State) (n : Nat) : (s.dropChoices n).choices = ⟨s.choices.given.drop n, s.choices.used + n⟩ := rfl
@[simp] theorem State.keepHolds_records (s : State) (keep : HoldRecord → Bool) :
    (s.keepHolds keep).holds.records = s.holds.records.filter keep := rfl
@[simp] theorem State.keepHolds_full (s : State) (keep : HoldRecord → Bool) : (s.keepHolds keep).holds.full = s.holds.full := rfl
@[simp] theorem State.keepHolds_expired (s : State) (keep : HoldRecord → Bool) :
    (s.keepHolds keep).holds.expired = s.holds.expired := rfl
@[simp] theorem State.freeEntry_order (s : State) (i : EntryIndex) :
    (s.freeEntry i).order = s.order.filter (fun j => decide (j ≠ i)) := rfl

/-- The gate of a port after an update of one port. -/
theorem State.port_updPort (s : State) (p q : PortIndex) (f : Port → Port) :
    (s.updPort p f).port q = if q = p then f (s.port p) else s.port q := by
  simp only [State.port, State.updPort, Vector.get_eq_getElem, Vector.getElem_set]
  by_cases h : q = p
  · simp [h]
  · simp [h]; exact fun h' => absurd (Fin.ext h'.symm) h

@[simp] theorem State.port_updPort_self (s : State) (p : PortIndex) (f : Port → Port) :
    (s.updPort p f).port p = f (s.port p) := by simp [State.port_updPort]

/-- An entry after an update of one entry. -/
theorem State.entry_updEntry (s : State) (i j : EntryIndex) (f : Entry → Entry) :
    (s.updEntry i f).entry j = if j = i then f (s.entry i) else s.entry j := by
  simp only [State.entry, State.updEntry, Vector.get_eq_getElem, Vector.getElem_set]
  by_cases h : j = i
  · simp [h]
  · simp [h]; exact fun h' => absurd (Fin.ext h'.symm) h

@[simp] theorem State.entry_updEntry_self (s : State) (i : EntryIndex) (f : Entry → Entry) :
    (s.updEntry i f).entry i = f (s.entry i) := by simp [State.entry_updEntry]

/-- The map state of a port after an update of one port's. -/
theorem State.mapsOf_setMaps (s : State) (p q : PortIndex) (m : PortMaps) :
    (s.setMaps p m).mapsOf q = if q = p then m else s.mapsOf q := by
  simp only [State.mapsOf, State.setMaps, Vector.get_eq_getElem, Vector.getElem_set]
  by_cases h : q = p
  · simp [h]
  · simp [h]; exact fun h' => absurd (Fin.ext h'.symm) h

@[simp] theorem State.mapsOf_setMaps_self (s : State) (p : PortIndex) (m : PortMaps) : (s.setMaps p m).mapsOf p = m := by
  simp [State.mapsOf_setMaps]

/-- The valid flag of a ring map entry after an update of one. -/
theorem State.ringValid_setRingValid (s : State) (e o : RingIndex) (v : Bool) :
    (s.setRingValid e v).ringValid o = if o = e then v else s.ringValid o := by
  simp only [State.ringValid, State.setRingValid, Vector.get_eq_getElem, Vector.getElem_set]
  by_cases h : o = e
  · simp [h]
  · simp [h]; exact fun h' => absurd (Fin.ext h'.symm) h

/-- Parts read by index depend on their own field alone. -/
theorem State.port_of_ports {s t : State} (h : s.ports = t.ports) (p : PortIndex) : s.port p = t.port p := by
  simp [State.port, h]

theorem State.entry_of_table {s t : State} (h : s.table = t.table) (i : EntryIndex) : s.entry i = t.entry i := by
  simp [State.entry, h]

theorem State.mapsOf_of_maps {s t : State} (h : s.maps = t.maps) (p : PortIndex) : s.mapsOf p = t.mapsOf p := by
  simp [State.mapsOf, h]

theorem State.word_of_prot {s t : State} (h : s.prot.memory = t.prot.memory) (k : Nat) : s.word k = t.word k := by
  simp [State.word, h]

/-- Two states with equal fields are equal. -/
theorem State.ext_fields {s t : State} (h1 : s.pending = t.pending) (h2 : s.choices = t.choices)
    (h3 : s.resetAsserted = t.resetAsserted) (h4 : s.time = t.time) (h5 : s.timer = t.timer) (h6 : s.lock = t.lock)
    (h7 : s.maps = t.maps) (h8 : s.table = t.table) (h9 : s.order = t.order) (h10 : s.path = t.path)
    (h11 : s.ports = t.ports) (h12 : s.holds = t.holds) (h13 : s.prot = t.prot) (h14 : s.link = t.link)
    (h15 : s.events = t.events) : s = t := by
  cases s; cases t; simp_all

end Sys2Proof.Machine
end

