-- ==== Sys2Proof/Laws/Events.lean ====
section
/-! SUPPORT. The event queue: what an offer can do to it, and what READ_EVENT does. -/

namespace Sys2Proof.Machine

/-- Everything an offer can do (R174 to R176): nothing, the loss of the event to a full queue, or one entry appended with
its limit mark set. -/
theorem EventQueue.offer_cases (q : EventQueue) (e : EventEntry) :
    (q.offer e = q ∧ (q.enabled e.kind = false ∨ q.marked e = true)) ∨
    (q.offer e = { q with overflow := true } ∧ 32 ≤ q.queue.length) ∨
    (q.offer e = { q with queue := q.queue ++ [e], marks := e.limit.toList ++ q.marks } ∧ q.enabled e.kind = true ∧
      q.marked e = false ∧ q.queue.length < 32) := by
  unfold EventQueue.offer
  by_cases h1 : q.enabled e.kind = false
  · simp [h1]
  · by_cases h2 : q.marked e = true
    · simp [h1, h2]
    · by_cases h3 : 32 ≤ q.queue.length
      · simp [h1, h2, h3]
      · simp [h1, h2, h3]; omega

@[simp] theorem EventQueue.offer_mask (q : EventQueue) (e : EventEntry) : (q.offer e).mask = q.mask := by
  rcases q.offer_cases e with ⟨h, -⟩ | ⟨h, -⟩ | ⟨h, -⟩ <;> rw [h]

@[simp] theorem EventQueue.offer_enable (q : EventQueue) (e : EventEntry) : (q.offer e).enable = q.enable := by
  rcases q.offer_cases e with ⟨h, -⟩ | ⟨h, -⟩ | ⟨h, -⟩ <;> rw [h]

/-- An offer keeps what the manual states of the queue. -/
theorem State.eventInv_raise {s : State} (h : EventInv s) (e : EventEntry) : EventInv (s.raise e) := by
  obtain ⟨h1, h2, h3⟩ := h
  rcases s.events.offer_cases e with ⟨h, -⟩ | ⟨h, hl⟩ | ⟨h, -, -, hl⟩
  · exact ⟨by simpa [h] using h1, by simpa [h] using h2, by simpa [h] using h3⟩
  · refine ⟨by simpa [h] using h1, fun _ => ?_, by simpa [h] using h3⟩
    simp only [State.raise_events, h]
    intro h0; simp [h0] at hl
  · refine ⟨?_, fun _ => ?_, by simpa [h] using h3⟩
    · simp only [State.raise_events, h, List.length_append, List.length_singleton]; omega
    · simp [State.raise_events, h]

/-- What is said of the queue depends on the queue alone. -/
theorem EventInv.of_events {s t : State} (h : EventInv s) (e : t.events = s.events) : EventInv t := by
  constructor <;> rw [e]
  exacts [h.1, h.2, h.3]

end Sys2Proof.Machine
end

