-- ==== Sys2Proof/Laws/Memory.lean ====
section
/-! SUPPORT. Table memory: what a read gives after a write, and that every operation keeps the canonical form. -/

namespace Sys2Proof.Machine

/-! ### Reads after writes -/

/-- A word below every listed one is not listed. -/
theorem Memory.read_of_lt {m : Memory} {k : Nat} (h : ∀ x ∈ m, k < x.1) : Memory.read m k = blankWord := by
  induction m with
  | nil => rfl
  | cons x m ih =>
    obtain ⟨k', w⟩ := x
    have hk : k < k' := h (k', w) (by simp)
    simp only [Memory.read, if_neg (Nat.ne_of_lt hk)]
    exact ih fun y hy => h y (List.mem_cons_of_mem _ hy)

/-- A read after a write, on a memory with rising word numbers: the word written at its number, the old word elsewhere. -/
theorem Memory.read_write {m : Memory} (hm : m.Pairwise (fun a b => a.1 < b.1)) (k j : Nat) (w : TableWord) :
    (Memory.write m k w).read j = if j = k then w else m.read j := by
  induction m with
  | nil =>
    simp only [Memory.write]
    split_ifs with h1 h2 h2 <;> simp [Memory.read, h1, h2]
  | cons x m ih =>
    obtain ⟨k', w'⟩ := x
    rw [List.pairwise_cons] at hm
    obtain ⟨hlt, hm⟩ := hm
    by_cases h1 : k = k'
    · subst h1
      by_cases hw : w = blankWord
      · by_cases hj : j = k
        · subst hj
          simp [Memory.write, hw, Memory.read_of_lt (m := m) (k := j) (fun x hx => hlt x hx)]
        · simp [Memory.write, Memory.read, hw, hj]
      · by_cases hj : j = k <;> simp [Memory.write, Memory.read, hw, hj]
    · by_cases h2 : k < k'
      · have hk : ∀ x ∈ m, k < x.1 := fun x hx => lt_trans h2 (hlt x hx)
        by_cases hw : w = blankWord
        · by_cases hj : j = k
          · subst hj
            simp [Memory.write, Memory.read, h1, h2, hw, Memory.read_of_lt hk]
          · simp [Memory.write, h1, h2, hw, hj]
        · by_cases hj : j = k <;> simp [Memory.write, Memory.read, h1, h2, hw, hj]
      · by_cases hj : j = k'
        · subst hj
          have : ¬ j = k := fun h => h1 h.symm
          simp [Memory.write, Memory.read, h1, h2, this]
        · simp [Memory.write, Memory.read, h1, h2, hj, ih hm]

/-! ### The canonical form -/

/-- Where the words of a memory after a write come from. -/
theorem Memory.mem_write {m : Memory} {k : Nat} {w : TableWord} {x : Nat × TableWord} (h : x ∈ Memory.write m k w) :
    x ∈ m ∨ (x = (k, w) ∧ w ≠ blankWord) := by
  induction m with
  | nil =>
    simp only [Memory.write] at h
    split_ifs at h with hw
    · simp at h
    · exact .inr ⟨by simpa using h, hw⟩
  | cons y m ih =>
    obtain ⟨k', w'⟩ := y
    simp only [Memory.write] at h
    split_ifs at h with h1 h2 h3 h4
    · exact .inl (List.mem_cons_of_mem _ h)
    · rcases List.mem_cons.1 h with h | h
      · exact .inr ⟨h, h2⟩
      · exact .inl (List.mem_cons_of_mem _ h)
    · exact .inl h
    · rcases List.mem_cons.1 h with h | h
      · exact .inr ⟨h, h4⟩
      · exact .inl h
    · rcases List.mem_cons.1 h with h | h
      · exact .inl (by simp [h])
      · exact (ih h).imp_left (List.mem_cons_of_mem _)

/-- A write keeps the word numbers rising. -/
theorem Memory.pairwise_write {m : Memory} (hm : m.Pairwise (fun a b => a.1 < b.1)) (k : Nat) (w : TableWord) :
    (Memory.write m k w).Pairwise (fun a b => a.1 < b.1) := by
  induction m with
  | nil => simp only [Memory.write]; split_ifs <;> simp
  | cons y m ih =>
    obtain ⟨k', w'⟩ := y
    have hm' := hm
    rw [List.pairwise_cons] at hm
    obtain ⟨hlt, hm⟩ := hm
    simp only [Memory.write]
    split_ifs with h1 h2 h3 h4
    · exact hm
    · subst h1; exact List.pairwise_cons.2 ⟨fun x hx => hlt x hx, hm⟩
    · exact hm'
    · refine List.pairwise_cons.2 ⟨fun x hx => ?_, hm'⟩
      rcases List.mem_cons.1 hx with rfl | hx
      · exact h3
      · exact lt_trans h3 (hlt x hx)
    · refine List.pairwise_cons.2 ⟨fun x hx => ?_, ih hm⟩
      rcases Memory.mem_write hx with hx | ⟨rfl, -⟩
      · exact hlt x hx
      · show k' < k; omega

/-- A write of a word of the memory keeps the canonical form. -/
theorem Memory.wf_write {m : Memory} (hm : m.wf) {k : Nat} (hk : k < 1024) (w : TableWord) : (Memory.write m k w).wf := by
  refine ⟨Memory.pairwise_write hm.1 k w, fun x hx => ?_⟩
  rcases Memory.mem_write hx with hx | ⟨rfl, hw⟩
  · exact hm.2 x hx
  · exact ⟨hw, hk⟩

/-- The initialisation pass keeps the canonical form. -/
theorem Memory.wf_clear {m : Memory} (hm : m.wf) (a b : Nat) : (Memory.clear m a b).wf :=
  ⟨hm.1.sublist List.filter_sublist, fun x hx => hm.2 x (List.mem_of_mem_filter hx)⟩

/-- The empty memory is in canonical form. -/
theorem Memory.wf_nil : Memory.wf ([] : Memory) := ⟨List.Pairwise.nil, fun _ h => by simp at h⟩

/-- What the initialisation pass leaves of a word. -/
theorem Memory.read_clear {m : Memory} (a b j : Nat) :
    (Memory.clear m a b).read j = if a ≤ j ∧ j < b then blankWord else m.read j := by
  induction m with
  | nil => simp [Memory.clear, Memory.read]
  | cons x m ih =>
    obtain ⟨k, w⟩ := x
    have hc : Memory.clear ((k, w) :: m) a b
        = if a ≤ k ∧ k < b then Memory.clear m a b else (k, w) :: Memory.clear m a b := by
      by_cases h : a ≤ k ∧ k < b
      · simp [Memory.clear, h]
      · have h' : (!(decide (a ≤ k) && decide (k < b))) = true := by simp; omega
        simp only [Memory.clear, List.filter_cons, h', if_neg h, if_true]
    rw [hc]
    by_cases hk : a ≤ k ∧ k < b
    · rw [if_pos hk, ih]
      by_cases hj : a ≤ j ∧ j < b
      · simp [hj]
      · have : j ≠ k := fun h => hj (h ▸ hk)
        simp [hj, Memory.read, this]
    · rw [if_neg hk]
      by_cases hj : j = k
      · subst hj; simp [Memory.read, hk]
      · simp [Memory.read, hj, ih]

/-! ### The words of the occupants lie in the memory -/

theorem entryWord_lt (i : EntryIndex) {j : Nat} (hj : j < 4) : entryWord i j < 1024 := by
  have := i.isLt; simp only [entryWord]; omega

theorem activeWord_lt (p : PortIndex) {j : Nat} (hj : j < 3) : activeWord p j < 1024 := by
  have := p.isLt; simp only [activeWord]; omega

theorem pendingWord_lt (p : PortIndex) {j : Nat} (hj : j < 3) : pendingWord p j < 1024 := by
  have := p.isLt; simp only [pendingWord]; omega

theorem ringWord_lt (e : RingIndex) {j : Nat} (hj : j < 2) : ringWord e j < 1024 := by
  have := e.isLt; simp only [ringWord]; omega

/-! ### The updates of State that write words -/

theorem State.wf_putWord {s : State} (h : s.prot.memory.wf) {k : Nat} (hk : k < 1024) (d : Word) :
    (s.putWord k d).prot.memory.wf := Memory.wf_write h hk _

theorem State.wf_putWords {l : List (Nat × Word)} (hl : ∀ x ∈ l, x.1 < 1024) {s : State} (h : s.prot.memory.wf) :
    (s.putWords l).prot.memory.wf := by
  induction l generalizing s with
  | nil => exact h
  | cons x l ih =>
    obtain ⟨k, d⟩ := x
    exact ih (fun y hy => hl y (List.mem_cons_of_mem _ hy)) (State.wf_putWord h (hl (k, d) (by simp)) d)

theorem State.wf_putReservation {s : State} (h : s.prot.memory.wf) (i : EntryIndex) (r : Reservation) :
    (s.putReservation i r).prot.memory.wf := by
  refine State.wf_putWords (fun x hx => ?_) h
  simp only [List.mem_cons, List.not_mem_nil, or_false] at hx
  rcases hx with rfl | rfl | rfl | rfl <;> exact entryWord_lt i (by omega)

theorem State.wf_blankReservation {s : State} (h : s.prot.memory.wf) (i : EntryIndex) :
    (s.blankReservation i).prot.memory.wf := by
  refine State.wf_putWords (fun x hx => ?_) h
  simp only [List.mem_cons, List.not_mem_nil, or_false] at hx
  rcases hx with rfl | rfl | rfl | rfl <;> exact entryWord_lt i (by omega)

theorem State.wf_putUse {s : State} (h : s.prot.memory.wf) (i : EntryIndex) (f : Reservation → Reservation) :
    (s.putUse i f).prot.memory.wf := State.wf_putWord h (entryWord_lt i (by omega)) _

theorem State.wf_putCost {s : State} (h : s.prot.memory.wf) (i : EntryIndex) (cost : BitVec 23) :
    (s.putCost i cost).prot.memory.wf := State.wf_putWord h (entryWord_lt i (by omega)) _

theorem State.wf_putActive {s : State} (h : s.prot.memory.wf) (p : PortIndex) (kinds : List SlotKind) :
    (s.putActive p kinds).prot.memory.wf := by
  refine State.wf_putWords (fun x hx => ?_) h
  simp only [List.mem_cons, List.not_mem_nil, or_false] at hx
  rcases hx with rfl | rfl | rfl <;> exact activeWord_lt p (by omega)

theorem State.wf_putPending {s : State} (h : s.prot.memory.wf) (p : PortIndex) (kinds : List SlotKind) :
    (s.putPending p kinds).prot.memory.wf := by
  refine State.wf_putWords (fun x hx => ?_) h
  simp only [List.mem_cons, List.not_mem_nil, or_false] at hx
  rcases hx with rfl | rfl | rfl <;> exact pendingWord_lt p (by omega)

theorem State.wf_putRing {s : State} (h : s.prot.memory.wf) (e : RingIndex) (r : Ring) :
    (s.putRing e r).prot.memory.wf := by
  refine State.wf_putWords (fun x hx => ?_) h
  simp only [List.mem_cons, List.not_mem_nil, or_false] at hx
  rcases hx with rfl | rfl <;> exact ringWord_lt e (by omega)

theorem State.wf_tickBy {s : State} (h : s.prot.memory.wf) (n : Nat) : (s.tickBy n).prot.memory.wf := by
  simp only [State.tickBy]
  split_ifs
  · exact Memory.wf_clear h _ _
  · exact h

/-! ### Words with no wrong bit -/

theorem wrongBits_zero : wrongBits 0#39 = 0 := by decide

/-- A word just written is clean. -/
theorem verdict_cleanWord (d : Word) : (cleanWord d).verdict = .clean := by
  simp [TableWord.verdict, cleanWord, wrongBits_zero]

/-- A word with no wrong bit is clean, and its stored data is the data last written. -/
theorem verdict_of_flips {w : TableWord} (h : w.flips = 0) : w.verdict = .clean := by
  obtain ⟨d, f⟩ := w
  subst h
  exact verdict_cleanWord d

theorem stored_of_flips {w : TableWord} (h : w.flips = 0) : w.stored = w.data := by
  obtain ⟨d, f⟩ := w
  subst h
  simp [TableWord.stored]

/-- The data of a word that has just been written. -/
theorem State.data_putWord {s : State} (h : s.prot.memory.wf) (k j : Nat) (d : Word) :
    (s.putWord k d).data j = if j = k then d else s.data j := by
  simp only [State.data, State.word, State.putWord_memory, Memory.read_write h.1]
  split_ifs
  · exact stored_of_flips rfl
  · rfl

end Sys2Proof.Machine
end

