-- ==== Sys2Proof/Laws/Protection.lean ====
section
/-! SUPPORT. Everything the checker, the owners and the walks can do to the state (`Kept`), and that they keep what the
manual states of the table memory, the events, the gates, the hold list and the admission order (`Sound`). -/

namespace Sys2Proof.Machine

/-- What the work on table memory leaves as it was, and the few ways in which it changes the rest: gates fail over, entries
in use fault, ring map entries become invalid, hold records go. -/
structure Kept (s t : State) : Prop where
  pending : t.pending = s.pending
  choices : t.choices = s.choices
  resetAsserted : t.resetAsserted = s.resetAsserted
  time : t.time = s.time
  timer : t.timer = s.timer
  lock : t.lock = s.lock
  order : t.order = s.order
  link : t.link = s.link
  scrub : t.prot.scrub = s.prot.scrub
  busy : t.prot.busy = s.prot.busy
  path : t.path = { s.path with ringValid := t.path.ringValid }
  ringValid : ∀ e, t.ringValid e = true → s.ringValid e = true
  port : ∀ p, t.port p = s.port p ∨
    (((s.port p).gate = .enforcing ∨ (s.port p).gate = .failsafe) ∧
      ∃ busy, t.port p = { s.port p with gate := .failsafe, cause := .memoryError, busy })
  entry : ∀ i, t.entry i = s.entry i ∨ ((s.entry i).state.inUse = true ∧ t.entry i = { s.entry i with state := .faulted })
  records : t.holds.records.Sublist s.holds.records
  full : t.holds.full = s.holds.full
  expired : t.holds.expired = s.holds.expired
  mask : t.events.mask = s.events.mask
  enable : t.events.enable = s.events.enable

/-- What the manual states of the parts that work on table memory touches. -/
structure Sound (s : State) : Prop where
  memory : MemoryInv s
  events : EventInv s
  order : OrderInv s
  gates : GateInv s
  holds : HoldInv s

theorem Kept.refl (s : State) : Kept s s :=
  ⟨rfl, rfl, rfl, rfl, rfl, rfl, rfl, rfl, rfl, rfl, rfl, fun _ h => h, fun _ => .inl rfl, fun _ => .inl rfl,
    List.Sublist.refl _, rfl, rfl, rfl, rfl⟩

theorem Kept.trans {s t u : State} (h : Kept s t) (k : Kept t u) : Kept s u where
  pending := k.pending.trans h.pending
  choices := k.choices.trans h.choices
  resetAsserted := k.resetAsserted.trans h.resetAsserted
  time := k.time.trans h.time
  timer := k.timer.trans h.timer
  lock := k.lock.trans h.lock
  order := k.order.trans h.order
  link := k.link.trans h.link
  scrub := k.scrub.trans h.scrub
  busy := k.busy.trans h.busy
  path := by rw [k.path, h.path]
  ringValid := fun e he => h.ringValid e (k.ringValid e he)
  port := fun p => by
    rcases k.port p with e | ⟨hg, b, e⟩
    · rw [e]; exact h.port p
    · refine .inr ?_
      rcases h.port p with e' | ⟨hg', b', e'⟩
      · exact ⟨e' ▸ hg, b, by rw [e, e']⟩
      · exact ⟨hg', b, by rw [e, e']⟩
  entry := fun i => by
    rcases k.entry i with e | ⟨hu, e⟩
    · rw [e]; exact h.entry i
    · rcases h.entry i with e' | ⟨hu', e'⟩
      · exact .inr ⟨e' ▸ hu, by rw [e, e']⟩
      · rw [e'] at hu; simp [EntryState.inUse] at hu
  records := k.records.trans h.records
  full := k.full.trans h.full
  expired := k.expired.trans h.expired
  mask := k.mask.trans h.mask
  enable := k.enable.trans h.enable

/-- A change of table memory words alone. -/
theorem Kept.of_memory (s : State) (m : Memory) : Kept s (s.setMemory m) :=
  ⟨rfl, rfl, rfl, rfl, rfl, rfl, rfl, rfl, rfl, rfl, rfl, fun _ h => h, fun _ => .inl rfl, fun _ => .inl rfl,
    List.Sublist.refl _, rfl, rfl, rfl, rfl⟩

theorem kept_putWord (s : State) (k : Nat) (d : Word) : Kept s (s.putWord k d) := Kept.of_memory s _

theorem kept_putWords (l : List (Nat × Word)) (s : State) : Kept s (s.putWords l) := by
  induction l generalizing s with
  | nil => exact Kept.refl s
  | cons x l ih => exact (kept_putWord s x.1 x.2).trans (ih _)

theorem kept_raise (s : State) (e : EventEntry) : Kept s (s.raise e) :=
  ⟨rfl, rfl, rfl, rfl, rfl, rfl, rfl, rfl, rfl, rfl, rfl, fun _ h => h, fun _ => .inl rfl, fun _ => .inl rfl,
    List.Sublist.refl _, rfl, rfl, by simp, by simp⟩

theorem kept_keepHolds (s : State) (keep : HoldRecord → Bool) : Kept s (s.keepHolds keep) :=
  ⟨rfl, rfl, rfl, rfl, rfl, rfl, rfl, rfl, rfl, rfl, rfl, fun _ h => h, fun _ => .inl rfl, fun _ => .inl rfl,
    List.filter_sublist, rfl, rfl, rfl, rfl⟩

theorem kept_setMaps (s : State) (p : PortIndex) (m : PortMaps) : Kept s (s.setMaps p m) :=
  ⟨rfl, rfl, rfl, rfl, rfl, rfl, rfl, rfl, rfl, rfl, rfl, fun _ h => h, fun _ => .inl rfl, fun _ => .inl rfl,
    List.Sublist.refl _, rfl, rfl, rfl, rfl⟩

/-- An entry in use faults. -/
theorem kept_fault (s : State) (i : EntryIndex) (h : s.inUse i = true) : Kept s (s.setEntryState i .faulted) :=
  ⟨rfl, rfl, rfl, rfl, rfl, rfl, rfl, rfl, rfl, rfl, rfl, fun _ h => h, fun _ => .inl rfl,
    fun j => by
      simp only [State.setEntryState, State.entry_updEntry]
      by_cases hj : j = i
      · subst hj; rw [if_pos rfl]; exact .inr ⟨h, rfl⟩
      · simp [hj],
    List.Sublist.refl _, rfl, rfl, rfl, rfl⟩

/-- A ring map entry becomes invalid. -/
theorem kept_invalidate (s : State) (e : RingIndex) : Kept s (s.setRingValid e false) :=
  ⟨rfl, rfl, rfl, rfl, rfl, rfl, rfl, rfl, rfl, rfl, rfl,
    fun o h => by
      rw [State.ringValid_setRingValid] at h
      by_cases ho : o = e
      · simp [ho] at h
      · simpa [ho] using h,
    fun _ => .inl rfl, fun _ => .inl rfl, List.Sublist.refl _, rfl, rfl, rfl, rfl⟩

/-- The state of a gate that an uncorrectable error takes to FAILSAFE, in one piece. -/
theorem port_toFailsafe (s : State) (p q : PortIndex) (c : FailsafeCause) :
    (s.toFailsafe p c).port q =
      if q = p then { s.port p with gate := .failsafe, cause := c,
                                    busy := if (s.port p).gate = .enforcing then none else (s.port p).busy }
      else s.port q := by
  simp only [State.toFailsafe]
  by_cases h : (s.port p).gate = .enforcing
  · simp only [h, if_true]
    rw [State.port_of_ports (State.raise_ports _ _), State.port_updPort]
    by_cases hq : q = p
    · subst hq
      simp only [if_true, State.leaveEnforcing, State.port_updPort_self]
      rfl
    · simp only [hq, if_false, State.leaveEnforcing, State.port_updPort]
      rfl
  · simp only [h, if_false]
    rw [State.port_of_ports (State.raise_ports _ _), State.port_updPort]

/-- Entry into FAILSAFE with cause MEMORY_ERROR. -/
theorem kept_toFailsafe (s : State) (p : PortIndex) (h : (s.port p).gate = .enforcing ∨ (s.port p).gate = .failsafe) :
    Kept s (s.toFailsafe p .memoryError) := by
  have hp := port_toFailsafe s p
  constructor
  case port =>
    intro q
    rw [hp]
    by_cases hq : q = p
    · subst hq; simp only [if_true]; exact .inr ⟨h, _, rfl⟩
    · simp [hq]
  all_goals
    simp only [State.toFailsafe]
    by_cases hg : (s.port p).gate = .enforcing <;> simp [hg, State.leaveEnforcing, State.removePortHolds]
  all_goals try exact fun _ h => h
  all_goals try exact fun _ => .inl rfl

theorem kept_memoryError (s : State) (p : PortIndex) : Kept s (s.memoryError p) := by
  unfold State.memoryError
  split
  · exact kept_toFailsafe s p (.inl (by assumption))
  · exact Kept.refl s
  · exact kept_toFailsafe s p (.inr (by assumption))
  · exact Kept.refl s
  · exact Kept.refl s

/-- A fold of steps each of which keeps. -/
theorem kept_foldl {α : Type} (f : State → α → State) (hf : ∀ s a, Kept s (f s a)) (l : List α) (s : State) :
    Kept s (l.foldl f s) := by
  induction l generalizing s with
  | nil => exact Kept.refl s
  | cons a l ih => exact (hf s a).trans (ih _)

theorem kept_faultEntry (s : State) (i : EntryIndex) (h : s.inUse i = true) : Kept s (s.faultEntry i) := by
  unfold State.faultEntry
  exact (((kept_fault s i h).trans (kept_putWords _ _)).trans (kept_keepHolds _ _)).trans (kept_raise _ _)

/-- Everything an owner can do about an uncorrectable word. -/
theorem kept_ownerAction (s : State) (k : Nat) : Kept s (s.ownerAction k) := by
  unfold State.ownerAction
  split
  · split_ifs with h
    · exact (kept_faultEntry s _ h).trans (kept_foldl _ kept_memoryError _ _)
    · exact kept_putWords _ _
  · split_ifs
    · exact ((kept_setMaps s _ _).trans (kept_putWords _ _)).trans (kept_memoryError _ _)
    · exact kept_putWord _ _ _
  · split
    · split_ifs
      · exact ((kept_setMaps s _ _).trans (kept_putWords _ _)).trans (kept_raise _ _)
      · exact kept_putWord _ _ _
    · exact kept_putWord _ _ _
  · split_ifs
    · exact (kept_invalidate s _).trans (kept_putWords _ _)
    · exact ((kept_invalidate s _).trans (kept_putWords _ _)).trans (kept_memoryError _ _)
    · exact kept_putWord _ _ _
  · exact kept_putWord _ _ _

/-- The corrected-error count grows. -/
theorem kept_corrected (s : State) (c : Counter) : Kept s { s with prot := { s.prot with corrected := c } } :=
  ⟨rfl, rfl, rfl, rfl, rfl, rfl, rfl, rfl, rfl, rfl, rfl, fun _ h => h, fun _ => .inl rfl, fun _ => .inl rfl,
    List.Sublist.refl _, rfl, rfl, rfl, rfl⟩

/-- Everything a read can do. -/
theorem kept_checkWord (b : Bool) (s : State) (k : Nat) : Kept s (s.checkWord b k) := by
  unfold State.checkWord
  split
  · exact Kept.refl s
  · exact ((kept_putWord s _ _).trans (kept_corrected _ _)).trans (kept_raise _ _)
  · exact (kept_raise s _).trans (kept_ownerAction _ _)

theorem kept_checkWords (s : State) (ks : List Nat) : Kept s (s.checkWords ks) :=
  kept_foldl _ (kept_checkWord false) ks s

theorem kept_checkEntries (s : State) (which : EntryState → Bool) : Kept s (s.checkEntries which) := kept_checkWords s _

theorem kept_checkActive (s : State) (p : PortIndex) : Kept s (s.checkActive p) := kept_checkWords s _

theorem kept_checkPending (s : State) (p : PortIndex) : Kept s (s.checkPending p) := by
  unfold State.checkPending
  split
  · exact kept_checkWords s _
  · exact Kept.refl s

theorem kept_checkRing (s : State) (e : RingIndex) : Kept s (s.checkRing e) := by
  unfold State.checkRing
  split_ifs
  · exact kept_checkWords s _
  · exact Kept.refl s

/-! ### Walks -/

theorem kept_putUse (s : State) (i : EntryIndex) (f : Reservation → Reservation) : Kept s (s.putUse i f) := kept_putWord s _ _

theorem kept_fitEntry (s : State) (i : EntryIndex) (cost : Nat) : Kept s (s.fitEntry i cost) := by
  simp only [State.fitEntry]
  split_ifs
  · exact (kept_putUse s i _).trans (kept_raise _ _)
  · exact kept_putUse s i _

theorem kept_overbookEntry (s : State) (i : EntryIndex) (cost : Nat) : Kept s (s.overbookEntry i cost) := by
  simp only [State.overbookEntry]
  split_ifs
  · exact kept_putUse s i _
  · exact ((kept_putUse s i _).trans (kept_raise _ _)).trans (kept_keepHolds _ _)

theorem kept_walkStep (p : PortIndex) (slot : Nat) (budget : Int) (acc : Int × State) (i : EntryIndex) :
    Kept acc.2 (walkStep p slot budget acc i).2 := by
  simp only [walkStep]
  split_ifs
  · exact (kept_putWord acc.2 _ _).trans (kept_fitEntry _ _ _)
  · exact (kept_putWord acc.2 _ _).trans (kept_overbookEntry _ _ _)
  · exact Kept.refl _

/-- Everything a walk can do. -/
theorem kept_walk (s : State) (p : PortIndex) (slot : Nat) : Kept s (s.walk p slot) := by
  simp only [State.walk]
  split
  · exact Kept.refl s
  · rename_i c _
    refine (kept_checkEntries s EntryState.inUse).trans ?_
    have : ∀ (l : List EntryIndex) (b : Int) (acc : Int × State),
        Kept acc.2 (l.foldl (walkStep p slot b) acc).2 := by
      intro l b
      induction l with
      | nil => exact fun acc => Kept.refl _
      | cons i l ih => exact fun acc => (kept_walkStep p slot b acc i).trans (ih _)
    exact this _ _ (0, s.checkEntries EntryState.inUse)

theorem kept_walkPort (s : State) (p : PortIndex) : Kept s (s.walkPort p) :=
  kept_foldl _ (fun s k => kept_walk s p k) _ s

theorem kept_walkLastSlots (s : State) : Kept s s.walkLastSlots :=
  kept_foldl _ (fun s p => kept_walk s p _) _ s

/-! ### They keep what the manual states -/

/-- What is said of the parts, from the parts' fields. -/
theorem OrderInv.of_fields {s t : State} (h : OrderInv s) (e1 : t.order = s.order) (e2 : ∀ i, (t.entry i).state = .free ↔
    (s.entry i).state = .free) : OrderInv t :=
  ⟨e1 ▸ h.once, fun i => by rw [e1, h.exact i]; exact (not_congr (e2 i)).symm⟩

theorem GateInv.of_ports {s t : State} (h : GateInv s) (e : t.ports = s.ports) : GateInv t :=
  ⟨fun p => by rw [State.port_of_ports e]; exact h.cause p, fun p => by rw [State.port_of_ports e]; exact h.busy p⟩

/-- Fewer records on the same gates and entries. -/
theorem HoldInv.of_sublist {s t : State} (h : HoldInv s) (e : t.holds.records.Sublist s.holds.records)
    (hp : ∀ r ∈ t.holds.records, (s.port r.port).gate = .enforcing → (t.port r.port).gate = .enforcing)
    (he : ∀ r ∈ t.holds.records, (s.entry r.entry).state.inForce = true → (t.entry r.entry).state.inForce = true) :
    HoldInv t :=
  ⟨e.length_le.trans h.room, h.once.sublist (e.map _), fun r hr => hp r hr (h.enforcing r (e.subset hr)),
    fun r hr => he r hr (h.inForce r (e.subset hr))⟩

/-- A change that leaves order, entries, gates and records as they were. -/
theorem Sound.of_same {s t : State} (h : Sound s) (hm : MemoryInv t) (he : EventInv t) (h1 : t.order = s.order)
    (h2 : t.table = s.table) (h3 : t.ports = s.ports) (h4 : t.holds.records.Sublist s.holds.records) : Sound t :=
  ⟨hm, he, h.order.of_fields h1 (fun i => by rw [State.entry_of_table h2]), h.gates.of_ports h3,
    h.holds.of_sublist h4 (fun r _ => by rw [State.port_of_ports h3]; exact id)
      (fun r _ => by rw [State.entry_of_table h2]; exact id)⟩

theorem sound_putWord {s : State} (h : Sound s) {k : Nat} (hk : k < 1024) (d : Word) : Sound (s.putWord k d) :=
  h.of_same (State.wf_putWord h.memory hk d) (h.events.of_events rfl) rfl rfl rfl (List.Sublist.refl _)

theorem putWords_frame (l : List (Nat × Word)) (s : State) :
    (s.putWords l).events = s.events ∧ (s.putWords l).order = s.order ∧ (s.putWords l).table = s.table ∧
      (s.putWords l).ports = s.ports ∧ (s.putWords l).holds = s.holds ∧ (s.putWords l).maps = s.maps := by
  induction l generalizing s with
  | nil => exact ⟨rfl, rfl, rfl, rfl, rfl, rfl⟩
  | cons x l ih => exact ih _

theorem sound_putWords {s : State} (h : Sound s) {l : List (Nat × Word)} (hl : ∀ x ∈ l, x.1 < 1024) :
    Sound (s.putWords l) := by
  obtain ⟨e1, e2, e3, e4, e5, -⟩ := putWords_frame l s
  exact h.of_same (State.wf_putWords hl h.memory) (h.events.of_events e1) e2 e3 e4 (by rw [e5])

theorem sound_blankReservation {s : State} (h : Sound s) (i : EntryIndex) : Sound (s.blankReservation i) :=
  h.of_same (State.wf_blankReservation h.memory i) (h.events.of_events rfl) rfl rfl rfl (List.Sublist.refl _)

theorem sound_raise {s : State} (h : Sound s) (e : EventEntry) : Sound (s.raise e) :=
  h.of_same h.memory (State.eventInv_raise h.events e) rfl rfl rfl (List.Sublist.refl _)

theorem sound_keepHolds {s : State} (h : Sound s) (keep : HoldRecord → Bool) : Sound (s.keepHolds keep) :=
  h.of_same h.memory (h.events.of_events rfl) rfl rfl rfl List.filter_sublist

theorem sound_setMaps {s : State} (h : Sound s) (p : PortIndex) (m : PortMaps) : Sound (s.setMaps p m) :=
  h.of_same h.memory (h.events.of_events rfl) rfl rfl rfl (List.Sublist.refl _)

theorem sound_setRingValid {s : State} (h : Sound s) (e : RingIndex) (v : Bool) : Sound (s.setRingValid e v) :=
  h.of_same h.memory (h.events.of_events rfl) rfl rfl rfl (List.Sublist.refl _)

/-- The records and gates after entry into FAILSAFE. -/
theorem records_toFailsafe (s : State) (p : PortIndex) (c : FailsafeCause) :
    (s.toFailsafe p c).holds.records =
      if (s.port p).gate = .enforcing then s.holds.records.filter (fun r => decide (r.port ≠ p)) else s.holds.records := by
  simp only [State.toFailsafe]
  by_cases h : (s.port p).gate = .enforcing <;> simp [h, State.leaveEnforcing, State.removePortHolds, State.keepHolds]

/-- Entry into FAILSAFE, with a cause, from ENFORCING or FAILSAFE or any state with no busy-until. -/
theorem sound_toFailsafe {s : State} (h : Sound s) (p : PortIndex) {c : FailsafeCause} (hc : c ≠ .none) :
    Sound (s.toFailsafe p c) := by
  have hp := port_toFailsafe s p
  have hr := records_toFailsafe s p c
  have frame : (s.toFailsafe p c).prot = s.prot ∧ (s.toFailsafe p c).order = s.order ∧
      (s.toFailsafe p c).table = s.table ∧ ∃ e, (s.toFailsafe p c).events = s.events.offer e := by
    simp only [State.toFailsafe]
    by_cases hg : (s.port p).gate = .enforcing <;> simp [hg, State.leaveEnforcing, State.removePortHolds]
  obtain ⟨f1, f2, f3, e, f4⟩ := frame
  refine ⟨?_, (State.eventInv_raise h.events e).of_events f4, h.order.of_fields f2 (fun i => by rw [State.entry_of_table f3]),
    ⟨fun q => ?_, fun q => ?_⟩, ?_⟩
  · show (s.toFailsafe p c).prot.memory.wf
    rw [f1]; exact h.memory
  · rw [hp]
    by_cases hq : q = p
    · simp [hq, hc]
    · simp only [hq, if_false]; exact h.gates.cause q
  · rw [hp]
    by_cases hq : q = p
    · subst hq
      simp only [if_true]
      by_cases hg : (s.port q).gate = .enforcing
      · simp [hg]
      · intro hb; simp only [hg, if_false] at hb
        exact absurd (h.gates.busy q hb) hg
    · simp only [hq, if_false]; exact h.gates.busy q
  · refine h.holds.of_sublist ?_ (fun r hrm hrg => ?_) (fun r _ => by rw [State.entry_of_table f3]; exact id)
    · rw [hr]; split_ifs
      · exact List.filter_sublist
      · exact List.Sublist.refl _
    · have : r.port ≠ p := by
        intro hrp
        rw [hr] at hrm
        rw [hrp] at hrg
        rw [if_pos hrg] at hrm
        simp [hrp] at hrm
      rw [hp, if_neg this]; exact hrg

theorem sound_memoryError {s : State} (h : Sound s) (p : PortIndex) : Sound (s.memoryError p) := by
  unfold State.memoryError
  split <;> first | exact h | exact sound_toFailsafe h p (by decide)

/-- A fold of steps each of which keeps soundness. -/
theorem sound_foldl {α : Type} (f : State → α → State) (hf : ∀ s a, Sound s → Sound (f s a)) (l : List α) {s : State}
    (h : Sound s) : Sound (l.foldl f s) := by
  induction l generalizing s with
  | nil => exact h
  | cons a l ih => exact ih (hf s a h)

theorem sound_faultEntry {s : State} (h : Sound s) (i : EntryIndex) (hu : s.inUse i = true) : Sound (s.faultEntry i) := by
  unfold State.faultEntry
  refine sound_raise ?_ _
  have hm := State.wf_blankReservation (s := s.setEntryState i .faulted) h.memory i
  have hs : ∀ j, (((s.setEntryState i .faulted).blankReservation i).removeEntryHolds i).entry j
      = if j = i then { s.entry i with state := .faulted } else s.entry j := fun j => by
    rw [← State.entry_updEntry s i j (fun e => { e with state := .faulted })]
    exact State.entry_of_table (by simp [State.setEntryState]) j
  obtain ⟨t, ht⟩ : ∃ t, t = ((s.setEntryState i .faulted).blankReservation i).removeEntryHolds i := ⟨_, rfl⟩
  have e1 : t.prot = ((s.setEntryState i .faulted).blankReservation i).prot := by simp [ht]
  have e2 : t.events = s.events := by simp [ht]
  have e3 : t.order = s.order := by simp [ht]
  have e4 : t.ports = s.ports := by simp [ht]
  have e5 : t.holds.records = s.holds.records.filter (fun r => decide (r.entry ≠ i)) := by
    simp [ht, State.removeEntryHolds]
  rw [← ht] at hs ⊢
  refine ⟨by rw [MemoryInv, e1]; exact hm, h.events.of_events e2, h.order.of_fields e3 (fun j => ?_), h.gates.of_ports e4,
    h.holds.of_sublist (by rw [e5]; exact List.filter_sublist) (fun r _ => by rw [State.port_of_ports e4]; exact id)
      (fun r hr => ?_)⟩
  · rw [hs]
    by_cases hj : j = i
    · subst hj
      have : (s.entry j).state ≠ .free := by
        intro hf; simp [State.inUse, hf, EntryState.inUse] at hu
      simp [this]
    · simp [hj]
  · have : r.entry ≠ i := by
      rw [e5] at hr
      simpa using (List.mem_filter.1 hr).2
    rw [hs, if_neg this]; exact id

theorem sound_putActive {s : State} (h : Sound s) (p : PortIndex) (ks : List SlotKind) : Sound (s.putActive p ks) :=
  h.of_same (State.wf_putActive h.memory p ks) (h.events.of_events rfl) rfl rfl rfl (List.Sublist.refl _)

theorem sound_putPending {s : State} (h : Sound s) (p : PortIndex) (ks : List SlotKind) : Sound (s.putPending p ks) :=
  h.of_same (State.wf_putPending h.memory p ks) (h.events.of_events rfl) rfl rfl rfl (List.Sublist.refl _)

theorem sound_loseRing {s : State} (h : Sound s) (e : RingIndex) : Sound (s.loseRing e) := by
  refine sound_putWords (sound_setRingValid h e false) (fun x hx => ?_)
  simp only [List.mem_cons, List.not_mem_nil, or_false] at hx
  rcases hx with rfl | rfl <;> exact ringWord_lt e (by omega)

/-- What an owner does about an uncorrectable word of the memory. -/
theorem sound_ownerAction {s : State} (h : Sound s) {k : Nat} (hk : k < 1024) : Sound (s.ownerAction k) := by
  unfold State.ownerAction
  split
  · split_ifs with hu
    · exact sound_foldl _ (fun s p h => sound_memoryError h p) _ (sound_faultEntry h _ hu)
    · exact sound_blankReservation h _
  · split_ifs
    · exact sound_memoryError (sound_putActive (sound_setMaps h _ _) _ _) _
    · exact sound_putWord h hk _
  · split
    · split_ifs
      · exact sound_raise (sound_putPending (sound_setMaps h _ _) _ _) _
      · exact sound_putWord h hk _
    · exact sound_putWord h hk _
  · split_ifs
    · exact sound_loseRing h _
    · exact sound_memoryError (sound_loseRing h _) _
    · exact sound_putWord h hk _
  · exact sound_putWord h hk _

/-- A read of a word of the memory. -/
theorem sound_checkWord (b : Bool) {s : State} (h : Sound s) {k : Nat} (hk : k < 1024) : Sound (s.checkWord b k) := by
  unfold State.checkWord
  split
  · exact h
  · refine sound_raise ?_ _
    have := sound_putWord h hk (by assumption)
    exact this.of_same this.memory (this.events.of_events rfl) rfl rfl rfl (List.Sublist.refl _)
  · exact sound_ownerAction (sound_raise h _) hk

theorem sound_checkWords {s : State} (h : Sound s) {ks : List Nat} (hk : ∀ k ∈ ks, k < 1024) : Sound (s.checkWords ks) := by
  induction ks generalizing s with
  | nil => exact h
  | cons k ks ih =>
    exact ih (sound_checkWord false h (hk k (by simp))) fun j hj => hk j (List.mem_cons_of_mem _ hj)

theorem entryWords_lt (i : EntryIndex) : ∀ k ∈ entryWords i, k < 1024 := by
  intro k hk
  simp only [entryWords, List.mem_cons, List.not_mem_nil, or_false] at hk
  rcases hk with rfl | rfl | rfl | rfl <;> exact entryWord_lt i (by omega)

theorem sound_checkEntries {s : State} (h : Sound s) (which : EntryState → Bool) : Sound (s.checkEntries which) := by
  refine sound_checkWords h fun k hk => ?_
  obtain ⟨i, -, hi⟩ := List.mem_flatMap.1 hk
  exact entryWords_lt i k hi

theorem usedParts_lt {n j : Nat} (h : j ∈ usedParts n) : j < 3 := List.mem_range.1 (List.mem_filter.1 h).1

theorem sound_checkActive {s : State} (h : Sound s) (p : PortIndex) : Sound (s.checkActive p) := by
  refine sound_checkWords h fun k hk => ?_
  obtain ⟨j, hj, rfl⟩ := List.mem_map.1 hk
  exact activeWord_lt p (usedParts_lt hj)

theorem sound_checkPending {s : State} (h : Sound s) (p : PortIndex) : Sound (s.checkPending p) := by
  unfold State.checkPending
  split
  · refine sound_checkWords h fun k hk => ?_
    obtain ⟨j, hj, rfl⟩ := List.mem_map.1 hk
    exact pendingWord_lt p (usedParts_lt hj)
  · exact h

theorem sound_checkRing {s : State} (h : Sound s) (e : RingIndex) : Sound (s.checkRing e) := by
  unfold State.checkRing
  split_ifs
  · refine sound_checkWords h fun k hk => ?_
    simp only [List.mem_cons, List.not_mem_nil, or_false] at hk
    rcases hk with rfl | rfl <;> exact ringWord_lt e (by omega)
  · exact h

theorem sound_scrubWord {s : State} (h : Sound s) {k : Nat} (hk : k < 1024) : Sound (s.scrubWord k) := by
  have := sound_checkWord true h hk
  exact this.of_same this.memory (this.events.of_events rfl) rfl rfl rfl (List.Sublist.refl _)

theorem sound_putUse {s : State} (h : Sound s) (i : EntryIndex) (f : Reservation → Reservation) : Sound (s.putUse i f) :=
  sound_putWord h (entryWord_lt i (by omega)) _

theorem sound_fitEntry {s : State} (h : Sound s) (i : EntryIndex) (cost : Nat) : Sound (s.fitEntry i cost) := by
  simp only [State.fitEntry]
  split_ifs
  · exact sound_raise (sound_putUse h i _) _
  · exact sound_putUse h i _

theorem sound_overbookEntry {s : State} (h : Sound s) (i : EntryIndex) (cost : Nat) : Sound (s.overbookEntry i cost) := by
  simp only [State.overbookEntry]
  split_ifs
  · exact sound_putUse h i _
  · exact sound_keepHolds (sound_raise (sound_putUse h i _) _) _

theorem sound_walkStep (p : PortIndex) (slot : Nat) (budget : Int) {acc : Int × State} (h : Sound acc.2) (i : EntryIndex) :
    Sound (walkStep p slot budget acc i).2 := by
  simp only [walkStep]
  split_ifs
  · exact sound_fitEntry (sound_putWord h (entryWord_lt i (by omega)) _) _ _
  · exact sound_overbookEntry (sound_putWord h (entryWord_lt i (by omega)) _) _ _
  · exact h

/-- A walk keeps what the manual states. -/
theorem sound_walk {s : State} (h : Sound s) (p : PortIndex) (slot : Nat) : Sound (s.walk p slot) := by
  simp only [State.walk]
  split
  · exact h
  · have : ∀ (l : List EntryIndex) (b : Int) (acc : Int × State), Sound acc.2 →
        Sound (l.foldl (walkStep p slot b) acc).2 := by
      intro l b
      induction l with
      | nil => exact fun acc h => h
      | cons i l ih => exact fun acc h => ih _ (sound_walkStep p slot b h i)
    exact this _ _ _ (sound_checkEntries h _)

end Sys2Proof.Machine
end

