-- ==== Sys2Proof/Laws/Clean.lean ====
section
/-! SUPPORT. Where no bit of table memory is wrong the checker changes nothing, and what is written stays clean. -/

namespace Sys2Proof.Machine

/-- No listed word has a wrong bit, and so no word has. -/
theorem State.cleanTable_of_all {s : State} (h : s.prot.memory.all (fun x => decide (x.2.flips = 0)) = true) :
    s.cleanTable := by
  intro k
  unfold State.word
  generalize s.prot.memory = m at h
  induction m with
  | nil => rfl
  | cons x m ih =>
    obtain ⟨j, w⟩ := x
    simp only [List.all_cons, Bool.and_eq_true, decide_eq_true_eq] at h
    unfold Memory.read
    split
    · exact h.1
    · exact ih h.2

/-- A clean table depends on table memory alone. -/
theorem State.cleanTable.of_memory {s t : State} (h : s.cleanTable) (e : t.prot.memory = s.prot.memory) : t.cleanTable := by
  intro k
  have := h k
  unfold State.word at this ⊢
  rwa [e]

theorem State.checkWord_of_clean {s : State} (h : s.cleanTable) (b : Bool) (k : Nat) : s.checkWord b k = s := by
  unfold State.checkWord
  rw [verdict_of_flips (h k)]

theorem State.checkWords_of_clean {s : State} (h : s.cleanTable) (ks : List Nat) : s.checkWords ks = s := by
  unfold State.checkWords
  induction ks with
  | nil => rfl
  | cons k ks ih => rw [List.foldl_cons, State.checkWord_of_clean h, ih]

theorem State.checkEntries_of_clean {s : State} (h : s.cleanTable) (which : EntryState → Bool) :
    s.checkEntries which = s := State.checkWords_of_clean h _

theorem State.checkActive_of_clean {s : State} (h : s.cleanTable) (p : PortIndex) : s.checkActive p = s :=
  State.checkWords_of_clean h _

theorem State.checkPending_of_clean {s : State} (h : s.cleanTable) (p : PortIndex) : s.checkPending p = s := by
  unfold State.checkPending
  split
  · exact State.checkWords_of_clean h _
  · rfl

theorem State.checkRing_of_clean {s : State} (h : s.cleanTable) (e : RingIndex) : s.checkRing e = s := by
  unfold State.checkRing
  split
  · exact State.checkWords_of_clean h _
  · rfl

/-- The scrub of a clean table moves the pointer and nothing else. -/
theorem State.scrubOne_of_clean {s : State} (h : s.cleanTable) :
    s.scrubOne = { s with prot := { s.prot with scrub := s.prot.scrub + 1 } } := by
  unfold State.scrubOne State.scrubWord
  simp only [State.checkWord_of_clean h]

/-- With no bit wrong there is nothing to leave to the scrub. -/
theorem State.beforeScrub_of_clean {s : State} (h : s.cleanTable) (asStood bitsReturn : Bool) (f : State → State) :
    s.beforeScrub asStood bitsReturn f = f s := by
  unfold State.beforeScrub State.struckEntry
  rw [verdict_of_flips (h _)]

theorem State.scrubIf_of_clean {s : State} (h : s.cleanTable) (here : Bool) :
    s.scrubIf here = { s with prot := { s.prot with scrub := s.prot.scrub + (if here then 1 else 0) } } := by
  unfold State.scrubIf
  cases here
  · simp
  · simp [State.scrubOne_of_clean h]

theorem State.struckMap_of_clean {s : State} (h : s.cleanTable) (applied : Option Geometry) : s.struckMap applied = none := by
  unfold State.struckMap
  rw [verdict_of_flips (h _)]
  cases applied <;> rfl

/-- A word written with valid check bits leaves a clean table clean. -/
theorem State.cleanTable_putWord {s : State} (h : s.cleanTable) (hm : s.prot.memory.wf) (k : Nat) (d : Word) :
    (s.putWord k d).cleanTable := by
  intro j
  have := h j
  unfold State.word at this ⊢
  rw [State.putWord_memory, Memory.read_write hm.1]
  split
  · rfl
  · exact this

/-- The data of a clean word is what was last written. -/
theorem State.data_of_clean {s : State} (h : s.cleanTable) (k : Nat) : s.data k = (s.word k).data := stored_of_flips (h k)

end Sys2Proof.Machine
end

