-- ==== Sys2Proof/Laws/Steady.lean ====
section
/-! SUPPORT. What a gate decision and the blocks' work at a boundary leave as it was (`Steady`), and that they keep what
the manual states (`Sound`). `Good s t` says both of a change from s to t. -/

namespace Sys2Proof.Machine

/-- What decisions and boundary work leave as it was: the clock, the lock, the link, the path but for the ring map's valid
flags, the event mask. -/
structure Steady (s t : State) : Prop where
  pending : t.pending = s.pending
  resetAsserted : t.resetAsserted = s.resetAsserted
  time : t.time = s.time
  timer : t.timer = s.timer
  lock : t.lock = s.lock
  link : t.link = s.link
  busy : t.prot.busy = s.prot.busy
  path : t.path = { s.path with ringValid := t.path.ringValid }
  mask : t.events.mask = s.events.mask
  enable : t.events.enable = s.events.enable

/-- A change that leaves the steady parts and keeps what the manual states. -/
structure Good (s t : State) : Prop where
  steady : Steady s t
  sound : Sound s → Sound t

theorem Steady.refl (s : State) : Steady s s := ⟨rfl, rfl, rfl, rfl, rfl, rfl, rfl, rfl, rfl, rfl⟩

theorem Steady.trans {s t u : State} (h : Steady s t) (k : Steady t u) : Steady s u :=
  ⟨k.pending.trans h.pending, k.resetAsserted.trans h.resetAsserted, k.time.trans h.time, k.timer.trans h.timer,
    k.lock.trans h.lock, k.link.trans h.link, k.busy.trans h.busy, by rw [k.path, h.path], k.mask.trans h.mask,
    k.enable.trans h.enable⟩

theorem Good.refl (s : State) : Good s s := ⟨Steady.refl s, id⟩

theorem Good.trans {s t u : State} (h : Good s t) (k : Good t u) : Good s u :=
  ⟨h.steady.trans k.steady, fun x => k.sound (h.sound x)⟩

theorem Kept.steady {s t : State} (h : Kept s t) : Steady s t :=
  ⟨h.pending, h.resetAsserted, h.time, h.timer, h.lock, h.link, h.busy, h.path, h.mask, h.enable⟩

theorem good_foldl {α : Type} (f : State → α → State) (hf : ∀ s a, Good s (f s a)) (l : List α) (s : State) :
    Good s (l.foldl f s) := by
  induction l generalizing s with
  | nil => exact Good.refl s
  | cons a l ih => exact (hf s a).trans (ih _)

/-! ### Shared operations -/

theorem good_raise (s : State) (e : EventEntry) : Good s (s.raise e) :=
  ⟨(kept_raise s e).steady, fun h => sound_raise h e⟩

theorem good_keepHolds (s : State) (keep : HoldRecord → Bool) : Good s (s.keepHolds keep) :=
  ⟨(kept_keepHolds s keep).steady, fun h => sound_keepHolds h keep⟩

theorem good_putUse (s : State) (i : EntryIndex) (f : Reservation → Reservation) : Good s (s.putUse i f) :=
  ⟨(kept_putUse s i f).steady, fun h => sound_putUse h i f⟩

theorem good_setMaps (s : State) (p : PortIndex) (m : PortMaps) : Good s (s.setMaps p m) :=
  ⟨(kept_setMaps s p m).steady, fun h => sound_setMaps h p m⟩

theorem good_putActive (s : State) (p : PortIndex) (ks : List SlotKind) : Good s (s.putActive p ks) :=
  ⟨(kept_putWords _ s).steady, fun h => sound_putActive h p ks⟩

theorem good_checkEntries (s : State) (which : EntryState → Bool) : Good s (s.checkEntries which) :=
  ⟨(kept_checkEntries s which).steady, fun h => sound_checkEntries h which⟩

theorem good_checkActive (s : State) (p : PortIndex) : Good s (s.checkActive p) :=
  ⟨(kept_checkActive s p).steady, fun h => sound_checkActive h p⟩

theorem good_checkPending (s : State) (p : PortIndex) : Good s (s.checkPending p) :=
  ⟨(kept_checkPending s p).steady, fun h => sound_checkPending h p⟩

theorem good_checkRing (s : State) (e : RingIndex) : Good s (s.checkRing e) :=
  ⟨(kept_checkRing s e).steady, fun h => sound_checkRing h e⟩

theorem good_walk (s : State) (p : PortIndex) (slot : Nat) : Good s (s.walk p slot) :=
  ⟨(kept_walk s p slot).steady, fun h => sound_walk h p slot⟩

theorem good_scrubWord (s : State) {k : Nat} (hk : k < 1024) : Good s (s.scrubWord k) := by
  refine ⟨?_, fun h => sound_scrubWord h hk⟩
  have h := (kept_checkWord true s k).steady
  exact ⟨h.pending, h.resetAsserted, h.time, h.timer, h.lock, h.link, h.busy, h.path, h.mask, h.enable⟩

theorem good_scrubOne (s : State) : Good s s.scrubOne := good_scrubWord s s.prot.scrub.isLt

theorem good_setFlips (s : State) {k : Nat} (hk : k < 1024) (f : BitVec 39) : Good s (s.setFlips k f) :=
  ⟨⟨rfl, rfl, rfl, rfl, rfl, rfl, rfl, rfl, rfl, rfl⟩, fun h =>
    h.of_same (Memory.wf_write h.memory hk _) (h.events.of_events rfl) rfl rfl rfl (List.Sublist.refl _)⟩

/-- What the missed-slot check keeps it keeps before the scrub too. -/
theorem good_beforeScrub (s : State) (asStood bitsReturn : Bool) {f : State → State} (hf : ∀ s, Good s (f s)) :
    Good s (s.beforeScrub asStood bitsReturn f) := by
  unfold State.beforeScrub
  split
  · dsimp only
    have h := (good_setFlips s s.prot.scrub.isLt 0).trans (hf _)
    split_ifs
    · exact h
    · exact h.trans (good_setFlips _ s.prot.scrub.isLt _)
  · exact hf s

theorem good_dropChoices (s : State) (n : Nat) : Good s (s.dropChoices n) :=
  ⟨⟨rfl, rfl, rfl, rfl, rfl, rfl, rfl, rfl, rfl, rfl⟩,
    fun h => h.of_same h.memory (h.events.of_events rfl) rfl rfl rfl (List.Sublist.refl _)⟩

theorem good_clearMarks (s : State) : Good s s.clearMarks :=
  ⟨⟨rfl, rfl, rfl, rfl, rfl, rfl, rfl, rfl, rfl, rfl⟩,
    fun h => h.of_same h.memory ⟨h.events.room, h.events.overflow, h.events.mask⟩ rfl rfl rfl (List.Sublist.refl _)⟩

/-- An update of gates that keeps each gate's state and cause, and gives a busy-until to none outside ENFORCING. -/
theorem good_ports {s t : State} (hs : Steady s t) (h1 : t.prot = s.prot) (h2 : t.events = s.events) (h3 : t.order = s.order)
    (h4 : t.table = s.table) (h5 : t.holds = s.holds) (hg : ∀ p, (t.port p).gate = (s.port p).gate)
    (hc : ∀ p, (t.port p).cause = (s.port p).cause)
    (hb : ∀ p, (t.port p).busy.isSome = true → (s.port p).busy.isSome = true ∨ (s.port p).gate = .enforcing) :
    Good s t := by
  refine ⟨hs, fun h => ⟨by rw [MemoryInv, h1]; exact h.memory, h.events.of_events h2,
    h.order.of_fields h3 (fun i => by rw [State.entry_of_table h4]), ⟨fun p => by rw [hg, hc]; exact h.gates.cause p,
    fun p hp => by
      rw [hg]
      rcases hb p hp with hb | hb
      · exact h.gates.busy p hb
      · exact hb⟩,
    h.holds.of_sublist (by rw [h5]) (fun r _ => by rw [hg]; exact id)
      (fun r _ => by rw [State.entry_of_table h4]; exact id)⟩⟩

/-- A field of the ports that an update of port p keeps. -/
theorem keeps_of_updPort {α : Type} (field : Port → α) {s t : State} {p : PortIndex} {v : Port}
    (hp : ∀ q, t.port q = if q = p then v else s.port q) (hv : field v = field (s.port p)) (q : PortIndex) :
    field (t.port q) = field (s.port q) := by
  by_cases h : q = p <;> simp [hp, h, hv]

theorem good_countPort (s : State) (p : PortIndex) (f : PortCounters → PortCounters) : Good s (s.countPort p f) := by
  have hp : ∀ q, (s.countPort p f).port q = if q = p then { s.port p with counters := f (s.port p).counters } else s.port q :=
    fun q => State.port_updPort s p q _
  refine good_ports ⟨rfl, rfl, rfl, rfl, rfl, rfl, rfl, rfl, rfl, rfl⟩ rfl rfl rfl rfl rfl (keeps_of_updPort Port.gate hp rfl)
    (keeps_of_updPort Port.cause hp rfl) (fun q hq => .inl ?_)
  rwa [keeps_of_updPort Port.busy hp rfl q] at hq

theorem good_clearPastBusy (s : State) (p : PortIndex) : Good s (s.clearPastBusy p) := by
  have hp : ∀ q, (s.clearPastBusy p).port q =
      if q = p then { s.port p with busy := (s.port p).busy.filter (fun b => !later s.time b) } else s.port q :=
    fun q => State.port_updPort s p q _
  refine good_ports ⟨rfl, rfl, rfl, rfl, rfl, rfl, rfl, rfl, rfl, rfl⟩ rfl rfl rfl rfl rfl (keeps_of_updPort Port.gate hp rfl)
    (keeps_of_updPort Port.cause hp rfl) (fun q hq => .inl ?_)
  rw [hp] at hq; split_ifs at hq with h
  · rw [h]
    cases hb : (s.port p).busy with
    | none => simp [hb] at hq
    | some b => rfl
  · exact hq

theorem good_moveBusy (s : State) (p : PortIndex) (e : DeviceTime) (hg : (s.port p).gate = .enforcing) :
    Good s (s.moveBusy p e) := by
  have hp : ∀ q, (s.moveBusy p e).port q = if q = p then { s.port p with busy := some e } else s.port q :=
    fun q => State.port_updPort s p q _
  refine good_ports ⟨rfl, rfl, rfl, rfl, rfl, rfl, rfl, rfl, rfl, rfl⟩ rfl rfl rfl rfl rfl (keeps_of_updPort Port.gate hp rfl)
    (keeps_of_updPort Port.cause hp rfl) (fun q hq => ?_)
  rw [hp] at hq; split_ifs at hq with h
  · rw [h]; exact .inr hg
  · exact .inl hq

/-- A gate enters ENFORCING (R119). -/
theorem good_enterEnforcing (s : State) (p : PortIndex) : Good s (s.enterEnforcing p) := by
  have hp : ∀ q, ((s.enterEnforcing p).port q = s.port q ∧ q ≠ p) ∨
      (((s.enterEnforcing p).port q).gate = .enforcing ∧ ((s.enterEnforcing p).port q).cause = .none ∧ q = p) := by
    intro q
    have : (s.enterEnforcing p).port q = _ := State.port_updPort s p q _
    rw [this]
    by_cases h : q = p
    · right; simp [h]
    · left; simp [h]
  refine ⟨⟨rfl, rfl, rfl, rfl, rfl, rfl, rfl, rfl, rfl, rfl⟩, fun h => ⟨h.memory, h.events.of_events rfl,
    h.order.of_fields rfl (fun i => Iff.rfl), ⟨fun q => ?_, fun q hq => ?_⟩,
    h.holds.of_sublist (List.Sublist.refl _) (fun r _ hr => ?_) (fun r _ => id)⟩⟩
  · rcases hp q with ⟨e, -⟩ | ⟨e1, e2, -⟩
    · rw [e]; exact h.gates.cause q
    · simp [e1, e2]
  · rcases hp q with ⟨e, -⟩ | ⟨e1, -, -⟩
    · rw [e] at hq ⊢; exact h.gates.busy q hq
    · exact e1
  · rcases hp r.port with ⟨e, -⟩ | ⟨e1, -, -⟩
    · rw [e]; exact hr
    · exact e1

theorem good_toFailsafe (s : State) (p : PortIndex) {c : FailsafeCause} (hc : c ≠ .none) : Good s (s.toFailsafe p c) := by
  refine ⟨?_, fun h => sound_toFailsafe h p hc⟩
  simp only [State.toFailsafe]
  by_cases hg : (s.port p).gate = .enforcing <;> simp only [hg, if_true, if_false] <;>
    exact ⟨rfl, rfl, rfl, rfl, rfl, rfl, rfl, rfl, by simp, by simp⟩

theorem good_reportLockLoss (s : State) : Good s s.reportLockLoss := by
  refine good_foldl _ (fun s p => ?_) _ s
  unfold State.lockLossAt
  split_ifs
  · exact good_toFailsafe s p (by decide)
  · exact Good.refl s

theorem good_reportLockWon (s : State) : Good s s.reportLockWon := by
  refine good_foldl _ (fun s p => ?_) _ s
  simp only [State.lockWonAt]
  split_ifs
  · exact (good_enterEnforcing s p).trans (good_raise _ _)
  · exact Good.refl s

/-- An update of entries that keeps each entry's state. -/
theorem good_updEntry (s : State) (i : EntryIndex) (f : Entry → Entry) (hf : ∀ e, (f e).state = e.state) :
    Good s (s.updEntry i f) := by
  have he : ∀ j, ((s.updEntry i f).entry j).state = (s.entry j).state := by
    intro j
    rw [State.entry_updEntry]
    split_ifs with h
    · rw [h, hf]
    · rfl
  exact ⟨⟨rfl, rfl, rfl, rfl, rfl, rfl, rfl, rfl, rfl, rfl⟩, fun h => ⟨h.memory, h.events.of_events rfl,
    h.order.of_fields rfl (fun j => by rw [he]), h.gates.of_ports rfl,
    h.holds.of_sublist (List.Sublist.refl _) (fun r _ => id) (fun r _ => by rw [he]; exact id)⟩⟩

/-! ### The table at a boundary -/

theorem good_missedEntry (slot : Nat) (ended : CycleNumber) (s : State) (i : EntryIndex) :
    Good s (missedEntry slot ended s i) := by
  unfold missedEntry
  dsimp only
  split_ifs
  · refine Good.trans ?_ (good_raise _ _)
    refine Good.trans ?_ (good_countPort _ _ _)
    exact Good.trans (good_putUse s i _) (good_updEntry _ i _ (by exact fun _ => rfl))
  · refine Good.trans ?_ (good_countPort _ _ _)
    exact Good.trans (good_putUse s i _) (good_updEntry _ i _ (by exact fun _ => rfl))
  · exact Good.refl s

theorem good_missedSlotCheck (s : State) (slot : Nat) (ended : CycleNumber) : Good s (s.missedSlotCheck slot ended) :=
  (good_checkEntries s _).trans (good_foldl _ (good_missedEntry slot ended) _ _)

/-- A RELEASING entry is freed: out of the order list, its records gone. -/
theorem good_freeReleasing (s : State) (i : EntryIndex) : Good s (s.freeReleasing i) := by
  unfold State.freeReleasing
  dsimp only
  refine Good.trans ?_ (good_raise _ _)
  have he : ∀ j, ((s.freeEntry i).removeEntryHolds i).entry j = if j = i then { s.entry i with state := .free } else s.entry j :=
    fun j => State.entry_updEntry s i j (fun e => { e with state := .free })
  refine ⟨⟨rfl, rfl, rfl, rfl, rfl, rfl, rfl, rfl, rfl, rfl⟩, fun h => ⟨h.memory, h.events.of_events rfl,
    ⟨h.order.once.sublist List.filter_sublist, fun j => ?_⟩, h.gates.of_ports rfl,
    h.holds.of_sublist List.filter_sublist (fun r _ => id) (fun r hr => ?_)⟩⟩
  · rw [he]
    show j ∈ s.order.filter _ ↔ _
    rw [List.mem_filter, h.order.exact j]
    by_cases hj : j = i <;> simp [hj]
  · have : r.entry ≠ i := by simpa using (List.mem_filter.1 hr).2
    rw [he, if_neg this]; exact id

/-- A PENDING entry becomes ACTIVE. -/
theorem good_activate (s : State) (i : EntryIndex) (hi : (s.entry i).state ≠ .free) : Good s (s.activate i) := by
  unfold State.activate
  dsimp only
  refine Good.trans ?_ (good_raise _ _)
  have he : ∀ j, (s.setEntryState i .active).entry j = if j = i then { s.entry i with state := .active } else s.entry j :=
    fun j => State.entry_updEntry s i j _
  refine ⟨⟨rfl, rfl, rfl, rfl, rfl, rfl, rfl, rfl, rfl, rfl⟩, fun h => ⟨h.memory, h.events.of_events rfl,
    h.order.of_fields rfl (fun j => ?_), h.gates.of_ports rfl,
    h.holds.of_sublist (List.Sublist.refl _) (fun r _ => id) (fun r _ hr => ?_)⟩⟩
  · rw [he]
    by_cases hj : j = i
    · subst hj; simp [hi]
    · simp [hj]
  · rw [he]; split_ifs
    · rfl
    · exact hr

/-- Activation leaves the state of every other entry. -/
theorem entry_activate (s : State) (i j : EntryIndex) (hj : j ≠ i) : (s.activate i).entry j = s.entry j := by
  have : (s.activate i).entry j = (s.setEntryState i .active).entry j := State.entry_of_table (by simp [State.activate]) j
  rw [this]
  exact (State.entry_updEntry s i j (fun e => { e with state := .active })).trans (if_neg hj)

theorem good_activateList (l : List EntryIndex) (hl : l.Nodup) (s : State) (h : ∀ i ∈ l, (s.entry i).state ≠ .free) :
    Good s (l.foldl State.activate s) := by
  induction l generalizing s with
  | nil => exact Good.refl s
  | cons i l ih =>
    rw [List.nodup_cons] at hl
    refine (good_activate s i (h i (by simp))).trans (ih hl.2 _ fun j hj => ?_)
    rw [entry_activate s i j (fun e => hl.1 (e ▸ hj))]
    exact h j (List.mem_cons_of_mem _ hj)

theorem good_freeAndWalk (s : State) : Good s s.freeAndWalk := by
  unfold State.freeAndWalk
  exact ((good_checkEntries s _).trans (good_foldl _ good_freeReleasing _ _)).trans
    (good_foldl (fun (s : State) (x : PortIndex × Nat) => s.walk x.1 x.2) (fun s x => good_walk s x.1 x.2) _ _)

theorem good_activateAll (s : State) : Good s s.activateAll := by
  unfold State.activateAll
  refine (good_checkEntries s _).trans (good_activateList _ ?_ _ fun i hi => ?_)
  · exact (List.nodup_finRange 64).filter _
  · have := (List.mem_filter.1 hi).2
    simp only [decide_eq_true_eq] at this
    rw [this]; decide

theorem good_resetUsed (s : State) (i : EntryIndex) : Good s (s.resetUsed i) := by
  simp only [State.resetUsed]
  split_ifs
  · exact Good.trans ⟨(kept_checkWord false s _).steady, fun h => sound_checkWord false h (entryWord_lt i (by omega))⟩
      (good_putUse _ i _)
  · exact ⟨(kept_checkWord false s _).steady, fun h => sound_checkWord false h (entryWord_lt i (by omega))⟩
  · exact Good.refl s

/-- Steps 2 to 4 of R82. -/
theorem good_turnTable (s : State) : Good s s.turnTable :=
  ((good_freeAndWalk s).trans (good_activateAll _)).trans (good_foldl _ good_resetUsed _ _)

/-- The table's work at a cycle boundary. -/
theorem good_tableBoundary (asStood bitsReturn : Bool) (slot : Nat) (ended : CycleNumber) (s : State) :
    Good s (s.tableBoundary asStood bitsReturn slot ended) :=
  (good_beforeScrub s asStood bitsReturn fun s => good_missedSlotCheck s slot ended).trans (good_turnTable _)

/-! ### Maps and hold records at a boundary -/

theorem good_openMap (n : Nat) (s : State) (p : PortIndex) : Good s (State.openMap n s p) := by
  unfold State.openMap
  dsimp only
  split
  · exact ((good_setMaps s p _).trans (good_putActive _ p _)).trans (good_raise _ _)
  · exact (good_setMaps s p _).trans (good_putActive _ p _)

theorem good_announceGeometry (s : State) (g : Geometry) : Good s (s.announceGeometry g) :=
  (good_foldl _ (good_openMap _) _ _).trans (good_raise _ _)

theorem good_applyMap (s : State) (p : PortIndex) : Good s (s.applyMap p) := by
  unfold State.applyMap
  dsimp only
  split_ifs
  · split
    · exact (((good_checkPending s p).trans (good_setMaps _ p _)).trans (good_putActive _ p _)).trans (good_raise _ _)
    · exact good_checkPending s p
  · exact Good.refl s

theorem good_mapsBoundary (s : State) (g : Option Geometry) : Good s (s.mapsBoundary g) := by
  unfold State.mapsBoundary
  split
  · exact Good.refl s
  · exact good_foldl _ good_applyMap _ s

theorem good_expireHolds (s : State) : Good s s.expireHolds := by
  unfold State.expireHolds
  dsimp only
  split_ifs
  · exact Good.refl s
  · refine Good.trans (t := { s.keepHolds _ with holds := _ }) ?_ (good_raise _ _)
    exact ⟨⟨rfl, rfl, rfl, rfl, rfl, rfl, rfl, rfl, rfl, rfl⟩,
      fun h => h.of_same h.memory (h.events.of_events rfl) rfl rfl rfl List.filter_sublist⟩

theorem good_mapsBeforeScrub (s : State) (g : Option Geometry) (struck : Option (PortIndex × Nat))
    (hp : ∀ p part, struck = some (p, part) → part < 3) : Good s (s.mapsBeforeScrub g struck) := by
  unfold State.mapsBeforeScrub
  split
  · exact good_mapsBoundary s g
  · rename_i p part
    have := hp p part rfl
    have h1 : pendingWord p part < 1024 := by unfold pendingWord; omega
    have h2 : activeWord p part < 1024 := by unfold activeWord; omega
    exact ((good_setFlips s h1 0).trans (good_mapsBoundary _ g)).trans (good_setFlips _ h2 _)

theorem good_lastScrub (s : State) (struck : Option (PortIndex × Nat))
    (hp : ∀ p part, struck = some (p, part) → part < 3) : Good s (s.lastScrub struck) := by
  unfold State.lastScrub
  split
  · exact good_scrubOne s
  · rename_i p part
    have := hp p part rfl
    exact good_scrubWord s (by unfold activeWord; omega)

/-- The word of a map that the scrub is to find is one of the map's three. -/
theorem State.struckMap_part {s : State} {g : Option Geometry} {p : PortIndex} {part : Nat}
    (h : s.struckMap g = some (p, part)) : part < 3 := by
  unfold State.struckMap at h
  split at h
  · rename_i ho
    split at h
    · cases h
      unfold occupant at ho
      split at ho
      · cases ho
      split at ho
      · cases ho
      split at ho
      · cases ho
        exact Nat.mod_lt _ (by decide)
      split at ho <;> cases ho
    · cases h
  · cases h

/-- The work of a slot boundary. -/
theorem good_slotBoundaryWork (s : State) (k : Nat) : Good s (s.slotBoundaryWork k) := by
  unfold State.slotBoundaryWork
  dsimp only
  split_ifs
  · exact ((good_dropChoices s 3).trans (good_scrubOne _)).trans (good_missedSlotCheck _ _ _)
  · exact ((good_dropChoices s 3).trans (good_beforeScrub _ _ _ fun s => good_missedSlotCheck s _ _)).trans (good_scrubOne _)

end Sys2Proof.Machine
end

