-- ==== Sys2Proof/Laws/Decision.lean ====
section
/-! SUPPORT. A gate decision leaves the steady parts as they were and keeps what the manual states. -/

namespace Sys2Proof.Machine

theorem good_removeHold (s : State) (a : Address) : Good s (s.removeHold a) := good_keepHolds s _

theorem good_countPassed (s : State) (c : Candidate) : Good s (s.countPassed c) := good_countPort s _ _

theorem good_countHeld (s : State) (c : Candidate) : Good s (s.countHeld c) := good_countPort s _ _

/-- A count of a port's leaves its gate state. -/
theorem gate_countPort (s : State) (p q : PortIndex) (f : PortCounters → PortCounters) :
    ((s.countPort p f).port q).gate = (s.port q).gate := by
  have : (s.countPort p f).port q = _ := State.port_updPort s p q _
  rw [this]
  split_ifs with h
  · rw [h]
  · rfl

/-- A record is added on an ENFORCING port against an entry in force, for an address that has none. -/
theorem good_addHold (s : State) (r : HoldRecord) (tag : StreamTag) (hg : (s.port r.port).gate = .enforcing)
    (he : (s.entry r.entry).state.inForce = true) (ha : s.holdOf r.address = none) : Good s (s.addHold r tag) := by
  unfold State.addHold
  dsimp only
  split_ifs with hl
  · refine ⟨⟨rfl, rfl, rfl, rfl, rfl, rfl, rfl, rfl, rfl, rfl⟩, fun h => ⟨h.memory, h.events.of_events rfl,
      h.order.of_fields rfl fun _ => Iff.rfl, h.gates.of_ports rfl, ⟨?_, ?_, fun x hx => ?_, fun x hx => ?_⟩⟩⟩
    · show (s.holds.records ++ [r]).length ≤ 32
      rw [List.length_append, List.length_singleton]; omega
    · show ((s.holds.records ++ [r]).map HoldRecord.address).Nodup
      rw [List.map_append, List.nodup_append]
      refine ⟨h.holds.once, by simp, fun a hm b hb => ?_⟩
      obtain ⟨x, hx, rfl⟩ := List.mem_map.1 hm
      have hn := List.find?_eq_none.1 ha x hx
      simp only [List.map_cons, List.map_nil, List.mem_singleton] at hb
      rw [hb]; simpa using hn
    · rcases List.mem_append.1 hx with hx | hx
      · exact h.holds.enforcing x hx
      · rw [List.mem_singleton.1 hx]; exact hg
    · rcases List.mem_append.1 hx with hx | hx
      · exact h.holds.inForce x hx
      · rw [List.mem_singleton.1 hx]; exact he
  · refine Good.trans (t := { s with holds := _ }) ?_ (good_raise _ _)
    exact ⟨⟨rfl, rfl, rfl, rfl, rfl, rfl, rfl, rfl, rfl, rfl⟩,
      fun h => h.of_same h.memory (h.events.of_events rfl) rfl rfl rfl (List.Sublist.refl _)⟩

theorem good_releaseFrame (s : State) (i : EntryIndex) : Good s (s.releaseFrame i) := by
  unfold State.releaseFrame
  dsimp only
  split_ifs
  · refine Good.trans ?_ (good_raise _ _)
    exact Good.trans (good_putUse s i _) (good_updEntry _ i _ (by exact fun _ => rfl))
  · exact Good.trans (good_putUse s i _) (good_updEntry _ i _ (by exact fun _ => rfl))

/-- A release leaves the gates as they were. -/
theorem ports_releaseFrame (s : State) (i : EntryIndex) : (s.releaseFrame i).ports = s.ports := by
  unfold State.releaseFrame
  dsimp only
  split_ifs <;> simp

theorem good_holdCandidate (c : Candidate) (s : State) : Good s (holdCandidate c s).2 := good_countHeld s c

theorem good_failsafeDecision (c : Candidate) (s : State) : Good s (failsafeDecision c s).2 := by
  unfold failsafeDecision
  split
  · exact good_countPassed s c
  · split_ifs
    · exact good_countPassed s c
    · exact good_holdCandidate c s

theorem good_staleDrop (c : Candidate) (i : EntryIndex) (age : Nat) (s : State) : Good s (staleDrop c i age s).2 := by
  unfold staleDrop
  dsimp only
  refine Good.trans ?_ (good_raise _ _)
  refine Good.trans ?_ (good_countPort _ _ _)
  exact Good.trans (good_removeHold s _) (good_updEntry _ i _ (by exact fun _ => rfl))

theorem good_overrunDrop (c : Candidate) (i : EntryIndex) (s : State) : Good s (overrunDrop c i s).2 := by
  unfold overrunDrop
  dsimp only
  refine Good.trans ?_ (good_removeHold _ _)
  refine Good.trans ?_ (good_raise _ _)
  exact Good.trans (good_updEntry s i _ (by exact fun _ => rfl)) (good_countPort _ _ _)

theorem good_releaseCandidate (c : Candidate) (i : EntryIndex) (e : DeviceTime) (s : State)
    (hg : (s.port c.port).gate = .enforcing) : Good s (releaseCandidate c i e s).2 := by
  have h1 : Good s ((s.releaseFrame i).removeHold c.address) := (good_releaseFrame s i).trans (good_removeHold _ _)
  have h2 : (((s.releaseFrame i).removeHold c.address).port c.port).gate = .enforcing := by
    rw [State.port_of_ports (t := s) (by simp [ports_releaseFrame])]; exact hg
  have h3 : Good s ((((s.releaseFrame i).removeHold c.address).moveBusy c.port (s.candidateEnd c)).countPassed c) :=
    (h1.trans (good_moveBusy _ _ _ h2)).trans (good_countPassed _ _)
  unfold releaseCandidate
  dsimp only
  split_ifs
  · exact (h3.trans (good_countPort _ _ _)).trans (good_raise _ _)
  · exact h3

theorem good_holdAgainst (c : Candidate) (i : EntryIndex) (s : State) (hg : (s.port c.port).gate = .enforcing)
    (he : (s.entry i).state.inForce = true) : Good s (holdAgainst c i s).2 := by
  unfold holdAgainst
  dsimp only
  split
  · exact good_countHeld s c
  · rename_i hn
    refine (good_countHeld s c).trans (good_addHold _ _ _ ?_ ?_ hn)
    · exact (gate_countPort s _ _ _).trans hg
    · exact he

theorem good_entryDecision (c : Candidate) (i : EntryIndex) (s : State) (hg : (s.port c.port).gate = .enforcing)
    (he : (s.entry i).state.inForce = true) : Good s (entryDecision c i s).2 := by
  have hh := good_holdAgainst c i s hg he
  unfold entryDecision
  split
  · exact good_staleDrop c i _ s
  · by_cases h1 : (s.reservation i).maxLength.toNat < lengthOf c.word
    · rw [if_pos h1]; exact good_overrunDrop c i s
    · rw [if_neg h1]
      split
      · exact hh
      · by_cases h2 : s.mayRelease i = true
        · rw [if_pos h2]; exact good_releaseCandidate c i _ s hg
        · rw [if_neg h2]; exact hh

theorem good_checkSearch (s : State) (p : PortIndex) (t : Timer) : Good s (s.checkSearch p t) := by
  unfold State.checkSearch
  split
  · exact Good.refl s
  · split_ifs
    · exact good_checkPending s p
    · exact Good.refl s

/-- Losing a pending map concerns no gate. -/
theorem ports_putWords (l : List (Nat × Word)) (s : State) : (s.putWords l).ports = s.ports := (putWords_frame l s).2.2.2.1

/-- The word is one of a port's pending map. -/
theorem occupant_pendingWord (p : PortIndex) {j : Nat} (hj : j < 3) : occupant (pendingWord p j) = .pendingMap p j := by
  have : ∀ p : PortIndex, ∀ j : Fin 3, occupant (pendingWord p j.val) = .pendingMap p j.val := by decide
  exact this p ⟨j, hj⟩

theorem ports_ownerAction_pending (s : State) (p : PortIndex) {j : Nat} (hj : j < 3) :
    (s.ownerAction (pendingWord p j)).ports = s.ports := by
  simp only [State.ownerAction, occupant_pendingWord p hj]
  split
  · split_ifs
    · simp [State.losePending]
    · rfl
  · rfl

theorem ports_checkPending (s : State) (p : PortIndex) : (s.checkPending p).ports = s.ports := by
  unfold State.checkPending
  split
  · rename_i m _
    have : ∀ (l : List Nat) (s : State), (∀ k ∈ l, ∃ j < 3, k = pendingWord p j) → (s.checkWords l).ports = s.ports := by
      intro l
      induction l with
      | nil => exact fun s _ => rfl
      | cons k l ih =>
        intro s hk
        obtain ⟨j, hj, rfl⟩ := hk k (by simp)
        have h1 : (s.checkWord false (pendingWord p j)).ports = s.ports := by
          unfold State.checkWord
          split
          · rfl
          · rfl
          · exact ports_ownerAction_pending _ p hj
        exact (ih _ fun k hk' => hk k (List.mem_cons_of_mem _ hk')).trans h1
    refine this _ s fun k hk => ?_
    obtain ⟨j, hj, rfl⟩ := List.mem_map.1 hk
    exact ⟨j, usedParts_lt hj, rfl⟩
  · rfl

theorem ports_checkSearch (s : State) (p : PortIndex) (t : Timer) : (s.checkSearch p t).ports = s.ports := by
  unfold State.checkSearch
  split
  · rfl
  · split_ifs
    · exact ports_checkPending s p
    · rfl

theorem good_fitDecision (c : Candidate) (r : Bool) (t : Timer) (s : State) (hg : (s.port c.port).gate = .enforcing) :
    Good s (fitDecision c r t s).2 := by
  have h1 := good_checkSearch s c.port t
  have h2 : ((s.checkSearch c.port t).port c.port).gate = .enforcing := by
    rw [State.port_of_ports (ports_checkSearch s c.port t)]; exact hg
  have h3 : Good s (((s.checkSearch c.port t).moveBusy c.port ((s.checkSearch c.port t).candidateEnd c)).countPassed c) :=
    (h1.trans (good_moveBusy _ _ _ h2)).trans (good_countPassed _ _)
  unfold fitDecision
  dsimp only
  split_ifs
  · have h4 := h3.trans (good_countPort _ c.port (fun k => { k with reclaimed := satInc k.reclaimed }))
    exact h4
  · exact h3
  · exact h1.trans (good_holdCandidate _ _)

theorem good_reclaimDecision (c : Candidate) (t : Timer) (s : State) : Good s (reclaimDecision c t s).2 := by
  unfold reclaimDecision
  dsimp only
  split_ifs with h1 h2
  · exact (good_checkEntries s _).trans (good_fitDecision c true t _ h2)
  · exact (good_checkEntries s _).trans (good_holdCandidate _ _)
  · exact (good_checkEntries s _).trans (good_failsafeDecision _ _)
  · exact good_holdCandidate _ _

theorem good_generalDecision (c : Candidate) (s : State) : Good s (generalDecision c s).2 := by
  unfold generalDecision
  split
  · exact good_holdCandidate _ _
  · rename_i t _
    dsimp only
    split_ifs with h
    · split
      · exact (good_checkActive s _).trans (good_fitDecision c false t _ h)
      · exact (good_checkActive s _).trans (good_holdCandidate _ _)
      · exact (good_checkActive s _).trans (good_reclaimDecision _ _ _)
    · exact (good_checkActive s _).trans (good_failsafeDecision _ _)

theorem good_unreservedDrop (c : Candidate) (s : State) : Good s (unreservedDrop c s).2 :=
  (good_countPort s _ _).trans (good_raise _ _)

/-- The entry a lookup returns is in force. -/
theorem inForce_of_lookup {s : State} {p : PortIndex} {tag : StreamTag} {i : EntryIndex} (h : s.lookup p tag = some i) :
    (s.entry i).state.inForce = true := by
  have := List.find?_some h
  simp only [Bool.and_eq_true] at this
  exact this.1.1.1

theorem good_motionDecision (c : Candidate) (s : State) : Good s (motionDecision c s).2 := by
  unfold motionDecision
  dsimp only
  refine (good_checkEntries s EntryState.inForce).trans ?_
  split_ifs with h
  · split
    · rename_i i hi
      exact good_entryDecision c i _ h (inForce_of_lookup hi)
    · split
      · exact good_generalDecision c _
      · exact good_unreservedDrop c _
  · exact good_failsafeDecision c _

/-- A gate decision. -/
theorem good_gateDecision (c : Candidate) (s : State) : Good s (gateDecision c s).2 := by
  unfold gateDecision
  split
  · exact Good.refl s
  · exact good_holdCandidate c s
  · exact good_failsafeDecision c s
  · split_ifs
    · exact good_motionDecision c s
    · exact good_generalDecision c s

end Sys2Proof.Machine
end

