-- ==== Sys2Proof/Laws/Clock.lean ====
section
/-! SUPPORT. The link's way of taking a frame, the passing of time event by event, and what the clock events keep. -/

namespace Sys2Proof.Machine

/-! ### The way a frame is taken (R165) -/

theorem State.command_ready {s : State} (h : s.takesFrame = true) (hb : s.prot.busy = false) (code : Byte)
    (body : State → State) : s.command code body = body s.endTransaction := by simp [State.command, h, hb]

theorem State.command_busy {s : State} (h : s.takesFrame = true) (hb : s.prot.busy = true) (code : Byte)
    (body : State → State) : s.command code body = s.endTransaction.respond code .busy [] := by simp [State.command, h, hb]

theorem State.command_untaken {s : State} (h : s.takesFrame = false) (code : Byte) (body : State → State) :
    s.command code body = s.endTransaction := by simp [State.command, h]

/-- A command does what its body does, answers BUSY, or leaves all but the link as it was. -/
theorem State.command_cases (s : State) (code : Byte) (body : State → State) :
    s.command code body = body s.endTransaction ∨ s.command code body = s.endTransaction.respond code .busy [] ∨
      s.command code body = s.endTransaction := by
  unfold State.command
  split_ifs <;> simp

/-! ### Time -/

/-- The event taken next is within the time asked for, and no later than the next boundary. -/
theorem State.nextEvent_le {s : State} {n d : Nat} {e : ClockEvent} (h : s.nextEvent n = some (d, e)) :
    d ≤ n ∧ ((s.nextBoundary = some (d, e)) ∨ ((d, e) ∈ s.initEnd.toList ++ s.deadlines ∧ d < n)) := by
  unfold State.nextEvent at h
  dsimp only at h
  have fold : ∀ (l : List (Nat × ClockEvent)) (x : Nat × ClockEvent), l.foldl sooner x ∈ x :: l := by
    intro l
    induction l with
    | nil => simp
    | cons y l ih =>
      intro x
      have := ih (sooner x y)
      rw [List.mem_cons] at this
      simp only [List.foldl_cons, List.mem_cons]
      rcases this with h | h
      · rw [h]; unfold sooner; split_ifs <;> simp
      · exact .inr (.inr h)
  have hm : (d, e) ∈ (s.nextBoundary.filter (fun x => decide (x.1 ≤ n))).toList ++
      (s.initEnd.toList ++ s.deadlines).filter (fun x => decide (x.1 < n)) := by
    split at h
    · simp at h
    · rename_i x xs hl
      rw [hl, ← Option.some.inj h]
      exact fold xs x
  rw [List.mem_append] at hm
  rcases hm with hm | hm
  · simp only [Option.mem_toList, Option.filter_eq_some_iff, decide_eq_true_eq] at hm
    exact ⟨hm.2, .inl hm.1⟩
  · rw [List.mem_filter] at hm
    have : d < n := by simpa using hm.2
    exact ⟨this.le, .inr ⟨hm.1, this⟩⟩

/-- What holds before and is kept by each stretch of time and each clock event holds after any time has passed. -/
theorem passTime_induction {P : State → Prop}
    (htick : ∀ s n, s.nextEvent n = none → P s → P (s.tickBy n))
    (hevent : ∀ s n d e, s.nextEvent n = some (d, e) → P s → P ((s.tickBy d).takeEvent e)) :
    ∀ (fuel n : Nat) (s : State), P s → P (passTime fuel n s) := by
  intro fuel
  induction fuel with
  | zero => exact fun n s h => h
  | succ fuel ih =>
    intro n s h
    unfold passTime
    split
    · exact htick s n (by assumption) h
    · exact ih _ _ (hevent s n _ _ (by assumption) h)

theorem State.pass_induction {P : State → Prop}
    (htick : ∀ s n, s.nextEvent n = none → P s → P (s.tickBy n))
    (hevent : ∀ s n d e, s.nextEvent n = some (d, e) → P s → P ((s.tickBy d).takeEvent e)) (s : State) (n : Nat) (h : P s) :
    P (s.pass n) := by
  unfold State.pass
  split_ifs
  · exact h
  · exact passTime_induction htick hevent _ n s h

/-- Time in which nothing falls due. -/
theorem State.pass_quiet {s : State} {n : Nat} (hr : s.resetAsserted = false) (h : s.nextEvent n = none) :
    s.pass n = s.tickBy n := by
  have : s.clockFuel = s.clockFuel - 1 + 1 := by unfold State.clockFuel; omega
  unfold State.pass
  rw [hr, this]
  simp [passTime, h]

/-- Time at whose end, and not before, one event falls due that leaves nothing due at once. -/
theorem State.pass_one {s : State} {n : Nat} {e : ClockEvent} (hr : s.resetAsserted = false)
    (h : s.nextEvent n = some (n, e)) (h' : ((s.tickBy n).takeEvent e).nextEvent 0 = none) :
    s.pass n = ((s.tickBy n).takeEvent e).tickBy 0 := by
  have : s.clockFuel = s.clockFuel - 2 + 2 := by unfold State.clockFuel; omega
  unfold State.pass
  rw [hr, this]
  simp [passTime, h, h']

/-- No tick passed leaves device time as it was. -/
theorem afterTicks_zero (t : DeviceTime) : afterTicks t 0 = t := by simp [afterTicks]

theorem afterTicks_add (t : DeviceTime) (a b : Nat) : afterTicks (afterTicks t a) b = afterTicks t (a + b) := by
  simp only [afterTicks, BitVec.add_assoc, BitVec.ofNat_add]

/-! ### What passing ticks and clock events keep -/

theorem sound_tickBy {s : State} (h : Sound s) (n : Nat) : Sound (s.tickBy n) := by
  have hw := State.wf_tickBy h.memory n
  unfold State.tickBy at hw ⊢
  dsimp only at hw ⊢
  split_ifs at hw ⊢
  · exact h.of_same hw (h.events.of_events rfl) rfl rfl rfl (List.Sublist.refl _)
  · exact h.of_same hw (h.events.of_events rfl) rfl rfl rfl (List.Sublist.refl _)

/-- A change of the timer and the lock alone. -/
theorem sound_turnTimer {s : State} (h : Sound s) (t : Timer) (g : Option Geometry) : Sound (s.turnTimer t g) :=
  h.of_same h.memory (h.events.of_events rfl) rfl rfl rfl (List.Sublist.refl _)

theorem sound_setLock {s : State} (h : Sound s) (l : Lock) : Sound (s.setLock l) :=
  h.of_same h.memory (h.events.of_events rfl) rfl rfl rfl (List.Sublist.refl _)

theorem sound_updPath {s : State} (h : Sound s) (f : Path → Path) : Sound (s.updPath f) :=
  h.of_same h.memory (h.events.of_events rfl) rfl rfl rfl (List.Sublist.refl _)

theorem sound_turnCycle {s : State} (h : Sound s) (t : Timer) (g : Option Geometry) : Sound (s.turnCycle t g) := by
  unfold State.turnCycle
  split
  · exact (good_announceGeometry _ _).sound (sound_turnTimer h _ _)
  · exact sound_turnTimer h _ _

theorem sound_lockBoundary {s : State} (h : Sound s) (b : Bool) (ended : Int) : Sound (s.lockBoundary b ended) := by
  unfold State.lockBoundary
  split
  · exact sound_setLock h _
  · exact h
  · split_ifs
    · exact h
    · exact (good_reportLockWon _).sound (sound_raise (sound_setLock h _) _)
  · unfold State.lockedBoundary
    dsimp only
    split_ifs
    · exact sound_raise (sound_setLock (sound_raise (sound_setLock h _) _) _) _
    · exact sound_setLock (sound_raise (sound_setLock h _) _) _
    · exact sound_raise (sound_setLock (sound_setLock h _) _) _
    · exact sound_setLock (sound_setLock h _) _
  · unfold State.holdoverBoundary
    dsimp only
    split_ifs
    · exact (good_reportLockLoss _).sound (sound_raise (sound_setLock h _) _)
    · exact sound_setLock h _
  · exact h

theorem good_scrubIf (s : State) (b : Bool) : Good s (s.scrubIf b) := by
  unfold State.scrubIf
  split_ifs
  · exact good_scrubOne s
  · exact Good.refl s

theorem good_expireIf (s : State) (b : Bool) : Good s (s.expireIf b) := by
  unfold State.expireIf
  split_ifs
  · exact good_expireHolds s
  · exact Good.refl s

theorem sound_scrubAhead {s : State} (h : Sound s) (t : Timer) : Sound (s.scrubAhead t) :=
  (good_scrubOne _).sound (h.of_same h.memory (h.events.of_events rfl) rfl rfl rfl (List.Sublist.refl _))

/-- The blocks' work at a cycle boundary before the lock's. -/
theorem sound_openingWork {s : State} (h : Sound s) (t : Timer) (g : Option Geometry) (o : BoundaryOrder) :
    Sound (s.openingWork t g o) := by
  unfold State.openingWork
  dsimp only
  refine (good_scrubIf _ _).sound ((good_tableBoundary _ _ _ _ _).sound ((good_expireIf _ _).sound ?_))
  split_ifs
  · exact sound_turnCycle (sound_scrubAhead h t) t g
  · exact sound_turnCycle h t g

/-- The blocks' work at a cycle boundary after the lock's. -/
theorem good_closingWork (s : State) (o : BoundaryOrder) : Good s (s.closingWork o) :=
  ((good_foldl _ good_clearPastBusy _ s).trans (good_expireIf _ _)).trans (good_clearMarks _)

theorem sound_cycleBoundaryWork {s : State} (h : Sound s) (t : Timer) : Sound (s.cycleBoundaryWork t) := by
  unfold State.cycleBoundaryWork
  dsimp only
  have h0 := sound_openingWork ((good_dropChoices s 5).sound h) t (s.applies t) s.boundaryOrder
  generalize State.openingWork _ _ _ _ = u at h0 ⊢
  generalize (!s.boundaryOrder.scrubFirst && !s.boundaryOrder.scrubSecond) = last
  have hp : ∀ p part, (if (last && s.boundaryOrder.asStood) = true then u.struckMap (s.applies t) else none) = some (p, part) →
      part < 3 := by
    intro p part e
    split at e
    · exact State.struckMap_part e
    · cases e
  have h1 := (good_closingWork _ s.boundaryOrder).sound
    (sound_lockBoundary ((good_mapsBeforeScrub u (s.applies t) _ hp).sound h0) s.lock.stored.isSome t.adjustment)
  split
  · exact (good_lastScrub _ _ hp).sound h1
  · exact h1

end Sys2Proof.Machine
end

