-- ==== Sys2Proof/Laws/PerInstr.lean ====
section
/-! SUPPORT. What holds of every command as syntax. -/

namespace Sys2Proof.Laws

/-- A command has a command code exactly where it is a frame of the management link, and the frame of a well-formed
command fits the receive buffer of 62 bytes (R161, R164). -/
def FrameFits.Statement (i : Instr) : Prop :=
  i.isManagement = (commandCode i).isSome ∧ (i.wellFormed = true → (encodeFrame i).length ≤ 62)

theorem FrameFits.resetAsserted : FrameFits.Statement .resetAsserted :=
  ⟨rfl, fun _ => Nat.le_of_ble_eq_true rfl⟩

theorem FrameFits.resetReleased : FrameFits.Statement .resetReleased :=
  ⟨rfl, fun _ => Nat.le_of_ble_eq_true rfl⟩

theorem FrameFits.initialisationPassDone : FrameFits.Statement .initialisationPassDone :=
  ⟨rfl, fun _ => Nat.le_of_ble_eq_true rfl⟩

theorem FrameFits.slotBoundary : FrameFits.Statement .slotBoundary :=
  ⟨rfl, fun _ => Nat.le_of_ble_eq_true rfl⟩

theorem FrameFits.cycleBoundary : FrameFits.Statement .cycleBoundary :=
  ⟨rfl, fun _ => Nat.le_of_ble_eq_true rfl⟩

theorem FrameFits.transactionStart : FrameFits.Statement .transactionStart :=
  ⟨rfl, fun _ => Nat.le_of_ble_eq_true rfl⟩

theorem FrameFits.transactionEnd : FrameFits.Statement .transactionEnd :=
  ⟨rfl, fun _ => Nat.le_of_ble_eq_true rfl⟩

theorem FrameFits.nop : FrameFits.Statement .nop :=
  ⟨rfl, fun _ => Nat.le_of_ble_eq_true rfl⟩

theorem FrameFits.readStatus : FrameFits.Statement .readStatus :=
  ⟨rfl, fun _ => Nat.le_of_ble_eq_true rfl⟩

theorem FrameFits.setGeometry (slots : Byte) (ticks : BitVec 16) : FrameFits.Statement (.setGeometry slots ticks) :=
  ⟨rfl, fun _ => Nat.le_of_ble_eq_true rfl⟩

theorem FrameFits.setSync (port : Byte) (tag : BitVec 16) (phi tolerance : BitVec 24) (maxStep holdoverLimit : Byte) : FrameFits.Statement (.setSync port tag phi tolerance maxStep holdoverLimit) :=
  ⟨rfl, fun _ => Nat.le_of_ble_eq_true rfl⟩

theorem FrameFits.loadMap (port : Byte) (kinds : List Byte) : FrameFits.Statement (.loadMap port kinds) := by
  refine ⟨rfl, fun h => ?_⟩
  have bounds : 1 ≤ kinds.length ∧ kinds.length ≤ 48 := of_decide_eq_true h
  simp only [encodeFrame, commandCode, encodeArguments, List.length_cons]
  omega

theorem FrameFits.commitMap (port : Byte) : FrameFits.Statement (.commitMap port) :=
  ⟨rfl, fun _ => Nat.le_of_ble_eq_true rfl⟩

theorem FrameFits.cancelMap (port : Byte) : FrameFits.Statement (.cancelMap port) :=
  ⟨rfl, fun _ => Nat.le_of_ble_eq_true rfl⟩

theorem FrameFits.admitStream (port : Byte) (tag : BitVec 16) (slot : Byte) (maxLength : BitVec 16) (frames : Byte) : FrameFits.Statement (.admitStream port tag slot maxLength frames) :=
  ⟨rfl, fun _ => Nat.le_of_ble_eq_true rfl⟩

theorem FrameFits.release (index : Byte) : FrameFits.Statement (.release index) :=
  ⟨rfl, fun _ => Nat.le_of_ble_eq_true rfl⟩

theorem FrameFits.purge (index : Byte) : FrameFits.Statement (.purge index) :=
  ⟨rfl, fun _ => Nat.le_of_ble_eq_true rfl⟩

theorem FrameFits.readReservation (index : Byte) : FrameFits.Statement (.readReservation index) :=
  ⟨rfl, fun _ => Nat.le_of_ble_eq_true rfl⟩

theorem FrameFits.setRing (port ring kind : Byte) (base : BitVec 24) (count : BitVec 16) : FrameFits.Statement (.setRing port ring kind base count) :=
  ⟨rfl, fun _ => Nat.le_of_ble_eq_true rfl⟩

theorem FrameFits.clearRing (port ring : Byte) : FrameFits.Statement (.clearRing port ring) :=
  ⟨rfl, fun _ => Nat.le_of_ble_eq_true rfl⟩

theorem FrameFits.setMemory (limit : BitVec 16) : FrameFits.Statement (.setMemory limit) :=
  ⟨rfl, fun _ => Nat.le_of_ble_eq_true rfl⟩

theorem FrameFits.setPort (port rate extra : Byte) (lead guard maxFrame : BitVec 16)
    (failMode requireLock reclaim unreserved stale silence : Byte) :
    FrameFits.Statement
      (.setPort port rate extra lead guard maxFrame failMode requireLock reclaim unreserved stale silence) :=
  ⟨rfl, fun _ => Nat.le_of_ble_eq_true rfl⟩

theorem FrameFits.portEnforce (port : Byte) : FrameFits.Statement (.portEnforce port) :=
  ⟨rfl, fun _ => Nat.le_of_ble_eq_true rfl⟩

theorem FrameFits.portHold (port : Byte) : FrameFits.Statement (.portHold port) :=
  ⟨rfl, fun _ => Nat.le_of_ble_eq_true rfl⟩

theorem FrameFits.portTransparent (port : Byte) : FrameFits.Statement (.portTransparent port) :=
  ⟨rfl, fun _ => Nat.le_of_ble_eq_true rfl⟩

theorem FrameFits.readPort (port selector : Byte) : FrameFits.Statement (.readPort port selector) :=
  ⟨rfl, fun _ => Nat.le_of_ble_eq_true rfl⟩

theorem FrameFits.readEvent : FrameFits.Statement .readEvent :=
  ⟨rfl, fun _ => Nat.le_of_ble_eq_true rfl⟩

theorem FrameFits.setEvents (mask : BitVec 32) (enable : Byte) : FrameFits.Statement (.setEvents mask enable) :=
  ⟨rfl, fun _ => Nat.le_of_ble_eq_true rfl⟩

theorem FrameFits.clearCounters (selector index : Byte) : FrameFits.Statement (.clearCounters selector index) :=
  ⟨rfl, fun _ => Nat.le_of_ble_eq_true rfl⟩

theorem FrameFits.readAccepted (tag : Tag) (address : Address) : FrameFits.Statement (.readAccepted tag address) :=
  ⟨rfl, fun _ => Nat.le_of_ble_eq_true rfl⟩

theorem FrameFits.controllerWrite (tag : Tag) (address : Address) (data : Word) (lanes : BitVec 4) : FrameFits.Statement (.controllerWrite tag address data lanes) :=
  ⟨rfl, fun _ => Nat.le_of_ble_eq_true rfl⟩

theorem FrameFits.memoryResponse (tag : Tag) (data : Word) (error : Bool) : FrameFits.Statement (.memoryResponse tag data error) :=
  ⟨rfl, fun _ => Nat.le_of_ble_eq_true rfl⟩

theorem FrameFits.readTimeout (tag : Tag) : FrameFits.Statement (.readTimeout tag) :=
  ⟨rfl, fun _ => Nat.le_of_ble_eq_true rfl⟩

theorem FrameFits.quarantineExpiry (tag : Tag) : FrameFits.Statement (.quarantineExpiry tag) :=
  ⟨rfl, fun _ => Nat.le_of_ble_eq_true rfl⟩

theorem FrameFits.mgtSckEdge (edge : SckEdge) : FrameFits.Statement (.mgtSckEdge edge) :=
  ⟨rfl, fun _ => Nat.le_of_ble_eq_true rfl⟩

end Sys2Proof.Laws
end

