-- ==== Sys2Proof/Tests/Slice0.lean ====
section
/-! SUPPORT. Tests: the well-formedness check, worked examples of the manual (the chapter is named at each), and for every
statement with hypotheses a state and operands that meet them. -/

namespace Sys2Proof.Tests

set_option Elab.async false

open Sys2Proof Sys2Proof.Machine

/-! ### States -/

/-- After the initialisation pass. -/
def idle : State := { State.reset with prot := { State.reset.prot with busy := false } }

/-- N = 8, S = 12,500, cycle 500 begun at device time 0. -/
def timer : Timer := ⟨⟨8, 12500⟩, none, 500, 0, 0⟩

/-- The timer RUNNING, nothing else configured. -/
def running : State := { idle with timer := some timer }

/-- The settings of port 2 in the example of 07: RATE_100M, extra bytes 4, lead 120, guard 200, reclaim on, stale limit 2. -/
def settings : Settings := ⟨.rate100M, 4, 120, 200, 1522, .passAll, false, true, .asGeneral, 2, 8⟩

/-- The stream of entry 0 of that example: port 2, tag 101, slot 1, maximum length 300, one frame per cycle. -/
def stream : Reservation := ⟨2, 101, 1, 1, 300, 0, 0, false, false, 2624, 499⟩

/-- The map R R O O O O O C of that example. -/
def kinds : List SlotKind :=
  [.reserved, .reserved, .openSlot, .openSlot, .openSlot, .openSlot, .openSlot, .closed]

/-- Port 2 ENFORCING, entry 0 in this state, no read under way, at device time `now`. -/
def cell (st : EntryState) (now : DeviceTime) : State :=
  let s := (running.putActive 2 kinds).putReservation 0 stream
  { (s.updEntry 0 (fun e => { e with state := st })).updPort 2 (fun q => { q with gate := .enforcing, settings }) with
      order := [0], time := now, choices := ⟨List.replicate 5 false, 0⟩ }

/-- The cell with a lock. -/
def locked (l : LockState) (stored : Option Int) (now : DeviceTime) : State :=
  { cell .active now with
      lock := { Lock.initial with state := l, port := some 4, tag := 1900, phi := 2000, tolerance := 500, stored } }

/-- A transaction under way in which these bytes have been received. -/
def receiving (s : State) (bytes : List Byte) : State :=
  { s with link := { s.link with csnLow := true, receiving := true, buffer := bytes, count := bytes.length } }

/-- A motion frame, or a general one, of port 2. -/
def frame (motion : Bool) (tag length : Nat) : Candidate :=
  ⟨2, motion, 0x8010, BitVec.ofNat 32 (2 ^ 31 + 65536 * tag + length)⟩

/-- The next state of an outcome, `State.reset` where there is none. -/
def after (o : Host.Outcome State Fault Refusal) : State :=
  match o with
  | .next t => t
  | _ => State.reset

theorem ready_of {s : State} (a : s.takesFrame = true) (b : s.prot.busy = false) : s.ready := ⟨a, b⟩

theorem nothingDue_of {s : State} {n : Nat} (a : s.resetAsserted = false)
    (b : s.nextBoundary.all (fun x => decide (n < x.1)) = true)
    (c : s.prot.busy = true → s.time.toNat + n ≤ 1024)
    (d : s.path.inFlight.all (fun r => decide (n ≤ ticksUntil s.time r.deadline)) = true)
    (e : s.path.quarantine.all (fun q => decide (n ≤ ticksUntil s.time q.expiry)) = true) : s.nothingDue n where
  released := a
  boundary := fun x h => by rw [h] at b; exact of_decide_eq_true b
  initEnd := c
  reads := fun r h => of_decide_eq_true (List.all_eq_true.mp d r h)
  tags := fun q h => of_decide_eq_true (List.all_eq_true.mp e q h)

theorem ok_of {t : Timer} {now : DeviceTime} (a : t.staged = none)
    (b : decide (2 ≤ t.geometry.slots ∧ t.geometry.slots ≤ 48 ∧ 500 ≤ t.geometry.ticks ∧ t.geometry.ticks ≤ 65535
      ∧ -255 ≤ t.adjustment ∧ t.adjustment < t.geometry.cycleTicks ∧ t.position now < t.length) = true) : t.ok now := by
  obtain ⟨h1, h2, h3, h4, h5, h6, h7⟩ := of_decide_eq_true b
  exact ⟨⟨h1, h2, h3, h4⟩, fun g h => absurd (a.symm.trans h) (by simp), h5, h6, h7⟩

/-- The table memory of the cell is sound, whatever the state of its entry and the time. -/
theorem cell_wf (st : EntryState) (now : DeviceTime) : MemoryInv (cell st now) :=
  (by decide +kernel : MemoryInv (cell .active 0))

/-- No bit of the cell's table memory is wrong. -/
theorem cell_clean (st : EntryState) (now : DeviceTime) : (cell st now).cleanTable :=
  State.cleanTable.of_memory (s := cell .active 0) (State.cleanTable_of_all (by decide +kernel)) rfl

theorem cell_ready (st : EntryState) (now : DeviceTime) : (cell st now).ready := ready_of rfl rfl

/-- The admission order list of the cell is exact, unless its entry is FREE. -/
theorem cell_order (st : EntryState) (now : DeviceTime) (h : st ≠ .free) : OrderInv (cell st now) where
  once := (by decide : [(0 : EntryIndex)].Nodup)
  exact := fun i => by
    have e : ((cell st 0).entry i).state = if i = 0 then st else .free := by revert i; cases st <;> decide +kernel
    change _ ↔ ((cell st 0).entry i).state ≠ _
    rw [e]
    show i ∈ [(0 : EntryIndex)] ↔ _
    by_cases hi : i = 0 <;> simp [hi, h]

theorem quiet_of {s : State} (a : s.resetAsserted = false) (b : s.prot.busy = false) (c : s.path.inFlight = [])
    (d : s.path.quarantine = []) : s.quiet := ⟨a, b, c, d⟩

/-! ### Well-formedness, and the words of the table -/

theorem test_wellFormed_refuses_no_kinds : (Instr.loadMap 2 []).wellFormed = false := by decide

theorem test_wellFormed_refuses_49_kinds : (Instr.loadMap 2 (List.replicate 49 0)).wellFormed = false := by decide

theorem test_wellFormed_takes_48_kinds : (Instr.loadMap 2 (List.replicate 48 0)).wellFormed = true := by decide

/-- No row of the table has bits. -/
theorem test_no_table_word : decodeTableWord 16 0x1234 = none := rfl

/-! ### Frames, from 'Reading an Answer' of 10 -/

theorem test_frame_nop : decodeFrame 2 [0x00, 0x00] = some .nop := by decide

theorem test_frame_set_geometry : decodeFrame 5 [0x10, 0x03, 0x08, 0x30, 0xD4] = some (.setGeometry 8 12500) := by decide

theorem test_frame_admit_with_six_arguments :
    decodeFrame 8 [0x30, 0x06, 0x02, 0x00, 0x65, 0x01, 0x01, 0x2C] = none := by decide

theorem test_frame_admit :
    decodeFrame 9 [0x30, 0x07, 0x02, 0x00, 0x65, 0x01, 0x01, 0x2C, 0x01] = some (.admitStream 2 101 1 300 1) := by decide

theorem test_started_answer :
    (after (exec .transactionEnd (receiving idle [0x10, 0x03, 0x08, 0x30, 0xD4]))).link.record = ⟨.ok, 0x10, [0x00]⟩ := by
  decide +kernel

theorem test_bad_frame_answer :
    (after (exec .transactionEnd (receiving running [0x30, 0x06, 0x02, 0x00, 0x65, 0x01, 0x01, 0x2C]))).link.record
      = ⟨.badFrame, 0x30, []⟩ := by decide +kernel

theorem test_slot_kind_answer :
    (after (exec (.admitStream 2 101 1 300 1) running)).link.record = ⟨.slotKind, 0x30, []⟩ := by decide +kernel

/-- With extra bytes 4 and slot 1 of port 2 RESERVED: entry 0 and cost 000A40h. -/
theorem test_admit_answer :
    (after (exec (.admitStream 2 101 1 300 1)
      ((running.putActive 2 kinds).updPort 2 (fun q => { q with settings })))).link.record
      = ⟨.ok, 0x30, [0x00, 0x00, 0x0A, 0x40]⟩ := by decide +kernel

theorem test_busy_answer : (after (exec (.setGeometry 8 12500) State.reset)).link.record = ⟨.busy, 0x10, []⟩ := by
  decide +kernel

theorem test_status_bytes : (after (exec .readStatus State.reset)).link.record.result
    = [0, 0, 0, 0, 2] ++ List.replicate 46 0 := by decide +kernel

/-! ### Arithmetic -/

/-- Durations of 07 and 12: 280 and 300 bytes at 100M with 4 extra bytes, 300 bytes at 10M, 1,522 bytes with none. -/
theorem test_durations :
    duration settings 280 = 2464 ∧ duration settings 300 = 2624 ∧ duration settings 1000 = 8224
      ∧ duration { settings with rate := .rate10M } 300 = 26240 ∧ duration Settings.initial 1522 = 12368 := by decide

/-- 02, 'Acquisition': the mark at 99,000 folds to -3,000 and the alignment adjustment is 97,000. -/
theorem test_alignment : foldedError 100000 2000 99000 = -3000 ∧ alignmentAdjustment 100000 (-3000) = 97000 := by decide

/-- 02, 'Single Marks': the corrections 45, -64 and 22. -/
theorem test_corrections :
    correction false 64 180 = 45 ∧ correction false 64 (-300) = -64 ∧ correction true 64 180 = 22 := by decide

/-! ### Single commands -/

/-- 02, 'Jitter and Holdover', cycle 902: history GOOD, OUTLIER, OUTLIER, the flag set, miss run 1. -/
theorem test_jitter_boundary :
    let l := { Lock.initial with state := .locked, middle := .good, newest := .outlier, first := .outlier }
    (l.recordCycle.jitter, l.recordCycle.recordMiss.missRun, l.recordCycle.oldest) = (true, 1, .good) := by decide

/-- 07, 'One Cycle on Port 2', T + 12,600: PASS, busy-until T + 15,184, used 1. -/
theorem test_release :
    let out := gateDecision (frame true 101 280) (cell .active 12600)
    out.1 = .pass ∧ (out.2.port 2).busy = some 15184 ∧ (out.2.reservation 0).used = 1 := by decide +kernel

/-- 07, T + 26,100: a frame of tag 101 in slot 2 is held, with a record of cycle 500. -/
theorem test_hold :
    let out := gateDecision (frame true 101 280) (cell .active 26100)
    out.1 = .hold ∧ out.2.holds.records = [⟨0x8010, 2, 0, 500⟩] := by decide +kernel

/-- 07, T + 26,000: a general frame of 1,000 bytes fits before slot 7, busy-until T + 34,344. -/
theorem test_general_open :
    let out := gateDecision (frame false 0 1000) (cell .active 26000)
    out.1 = .pass ∧ (out.2.port 2).busy = some 34344 := by decide +kernel

/-- 07, T + 14,000: a general frame in the RESERVED slot 1 is held while entry 0 has not released. -/
theorem test_general_reserved : (gateDecision (frame false 0 1000) (cell .active 14000)).1 = .hold := by decide +kernel

/-- 07, T + 25,000: the slot boundary that ends slot 1 counts a miss of an entry that released nothing. -/
theorem test_slot_boundary :
    let t := after (exec .slotBoundary (cell .active 14000))
    t.time = 25000 ∧ (t.reservation 0).misses = 1 ∧ (t.port 2).counters.missedSlots = 1 := by decide +kernel

/-- R72: a PENDING entry is ACTIVE from the cycle boundary, and RES_ACTIVE with its slot is raised. -/
theorem test_cycle_boundary :
    let t := after (exec .cycleBoundary (cell .pending 90000))
    t.cycleNumber = 501 ∧ (t.entry 0).state = .active
      ∧ t.events.queue.map (fun e => (e.kind, e.detail)) = [(.resActive, 1)] := by decide +kernel

/-- 07, 'Enforcing Before Lock': with require lock on and no lock the answer is 03h 01h, with PORT_FAILSAFE 0001h. -/
theorem test_enforce_before_lock :
    let s := running.updPort 4 (fun q => { q with settings := { q.settings with requireLock := true } })
    let t := after (exec (.portEnforce 4) s)
    t.link.record.result = [0x03, 0x01] ∧ t.events.queue.map EventEntry.detail = [0x0001] := by decide +kernel

/-- R49 to R51, R119: busy-until is the lead and a 1,522-byte frame away: 120 + 12,400 ticks. -/
theorem test_enforce :
    ((after (exec (.portEnforce 2) (running.updPort 2 (fun q => { q with settings })))).port 2).busy = some 12520 := by
  decide +kernel

/-- 09, the table of R159, an ACTIVE entry at the end of its slot: the scrub first, no miss is counted; the check first,
one is, on the entry as it stood, which the scrub then faults (8000h); or the check finds the word itself (R153). In a
word that the check has rewritten the scrub finds the wrong bits again, or the word as written (R63). -/
theorem test_scrub_and_missed_slot_check :
    let run := fun (k : Fin 1024) choices =>
      let s := (cell .active 14000).setFlips k 3
      after (exec .slotBoundary { s with prot := { s.prot with scrub := k }, choices := ⟨choices, 0⟩ })
    let shown := fun t : State => (((t.entry 0).totalMisses, (t.entry 0).state), t.events.queue.map EventEntry.detail)
    shown (run 2 [true, false, false]) = ((0, .faulted), [0x8002, 2, 0x0002])
    ∧ shown (run 2 [false, true, false]) = ((1, .faulted), [0x8002, 2, 0x0002])
    ∧ shown (run 2 [false, false, false]) = ((0, .faulted), [0x0002, 2, 0x0002])
    ∧ shown (run 1 [false, true, true]) = ((1, .faulted), [0x8001, 2, 0x0002])
    ∧ shown (run 1 [false, true, false]) = ((1, .active), []) := by decide +kernel

/-- R79, R158: a PENDING entry that the walk of a freed slot finds uncorrectable is FAULTED and not activated, also where the
scrub of the boundary reads the same word later. -/
theorem test_walk_of_freed_slot_faults :
    let s := ((cell .releasing 99999).putReservation 1 { stream with tag := 102 }).setEntryState 1 .pending
    let s := { s.setFlips 7 3 with order := [0, 1] }
    let t := after (exec .cycleBoundary
      { s with prot := { s.prot with scrub := 7 }, choices := ⟨[false, false, false, true, true], 0⟩ })
    (t.entry 1).state = .faulted ∧ t.events.queue.map (fun e => (e.kind, e.detail))
      = [(.resFreed, 1), (.memUncorrectable, 7), (.resFaulted, 1), (.portFailsafe, 0x0002)] := by decide +kernel

/-- 09, the table of R159, 'A committed pending map': the scrub first, it is cancelled; the map change first, it is active,
then BAD. -/
theorem test_scrub_and_map_change :
    let s := { (cell .free 99999).setFlips 301 3 with order := [] }
    let s := s.setMaps 7 ⟨false, some ⟨8, true⟩⟩
    let run := fun choices => after (exec .cycleBoundary { s with prot := { s.prot with scrub := 301 }, choices := ⟨choices, 0⟩ })
    let shown := fun t : State => ((t.mapsOf 7).bad, t.events.queue.map EventEntry.kind)
    shown (run [true, false, false, false, false]) = (false, [.memUncorrectable, .mapCancelled])
    ∧ shown (run [false, false, false, true, false]) = (true, [.mapApplied, .memUncorrectable]) := by decide +kernel

/-- 12, 'An Uncorrectable Entry': word 5 with two wrong bits, read by the scrubber. -/
theorem test_uncorrectable_entry :
    let s := cell .active 0
    let s := s.setMemory (s.prot.memory.write 1 ⟨s.data 1, 3⟩)
    (s.checkWord true 1).events.queue.map (fun e => (e.kind, e.detail))
      = [(.memUncorrectable, 0x8001), (.resFaulted, 2), (.portFailsafe, 0x0002)] := by decide +kernel

/-- R108: the hold form and the drop form of a status word. -/
theorem test_forms : substitute .hold 0xB0650118 = 0x30650118 ∧ substitute .drop 0xB0650118 = 0xF0650118 := by decide

/-- R98, R101: after SET_MEMORY 16 a read presented at tick 0 times out at tick 16 and its tag is quarantined to tick 80. -/
theorem test_timeout :
    let s := after (exec (.readAccepted 5 0x1000) (after (exec (.setMemory 16) idle)))
    let t := after (exec (.readTimeout 5) s)
    t.time = 16 ∧ t.path.quarantine = [⟨5, 80⟩] ∧ t.path.toController = [⟨5, 0, true⟩] := by decide +kernel

/-- R99: a read of tag 7 waits; at the expiry of its quarantine it is accepted, and a response with the tag at that instant
is late and gives the controller nothing; a tick later the response answers the read. -/
theorem test_response_at_expiry :
    let s := { idle with path := { idle.path with quarantine := [⟨7, 64⟩], waiting := [.read 7 0x2000] } }
    let t := after (exec (.quarantineExpiry 7) s)
    let shown := fun u : State => (u.path.inFlight.map InFlightRead.tag, u.path.lates, u.path.toController)
    shown t = ([7], 0, [])
    ∧ shown (after (exec (.memoryResponse 7 0x123 false) t)) = ([7], 1, [])
    ∧ shown (after (exec (.memoryResponse 7 0x123 false) (after (step t)))) = ([], 0, [⟨7, 0x123, false⟩]) := by
  decide +kernel

/-- R177: an empty queue answers twelve bytes of 00h. -/
theorem test_read_empty_queue : (after (exec .readEvent idle)).link.record.result = List.replicate 12 0x00 := by
  decide +kernel

/-- R103: a base that is not 8-aligned is refused, the last ring of the address space is taken. -/
theorem test_set_ring :
    (after (exec (.setRing 0 0 1 0xFFFFE4 4) idle)).link.record.status = .badArgument
      ∧ (after (exec (.setRing 0 0 1 0xFFFFE0 4) idle)).link.record = ⟨.ok, 0x40, [0x00]⟩ := by decide +kernel

/-- R39: a committed pending map that is replaced answers 02h. -/
theorem test_load_map :
    (after (exec (.loadMap 2 (List.replicate 8 1)) (running.setMaps 2 ⟨false, some ⟨8, true⟩⟩))).link.record
      = ⟨.ok, 0x20, [0x02]⟩ := by decide +kernel

/-- R76: PURGE on an entry that is not FAULTED is refused. -/
theorem test_purge : (after (exec (.purge 0) (cell .active 0))).link.record = ⟨.state, 0x32, []⟩ := by decide +kernel

/-- R78: a FREE entry answers one byte. -/
theorem test_read_reservation : (after (exec (.readReservation 63) idle)).link.record = ⟨.ok, 0x33, [0x00]⟩ := by
  decide +kernel

/-- R19: a tolerance of C/2 is refused. -/
theorem test_set_sync :
    (after (exec (.setSync 0xFF 0 0 50000 1 1) running)).link.record.status = .badArgument
      ∧ (after (exec (.setSync 0xFF 0 0 49999 1 1) running)).link.record = ⟨.ok, 0x11, [0x00]⟩ := by decide +kernel

/-! ### The hypotheses of the statements can be met -/

/-- The shared hypotheses of the statements about boundaries. -/
def AtBoundary (s : State) (t : Timer) : Prop :=
  s.timer = some t ∧ t.ok s.time ∧ s.quiet ∧ MemoryInv s ∧ s.cleanTable

theorem atBoundary_cell (st : EntryState) (now : DeviceTime) (h : timer.position now < timer.length) :
    AtBoundary (cell st now) timer :=
  ⟨rfl, ok_of rfl (decide_eq_true ⟨by decide, by decide, by decide, by decide, by decide, by decide, h⟩),
    quiet_of rfl rfl rfl rfl, cell_wf st now, cell_clean st now⟩

theorem witness_StepRunsFrontCommand :
    { idle with pending := [.nop, .readEvent] }.pending = Instr.nop :: [.readEvent] := rfl

/-- In the first and the last tick of the initialisation pass, and with the timer RUNNING. -/
theorem witness_EmptyQueueIsOneTick :
    (State.reset.pending = [] ∧ State.reset.nothingDue 1)
    ∧ ({ State.reset with time := 1023 }.pending = [] ∧ { State.reset with time := 1023 }.nothingDue 1)
    ∧ (running.pending = [] ∧ running.nothingDue 1) :=
  ⟨⟨rfl, nothingDue_of rfl rfl (by decide) rfl rfl⟩, ⟨rfl, nothingDue_of rfl rfl (by decide) rfl rfl⟩,
    rfl, nothingDue_of rfl (by decide) (by decide) rfl rfl⟩

theorem witness_ResetPinAsserted : { running with resetAsserted := true }.resetAsserted = true := rfl

/-- From the first tick of the pass and at its last instant. -/
theorem witness_InitialisationPassEnds :
    (State.reset.prot.busy = true ∧ State.reset.nothingDue (1024 - State.reset.time.toNat)
      ∧ State.reset.time.toNat ≤ 1024)
    ∧ { State.reset with time := 1024 }.prot.busy = true ∧ { State.reset with time := 1024 }.nothingDue (1024 - 1024) :=
  ⟨⟨rfl, nothingDue_of rfl rfl (by decide) rfl rfl, by decide⟩, rfl, nothingDue_of rfl rfl (by decide) rfl rfl⟩

/-- STOPPED; in the last tick of the last slot; in slot 1, where entry 0 counts a miss, and turns silent at a limit of 1; in
slot N - 2, where it does not. -/
theorem witness_SlotBoundaryCountsMisses :
    idle.timer = none ∧ AtBoundary (cell .active 99999) timer ∧ AtBoundary (cell .active 12500) timer
    ∧ AtBoundary (cell .active 87499) timer ∧ timer.slot 99999 + 1 = timer.geometry.slots
    ∧ timer.slot 12500 + 1 < 8 ∧ (cell .active 12500).misses 1 0 = true ∧ (cell .active 12500).silences 1 0 = false
    ∧ ((cell .active 12500).updPort 2 (fun q => { q with settings := { settings with silence := 1 } })).silences 1 0 = true
    ∧ timer.slot 87499 + 1 = 7 ∧ (cell .active 87499).misses 6 0 = false :=
  ⟨rfl, atBoundary_cell _ _ (by decide), atBoundary_cell _ _ (by decide), atBoundary_cell _ _ (by decide), by decide +kernel⟩

/-- For CycleBoundaryTurnsTimer and CycleBoundaryChangesMaps: a staged geometry that is applied: no entry in use, no gate
enforcing, the lock FREE. -/
theorem witness_CycleBoundaryTurnsTimer_applied :
    let t : Timer := { timer with staged := some ⟨2, 500⟩ }
    let s : State := { running with timer := some t, time := 99999 }
    s.timer = some t ∧ t.ok s.time ∧ s.quiet ∧ MemoryInv s ∧ s.cleanTable ∧ t.slot s.time + 1 = t.geometry.slots
      ∧ t.staged = some ⟨2, 500⟩ ∧ s.freeForGeometry := by
  refine ⟨rfl, ⟨⟨by decide, by decide, by decide, by decide⟩, ?_, by decide, by decide, by decide +kernel⟩,
    quiet_of rfl rfl rfl rfl, by decide +kernel, fun _ => rfl, by decide +kernel, rfl, by decide +kernel, by decide +kernel, rfl⟩
  intro g h
  cases h
  exact ⟨⟨by decide, by decide, by decide, by decide⟩, by decide⟩

/-- For CycleBoundaryTurnsTimer, CycleBoundaryChangesMaps and CycleBoundaryMovesEntries: the first tick of the last slot,
with and without a committed pending map, a PENDING, an ACTIVE and a RELEASING entry, and no geometry that could be applied;
a pair that is freed and has an entry that stays. -/
theorem witness_CycleBoundaryMovesEntries_cell :
    let two := ((cell .releasing 87500).putReservation 1 { stream with tag := 102 }).setEntryState 1 .active
    (∀ st, AtBoundary (cell st 87500) timer) ∧ (∀ st, st ≠ .free → OrderInv (cell st 87500))
    ∧ ¬ (cell .pending 87500).freeForGeometry
    ∧ timer.slot 87500 + 1 = timer.geometry.slots ∧ timer.staged = none
    ∧ ((cell .pending 87500).setMaps 2 ⟨false, some ⟨8, true⟩⟩ |>.mapsOf 2).waiting = some ⟨timer.geometry.slots, true⟩
    ∧ ((cell .pending 87500).mapsOf 2).waiting ≠ some ⟨timer.geometry.slots, true⟩
    ∧ ((cell .pending 87500).entry 0).state = .pending ∧ ((cell .active 87500).entry 0).state = .active
    ∧ ((cell .releasing 87500).entry 0).state = .releasing
    ∧ ((two.entry 0).state = .releasing ∧ (two.entry 1).state = .active
      ∧ (two.reservation 0).port = (two.reservation 1).port ∧ (two.reservation 0).slot = (two.reservation 1).slot) :=
  ⟨fun st => atBoundary_cell st _ (by decide), fun st h => cell_order st _ h, fun h => absurd (h.entries 0) (by decide +kernel),
    by decide +kernel⟩

/-- Each lock state at the last tick of a cycle; HOLDOVER below its limit and reaching it; and, for the gates, a port that
loses the lock and one that wins it. -/
theorem witness_CycleBoundaryInEachLockState :
    (∀ l v, AtBoundary (locked l v 99999) timer) ∧ timer.slot 99999 + 1 = timer.geometry.slots
    ∧ (locked .aligning (some 97000) 99999).lock.stored ≠ none ∧ (locked .aligning none 99999).lock.stored = none
    ∧ (locked .holdover none 99999).lock.holdoverCount + 1 < (locked .holdover none 99999).lock.holdoverLimit
    ∧ { Lock.initial with holdoverCount := 7 }.holdoverLimit ≤ { Lock.initial with holdoverCount := 7 }.holdoverCount + 1 :=
  ⟨fun l v => ⟨rfl, (atBoundary_cell .active 99999 (by decide)).2.1, quiet_of rfl rfl rfl rfl, cell_wf .active 99999,
    State.cleanTable.of_memory (cell_clean .active 99999) rfl⟩, by decide⟩

/-- A port that leaves ENFORCING at a loss of the lock, one that does not, and one that returns at LOCKED. -/
theorem witness_LockReportsMoveGates :
    let need := (cell .active 0).updPort 2 (fun q => { q with settings := { q.settings with requireLock := true } })
    let lost := need.updPort 2 (fun q => { q with gate := .failsafe, cause := .lockLost, busy := none })
    ((need.port 2).gate = .enforcing ∧ (need.port 2).settings.requireLock = true)
    ∧ ((cell .active 0).port 2).settings.requireLock = false
    ∧ (lost.port 2).gate = .failsafe ∧ (lost.port 2).cause = .lockLost := by decide +kernel

/-- A record at age 31 stays, one at age 32 goes. -/
theorem witness_HoldRecordsExpireAtAge32 :
    let s : State := { running with holds := ⟨[⟨8, 2, 0, 468⟩, ⟨16, 2, 0, 469⟩], 0, 0⟩ }
    s.holds.records.length ≤ 32
    ∧ s.holds.records.filter (fun r => decide ((s.cycleNumber - r.firstHeld).toNat = 32)) = [⟨8, 2, 0, 468⟩]
    ∧ running.holds.records.filter (fun r => decide ((running.cycleNumber - r.firstHeld).toNat = 32)) = [] := by decide +kernel

theorem witness_TransactionBeginsAndEnds :
    (idle.link.csnLow = false ∧ idle.resetAsserted = false)
    ∧ ((receiving idle []).link.csnLow = true ∧ (receiving idle []).link.count = 0)
    ∧ (receiving idle [0x00]).link.receiving = true ∧ (receiving idle [0x00]).link.count ≠ 0
    ∧ decodeFrame (receiving idle [0x00]).link.count (receiving idle [0x00]).link.buffer = none := by decide

/-- With room for one byte more, and with none; before the fall of MGT_CSN; outside a transaction. -/
theorem witness_EightRisingEdgesCarryOneByte :
    (idle.resetAsserted = false ∧ idle.link.csnLow = false ∧ idle.link.receiving = false) ∧ (receiving idle (List.replicate 61 0)).resetAsserted = false
    ∧ (receiving idle (List.replicate 61 0)).link.receiving = true ∧ (receiving idle (List.replicate 61 0)).link.bits = []
    ∧ (receiving idle (List.replicate 61 0)).link.buffer.length < 62
    ∧ ¬ (receiving idle (List.replicate 62 0)).link.buffer.length < 62 := by decide

/-- The record 0Ch 21h 01h 80h on MGT_DOUT (R163, R167, R171; the bytes written out by hand): SLOT_COUNT in the low bits of
the first byte, the first result bit at bit 24, zeros beyond bit 31. -/
theorem test_record_on_dout :
    let s := { receiving idle [] with link := { (receiving idle []).link with record := ⟨.slotCount, 0x21, [0x80]⟩ } }
    let dout := fun n => { s with link := { s.link with shifted := n } }.mgtDout
    (List.range 8).map dout = [false, false, false, false, true, true, false, false].map some
    ∧ dout 23 = some true ∧ dout 24 = some true ∧ dout 25 = some false ∧ dout 32 = some false ∧ idle.mgtDout = none := by
  decide

theorem witness_FrameRunsItsCommand :
    let s := receiving idle (encodeFrame (.setMemory 16))
    (Instr.setMemory 16).isManagement = true ∧ (Instr.setMemory 16).wellFormed = true ∧ s.resetAsserted = false
    ∧ s.link.csnLow = true ∧ s.link.receiving = true ∧ s.link.buffer = encodeFrame (.setMemory 16)
    ∧ s.link.count = (encodeFrame (.setMemory 16)).length := by decide

theorem witness_DecodeAndEncodeAgree :
    ((Instr.loadMap 7 (List.replicate 48 2)).isManagement = true ∧ (Instr.loadMap 7 (List.replicate 48 2)).wellFormed = true)
    ∧ decodeFrame 2 [0x60, 0x00] = some .readEvent := by decide

theorem witness_BusyDuringInitialisation :
    (commandCode (.setMemory 16) = some 0x42 ∧ (Instr.setMemory 16).wellFormed = true ∧ State.reset.takesFrame = true
      ∧ State.reset.prot.busy = true ∧ Instr.setMemory 16 ≠ .nop ∧ Instr.setMemory 16 ≠ .readStatus)
    ∧ { State.reset with resetAsserted := true }.takesFrame = false := by decide

theorem witness_ReadStatusAnswers :
    State.reset.takesFrame = true ∧ State.reset.timer = none ∧ running.takesFrame = true ∧ running.timer = some timer := by
  decide

/-- The smallest and the largest geometry. -/
theorem witness_SetGeometryStartsTimer :
    idle.ready ∧ idle.freeForGeometry ∧ MemoryInv idle ∧ idle.timer = none
    ∧ (2 ≤ (0x02 : Byte).toNat ∧ 500 ≤ (500 : BitVec 16).toNat)
    ∧ (0x30 : Byte).toNat ≤ 48 ∧ 500 ≤ (65535 : BitVec 16).toNat :=
  ⟨ready_of rfl rfl, ⟨by decide +kernel, by decide +kernel, rfl⟩, by decide⟩

/-- One refusal each just outside the ranges, with an entry in use, with a gate enforcing; and both outcomes. -/
theorem witness_SetGeometryStagesOrRefuses :
    running.ready ∧ (cell .active 0).ready ∧ (cell .free 0).ready ∧ ¬ (cell .free 0).freeForGeometry
    ∧ running.freeForGeometry
    ∧ ¬ (2 ≤ (0x01 : Byte).toNat) ∧ ¬ ((0x31 : Byte).toNat ≤ 48) ∧ ¬ (500 ≤ (499 : BitVec 16).toNat)
    ∧ (2 ≤ (0x08 : Byte).toNat ∧ (0x08 : Byte).toNat ≤ 48 ∧ 500 ≤ (12500 : BitVec 16).toNat)
    ∧ ¬ (∀ i, ((cell .active 0).entry i).state = .free) ∧ (∀ i, ((cell .free 0).entry i).state = .free)
    ∧ running.timer = some timer ∧ timer.geometry = ⟨(0x08 : Byte).toNat, (12500 : BitVec 16).toNat⟩ :=
  ⟨ready_of rfl rfl, cell_ready _ _, cell_ready _ _, fun h => absurd (h.gates 2).1 (by decide +kernel),
    ⟨by decide +kernel, by decide +kernel, rfl⟩, by decide +kernel⟩

/-- STOPPED; a tolerance of 0; and the largest values with port none, from a lock that is held and one that is not. -/
theorem witness_SetSyncStoresSettings :
    idle.ready ∧ running.ready ∧ (locked .locked none 0).ready ∧ idle.timer = none ∧ running.timer = some timer
    ∧ (locked .locked none 0).timer = some timer ∧ ¬ (1 ≤ (0 : BitVec 24).toNat)
    ∧ ((0xFF : Byte) = 0xFF ∧ (4095 : BitVec 16).toNat < 4096
      ∧ (99999 : BitVec 24).toNat + 1 ≤ timer.geometry.cycleTicks ∧ 1 ≤ (49999 : BitVec 24).toNat
      ∧ (49999 : BitVec 24).toNat + 1 ≤ timer.geometry.cycleTicks / 2 ∧ 1 ≤ (0xFF : Byte).toNat
      ∧ ∀ p : PortIndex, (0xFF : Byte).toNat = p.val → running.ringValid (ringIndex p 4) = true) :=
  ⟨ready_of rfl rfl, ready_of rfl rfl, ready_of rfl rfl, rfl, rfl, rfl, by decide⟩

/-- A mark in each state: within the tolerance of 500 at its end, and one tick outside it; the eighth good interval. -/
theorem witness_MarkInEachLockState :
    let l := (locked .locked none 0).lock
    (foldedError 100000 l.phi (timer.position 2500)).natAbs ≤ l.tolerance
    ∧ l.tolerance < (foldedError 100000 l.phi (timer.position 2501)).natAbs
    ∧ l.goodMark = false ∧ { l with goodMark := true }.goodMark = true ∧ l.previousMark = none
    ∧ (((100505 : DeviceTime) - 5).toNat - (100000 : Int)).natAbs ≤ l.tolerance
    ∧ l.tolerance < (((100506 : DeviceTime) - 5).toNat - (100000 : Int)).natAbs := by decide +kernel

theorem witness_FoldedErrorIsDefined :
    (2 ≤ 100001 ∧ 0 < 100001 ∧ 200001 < 2 * 100001) ∧ (2 ≤ 2 ∧ 1 < 2 ∧ 0 < 2 * 2) := by decide

/-- STOPPED; port 8; a kind 3; a list too short; and a list of the length needed. -/
theorem witness_LoadMapStoresPendingMap :
    idle.ready ∧ running.ready ∧ MemoryInv idle ∧ idle.timer = none ∧ MemoryInv running ∧ running.timer = some timer
    ∧ ¬ ((0x08 : Byte).toNat < 8) ∧ ¬ (∀ b ∈ [(0x03 : Byte)], b.toNat ≤ 2)
    ∧ ((0x07 : Byte).toNat < 8 ∧ ∀ b ∈ List.replicate 8 (0x02 : Byte), b.toNat ≤ 2)
    ∧ (List.replicate 7 (0x02 : Byte)).length ≠ (timer.staged.getD timer.geometry).slots
    ∧ (List.replicate 8 (0x02 : Byte)).length = (timer.staged.getD timer.geometry).slots
    ∧ (7 : PortIndex).val = (0x07 : Byte).toNat :=
  ⟨ready_of rfl rfl, ready_of rfl rfl, by decide⟩

/-- Port 8; no pending map; a FAULTED entry; an entry that would lose its slot; and a map that takes none away. -/
theorem witness_CommitMapMarksPendingMap :
    let short := (cell .active 0).setMaps 2 ⟨false, some ⟨1, false⟩⟩
    let other := (cell .active 0).setMaps 3 ⟨false, some ⟨8, false⟩⟩
    short.ready ∧ short.cleanTable ∧ other.ready ∧ other.cleanTable ∧ 8 ≤ (0x08 : Byte).toNat
    ∧ (running.mapsOf 2).waiting = none ∧ (short.mapsOf 2).waiting = some ⟨1, false⟩
    ∧ ((cell .faulted 0).entry 0).state = .faulted
    ∧ (short.inUse 0 = true ∧ (short.reservation 0).port = 2 ∧ ¬ ((short.reservation 0).slot.toNat < 1))
    ∧ (other.mapsOf 3).waiting = some ⟨8, false⟩ ∧ (∀ i, (other.entry i).state ≠ .faulted)
    ∧ (∀ i, ¬ (other.inUse i = true ∧ (other.reservation i).port = 3)) :=
  ⟨ready_of rfl rfl, State.cleanTable.of_memory (cell_clean .active 0) rfl, ready_of rfl rfl,
    State.cleanTable.of_memory (cell_clean .active 0) rfl, by decide +kernel⟩

theorem witness_CancelMapDiscardsPendingMap :
    running.ready ∧ 8 ≤ (0x08 : Byte).toNat ∧ (7 : PortIndex).val = (0x07 : Byte).toNat
    ∧ (running.mapsOf 7).waiting = none
    ∧ ((running.setMaps 7 ⟨false, some ⟨8, true⟩⟩).mapsOf 7).waiting = some ⟨8, true⟩ :=
  ⟨ready_of rfl rfl, by decide, rfl, rfl, by decide +kernel⟩

/-- Each refusal of ADMIT and its taking. Entry 1 of the cell is the lowest FREE one; tag 101 is a duplicate, tag 102 in
slot 1 fits with one frame, slot 2 is OPEN, and four frames of the largest length do not fit. -/
theorem witness_AdmitPlacesOrRefuses :
    let s := cell .active 0
    let full := { s with table := Vector.replicate 64 ⟨.faulted, 0, 0, 0, 0⟩ }
    s.ready ∧ MemoryInv s ∧ s.cleanTable ∧ idle.timer = none ∧ s.timer = some timer
    ∧ ¬ ((0x08 : Byte).toNat < timer.geometry.slots) ∧ ¬ (60 ≤ (59 : BitVec 16).toNat) ∧ ¬ ((0x05 : Byte).toNat ≤ 4)
    ∧ (s.inUse 0 = true ∧ (s.reservation 0).port = 2 ∧ (s.reservation 0).tag.toNat = (101 : BitVec 16).toNat)
    ∧ (∀ i, ¬ (s.inUse i = true ∧ (s.reservation i).port = 2 ∧ (s.reservation i).tag.toNat = (102 : BitVec 16).toNat))
    ∧ (s.activeKind 2 1 = .reserved ∧ s.nextKind 2 1 = .reserved) ∧ s.activeKind 2 2 ≠ .reserved
    ∧ ((∀ i, (full.entry i).state ≠ .free)
      ∧ ∀ i, ¬ (full.inUse i = true ∧ (full.reservation i).port = 2
          ∧ (full.reservation i).tag.toNat = (102 : BitVec 16).toNat))
    ∧ (s.entry 1).state = .free ∧ (∀ j : EntryIndex, j < 1 → (s.entry j).state ≠ .free)
    ∧ ((allEntries.filter (s.counts 2 1)).map (fun i => (s.reservation i).cost.toNat)).sum = 2624
    ∧ ((2624 : Int) + (1 * duration settings 300 : Nat) ≤ 12500 - 200 - 120)
    ∧ ((12500 - 200 - 120 : Int) < 2624 + (4 * duration settings 16383 : Nat)) :=
  ⟨cell_ready _ _, cell_wf _ _, cell_clean _ _, by decide +kernel⟩

/-- For ReleaseByEntryState, PurgeFreesFaultedEntry and ReadReservationReports: index 64, and an entry in each of the five
states. -/
theorem witness_entry_commands :
    64 ≤ (0x40 : Byte).toNat ∧ (63 : EntryIndex).val = (0x3F : Byte).toNat ∧ (0 : EntryIndex).val = (0x00 : Byte).toNat
    ∧ (∀ st, (cell st 0).ready ∧ MemoryInv (cell st 0) ∧ (cell st 0).cleanTable ∧ ((cell st 0).entry 0).state = st) :=
  ⟨by decide, by decide, by decide, fun st => ⟨cell_ready _ _, cell_wf _ _, cell_clean _ _, by cases st <;> decide +kernel⟩⟩

/-- A receive ring valid for port 2, base 0. -/
def ringed : State := (running.putRing 14 ⟨.rxSync, 0, 4⟩).setRingValid 14 true

/-- A count of 3; a busy gate; a busy receive ring; an overlap by one descriptor; and the next free address. -/
theorem witness_SetRingStoresRing :
    let locked4 := { ringed with lock := { Lock.initial with state := .acquiring, port := some 2 } }
    ringed.ready ∧ ringed.cleanTable ∧ MemoryInv ringed ∧ ¬ (4 ≤ (3 : BitVec 16).toNat)
    ∧ ((0x07 : Byte).toNat < 8 ∧ (0x03 : Byte).toNat < 4 ∧ (0x01 : Byte).toNat < 2 ∧ (24 : BitVec 24).toNat % 8 = 0
      ∧ 4 ≤ (4096 : BitVec 16).toNat ∧ (4096 : BitVec 16).toNat ≤ 4096)
    ∧ (38 : RingIndex).val = 5 * (0x07 : Byte).toNat + (0x03 : Byte).toNat
    ∧ ((cell .active 0).port (ringPort 10)).gate = .enforcing
    ∧ (locked4.lock.port = some (ringPort 14) ∧ locked4.lock.state ≠ .free)
    ∧ ((14 : RingIndex) ≠ 38 ∧ ringed.ringValid 14 = true ∧ (24 : BitVec 24).toNat < (ringed.ring 14).limit
      ∧ (ringed.ring 14).base.toNat < (24 : BitVec 24).toNat + 8 * (4 : BitVec 16).toNat)
    ∧ (∀ o, ringed.ringValid o = true → ¬ (32 : BitVec 24).toNat < (ringed.ring o).limit) :=
  ⟨ready_of rfl rfl, State.cleanTable_of_all (by decide +kernel), by decide +kernel⟩

theorem witness_ClearRingInvalidatesRing :
    ringed.ready ∧ 8 ≤ (0x08 : Byte).toNat ∧ 5 ≤ (0x05 : Byte).toNat
    ∧ (14 : RingIndex).val = 5 * (0x02 : Byte).toNat + (0x04 : Byte).toNat
    ∧ ringed.lock.port ≠ some (ringPort 14) ∧ ringed.ringValid 14 = true ∧ running.ringValid 14 = false
    ∧ ((cell .active 0).port (ringPort 10)).gate = .enforcing := ⟨ready_of rfl rfl, by decide +kernel⟩

theorem witness_SetMemoryReplacesLimit :
    idle.ready ∧ (16 ≤ (16 : BitVec 16).toNat ∧ (4095 : BitVec 16).toNat ≤ 4095) ∧ ¬ (16 ≤ (15 : BitVec 16).toNat) :=
  ⟨ready_of rfl rfl, by decide, by decide⟩

/-- A state with three reads in flight and tag 7 in quarantine. -/
def reading : State :=
  { idle with path := { idle.path with
      inFlight := [⟨0, 0x1000, 0, 16, none⟩, ⟨1, 0x1008, 0, 32, none⟩, ⟨2, 0x1010, 0, 32, none⟩], quarantine := [⟨7, 64⟩] } }

/-- Tag 3 is accepted; tag 2 and tag 7 are not; with a fourth read in the list none is. At the head of what waits: a read
that passes, one that does not. -/
theorem witness_ReadIsAcceptedOrWaits :
    let waits := fun tag => { reading with path := { reading.path with waiting := [.read tag 0x2000, .read 4 0] } }
    reading.cleanTable ∧ (∀ tag, (waits tag).cleanTable) ∧ reading.resetAsserted = false ∧ reading.path.waiting = []
    ∧ (waits 3).path.waiting = .read 3 0x2000 :: [.read 4 0] ∧ (waits 7).path.waiting = .read 7 0x2000 :: [.read 4 0]
    ∧ (reading.path.inFlight.length < 4 ∧ (∀ r ∈ reading.path.inFlight, r.tag ≠ 3)
      ∧ ∀ q ∈ reading.path.quarantine, q.tag ≠ 3)
    ∧ ¬ (∀ r ∈ reading.path.inFlight, r.tag ≠ 2) ∧ ¬ (∀ q ∈ reading.path.quarantine, q.tag ≠ 7)
    ∧ ¬ ((reading.path.inFlight ++ [(⟨3, 0, 0, 16, none⟩ : InFlightRead)]).length < 4) :=
  ⟨fun _ => rfl, fun _ _ => rfl, by decide⟩

/-- A write behind a waiting read; a write that is no mark, alone and at the head of what waits; a write that is one, to the
last descriptor of the ring. -/
theorem witness_WritePassesAndIsSeen :
    let waits := { reading with path := { reading.path with waiting := [.read 7 0, .read 1 0] } }
    let head := { reading with path := { reading.path with waiting := [.write 3 24 0x876C0000 0xC, .read 4 0] } }
    let s := { ringed with lock := { Lock.initial with state := .acquiring, port := some 2, tag := 1900 } }
    running.cleanTable ∧ head.cleanTable ∧ s.cleanTable
    ∧ (waits.resetAsserted = false ∧ waits.path.waiting = .read 7 0 :: [.read 1 0] ∧ waits.path.accepts 7 = false)
    ∧ (head.path.waiting = .write 3 24 0x876C0000 0xC :: [.read 4 0] ∧ head.lock.port = none)
    ∧ running.path.waiting = [] ∧ running.lock.port = none
    ∧ s.resetAsserted = false ∧ s.path.waiting = [] ∧ s.timer = some timer
    ∧ (s.lock.port = some 2 ∧ s.ringValid (ringIndex 2 4) = true ∧ (s.ring (ringIndex 2 4)).kind = .rxSync
      ∧ (s.ring (ringIndex 2 4)).base.toNat ≤ (24 : Address).toNat
      ∧ (24 : Address).toNat < (s.ring (ringIndex 2 4)).base.toNat + 8 * (s.ring (ringIndex 2 4)).count.toNat
      ∧ (0xC#4).getLsbD 3 = true ∧ (0xC#4).getLsbD 2 = true ∧ (0x876C0000#32).getLsbD 31 = true
      ∧ (0x876C0000#32).extractLsb' 16 12 = s.lock.tag) :=
  ⟨fun _ => rfl, fun _ => rfl, State.cleanTable_of_all (by decide +kernel), by decide +kernel⟩

theorem witness_ResponsePassesOrIsLate :
    reading.cleanTable ∧ reading.resetAsserted = false ∧ reading.path.readWith 0 = some ⟨0, 0x1000, 0, 16, none⟩
    ∧ 0 ∉ reading.path.expired
    ∧ reading.candidateOf ⟨0, 0x1000, 0, 16, none⟩ 0x80000000 = none ∧ (∀ r ∈ reading.path.inFlight, r.tag ≠ 7)
    ∧ ({ reading with path := { reading.path with expired := [0] } }.cleanTable
      ∧ 0 ∈ { reading.path with expired := [(0 : Tag)] }.expired) :=
  ⟨fun _ => rfl, by decide, by decide, by decide, by decide, by decide, fun _ => rfl, by decide⟩

/-- A read of the last descriptor of a motion ring of port 2: READY, and READY with SKIP. -/
theorem witness_CandidateReceivesItsOutcome :
    let s := (running.putRing 10 ⟨.txMotion, 0x1000, 4⟩).setRingValid 10 true
    let s := { s with path := { s.path with inFlight := [⟨0, 0x1018, 0, 16, some 10⟩] } }
    s.cleanTable ∧ s.resetAsserted = false ∧ 0 ∉ s.path.expired ∧ s.path.readWith 0 = some ⟨0, 0x1018, 0, 16, some 10⟩
    ∧ s.candidateOf ⟨0, 0x1018, 0, 16, some 10⟩ 0xB0650118 = some ⟨2, true, 0x1018, 0xB0650118⟩
    ∧ s.candidateOf ⟨0, 0x1018, 0, 16, some 10⟩ 0xF0650118 = none :=
  ⟨State.cleanTable_of_all (by decide +kernel), by decide +kernel⟩

theorem witness_ReadTimesOut :
    reading.nothingDue (ticksUntil reading.time (InFlightRead.deadline ⟨0, 0x1000, 0, 16, none⟩))
    ∧ reading.path.readWith 0 = some ⟨0, 0x1000, 0, 16, none⟩ ∧ reading.prot.busy = false :=
  ⟨nothingDue_of rfl rfl (by decide) (by decide) (by decide), by decide⟩

/-- A read of the tag waits. -/
theorem witness_QuarantineExpires :
    let s := { idle with path := { idle.path with quarantine := [⟨7, 64⟩], waiting := [.read 7 0x2000] } }
    s.nothingDue (ticksUntil s.time 64) ∧ s.path.quarantineOf 7 = some ⟨7, 64⟩ ∧ s.prot.busy = false :=
  ⟨nothingDue_of rfl rfl (by decide) rfl (by decide), by decide⟩

/-- A rate code of 4; the settings that stand; and another guard, which is a budget input of entry 0. -/
theorem witness_SetPortReplacesSettings :
    (cell .active 0).ready ∧ MemoryInv (cell .active 0) ∧ (cell .active 0).cleanTable ∧ OrderInv (cell .active 0)
    ∧ ¬ ((0x04 : Byte).toNat < 4) ∧ (2 : PortIndex).val = (0x02 : Byte).toNat
    ∧ ((cell .active 0).port 2).settings.guard = (200 : BitVec 16).toNat
    ∧ ((cell .active 0).port 2).settings.guard ≠ (4095 : BitVec 16).toNat
    ∧ (cell .active 0).inUse 0 = true ∧ ((cell .active 0).reservation 0).port = 2
    ∧ ((cell .active 0).reservation 0).slot.toNat < timer.geometry.slots :=
  ⟨cell_ready _ _, cell_wf _ _, cell_clean _ _, cell_order _ _ (by decide), by decide +kernel⟩

/-- Port 8; a refusal; an ENFORCING port; a port to enforce; a port without its lock, in FAILSAFE and not. -/
theorem witness_PortEnforceByTable :
    let need := running.updPort 4 (fun q => { q with settings := { q.settings with requireLock := true } })
    let waits := need.updPort 4 (fun q => { q with gate := .failsafe, cause := .lockLost })
    idle.ready ∧ (cell .active 0).ready ∧ need.ready ∧ waits.ready ∧ idle.timer = none ∧ 8 ≤ (0x08 : Byte).toNat
    ∧ ((cell .active 0).timer ≠ none ∧ ((cell .active 0).mapsOf 2).bad = false
      ∧ (∀ i, ((cell .active 0).entry i).state ≠ .faulted) ∧ ((cell .active 0).port 2).gate = .enforcing)
    ∧ (need.timer ≠ none ∧ (need.mapsOf 4).bad = false ∧ (∀ i, (need.entry i).state ≠ .faulted)
      ∧ (need.port 3).settings.requireLock = false ∧ (need.port 3).gate = .transparent
      ∧ (need.port 4).settings.requireLock = true ∧ need.lock.state ≠ .locked ∧ need.lock.state ≠ .holdover
      ∧ (need.port 4).gate = .transparent)
    ∧ (waits.port 4).gate = .failsafe ∧ (waits.port 4).cause = .lockLost :=
  ⟨ready_of rfl rfl, cell_ready _ _, ready_of rfl rfl, ready_of rfl rfl, by decide +kernel⟩

/-- For PortLeavesEnforcement and ReadPortReports: port 8, selector 2, and the last port with every flag of its maps. -/
theorem witness_port_commands :
    (cell .active 0).ready ∧ 8 ≤ (0x08 : Byte).toNat ∧ 2 ≤ (0x02 : Byte).toNat ∧ (7 : PortIndex).val = (0x07 : Byte).toNat
    ∧ ((running.setMaps 7 ⟨true, some ⟨48, true⟩⟩).mapsOf 7).waiting = some ⟨48, true⟩ :=
  ⟨ready_of rfl rfl, by decide, by decide, rfl, by decide +kernel⟩

theorem witness_DecisionOutsideEnforcing :
    (idle.port 0).gate = .transparent
    ∧ ((idle.updPort 0 (fun q => { q with gate := .held })).port 0).gate = .held
    ∧ ((idle.updPort 0 (fun q => { q with gate := .failsafe, cause := .lockLost })).port 0).gate = .failsafe := by
  decide +kernel

/-- The entry is one that a motion frame of this port and tag is decided on (R84). -/
abbrev Usable (s : State) (p : PortIndex) (tag : StreamTag) (i : EntryIndex) : Prop :=
  ((s.entry i).state = .active ∨ (s.entry i).state = .releasing) ∧ (s.reservation i).port = p
    ∧ (s.reservation i).tag = tag ∧ (s.reservation i).overbooked = false

/-- Stale at age 3 with a limit of 2; overrun at 301 bytes; in the slot with its count not used; outside the slot, with and
without a record, and with the list full. -/
theorem witness_MotionDecisionWithEntry :
    let s := cell .active 12600
    let old := { s with holds := ⟨[⟨0x8010, 2, 0, 497⟩], 0, 0⟩ }
    let full := { s with holds := ⟨List.replicate 32 ⟨8, 2, 0, 500⟩, 0, 0⟩ }
    MemoryInv s ∧ s.cleanTable ∧ s.timer = some timer ∧ (s.port 2).gate = .enforcing
    ∧ (Usable s 2 (tagOf (frame true 101 300).word) 0 ∧ ∀ j, Usable s 2 (tagOf (frame true 101 300).word) j → 0 ≤ j)
    ∧ (Usable old 2 (tagOf (frame true 101 300).word) 0 ∧ old.holdOf 0x8010 = some ⟨0x8010, 2, 0, 497⟩
      ∧ (old.port 2).settings.stale < (timer.cycle - 497).toNat)
    ∧ s.holdOf 0x8010 = none ∧ (s.reservation 0).maxLength.toNat < lengthOf (frame true 101 301).word
    ∧ Usable s 2 (tagOf (frame true 101 301).word) 0
    ∧ lengthOf (frame true 101 300).word ≤ (s.reservation 0).maxLength.toNat
    ∧ (timer.slot 12600 = (s.reservation 0).slot.toNat ∧ (s.reservation 0).used.toNat < (s.reservation 0).frames.toNat)
    ∧ timer.slot 25000 ≠ (s.reservation 0).slot.toNat
    ∧ (full.holdOf 0x8010 = none ∧ 32 ≤ full.holds.records.length) :=
  ⟨cell_wf _ _, cell_clean _ _, by decide +kernel⟩

/-- STOPPED; the CLOSED slot 7; the RESERVED slot 1 with and without reclaim; the OPEN slot 2 with a frame that fits before
slot 7, and the last tick of slot 6, where none does; an active map without protected slots, alone, and with a committed
pending map that protects slot 0 of the next cycle; and a motion frame of tag 102, which has no entry, under both
policies. -/
theorem witness_GeneralDecisionBySlotKind :
    let stopped := idle.updPort 2 (fun q => { q with gate := .enforcing })
    let s := cell .active 25000
    let done := cell .free 12500
    let dropping := s.updPort 2 (fun q => { q with settings := { settings with unreserved := .drop } })
    let bare := s.putActive 2 (List.replicate 8 .openSlot)
    let coming := (bare.putPending 2 kinds).setMaps 2 ⟨false, some ⟨8, true⟩⟩
    stopped.cleanTable ∧ s.cleanTable ∧ done.cleanTable ∧ dropping.cleanTable ∧ bare.cleanTable ∧ coming.cleanTable
    ∧ (stopped.port 2).gate = .enforcing ∧ stopped.timer = none
    ∧ (s.port 2).gate = .enforcing ∧ s.timer = some timer ∧ (frame false 0 1000).motion = false
    ∧ s.activeKind 2 (timer.slot 87500) = .closed ∧ s.activeKind 2 (timer.slot 12500) = .reserved
    ∧ s.activeKind 2 (timer.slot 25000) = .openSlot
    ∧ ((s.entry 0).state = .active ∧ (s.reservation 0).slot.toNat = timer.slot 12500 ∧ (s.reservation 0).overbooked = false
      ∧ (s.reservation 0).used ≠ (s.reservation 0).frames ∧ (s.reservation 0).silent = false)
    ∧ ((done.port 2).settings.reclaim = true ∧ (∀ i, (done.entry i).state ≠ .active) ∧ (done.port 2).gate = .enforcing)
    ∧ (timer.slot 25000 + 1 ≤ 7 ∧ 7 < timer.geometry.slots ∧ s.activeKind 2 7 ≠ .openSlot
      ∧ (∀ j, timer.slot 25000 + 1 ≤ j → j < 7 → s.activeKind 2 j = .openSlot) ∧ afterTicks timer.start (7 * 12500) = 87500
      ∧ later (afterTicks (s.candidateEnd (frame false 0 1000)) 200) 87500 = false)
    ∧ (timer.slot 87499 + 1 = 7
      ∧ later (afterTicks ((cell .active 87499).candidateEnd (frame false 0 60)) 200) 87500 = true)
    ∧ (∀ k, k < 8 → bare.activeKind 2 k = .openSlot ∧ coming.activeKind 2 k = .openSlot)
    ∧ ((bare.mapsOf 2).waiting ≠ some ⟨8, true⟩ ∧ (coming.mapsOf 2).waiting = some ⟨8, true⟩
      ∧ coming.pendingKind 2 0 ≠ .openSlot)
    ∧ ((frame true 102 300).motion = true ∧ (∀ i, ¬ Usable s 2 (tagOf (frame true 102 300).word) i)
      ∧ (s.port 2).settings.unreserved = .asGeneral)
    ∧ ((∀ i, ¬ Usable dropping 2 (tagOf (frame true 102 300).word) i) ∧ (dropping.port 2).settings.unreserved = .drop) :=
  ⟨fun _ => rfl, cell_clean _ _, cell_clean _ _, State.cleanTable.of_memory (cell_clean .active 25000) rfl,
    State.cleanTable_of_all (by decide +kernel), State.cleanTable_of_all (by decide +kernel), by decide +kernel⟩

/-- A cell in which word k has these wrong bits. -/
def struck (st : EntryState) (now : DeviceTime) (k : Nat) (flips : BitVec 39) : State := (cell st now).setFlips k flips

/-- The cell with a committed pending map of port 2 that reserves slot 1, whose first word is struck. -/
def coming (now : DeviceTime) : State :=
  ((cell .active now).putPending 2 kinds |>.setMaps 2 ⟨false, some ⟨8, true⟩⟩).setFlips (280 + 3 * 2) 3

/-- The last word of table memory with one wrong check bit; and for the readers of a gate decision a state in which one of
the words it consults has two wrong bits: an entry, the active map, the pending map of a search, in which the last slot of
an OPEN cycle is current; a RESERVED slot with reclaim; and a motion frame decided as a general one. -/
theorem witness_SingleBitErrorIsCorrected :
    let s := struck .active 0 1023 (1#39 <<< 38)
    let entry := struck .active 12600 3 3
    let general := struck .active 12600 (256 + 3 * 2 + 0) 3
    let spare := (coming 87500).putActive 2 (List.replicate 8 .openSlot)
    (MemoryInv s ∧ (1023 : Nat) < 1024 ∧ wrongBits (s.word 1023).flips = 1)
    ∧ (MemoryInv entry ∧ (entry.port 2).gate = .enforcing ∧ (entry.entry 0).state.inForce = true
      ∧ wrongBits (entry.word (4 * 0 + 3)).flips = 2 ∧ (0 : EntryIndex).val = (0x00 : Byte).toNat ∧ entry.timer ≠ none)
    ∧ (MemoryInv general ∧ general.timer = some timer ∧ (general.port 2).gate = .enforcing
      ∧ wrongBits (general.word (256 + 3 * 2 + 0)).flips = 2)
    ∧ (MemoryInv spare ∧ spare.timer = some timer ∧ (spare.port 2).gate = .enforcing ∧ timer.slot 87500 + 1 = 8
      ∧ spare.activeKind 2 (timer.slot 87500) = .openSlot ∧ (spare.mapsOf 2).waiting = some ⟨timer.geometry.slots, true⟩
      ∧ wrongBits (spare.word (280 + 3 * 2)).flips = 2)
    ∧ (entry.activeKind 2 (timer.slot 12600) = .reserved ∧ (entry.port 2).settings.reclaim = true
      ∧ (frame true 102 300).motion = true ∧ (cell .active 12600).lookup 2 (tagOf (frame true 102 300).word) = none
      ∧ (entry.port 2).settings.unreserved = .asGeneral) := by decide +kernel

/-- For SingleBitErrorIsCorrected: the same for the commands, the requests that wait, and the slot boundary. -/
theorem witness_SingleBitErrorIsCorrected_commands :
    let pending := { struck .active 0 (280 + 3 * 7 + 2) 3 with maps := (running.setMaps 7 ⟨false, some ⟨48, false⟩⟩).maps }
    let admits := coming 0
    let ring := ringed.setFlips (305 + 2 * 14) 3
    let reads := { ring with path := { ring.path with waiting := [.read 3 0x2000] } }
    let writes := { ring with path := { ring.path with waiting := [.write 3 24 0x876C0000 0xC] }
                              lock := { ring.lock with port := some 2 } }
    let scrubbed := { struck .active 12500 2 3 with prot := { (struck .active 12500 2 3).prot with scrub := 2 } }
    pending.ready ∧ admits.ready ∧ ring.ready ∧ scrubbed.quiet
    ∧ (MemoryInv pending ∧ (7 : PortIndex).val = (0x07 : Byte).toNat ∧ (pending.mapsOf 7).waiting = some ⟨48, false⟩
      ∧ wrongBits (pending.word (280 + 3 * 7 + 2)).flips = 2)
    ∧ (MemoryInv admits ∧ admits.timer = some timer
      ∧ admitOperand timer.geometry.slots 2 102 1 300 1 = some ⟨2, 102, 1, 300, 1⟩
      ∧ (∀ i, ¬ (admits.inUse i = true ∧ (admits.reservation i).port = 2 ∧ (admits.reservation i).tag = 102))
      ∧ admits.activeKind 2 1 = .reserved ∧ (admits.mapsOf 2).waiting = some ⟨timer.geometry.slots, true⟩
      ∧ wrongBits (admits.word (280 + 3 * 2)).flips = 2)
    ∧ (MemoryInv ring ∧ ring.ringValid 14 = true ∧ (14 : RingIndex) ≠ ringIndex 7 3 ∧ ring.ringBusy 7 3 = false
      ∧ (setRingOperand 3 1 0x1000 4).isSome = true ∧ wrongBits (ring.word (305 + 2 * 14)).flips = 2)
    ∧ (reads.path.waiting = .read 3 0x2000 :: [] ∧ reads.path.accepts 3 = true
      ∧ writes.path.waiting = .write 3 24 0x876C0000 0xC :: [] ∧ writes.lock.port = some 2)
    ∧ (MemoryInv scrubbed ∧ scrubbed.timer = some timer ∧ timer.ok scrubbed.time
      ∧ timer.slot 12500 + 1 < timer.geometry.slots
      ∧ ((scrubbed.entry 0).state = .active ∧ (scrubbed.word scrubbed.prot.scrub.val).verdict = .lost
        ∧ 4 * (0 : EntryIndex).val ≤ scrubbed.prot.scrub.val ∧ scrubbed.prot.scrub.val < 4 * (0 : EntryIndex).val + 4)) :=
  ⟨ready_of rfl rfl, ready_of rfl rfl, ready_of rfl rfl, quiet_of rfl rfl rfl rfl, by decide +kernel, by decide +kernel,
    by decide +kernel, by decide, by decide +kernel, rfl, (atBoundary_cell .active 12500 (by decide)).2.1, by decide +kernel⟩

/-- Two wrong bits in the last word of entry 0, in use and FREE; in the used and the unused words of the active map of port
2 and of a pending map of 17 kinds of port 7; in the last word of a valid ring and of an invalid one; in the last word. -/
theorem witness_DoubleBitErrorByOwner :
    let at' := fun k => struck .active 0 k 3
    let pending := fun k => { at' k with maps := (running.setMaps 7 ⟨false, some ⟨17, true⟩⟩).maps }
    let ring := ringed.setFlips (305 + 2 * 14) 3
    (∀ k ∈ [3, 255, 262, 264, 302, 303, 383, 1023], MemoryInv (at' k) ∧ wrongBits ((at' k).word k).flips = 2)
    ∧ ((at' 3).inUse 0 = true ∧ (at' 255).inUse 63 = false)
    ∧ ((at' 262).timer = some timer ∧ 262 = 256 + 3 * 2 + 0 ∧ 16 * 0 < timer.geometry.slots
      ∧ 264 = 256 + 3 * 2 + 2 ∧ ¬ 16 * 2 < timer.geometry.slots)
    ∧ (((pending 302).mapsOf 7).waiting = some ⟨17, true⟩ ∧ 302 = 280 + 3 * 7 + 1 ∧ 16 * 1 < 17 ∧ (pending 302).timer ≠ none
      ∧ 303 = 280 + 3 * 7 + 2 ∧ ¬ 16 * 2 < 17 ∧ (pending 302).prot = (at' 302).prot)
    ∧ (MemoryInv ring ∧ wrongBits (ring.word (305 + 2 * 14)).flips = 2 ∧ ring.ringValid 14 = true
      ∧ (at' 383).ringValid 39 = false ∧ 383 < 306 + 2 * 39) := by decide +kernel

/-- An empty queue, and one with its last entry. -/
theorem witness_ReadEventTakesOldest :
    let e : EventEntry := ⟨.portFailsafe, some 0, none, none, 500, 1⟩
    let s := { idle with events := { idle.events with queue := [e], overflow := true } }
    idle.ready ∧ EventInv idle ∧ idle.events.queue = [] ∧ s.ready ∧ EventInv s ∧ s.events.queue = e :: [] :=
  ⟨ready_of rfl rfl, ⟨by decide, by decide, by decide⟩, rfl, ready_of rfl rfl, ⟨by decide, by decide, by decide⟩, rfl⟩

theorem witness_SetEventsReplacesMask :
    idle.ready ∧ ¬ ((0x02 : Byte).toNat ≤ 1) ∧ (0x08000000#32).getLsbD 27 = true
    ∧ ((∀ k, k < 32 → (0x07FFFFFE#32).getLsbD k = true → 1 ≤ k ∧ k ≤ 26) ∧ (0x01 : Byte).toNat ≤ 1) :=
  ⟨ready_of rfl rfl, by decide, by decide, by decide⟩

/-- The last port, the last entry, the global set, and one index outside each. -/
theorem witness_ClearCountersClearsOneSet :
    idle.ready ∧ (7 : PortIndex).val = (0x07 : Byte).toNat ∧ (63 : EntryIndex).val = (0x3F : Byte).toNat
    ∧ 2 < (0x03 : Byte).toNat ∧ 8 ≤ (0x08 : Byte).toNat ∧ 64 ≤ (0x40 : Byte).toNat ∧ (0x01 : Byte) ≠ 0x00 :=
  ⟨ready_of rfl rfl, rfl, rfl, by decide, by decide, by decide, by decide⟩

/-- A disabled kind, a marked offer, a full queue, and a queue with one place left. -/
theorem witness_OfferPassesThreeTests :
    let e : EventEntry := ⟨.holdListFull, some 0, some 0, some 1, 500, 1⟩
    let q := EventQueue.initial
    q.mask.getLsbD EventKind.memCorrected.byte.toNat = false ∧ q.mask.getLsbD e.kind.byte.toNat = true
    ∧ (e.limit = some .holdListFull ∧ LimitMark.holdListFull ∈ { q with marks := [.holdListFull] }.marks)
    ∧ e.limit.isSome = true ∧ 32 ≤ { q with queue := List.replicate 32 e }.queue.length
    ∧ { q with queue := List.replicate 31 e }.queue.length < 32 := by decide

theorem witness_RefusedCommandChangesNothing :
    (Instr.release 64).isManagement = true ∧ running.cleanTable
    ∧ (after (exec (.release 64) running)).link.record.status ≠ .ok := ⟨rfl, fun _ => rfl, by decide +kernel⟩

/-- The cell with a hold record. -/
def held : State := { cell .active 0 with holds := ⟨[⟨0x8010, 2, 0, 500⟩], 0, 0⟩ }

/-- The invariants hold in a state with an ENFORCING port, an entry, a hold record and table memory in use. -/
theorem witness_StepKeepsTables :
    MemoryInv held ∧ EventInv held ∧ OrderInv held ∧ GateInv held ∧ HoldInv held :=
  ⟨cell_wf .active 0, ⟨by decide, by decide, by decide⟩, ⟨(cell_order .active 0 (by decide)).once, by decide +kernel⟩,
    ⟨by decide +kernel, by decide +kernel⟩, ⟨by decide, by decide, by decide +kernel, by decide +kernel⟩⟩

/-- Two entries of slot 1 of port 2, in a state where both fit; the second one is overbooked, and fits. -/
theorem witness_WalkFollowsAdmissionOrder :
    let s := { (cell .active 0).putReservation 1 { stream with tag := 102, overbooked := true } with order := [0, 1] }
    let s := s.updEntry 1 (fun e => { e with state := .pending })
    MemoryInv s ∧ s.cleanTable ∧ OrderInv s ∧ s.timer = some timer
    ∧ s.order.filter (fun i => s.inUse i && decide ((s.reservation i).port = 2) && decide ((s.reservation i).slot.toNat = 1))
      = [0, 1] ∧ (s.walk 2 1).events.queue.map (fun e => (e.kind, e.index)) = [(.resReinstated, some 1)] := by
  refine ⟨by decide +kernel, State.cleanTable_of_all (by decide +kernel), ⟨by decide, by decide +kernel⟩, rfl,
    by decide +kernel, by decide +kernel⟩

theorem held_timer : held.timer = some timer := rfl

theorem held_slot : ∀ i, held.inUse i = true → (held.reservation i).slot.toNat = 1 := by decide +kernel

theorem held_budget : ∀ p, (∃ i, held.counts p 1 i = true) →
    (((allEntries.filter (held.counts p 1)).map (fun i => (held.reservation i).cost.toNat)).sum : Int) ≤
      timer.geometry.ticks - (held.port p).settings.guard - (held.port p).settings.lead - 0 := by decide +kernel

/-- Slot 1 of port 2 has one entry. -/
theorem witness_StepKeepsBudgets :
    MemoryInv held ∧ held.cleanTable ∧ OrderInv held ∧ PassInv held ∧ BudgetInv held ∧ held.counts 2 1 0 = true := by
  refine ⟨cell_wf .active 0, State.cleanTable.of_memory (cell_clean .active 0) rfl,
    ⟨(cell_order .active 0 (by decide)).once, by decide +kernel⟩, nofun, ?_, by decide +kernel⟩
  constructor
  case geometry =>
    intro t h
    rw [held_timer] at h
    cases h
    exact ⟨by decide, nofun⟩
  case timed => exact fun i h => ⟨timer, held_timer, by rw [held_slot i h]; decide⟩
  case budget =>
    intro t h p k hi
    have k1 : k = 1 := by
      obtain ⟨i, hi⟩ := hi
      simp only [State.counts, Bool.and_eq_true, decide_eq_true_eq] at hi
      rw [← hi.1.2]
      exact held_slot i hi.1.1.1
    rw [held_timer] at h
    cases h
    subst k1
    exact held_budget p hi
  all_goals decide +kernel

theorem witness_StepKeepsPath : PathInv reading := ⟨by decide, by decide, by decide, by decide⟩

theorem witness_StepKeepsTiming : TimingInv (locked .aligning (some 99999) 99999) where
  timer := fun t h => by cases h; exact ok_of rfl (by decide +kernel)
  free := by decide
  running := fun _ => by decide
  phi := fun t h _ => by cases h; decide
  maxStep := by decide
  stored := fun t v h e => by cases h; cases e; exact .inl ⟨rfl, by decide, by decide⟩

end Sys2Proof.Tests
end

section
/-! The folded error of a mark (R21). The loop of R21, then its number of turns, then the bounds of the folded error,
for every position. -/

namespace Sys2Proof.Machine

/-! ### The subtractions -/

/-- An error that is not above C/2 stays, however many turns are left. -/
@[simp] theorem foldDown_of_le {c e : Int} (n : Nat) (h : e ≤ c / 2) : foldDown c n e = e := by
  cases n with
  | zero => rfl
  | succ n => exact if_neg (Int.not_lt.mpr h)

/-- A turn above C/2 subtracts C. -/
@[simp] theorem foldDown_succ_of_lt {c e : Int} (n : Nat) (h : c / 2 < e) :
    foldDown c (n + 1) e = foldDown c n (e - c) := if_pos h

/-- `n` turns are enough for an error up to C/2 + n·C: more turns give the same. -/
theorem foldDown_eq_of_enough {c e : Int} {n m : Nat} (hm : n ≤ m) (h : e ≤ c / 2 + n * c) :
    foldDown c n e = foldDown c m e := by
  induction n generalizing e m with
  | zero => rw [foldDown_of_le 0 (by simpa using h), foldDown_of_le m (by simpa using h)]
  | succ n ih =>
    obtain ⟨m, rfl⟩ := Nat.exists_eq_add_of_le' (Nat.lt_of_lt_of_le n.succ_pos hm)
    by_cases above : c / 2 < e
    · rw [foldDown_succ_of_lt n above, foldDown_succ_of_lt _ above]
      exact ih (by omega) (by push_cast at h; linarith)
    · simp [Int.not_lt.mp above]

/-- With enough turns the error ends at or below C/2. -/
theorem foldDown_le {c e : Int} {n : Nat} (h : e ≤ c / 2 + n * c) : foldDown c n e ≤ c / 2 := by
  induction n generalizing e with
  | zero => simpa [foldDown] using h
  | succ n ih =>
    by_cases above : c / 2 < e
    · rw [foldDown_succ_of_lt n above]
      exact ih (by push_cast at h; linarith)
    · simp [Int.not_lt.mp above]

/-- A turn subtracts C only above C/2 and so ends above C/2 − C: a lower bound of at most C/2 − C + 1 is kept. -/
theorem le_foldDown {b c e : Int} (n : Nat) (hb : b + c ≤ c / 2 + 1) (h : b ≤ e) : b ≤ foldDown c n e := by
  induction n generalizing e with
  | zero => exact h
  | succ n ih =>
    by_cases above : c / 2 < e
    · rw [foldDown_succ_of_lt n above]
      exact ih (by omega)
    · simpa [Int.not_lt.mp above] using h

/-- Two turns are the two subtractions of R21 one after the other. -/
theorem foldDown_two (c e : Int) :
    foldDown c 2 e = (let e1 := if c / 2 < e then e - c else e; if c / 2 < e1 then e1 - c else e1) := by
  by_cases above : c / 2 < e
  · simp only [foldDown_succ_of_lt 1 above, if_pos above]
    rfl
  · simp [above, Int.not_lt.mp above]

/-! ### The folded error -/

/-- The model's turns are enough for the position of the mark. -/
theorem turns_enough {c : Nat} (phi position : Nat) (hc : 0 < c) :
    (position : Int) - phi ≤ (c : Int) / 2 + (position / c + 1 : Nat) * c := by
  have below : (position : Int) < (c : Int) * (position / c + 1 : Nat) := mod_cast Nat.lt_mul_div_succ position hc
  rw [mul_comm] at below
  omega

/-- Below 2C the turns are two. -/
theorem foldDown_turns_eq_two {c phi position : Nat} (hc : 0 < c) (hp : position < 2 * c) :
    foldDown c (position / c + 1) ((position : Int) - phi) = foldDown c 2 ((position : Int) - phi) :=
  foldDown_eq_of_enough (Nat.div_lt_of_lt_mul (by omega)) (turns_enough phi position hc)

/-- The folded error is within C/2 of zero, rounded up above: at every position, not only below 2C. -/
theorem foldedError_bounds {c phi : Nat} (position : Nat) (hphi : phi < c) :
    -((c / 2 : Nat) : Int) ≤ foldedError c phi position ∧ foldedError c phi position ≤ ((c / 2 : Nat) : Int) + 1 := by
  have upper : foldDown c (position / c + 1) ((position : Int) - phi) ≤ (c : Int) / 2 :=
    foldDown_le (turns_enough phi position (by omega))
  have lower : 1 - (c : Int) ≤ foldDown c (position / c + 1) ((position : Int) - phi) :=
    le_foldDown _ (by omega) (by omega)
  simp only [foldedError]
  split <;> omega

/-- Settles O24: below 2C the model's turns are two, and the bounds hold at every position. -/
theorem foldedErrorIsDefined : Obligations.FoldedErrorIsDefined := by
  intro c phi position _ hphi hp
  refine ⟨?_, foldedError_bounds position hphi⟩
  simp only [foldedError, foldDown_turns_eq_two (Nat.zero_lt_of_lt hphi) hp, foldDown_two, Int.natCast_ediv,
    Nat.cast_ofNat]

end Sys2Proof.Machine
end

section
/-! CANCEL_MAP (R41). What a port argument and an answer are, then what the command does in each case. -/

namespace Sys2Proof.Machine

/-! ### Port arguments and answers -/

/-- An argument that is a port's number is that port. -/
theorem portOperand_eq_some {b : Byte} {p : PortIndex} (h : p.val = b.toNat) : portOperand b = some p := by
  have low : b.toNat < 8 := h ▸ p.isLt
  rw [portOperand, dif_pos low]
  exact congrArg some (Fin.ext h.symm)

/-- An argument above 7 is no port. -/
theorem portOperand_eq_none {b : Byte} (h : 8 ≤ b.toNat) : portOperand b = none := dif_neg (Nat.not_lt.mpr h)

/-- To answer at the end of a transaction is to answer in the terms of the statements. -/
theorem State.respond_endTransaction (s : State) (code : Byte) (status : Status) (result : List Byte) :
    s.endTransaction.respond code status result = s.answered code status result := rfl

/-! ### CANCEL_MAP -/

/-- The frame that spells CANCEL_MAP. -/
theorem decodeFrame_cancelMap (port : Byte) : decodeFrame 3 [0x22, 0x01, port] = some (.cancelMap port) := rfl

/-- Taken, CANCEL_MAP does what its body does on the transaction ended. -/
theorem exec_cancelMap_of_ready {s : State} (hs : s.ready) (port : Byte) :
    exec (.cancelMap port) s = .next (cancelMapBody port s.endTransaction) :=
  congrArg Host.Outcome.next (State.command_ready hs.takes hs.passDone 0x22 (cancelMapBody port))

/-- No port: BAD_ARGUMENT. -/
theorem cancelMapBody_of_not_port {port : Byte} (h : 8 ≤ port.toNat) (s : State) :
    cancelMapBody port s = s.respond 0x22 .badArgument [] := by
  rw [cancelMapBody, portOperand_eq_none h]

/-- No pending map: NOT_FOUND. -/
theorem cancelMapBody_of_absent {port : Byte} {p : PortIndex} {s : State} (hp : p.val = port.toNat)
    (h : (s.mapsOf p).waiting = none) : cancelMapBody port s = s.respond 0x22 .notFound [] := by
  simp only [cancelMapBody, portOperand_eq_some hp, h]

/-- A pending map: discarded, the answer saying whether it was committed. -/
theorem cancelMapBody_of_pending {port : Byte} {p : PortIndex} {s : State} {m : PendingMap} (hp : p.val = port.toNat)
    (h : (s.mapsOf p).waiting = some m) :
    cancelMapBody port s =
      (s.setMaps p { s.mapsOf p with waiting := none }).respond 0x22 .ok [flagByte m.committed] := by
  simp only [cancelMapBody, portOperand_eq_some hp, h]

/-- Settles O27: the argument is no port, or the port's pending map is absent, or it is discarded; what is discarded
changes the maps of that port and the link alone. -/
theorem cancelMapDiscardsPendingMap : Obligations.CancelMapDiscardsPendingMap := by
  intro port
  refine ⟨decodeFrame_cancelMap port, fun s hs => ?_⟩
  rw [exec_cancelMap_of_ready hs]
  refine ⟨fun high => ?_, fun p hp => ⟨fun absent => ?_, fun m pending => ?_⟩⟩
  · rw [cancelMapBody_of_not_port high, State.respond_endTransaction]
  · rw [cancelMapBody_of_absent (s := s.endTransaction) hp absent, State.respond_endTransaction]
  · refine ⟨_, congrArg Host.Outcome.next (cancelMapBody_of_pending hp pending), ?discarded, ?others, rfl, rfl⟩
    case discarded => exact State.mapsOf_setMaps_self s p { s.mapsOf p with waiting := none }
    case others => exact fun q other => (State.mapsOf_setMaps s p q _).trans (if_neg other)

end Sys2Proof.Machine
end

section
/-! CLEAR_RING (R104). What a ring argument is, which entry and which state check belong to it, then what the command does
in each case. -/

namespace Sys2Proof.Machine

/-! ### Ring arguments and the state check -/

/-- An argument that is a ring's number is that ring. -/
theorem ringOperand_eq_some {b : Byte} {n : Fin 5} (h : n.val = b.toNat) : ringOperand b = some n := by
  have low : b.toNat < 5 := h ▸ n.isLt
  rw [ringOperand, dif_pos low]
  exact congrArg some (Fin.ext h.symm)

/-- An argument above 4 is no ring. -/
theorem ringOperand_eq_none {b : Byte} (h : 5 ≤ b.toNat) : ringOperand b = none := dif_neg (Nat.not_lt.mpr h)

/-- The port of an entry is the port it was numbered from. -/
@[simp] theorem ringPort_ringIndex (p : PortIndex) (n : Fin 5) : ringPort (ringIndex p n) = p :=
  Fin.ext (show (5 * p.val + n.val) / 5 = p.val by omega)

/-- Check 2 of R103: a transmit ring is bound to its port's gate, the receive ring to the lock. -/
theorem State.ringBusy_iff (s : State) (p : PortIndex) (n : Fin 5) :
    s.ringBusy p n = true ↔
      (n.val < 4 ∧ ((s.port p).gate = .enforcing ∨ (s.port p).gate = .failsafe))
        ∨ (n.val = 4 ∧ s.lock.port = some p ∧ s.lock.state ≠ .free) := by
  by_cases receive : n.val = 4
  · simp [State.ringBusy, receive]
  · have transmit : n.val < 4 := by omega
    simp [State.ringBusy, receive, transmit]

/-! ### CLEAR_RING -/

/-- The frame that spells CLEAR_RING. -/
theorem decodeFrame_clearRing (port ring : Byte) :
    decodeFrame 4 [0x41, 0x02, port, ring] = some (.clearRing port ring) := rfl

/-- Taken, CLEAR_RING does what its body does on the transaction ended. -/
theorem exec_clearRing_of_ready {s : State} (hs : s.ready) (port ring : Byte) :
    exec (.clearRing port ring) s = .next (clearRingBody port ring s.endTransaction) :=
  congrArg Host.Outcome.next (State.command_ready hs.takes hs.passDone 0x41 (clearRingBody port ring))

/-- No port or no ring: BAD_ARGUMENT. -/
theorem clearRingBody_of_bad_operand {port ring : Byte} (h : 8 ≤ port.toNat ∨ 5 ≤ ring.toNat) (s : State) :
    clearRingBody port ring s = s.respond 0x41 .badArgument [] := by
  rcases h with noPort | noRing
  · rw [clearRingBody, portOperand_eq_none noPort]
  · rw [clearRingBody, ringOperand_eq_none noRing]
    cases portOperand port <;> rfl

section
variable {port ring : Byte} {p : PortIndex} {n : Fin 5} {s : State}

/-- The ring is bound to a gate or to the lock: STATE. -/
theorem clearRingBody_of_busy (hp : p.val = port.toNat) (hn : n.val = ring.toNat) (busy : s.ringBusy p n = true) :
    clearRingBody port ring s = s.respond 0x41 .state [] := by
  simp only [clearRingBody, portOperand_eq_some hp, ringOperand_eq_some hn, if_pos busy]

/-- An entry already invalid: NOT_FOUND. -/
theorem clearRingBody_of_invalid (hp : p.val = port.toNat) (hn : n.val = ring.toNat) (idle : ¬ s.ringBusy p n = true)
    (invalid : s.ringValid (ringIndex p n) = false) : clearRingBody port ring s = s.respond 0x41 .notFound [] := by
  simp only [clearRingBody, portOperand_eq_some hp, ringOperand_eq_some hn, if_neg idle, invalid, Bool.false_eq_true,
    if_false]

/-- A valid entry: made invalid, the answer OK with no result bytes. -/
theorem clearRingBody_of_valid (hp : p.val = port.toNat) (hn : n.val = ring.toNat) (idle : ¬ s.ringBusy p n = true)
    (valid : s.ringValid (ringIndex p n) = true) :
    clearRingBody port ring s = (s.setRingValid (ringIndex p n) false).respond 0x41 .ok [] := by
  simp only [clearRingBody, portOperand_eq_some hp, ringOperand_eq_some hn, if_neg idle, if_pos valid]

end

/-- Settles O34: the arguments name no entry, or the entry is bound, or already invalid, or it becomes invalid; that
changes the valid flag of this entry and the link alone. -/
theorem clearRingInvalidatesRing : Obligations.ClearRingInvalidatesRing := by
  intro port ring
  refine ⟨decodeFrame_clearRing port ring, fun s hs => ?_⟩
  rw [exec_clearRing_of_ready hs]
  refine ⟨fun bad => ?_, fun portLow ringLow e he => ?_⟩
  · rw [clearRingBody_of_bad_operand bad, State.respond_endTransaction]
  let p : PortIndex := ⟨port.toNat, portLow⟩
  let n : Fin 5 := ⟨ring.toNat, ringLow⟩
  obtain rfl : e = ringIndex p n := Fin.ext he
  rw [ringPort_ringIndex]
  have bound := s.endTransaction.ringBusy_iff p n
  refine ⟨fun busy => ?_, fun idle invalid => ?_, fun idle valid => ?_⟩
  · rw [clearRingBody_of_busy (p := p) (n := n) rfl rfl (bound.mpr busy), State.respond_endTransaction]
  · rw [clearRingBody_of_invalid (p := p) (n := n) rfl rfl (mt bound.mp idle) invalid, State.respond_endTransaction]
  · refine ⟨_, congrArg Host.Outcome.next
      (clearRingBody_of_valid (p := p) (n := n) rfl rfl (mt bound.mp idle) valid), ?cleared, ?others, rfl, rfl⟩
    case cleared => exact (State.ringValid_setRingValid s _ _ false).trans (if_pos rfl)
    case others => exact fun o other => (State.ringValid_setRingValid s _ o false).trans (if_neg other)

end Sys2Proof.Machine
end

section
/-! NOP (R166). The frame that spells it, then what it does: the end of a transaction and nothing besides. -/

namespace Sys2Proof.Machine

/-! ### The end of a transaction -/

/-- The end of a transaction, in the terms of the statements. -/
theorem State.endTransaction_eq_ended (s : State) : s.endTransaction = s.ended := rfl

/-- The link rests, with the response record it had. -/
@[simp] theorem State.ended_link (s : State) : s.ended.link = restingLink s.link.record := rfl

/-- The end of a transaction changes the link alone. -/
theorem State.ended_with_link (s : State) : { s.ended with link := s.link } = s := rfl

/-! ### NOP -/

/-- The frame that spells NOP. -/
theorem decodeFrame_nop : decodeFrame 2 [0x00, 0x00] = some .nop := rfl

/-- Command code 00h takes no argument byte: check 5 of R164 refuses a frame that has one. -/
theorem decodeCommand_zero_cons (a : Byte) (rest : List Byte) : decodeCommand 0x00 (a :: rest) = none := rfl

/-- Command code 00h is NOP exactly where no argument byte follows. -/
theorem decodeCommand_zero_eq_nop_iff (args : List Byte) : decodeCommand 0x00 args = some .nop ↔ args = [] := by
  cases args with
  | nil => exact iff_of_true rfl rfl
  | cons a rest =>
    rw [decodeCommand_zero_cons]
    exact iff_of_false (Option.some_ne_none _).symm (List.cons_ne_nil a rest)

/-- NOP ends the transaction, in every state: neither the initialisation pass (R165) nor the reset pin (R162) enters. -/
theorem exec_nop (s : State) : exec .nop s = .next s.ended := congrArg Host.Outcome.next s.endTransaction_eq_ended

/-- Settles O17: of NOP there remains the end of its transaction, which keeps the response record and every part of the
state but the link. -/
theorem nopChangesNothing : Obligations.NopChangesNothing :=
  ⟨decodeFrame_nop, decodeCommand_zero_eq_nop_iff, fun s => ⟨s.ended, exec_nop s, s.ended_link, s.ended_with_link⟩⟩

end Sys2Proof.Machine
end

section
/-! SET_EVENTS (R179). What a mask and an enable argument are, the bytes of a mask, then what the command does in each
case. -/

namespace Sys2Proof.Machine

/-! ### Mask, enable and their coding -/

/-- The bits R179 wants clear are bit 0 and bits 27 to 31. -/
theorem getLsbD_reservedMaskBits {k : Nat} (hk : k < 32) :
    (0xF8000001#32).getLsbD k = true ↔ ¬ (1 ≤ k ∧ k ≤ 26) := by
  revert k
  decide

/-- A mask has the reserved bits clear exactly where its set bits are 1 to 26. -/
theorem reservedMaskBits_clear_iff (m : BitVec 32) :
    m &&& 0xF8000001#32 = 0 ↔ ∀ k, m.getLsbD k = true → 1 ≤ k ∧ k ≤ 26 := by
  constructor
  · intro clear k hk
    by_contra reserved
    have bit := congrArg (BitVec.getLsbD · k) clear
    simp [hk, (getLsbD_reservedMaskBits (BitVec.lt_of_getLsbD hk)).mpr reserved] at bit
  · intro legal
    refine BitVec.eq_of_getLsbD_eq fun k hk => ?_
    by_cases set : m.getLsbD k = true
    · have unreserved := mt (getLsbD_reservedMaskBits hk).mp (not_not.mpr (legal k set))
      simpa [set] using unreserved
    · simp [set]

/-- A mask of the bits 1 to 26 is taken as it is. -/
theorem maskOperand_eq_some {m : BitVec 32} (h : ∀ k, m.getLsbD k = true → 1 ≤ k ∧ k ≤ 26) : maskOperand m = some m :=
  if_pos ((reservedMaskBits_clear_iff m).mpr h)

/-- A mask with another bit set is no mask. -/
theorem maskOperand_eq_none {m : BitVec 32} (h : ¬ ∀ k, m.getLsbD k = true → 1 ≤ k ∧ k ≤ 26) : maskOperand m = none :=
  if_neg (mt (reservedMaskBits_clear_iff m).mp h)

/-- 00h is off, 01h is on. -/
theorem flagOperand_eq_some {b : Byte} (h : b.toNat ≤ 1) : flagOperand b = some (decide (b = 0x01)) := by
  obtain rfl | rfl : b = 0 ∨ b = 1 := by bv_omega
  · rfl
  · rfl

/-- Above 01h there is no flag. -/
theorem flagOperand_eq_none {b : Byte} (h : ¬ b.toNat ≤ 1) : flagOperand b = none := by
  rw [flagOperand, if_neg (by bv_omega), if_neg (by bv_omega)]

/-- The four bytes of an answer's 32-bit value are the value's bytes. -/
theorem beBytes4_toNat (x : BitVec 32) : beBytes4 x.toNat = bytes32 x := by
  simp [beBytes4, bytes32, byteOf, BitVec.extractLsb', Nat.shiftRight_eq_div_pow]

/-! ### SET_EVENTS -/

/-- The frame that spells SET_EVENTS. -/
theorem decodeFrame_setEvents (a b c d enable : Byte) :
    decodeFrame 7 [0x61, 0x05, a, b, c, d, enable] = some (.setEvents (a ++ b ++ c ++ d) enable) := rfl

/-- Taken, SET_EVENTS does what its body does on the transaction ended. -/
theorem exec_setEvents_of_ready {s : State} (hs : s.ready) (mask : BitVec 32) (enable : Byte) :
    exec (.setEvents mask enable) s = .next (setEventsBody mask enable s.endTransaction) :=
  congrArg Host.Outcome.next (State.command_ready hs.takes hs.passDone 0x61 (setEventsBody mask enable))

section
variable {mask : BitVec 32} {enable : Byte}

/-- A reserved bit set, or no flag: BAD_ARGUMENT. -/
theorem setEventsBody_of_bad_operand
    (h : ¬ ((∀ k, mask.getLsbD k = true → 1 ≤ k ∧ k ≤ 26) ∧ enable.toNat ≤ 1)) (s : State) :
    setEventsBody mask enable s = s.respond 0x61 .badArgument [] := by
  by_cases maskOk : ∀ k, mask.getLsbD k = true → 1 ≤ k ∧ k ≤ 26
  · rw [setEventsBody, maskOperand_eq_some maskOk, flagOperand_eq_none (fun flagOk => h ⟨maskOk, flagOk⟩)]
  · rw [setEventsBody, maskOperand_eq_none maskOk]

/-- Else the mask and the enable are replaced and the ones before are the answer. -/
theorem setEventsBody_of_valid (maskOk : ∀ k, mask.getLsbD k = true → 1 ≤ k ∧ k ≤ 26) (flagOk : enable.toNat ≤ 1)
    (s : State) :
    setEventsBody mask enable s =
      { s with events := { s.events with mask := mask, enable := decide (enable = 0x01) } }.respond 0x61 .ok
        (bytes32 s.events.mask ++ [flagByte s.events.enable]) := by
  simp only [setEventsBody, maskOperand_eq_some maskOk, flagOperand_eq_some flagOk, beBytes4_toNat]

end

/-! ### The line -/

/-- A device that takes a frame is out of reset. -/
theorem State.ready.released {s : State} (hs : s.ready) : s.resetAsserted = false := by
  have takes := hs.takes
  rw [State.takesFrame, Bool.and_eq_true, Bool.not_eq_true'] at takes
  exact takes.1

/-- Out of reset, INT_N is low exactly while the queue holds an entry and the enable is on (R178). -/
theorem State.intN_eq_false_iff {s : State} (released : s.resetAsserted = false) :
    s.intN = false ↔ s.events.queue ≠ [] ∧ s.events.enable = true := by
  simp [State.intN, released, and_comm]

/-- Settles O52: the arguments are refused, or they replace the mask and the enable; every other part of the queue stays,
and the line reads the new enable. -/
theorem setEventsReplacesMask : Obligations.SetEventsReplacesMask := by
  refine ⟨rfl, decodeFrame_setEvents, fun s mask enable hs => ?_⟩
  rw [exec_setEvents_of_ready hs]
  refine ⟨fun invalid => ?_, fun ⟨maskOk, flagOk⟩ => ?_⟩
  · rw [setEventsBody_of_bad_operand invalid, State.respond_endTransaction]
  · refine ⟨_, congrArg Host.Outcome.next (setEventsBody_of_valid maskOk flagOk s.endTransaction), rfl,
      fun _ => rfl, ?line⟩
    case line =>
      rw [State.intN_eq_false_iff (by exact hs.released)]
      exact and_congr_right' decide_eq_true_iff

end Sys2Proof.Machine
end

section
/-! CLEAR_COUNTERS (R180). What an entry argument is, then what the command does for each selector. -/

namespace Sys2Proof.Machine

/-! ### Entry arguments -/

/-- An argument that is an entry's index is that entry. -/
theorem entryOperand_eq_some {b : Byte} {i : EntryIndex} (h : i.val = b.toNat) : entryOperand b = some i := by
  have low : b.toNat < 64 := h ▸ i.isLt
  rw [entryOperand, dif_pos low]
  exact congrArg some (Fin.ext h.symm)

/-- An argument above 63 is no entry. -/
theorem entryOperand_eq_none {b : Byte} (h : 64 ≤ b.toNat) : entryOperand b = none := dif_neg (Nat.not_lt.mpr h)

/-! ### CLEAR_COUNTERS -/

/-- The frame that spells CLEAR_COUNTERS. -/
theorem decodeFrame_clearCounters (selector index : Byte) :
    decodeFrame 4 [0x62, 0x02, selector, index] = some (.clearCounters selector index) := rfl

/-- Taken, CLEAR_COUNTERS does what its body does on the transaction ended. -/
theorem exec_clearCounters_of_ready {s : State} (hs : s.ready) (selector index : Byte) :
    exec (.clearCounters selector index) s = .next (clearCountersBody selector index s.endTransaction) :=
  congrArg Host.Outcome.next (State.command_ready hs.takes hs.passDone 0x62 (clearCountersBody selector index))

section
variable {selector index : Byte} (s : State)

/-- Selector 00h and a port: the ten counters of the port. -/
theorem clearCountersBody_of_port {p : PortIndex} (hp : p.val = index.toNat) :
    clearCountersBody 0x00 index s = (s.countPort p (fun _ => PortCounters.zero)).respond 0x62 .ok [] := by
  rw [clearCountersBody, if_pos rfl, portOperand_eq_some hp]

/-- Selector 01h and an entry: the four counters of the entry. -/
theorem clearCountersBody_of_entry {i : EntryIndex} (hi : i.val = index.toNat) :
    clearCountersBody 0x01 index s = (s.updEntry i Entry.clearCounters).respond 0x62 .ok [] := by
  rw [clearCountersBody, if_neg (by decide), if_pos rfl, entryOperand_eq_some hi]

/-- Selector 02h and index 00h: the seven global counts. -/
theorem clearCountersBody_of_globals : clearCountersBody 0x02 0x00 s = s.clearGlobals.respond 0x62 .ok [] := rfl

/-- Any other combination: BAD_ARGUMENT. -/
theorem clearCountersBody_of_bad_operand
    (h : 2 < selector.toNat ∨ (selector = 0x00 ∧ 8 ≤ index.toNat) ∨ (selector = 0x01 ∧ 64 ≤ index.toNat)
      ∨ (selector = 0x02 ∧ index ≠ 0x00)) :
    clearCountersBody selector index s = s.respond 0x62 .badArgument [] := by
  rcases h with noSelector | ⟨rfl, noPort⟩ | ⟨rfl, noEntry⟩ | ⟨rfl, indexed⟩
  · rw [clearCountersBody, if_neg (by bv_omega), if_neg (by bv_omega), if_neg (by bv_omega)]
  · rw [clearCountersBody, if_pos rfl, portOperand_eq_none noPort]
  · rw [clearCountersBody, if_neg (by decide), if_pos rfl, entryOperand_eq_none noEntry]
  · rw [clearCountersBody, if_neg (by decide), if_neg (by decide), if_neg (fun both => indexed both.2)]

end

/-- Settles O53: each selector with an index of its own clears its set of counters and changes the link besides; any
other combination changes the link alone. -/
theorem clearCountersClearsOneSet : Obligations.ClearCountersClearsOneSet := by
  intro selector index
  refine ⟨decodeFrame_clearCounters selector index, fun s hs => ?_⟩
  rw [exec_clearCounters_of_ready hs]
  refine ⟨?port, ?entry, ?globals, fun bad => ?_⟩
  case port =>
    rintro p rfl hp
    exact congrArg Host.Outcome.next (clearCountersBody_of_port s.endTransaction hp)
  case entry =>
    rintro i rfl hi
    exact congrArg Host.Outcome.next (clearCountersBody_of_entry s.endTransaction hi)
  case globals =>
    rintro rfl rfl
    exact congrArg Host.Outcome.next (clearCountersBody_of_globals s.endTransaction)
  · rw [clearCountersBody_of_bad_operand s.endTransaction bad, State.respond_endTransaction]

end Sys2Proof.Machine
end

section
/-! The step as a whole. The management commands as one family with one body each, and what a property must be kept by so
that every step keeps it. -/

namespace Sys2Proof.Machine

/-! ### The management commands -/

/-- What a management command does once it is handed to its owning block (R165). NOP and READ_STATUS have no owning block,
and a command that is no frame has no body. -/
def commandBody : Instr → State → State
  | .setGeometry n t => setGeometryBody n t
  | .setSync p t phi tol m l => setSyncBody p t phi tol m l
  | .loadMap p ks => loadMapBody p ks
  | .commitMap p => commitMapBody p
  | .cancelMap p => cancelMapBody p
  | .admitStream p t k l f => admitBody p t k l f
  | .release i => releaseBody i
  | .purge i => purgeBody i
  | .readReservation i => readReservationBody i
  | .setRing p r k b n => setRingBody p r k b n
  | .clearRing p r => clearRingBody p r
  | .setMemory l => setMemoryBody l
  | .setPort p r x lead g m f q k u st si => setPortBody p (settingsOperand r x lead g m f q k u st si)
  | .portEnforce p => portEnforceBody p
  | .portHold p => parkBody 0x52 .held p
  | .portTransparent p => parkBody 0x53 .transparent p
  | .readPort p x => readPortBody p x
  | .readEvent => readEventBody
  | .setEvents m e => setEventsBody m e
  | .clearCounters x i => clearCountersBody x i
  | .nop | .readStatus
  | .resetAsserted | .resetReleased | .initialisationPassDone | .slotBoundary | .cycleBoundary
  | .transactionStart | .transactionEnd
  | .readAccepted _ _ | .controllerWrite _ _ _ _ | .memoryResponse _ _ _
  | .readTimeout _ | .quarantineExpiry _ | .mgtSckEdge _ => id

/-- A management command is taken as its frame would be. -/
theorem exec_eq_takeCommand {c : Instr} (h : c.isManagement = true) (s : State) : exec c s = .next (takeCommand c s) := by
  cases c <;> first | rfl | cases h

/-- The commands that are frames are those with a code. -/
theorem isManagement_of_code {c : Instr} {code : Byte} (h : commandCode c = some code) : c.isManagement = true := by
  cases c <;> first | rfl | cases h

/-- A well-formed management command but NOP and READ_STATUS is taken by the link with its code and its body. -/
theorem takeCommand_eq_command {c : Instr} {code : Byte} (hc : commandCode c = some code) (hw : c.wellFormed = true)
    (hn : c ≠ .nop) (hr : c ≠ .readStatus) (s : State) : takeCommand c s = s.command code (commandBody c) := by
  cases c
  case nop => exact absurd rfl hn
  case readStatus => exact absurd rfl hr
  case loadMap port kinds =>
    cases hc
    exact if_pos (of_decide_eq_true hw)
  all_goals cases hc <;> rfl

/-- A management command taken changes the link alone, or does what its body does on the transaction ended. -/
theorem takeCommand_cases (c : Instr) (s : State) :
    (∃ l, takeCommand c s = { s with link := l }) ∨
      (s.takesFrame = true ∧ s.prot.busy = false ∧ takeCommand c s = commandBody c s.endTransaction) := by
  have command : ∀ code body, (∃ l, s.command code body = { s with link := l }) ∨
      (s.takesFrame = true ∧ s.prot.busy = false ∧ s.command code body = body s.endTransaction) := by
    intro code body
    unfold State.command
    split_ifs with taken busy
    · exact .inl ⟨_, rfl⟩
    · exact .inr ⟨taken, Bool.eq_false_iff.mpr busy, rfl⟩
    · exact .inl ⟨_, rfl⟩
  cases c
  case readStatus =>
    simp only [takeCommand, readStatusTaken]
    split_ifs <;> exact .inl ⟨_, rfl⟩
  case loadMap port kinds =>
    simp only [takeCommand, loadMapTaken]
    split_ifs
    · exact command _ _
    · unfold State.badFrame
      split_ifs <;> exact .inl ⟨_, rfl⟩
  all_goals first | exact .inl ⟨_, rfl⟩ | exact command _ _

/-- The end of a transaction changes the link alone, or does what the body of its frame's command does on the transaction
ended. -/
theorem transactionEnd_cases (s : State) :
    (∃ l, transactionEnd s = { s with link := l }) ∨
      ∃ c, s.prot.busy = false ∧ transactionEnd s = commandBody c s.endTransaction := by
  unfold transactionEnd
  split_ifs
  · exact .inl ⟨_, rfl⟩
  · exact .inl ⟨_, rfl⟩
  · unfold State.takeFrame
    split_ifs
    · exact .inl ⟨_, rfl⟩
    · split
      · rename_i c _
        exact (takeCommand_cases c s).imp_right fun ⟨_, busy, e⟩ => ⟨c, busy, e⟩
      · unfold State.badFrame
        split_ifs <;> exact .inl ⟨_, rfl⟩

/-! ### What every step keeps -/

/-- A property of the state that the work of every command and of the clock keeps. -/
structure StepKeeps (P : State → Prop) : Prop where
  pending : ∀ s l, P s → P { s with pending := l }
  link : ∀ s l, P s → P { s with link := l }
  asserted : ∀ s, P s → P (resetAsserted s)
  released : ∀ s, P s → P (resetReleased s)
  tick : ∀ s n, s.nextEvent n = none → P s → P (s.tickBy n)
  event : ∀ s n d e, s.nextEvent n = some (d, e) → P s → P ((s.tickBy d).takeEvent e)
  finishInit : ∀ s n, s.prot.busy = true → P s → P (s.pass n).finishInit
  timeOut : ∀ s r, r ∈ s.path.inFlight → P s → P (s.timeOut r)
  expireTag : ∀ s tag, P s → P (s.expireTag tag)
  present : ∀ s r, P s → P (s.present r)
  response : ∀ tag data error s, P s → P (memoryResponse tag data error s)
  body : ∀ c s, s.prot.busy = false → P s → P (commandBody c s)

namespace StepKeeps
variable {P : State → Prop} (k : StepKeeps P)
include k

theorem pass (s : State) (n : Nat) (h : P s) : P (s.pass n) := s.pass_induction k.tick k.event n h

theorem clockCommands (s : State) (h : P s) :
    P (slotBoundary s) ∧ P (cycleBoundary s) ∧ P (initialisationPassDone s) ∧ (∀ tag, P (readTimeout tag s))
      ∧ ∀ tag, P (quarantineExpiry tag s) := by
  refine ⟨?_, ?_, ?_, fun tag => ?_, fun tag => ?_⟩
  · unfold slotBoundary
    split
    · exact h
    · dsimp only
      split_ifs
      · exact k.pass _ _ (k.pass _ _ h)
      · exact k.pass _ _ h
  · unfold cycleBoundary
    split
    · exact h
    · exact k.pass _ _ h
  · unfold initialisationPassDone
    split_ifs with idle
    · exact h
    · simp only [Bool.or_eq_true, Bool.not_eq_true', not_or, Bool.not_eq_false] at idle
      exact k.finishInit _ _ idle.2 h
  · unfold readTimeout
    split
    · dsimp only
      split
      · rename_i found
        exact k.timeOut _ _ (List.mem_of_find?_eq_some found) (k.pass _ _ h)
      · exact k.pass _ _ h
    · exact h
  · unfold quarantineExpiry
    split
    · exact k.expireTag _ _ (k.pass _ _ h)
    · exact h

theorem takeCommand (c : Instr) (s : State) (h : P s) : P (takeCommand c s) := by
  rcases takeCommand_cases c s with ⟨l, e⟩ | ⟨-, busy, e⟩
  · exact e ▸ k.link s l h
  · exact e ▸ k.body c _ busy (k.link s _ h)

theorem transactionEnd (s : State) (h : P s) : P (transactionEnd s) := by
  rcases transactionEnd_cases s with ⟨l, e⟩ | ⟨c, busy, e⟩
  · exact e ▸ k.link s l h
  · exact e ▸ k.body c _ busy (k.link s _ h)

/-- Every command keeps the property. -/
theorem exec {c : Instr} {s t : State} (h : P s) (e : exec c s = .next t) : P t := by
  obtain ⟨slot, cycle, init, timeout, expiry⟩ := k.clockCommands s h
  cases c
  case resetAsserted => cases e; exact k.asserted s h
  case resetReleased => cases e; exact k.released s h
  case initialisationPassDone => cases e; exact init
  case slotBoundary => cases e; exact slot
  case cycleBoundary => cases e; exact cycle
  case transactionStart =>
    cases e
    unfold transactionStart
    split_ifs
    exacts [h, k.link s _ h, k.link s _ h]
  case transactionEnd => cases e; exact k.transactionEnd s h
  case readAccepted => cases e; exact k.present s _ h
  case controllerWrite => cases e; exact k.present s _ h
  case memoryResponse => cases e; exact k.response _ _ _ s h
  case readTimeout tag => cases e; exact timeout tag
  case quarantineExpiry tag => cases e; exact expiry tag
  case mgtSckEdge =>
    cases e
    unfold sckEdge
    split_ifs
    exacts [h, k.link s _ h]
  all_goals
    rw [exec_eq_takeCommand rfl] at e
    cases e
    exact k.takeCommand _ s h

/-- Every step keeps the property. -/
theorem step {s t : State} (h : P s) (e : step s = .next t) : P t := by
  unfold Machine.step at e
  split at e
  · cases e
    exact k.pass s 1 h
  · exact k.exec (k.pending s _ h) e

end StepKeeps

end Sys2Proof.Machine
end

section
/-! Every command and every clock event keeps what the manual states of table memory, the event queue, the admission order
list, the gates and the hold list (`Sound`). -/

namespace Sys2Proof.Machine

/-! ### Operations of the commands -/

/-- A change of parts that neither `Sound` nor `Steady` speaks of, and of table memory. -/
theorem good_of_memory {s t : State} (hs : Steady s t) (hm : MemoryInv s → MemoryInv t) (h1 : t.events = s.events)
    (h2 : t.order = s.order) (h3 : t.table = s.table) (h4 : t.ports = s.ports) (h5 : t.holds = s.holds) : Good s t :=
  ⟨hs, fun h => h.of_same (hm h.memory) (h.events.of_events h1) h2 h3 h4 (by rw [h5])⟩

theorem good_putWords (s : State) {l : List (Nat × Word)} (hl : ∀ x ∈ l, x.1 < 1024) : Good s (s.putWords l) :=
  ⟨(kept_putWords l s).steady, fun h => sound_putWords h hl⟩

theorem good_putPending (s : State) (p : PortIndex) (ks : List SlotKind) : Good s (s.putPending p ks) :=
  ⟨(kept_putWords _ s).steady, fun h => sound_putPending h p ks⟩

theorem good_putRing (s : State) (e : RingIndex) (r : Ring) : Good s (s.putRing e r) := by
  refine good_putWords s fun x hx => ?_
  simp only [List.mem_cons, List.not_mem_nil, or_false] at hx
  rcases hx with rfl | rfl <;> exact ringWord_lt e (by omega)

theorem good_blankReservation (s : State) (i : EntryIndex) : Good s (s.blankReservation i) :=
  ⟨(kept_putWords _ s).steady, fun h => sound_blankReservation h i⟩

theorem good_setRingValid (s : State) (e : RingIndex) (v : Bool) : Good s (s.setRingValid e v) :=
  good_of_memory ⟨rfl, rfl, rfl, rfl, rfl, rfl, rfl, rfl, rfl, rfl⟩ id rfl rfl rfl rfl rfl

theorem good_checkWords (s : State) {ks : List Nat} (hk : ∀ k ∈ ks, k < 1024) : Good s (s.checkWords ks) :=
  ⟨(kept_checkWords s ks).steady, fun h => sound_checkWords h hk⟩

/-- An entry takes a state that is FREE exactly where the one before was, and in force where the one before was. -/
theorem good_setEntryState (s : State) (i : EntryIndex) {st : EntryState} (hf : st = .free ↔ (s.entry i).state = .free)
    (hi : (s.entry i).state.inForce = true → st.inForce = true) : Good s (s.setEntryState i st) := by
  have he : ∀ j, (s.setEntryState i st).entry j = if j = i then { s.entry i with state := st } else s.entry j :=
    fun j => State.entry_updEntry s i j _
  refine ⟨⟨rfl, rfl, rfl, rfl, rfl, rfl, rfl, rfl, rfl, rfl⟩, fun h => ⟨h.memory, h.events.of_events rfl,
    h.order.of_fields rfl fun j => ?_, h.gates.of_ports rfl,
    h.holds.of_sublist (List.Sublist.refl _) (fun r _ => id) fun r _ hr => ?_⟩⟩
  · rw [he]
    split_ifs with hj
    · rw [hj]; exact hf
    · rfl
  · rw [he]
    split_ifs with hj
    · exact hi (hj ▸ hr)
    · exact hr

/-- An entry against which no frame is held leaves the table. -/
theorem good_freeEntry (s : State) (i : EntryIndex) (hi : (s.entry i).state.inForce = false) : Good s (s.freeEntry i) := by
  have he : ∀ j, (s.freeEntry i).entry j = if j = i then { s.entry i with state := .free } else s.entry j :=
    fun j => State.entry_updEntry s i j (fun e => { e with state := .free })
  refine ⟨⟨rfl, rfl, rfl, rfl, rfl, rfl, rfl, rfl, rfl, rfl⟩, fun h => ⟨h.memory, h.events.of_events rfl,
    ⟨h.order.once.sublist List.filter_sublist, fun j => ?_⟩, h.gates.of_ports rfl,
    h.holds.of_sublist (List.Sublist.refl _) (fun r _ => id) fun r _ hr => ?_⟩⟩
  · rw [he, State.freeEntry_order, List.mem_filter, h.order.exact j]
    by_cases hj : j = i <;> simp [hj]
  · rw [he]
    split_ifs with hj
    · rw [hj, hi] at hr; cases hr
    · exact hr

theorem State.entry_placeEntry (s : State) (i : EntryIndex) (a : AdmitRequest) (cost : Nat) (j : EntryIndex) :
    (s.placeEntry i a cost).entry j = if j = i then { Entry.initial with state := .pending } else s.entry j := by
  have table : (s.placeEntry i a cost).table = (s.updEntry i (fun _ => { Entry.initial with state := .pending })).table := by
    simp [State.placeEntry]
  rw [State.entry_of_table table, State.entry_updEntry]

/-- A FREE entry is placed, and the admission order list stays exact. -/
theorem orderInv_placeEntry {s : State} (h : OrderInv s) {i : EntryIndex} (hi : (s.entry i).state = .free) (a : AdmitRequest)
    (cost : Nat) : OrderInv (s.placeEntry i a cost) := by
  have order : (s.placeEntry i a cost).order = s.order ++ [i] := by simp [State.placeEntry]
  have absent : i ∉ s.order := fun mem => (h.exact i).mp mem hi
  refine ⟨?_, fun j => ?_⟩
  · rw [order]
    exact h.once.append (List.nodup_singleton i) (List.disjoint_singleton.mpr absent)
  · rw [s.entry_placeEntry, order, List.mem_append, List.mem_singleton, h.exact j]
    by_cases hj : j = i <;> simp [hj]

/-- A FREE entry is placed, last in the admission order list. -/
theorem good_placeEntry (s : State) (i : EntryIndex) (a : AdmitRequest) (cost : Nat) (hi : (s.entry i).state = .free) :
    Good s (s.placeEntry i a cost) := by
  have he := s.entry_placeEntry i a cost
  let u := s.updEntry i (fun _ => { Entry.initial with state := .pending })
  have frame : Steady s (s.placeEntry i a cost) ∧ (s.placeEntry i a cost).events = s.events ∧
      (s.placeEntry i a cost).ports = s.ports ∧ (s.placeEntry i a cost).holds = s.holds := by
    constructor
    · constructor
      case busy => exact (kept_putWords _ u).busy
      all_goals simp [State.placeEntry]
    · simp [State.placeEntry]
  obtain ⟨steady, events, ports, holds⟩ := frame
  refine ⟨steady, fun h => ⟨State.wf_putReservation (s := u) h.memory i _, h.events.of_events events,
    orderInv_placeEntry h.order hi a cost, h.gates.of_ports ports, h.holds.of_sublist (by rw [holds])
      (fun r _ => by rw [State.port_of_ports ports]; exact id) fun r _ hr => ?_⟩⟩
  rw [he]
  split_ifs with hj
  · rw [hj, hi] at hr; cases hr
  · exact hr

/-- A port takes new settings. -/
theorem good_setSettings (s : State) (p : PortIndex) (new : Settings) :
    Good s (s.updPort p (fun q => { q with settings := new })) := by
  have hp := fun q => State.port_updPort s p q (fun q => { q with settings := new })
  refine good_ports ⟨rfl, rfl, rfl, rfl, rfl, rfl, rfl, rfl, rfl, rfl⟩ rfl rfl rfl rfl rfl (keeps_of_updPort Port.gate hp rfl)
    (keeps_of_updPort Port.cause hp rfl) (fun q hq => .inl ?_)
  rwa [keeps_of_updPort Port.busy hp rfl q] at hq

/-- The gate of a port that is put into a state outside ENFORCING and FAILSAFE. -/
theorem port_parkPort (s : State) (p q : PortIndex) (g : GateState) :
    (s.parkPort p g).port q = if q = p then { s.port p with gate := g, cause := .none, busy := none } else s.port q := by
  unfold State.parkPort
  by_cases hg : (s.port p).gate = .enforcing
  · simp only [hg, if_true, State.port_updPort, State.leaveEnforcing]
    split_ifs <;> rfl
  · simp only [hg, if_false, State.port_updPort]

theorem records_parkPort (s : State) (p : PortIndex) (g : GateState) :
    (s.parkPort p g).holds.records =
      if (s.port p).gate = .enforcing then s.holds.records.filter (fun r => decide (r.port ≠ p)) else s.holds.records := by
  unfold State.parkPort
  by_cases hg : (s.port p).gate = .enforcing <;> simp [hg, State.leaveEnforcing, State.removePortHolds]

theorem good_parkPort (s : State) (p : PortIndex) {g : GateState} (hg : g ≠ .failsafe) :
    Good s (s.parkPort p g) := by
  have hp := fun q => port_parkPort s p q g
  have hr := records_parkPort s p g
  have frame : Steady s (s.parkPort p g) ∧ (s.parkPort p g).prot = s.prot ∧ (s.parkPort p g).order = s.order ∧
      (s.parkPort p g).table = s.table ∧ (s.parkPort p g).events = s.events := by
    unfold State.parkPort
    split_ifs <;> exact ⟨⟨rfl, rfl, rfl, rfl, rfl, rfl, rfl, rfl, rfl, rfl⟩, rfl, rfl, rfl, rfl⟩
  obtain ⟨steady, f1, f2, f3, f4⟩ := frame
  refine ⟨steady, fun h => ⟨by rw [MemoryInv, f1]; exact h.memory, h.events.of_events f4,
    h.order.of_fields f2 fun i => by rw [State.entry_of_table f3], ⟨fun q => ?_, fun q => ?_⟩,
    h.holds.of_sublist ?_ (fun r mem enforcing => ?_) fun r _ => by rw [State.entry_of_table f3]; exact id⟩⟩
  · rw [hp]
    split_ifs
    · simp [hg]
    · exact h.gates.cause q
  · rw [hp]
    split_ifs
    · simp
    · exact h.gates.busy q
  · rw [hr]
    split_ifs
    exacts [List.filter_sublist, List.Sublist.refl _]
  · have other : r.port ≠ p := by
      rintro rfl
      rw [hr, if_pos enforcing] at mem
      simp at mem
    rw [hp, if_neg other]
    exact enforcing

/-- The queue after READ_EVENT keeps its bounds. -/
theorem eventInv_afterRead {s t : State} (h : EventInv s) (e : t.events = s.events.afterRead) : EventInv t := by
  obtain ⟨room, overflow, mask⟩ := h
  rcases hq : s.events.queue with _ | ⟨x, _ | ⟨y, rest⟩⟩
  · have e' : t.events = s.events := by rw [e, EventQueue.afterRead, hq]
    exact EventInv.of_events ⟨room, overflow, mask⟩ e'
  · have e' : t.events = { s.events with queue := [], overflow := false } := by rw [e, EventQueue.afterRead, hq]
    constructor <;> simp [e', mask]
  · have e' : t.events = { s.events with queue := y :: rest } := by rw [e, EventQueue.afterRead, hq]
    rw [hq] at room
    constructor
    · simp only [e', List.length_cons] at room ⊢; omega
    · simp [e']
    · simpa [e'] using mask

/-! ### The commands -/

/-- A command's answer after work that leaves the steady parts as they were and keeps what the manual states. -/
def Answers (s t : State) : Prop := ∃ u code status result, Good s u ∧ t = u.respond code status result

theorem Good.answers {s u : State} (h : Good s u) (code : Byte) (status : Status) (result : List Byte) :
    Answers s (u.respond code status result) := ⟨u, code, status, result, h, rfl⟩

/-- A refusal changes nothing but the response record. -/
theorem answers_respond (s : State) (code : Byte) (status : Status) (result : List Byte) :
    Answers s (s.respond code status result) := (Good.refl s).answers code status result

theorem Good.then_answers {s t u : State} (h : Good s t) (k : Answers t u) : Answers s u := by
  obtain ⟨v, code, status, result, hv, rfl⟩ := k
  exact (h.trans hv).answers code status result

theorem answers_loadMapBody (port : Byte) (kinds : List Byte) (s : State) : Answers s (loadMapBody port kinds s) := by
  unfold loadMapBody
  split
  · exact answers_respond s _ _ _
  · split
    · dsimp only
      split_ifs
      · exact ((good_putPending s _ _).trans (good_setMaps _ _ _)).answers _ _ _
      · exact answers_respond s _ _ _
    · exact answers_respond s _ _ _

theorem answers_commitMapBody (port : Byte) (s : State) : Answers s (commitMapBody port s) := by
  unfold commitMapBody
  split
  · exact answers_respond s _ _ _
  · rename_i p _
    refine (good_checkPending s p).then_answers ?_
    dsimp only
    split
    · exact answers_respond _ _ _ _
    · refine (good_checkEntries _ EntryState.inUse).then_answers ?_
      split_ifs
      · exact answers_respond _ _ _ _
      · exact (good_setMaps _ _ _).answers _ _ _

theorem answers_cancelMapBody (port : Byte) (s : State) : Answers s (cancelMapBody port s) := by
  unfold cancelMapBody
  split
  · exact answers_respond s _ _ _
  · split
    · exact answers_respond s _ _ _
    · exact (good_setMaps s _ _).answers _ _ _

/-- A FREE entry stays FREE while words are checked. -/
theorem Kept.free {s t : State} (k : Kept s t) {i : EntryIndex} (h : (s.entry i).state = .free) :
    (t.entry i).state = .free := by
  rcases k.entry i with e | ⟨used, -⟩
  · rw [e, h]
  · rw [h] at used; cases used

theorem answers_admitPlace (a : AdmitRequest) (g : Geometry) (s : State) : Answers s (admitPlace a g s) := by
  unfold admitPlace
  split
  · exact answers_respond s _ _ _
  · rename_i i found
    have free : (s.entry i).state = .free := by simpa using List.find?_some found
    refine (good_checkEntries s EntryState.inUse).then_answers ?_
    dsimp only
    split_ifs
    · exact (good_placeEntry _ i a _ ((kept_checkEntries s EntryState.inUse).free free)).answers _ _ _
    · exact answers_respond _ _ _ _

theorem good_checkSlotMaps (s : State) (p : PortIndex) (slot : Nat) : Good s (s.checkSlotMaps p slot) := by
  unfold State.checkSlotMaps
  dsimp only
  split_ifs
  · exact (good_checkActive s p).trans (good_checkPending _ p)
  · exact good_checkActive s p

theorem answers_admitBody (port : Byte) (tag : BitVec 16) (slot : Byte) (len : BitVec 16) (frames : Byte) (s : State) :
    Answers s (admitBody port tag slot len frames s) := by
  unfold admitBody
  split
  · exact answers_respond s _ _ _
  · split
    · exact answers_respond s _ _ _
    · refine (good_checkEntries s EntryState.inUse).then_answers ?_
      dsimp only
      split_ifs
      · exact answers_respond _ _ _ _
      · exact (good_checkSlotMaps _ _ _).then_answers (answers_admitPlace _ _ _)
      · exact (good_checkSlotMaps _ _ _).then_answers (answers_respond _ _ _ _)

theorem answers_releaseBody (index : Byte) (s : State) : Answers s (releaseBody index s) := by
  unfold releaseBody
  split
  · exact answers_respond s _ _ _
  · split
    · rename_i state
      exact (good_freeEntry s _ (by rw [state]; rfl)).answers _ _ _
    · rename_i state
      exact (good_setEntryState s _ (by simp [state]) fun _ => rfl).answers _ _ _
    all_goals exact answers_respond s _ _ _

theorem answers_purgeBody (index : Byte) (s : State) : Answers s (purgeBody index s) := by
  unfold purgeBody
  split
  · exact answers_respond s _ _ _
  · split
    · rename_i state
      exact ((good_freeEntry s _ (by rw [state]; rfl)).trans (good_blankReservation _ _)).answers _ _ _
    all_goals exact answers_respond s _ _ _

theorem answers_readReservationBody (index : Byte) (s : State) : Answers s (readReservationBody index s) := by
  unfold readReservationBody
  split
  · exact answers_respond s _ _ _
  · rename_i i _
    have check := good_checkWords s (entryWords_lt i)
    split
    · exact answers_respond s _ _ _
    all_goals
      dsimp only
      split_ifs <;> exact check.answers _ _ _

theorem answers_setRingBody (port ring kind : Byte) (base : BitVec 24) (count : BitVec 16) (s : State) :
    Answers s (setRingBody port ring kind base count s) := by
  unfold setRingBody
  split
  · split
    · unfold setRingEffect
      dsimp only
      split_ifs
      · exact answers_respond s _ _ _
      · exact (good_foldl _ good_checkRing _ s).answers _ _ _
      · exact (((good_foldl _ good_checkRing _ s).trans (good_putRing _ _ _)).trans (good_setRingValid _ _ _)).answers _ _ _
    · exact answers_respond s _ _ _
  · exact answers_respond s _ _ _

theorem answers_clearRingBody (port ring : Byte) (s : State) : Answers s (clearRingBody port ring s) := by
  unfold clearRingBody
  split
  · split_ifs
    · exact answers_respond s _ _ _
    · exact (good_setRingValid s _ _).answers _ _ _
    · exact answers_respond s _ _ _
  · exact answers_respond s _ _ _

theorem good_walkPort (s : State) (p : PortIndex) : Good s (s.walkPort p) :=
  good_foldl (fun s k => State.walk s p k) (fun s k => good_walk s p k) _ s

theorem answers_setPortBody (port : Byte) (new : Option Settings) (s : State) : Answers s (setPortBody port new s) := by
  unfold setPortBody
  split
  · unfold setPortEffect
    dsimp only
    split_ifs
    · exact ((good_setSettings s _ _).trans (good_walkPort _ _)).answers _ _ _
    · exact (good_setSettings s _ _).answers _ _ _
  · exact answers_respond s _ _ _

theorem good_enforcePort (s : State) (p : PortIndex) : Good s (s.enforcePort p) := by
  unfold State.enforcePort
  split
  · exact Good.refl s
  all_goals
    split_ifs
    exacts [Good.refl s, good_toFailsafe s p (by decide), good_enterEnforcing s p]

theorem answers_portEnforceBody (port : Byte) (s : State) : Answers s (portEnforceBody port s) := by
  unfold portEnforceBody
  split
  · exact answers_respond s _ _ _
  · dsimp only
    split_ifs
    · exact answers_respond s _ _ _
    · exact (good_enforcePort s _).answers _ _ _

theorem answers_parkBody (code : Byte) {g : GateState} (hg : g ≠ .failsafe) (port : Byte) (s : State) :
    Answers s (parkBody code g port s) := by
  unfold parkBody
  split
  · exact answers_respond s _ _ _
  · exact (good_parkPort s _ hg).answers _ _ _

theorem answers_readPortBody (port selector : Byte) (s : State) : Answers s (readPortBody port selector s) := by
  unfold readPortBody
  split
  · exact answers_respond s _ _ _
  · split_ifs <;> exact answers_respond s _ _ _

theorem answers_readEventBody (s : State) : Answers s (readEventBody s) := by
  refine ⟨{ s with events := s.events.afterRead }, _, _, _, ⟨⟨rfl, rfl, rfl, rfl, rfl, rfl, rfl, rfl, ?_, ?_⟩, fun h =>
    h.of_same h.memory (eventInv_afterRead h.events rfl) rfl rfl rfl (List.Sublist.refl _)⟩, rfl⟩
  all_goals
    show _ = _
    dsimp only
    unfold EventQueue.afterRead
    split <;> rfl

/-- What is left of CLEAR_COUNTERS where it does not clear the global counts. -/
theorem clearCountersBody_cases (selector index : Byte) (s : State) :
    Answers s (clearCountersBody selector index s) ∨ clearCountersBody selector index s = s.clearGlobals.respond 0x62 .ok [] := by
  unfold clearCountersBody
  split_ifs
  · split
    · exact .inl ((good_countPort s _ _).answers _ _ _)
    · exact .inl (answers_respond s _ _ _)
  · split
    · exact .inl ((good_updEntry s _ Entry.clearCounters fun _ => rfl).answers _ _ _)
    · exact .inl (answers_respond s _ _ _)
  · exact .inr rfl
  · exact .inl (answers_respond s _ _ _)

/-- Every management command but the five that change the timer, the lock, the response limit, the event mask or the global
counts answers after steady work. -/
theorem commandBody_cases (c : Instr) (s : State) :
    commandBody c s = s ∨ Answers s (commandBody c s) ∨ (∃ n t, commandBody c s = setGeometryBody n t s) ∨
      (∃ p t phi tol m l, commandBody c s = setSyncBody p t phi tol m l s) ∨ (∃ l, commandBody c s = setMemoryBody l s) ∨
      (∃ m e, commandBody c s = setEventsBody m e s) ∨ commandBody c s = s.clearGlobals.respond 0x62 .ok [] := by
  cases c
  case setGeometry => exact .inr (.inr (.inl ⟨_, _, rfl⟩))
  case setSync => exact .inr (.inr (.inr (.inl ⟨_, _, _, _, _, _, rfl⟩)))
  case setMemory => exact .inr (.inr (.inr (.inr (.inl ⟨_, rfl⟩))))
  case setEvents => exact .inr (.inr (.inr (.inr (.inr (.inl ⟨_, _, rfl⟩)))))
  case clearCounters selector index =>
    rcases clearCountersBody_cases selector index s with h | h
    · exact .inr (.inl h)
    · exact .inr (.inr (.inr (.inr (.inr (.inr h)))))
  case loadMap => exact .inr (.inl (answers_loadMapBody _ _ s))
  case commitMap => exact .inr (.inl (answers_commitMapBody _ s))
  case cancelMap => exact .inr (.inl (answers_cancelMapBody _ s))
  case admitStream => exact .inr (.inl (answers_admitBody _ _ _ _ _ s))
  case release => exact .inr (.inl (answers_releaseBody _ s))
  case purge => exact .inr (.inl (answers_purgeBody _ s))
  case readReservation => exact .inr (.inl (answers_readReservationBody _ s))
  case setRing => exact .inr (.inl (answers_setRingBody _ _ _ _ _ s))
  case clearRing => exact .inr (.inl (answers_clearRingBody _ _ s))
  case setPort => exact .inr (.inl (answers_setPortBody _ _ s))
  case portEnforce => exact .inr (.inl (answers_portEnforceBody _ s))
  case portHold => exact .inr (.inl (answers_parkBody _ (by decide) _ s))
  case portTransparent => exact .inr (.inl (answers_parkBody _ (by decide) _ s))
  case readPort => exact .inr (.inl (answers_readPortBody _ _ s))
  case readEvent => exact .inr (.inl (answers_readEventBody s))
  all_goals exact .inl rfl

/-! ### They keep what the manual states -/

/-- A change of parts that `Sound` does not speak of. -/
theorem Sound.of_eq {s t : State} (h : Sound s) (h1 : t.prot.memory = s.prot.memory) (h2 : t.events = s.events)
    (h3 : t.order = s.order) (h4 : t.table = s.table) (h5 : t.ports = s.ports) (h6 : t.holds.records = s.holds.records) :
    Sound t :=
  h.of_same (by rw [MemoryInv, h1]; exact h.memory) (h.events.of_events h2) h3 h4 h5 (by rw [h6])

theorem sound_respond {s : State} (h : Sound s) (code : Byte) (status : Status) (result : List Byte) :
    Sound (s.respond code status result) := h.of_eq rfl rfl rfl rfl rfl rfl

theorem Answers.sound {s t : State} (k : Answers s t) (h : Sound s) : Sound t := by
  obtain ⟨u, code, status, result, good, rfl⟩ := k
  exact sound_respond (good.sound h) code status result

theorem sound_timer {s : State} (h : Sound s) (t : Option Timer) : Sound { s with timer := t } :=
  h.of_eq rfl rfl rfl rfl rfl rfl

theorem sound_setGeometryBody {s : State} (h : Sound s) (n : Byte) (ticks : BitVec 16) :
    Sound (setGeometryBody n ticks s) := by
  unfold setGeometryBody
  split
  · exact sound_respond h _ _ _
  · split_ifs
    · exact sound_respond h _ _ _
    · exact sound_respond h _ _ _
    · unfold setGeometryEffect
      split
      · exact sound_respond ((good_announceGeometry _ _).sound (sound_timer h _)) _ _ _
      · exact sound_respond (sound_timer h _) _ _ _

theorem good_walkLastSlots (s : State) : Good s s.walkLastSlots :=
  good_foldl (fun s p => State.walk s p (s.slotCount - 1)) (fun s p => good_walk s p _) _ s

theorem sound_setSyncBody {s : State} (h : Sound s) (p : Byte) (tag : BitVec 16) (phi tol : BitVec 24) (m l : Byte) :
    Sound (setSyncBody p tag phi tol m l s) := by
  unfold setSyncBody
  split
  · exact sound_respond h _ _ _
  · split
    · exact sound_respond h _ _ _
    · split_ifs
      · unfold setSyncEffect
        dsimp only
        refine sound_respond ((good_walkLastSlots _).sound ?_) _ _ _
        split_ifs
        · exact sound_raise ((good_reportLockLoss _).sound (sound_setLock h _)) _
        · exact sound_setLock h _
      · exact sound_respond h _ _ _

theorem sound_setMemoryBody {s : State} (h : Sound s) (limit : BitVec 16) : Sound (setMemoryBody limit s) := by
  unfold setMemoryBody
  split
  · exact sound_respond h _ _ _
  · exact sound_respond (sound_updPath h _) _ _ _

theorem sound_setEventsBody {s : State} (h : Sound s) (mask : BitVec 32) (enable : Byte) :
    Sound (setEventsBody mask enable s) := by
  unfold setEventsBody
  split
  · rename_i m on maskOk _
    have clear : m &&& 0xF8000001#32 = 0 := by
      unfold maskOperand at maskOk
      split_ifs at maskOk with ok
      exact Option.some.inj maskOk ▸ ok
    exact h.of_same h.memory ⟨h.events.room, h.events.overflow, clear⟩ rfl rfl rfl (List.Sublist.refl _)
  · exact sound_respond h _ _ _

/-- Every management command keeps what the manual states. -/
theorem sound_commandBody (c : Instr) {s : State} (h : Sound s) : Sound (commandBody c s) := by
  rcases commandBody_cases c s with e | k | ⟨n, t, e⟩ | ⟨p, t, phi, tol, m, l, e⟩ | ⟨l, e⟩ | ⟨m, on, e⟩ | e
  · rw [e]; exact h
  · exact k.sound h
  · exact e ▸ sound_setGeometryBody h n t
  · exact e ▸ sound_setSyncBody h p t phi tol m l
  · exact e ▸ sound_setMemoryBody h l
  · exact e ▸ sound_setEventsBody h m on
  · exact e ▸ sound_respond (s := s.clearGlobals) (h.of_eq rfl rfl rfl rfl rfl rfl) _ _ _

/-! ### The descriptor path -/

theorem good_checkSync (s : State) : Good s s.checkSync := by
  unfold State.checkSync
  split
  · exact Good.refl s
  · exact good_checkRing s _

theorem sound_observeWrite {s : State} (h : Sound s) (a : Address) (data : Word) (lanes : BitVec 4) :
    Sound (s.observeWrite a data lanes) := by
  unfold State.observeWrite
  have checked := (good_checkSync s).sound h
  dsimp only
  split
  · exact checked
  · split_ifs
    · exact sound_setLock checked _
    · exact checked

theorem sound_passWrite {s : State} (h : Sound s) (tag : Tag) (a : Address) (data : Word) (lanes : BitVec 4) :
    Sound (s.passWrite tag a data lanes) :=
  sound_observeWrite (sound_keepHolds (sound_updPath h _) _) a data lanes

theorem good_checkTransmitRings (s : State) : Good s s.checkTransmitRings := good_foldl _ good_checkRing _ s

theorem sound_acceptRead {s : State} (h : Sound s) (tag : Tag) (a : Address) : Sound (s.acceptRead tag a) := by
  unfold State.acceptRead
  exact sound_updPath ((good_checkTransmitRings s).sound h) _

/-- What each request keeps as it passes, all that pass keep. -/
theorem passRequests_induction {P : State → Prop} (write : ∀ s tag a data lanes, P s → P (s.passWrite tag a data lanes))
    (read : ∀ s tag a, s.path.accepts tag = true → P s → P (s.acceptRead tag a)) (l : List Request) (s : State) (h : P s) :
    P (passRequests l s).2 := by
  induction l generalizing s with
  | nil => exact h
  | cons r rest ih =>
    cases r with
    | write tag a data lanes => exact ih _ (write s tag a data lanes h)
    | read tag a =>
      unfold passRequests
      split_ifs with accepted
      · exact ih _ (read s tag a accepted h)
      · exact h

theorem sound_drain {s : State} (h : Sound s) : Sound s.drain := by
  unfold State.drain
  have passed : Sound (passRequests s.path.waiting s).2 :=
    passRequests_induction (P := Sound) (fun _ tag a data lanes h => sound_passWrite h tag a data lanes)
      (fun _ tag a _ h => sound_acceptRead h tag a) s.path.waiting s h
  exact sound_updPath passed _

theorem sound_present {s : State} (h : Sound s) (r : Request) : Sound (s.present r) := by
  unfold State.present
  split_ifs
  · exact h
  · exact sound_drain (sound_updPath h _)

theorem sound_respondTo {s : State} (h : Sound s) (r : InFlightRead) (data : Word) : Sound (s.respondTo r data) := by
  unfold State.respondTo
  have checked : Sound (s.checkNamed r) := by
    unfold State.checkNamed
    split
    · exact h
    · exact (good_checkRing s _).sound h
  dsimp only
  split
  · exact sound_updPath checked _
  · exact sound_updPath ((good_gateDecision _ _).sound checked) _

theorem sound_memoryResponse {s : State} (h : Sound s) (tag : Tag) (data : Word) (error : Bool) :
    Sound (memoryResponse tag data error s) := by
  unfold memoryResponse
  split_ifs
  · exact h
  · split
    · exact sound_drain (sound_raise (sound_updPath (sound_updPath (sound_updPath h _) _) _) _)
    · exact sound_drain (sound_updPath (sound_updPath h _) _)
  · split
    · exact sound_drain (sound_raise (sound_updPath (sound_updPath (sound_updPath h _) _) _) _)
    · exact sound_drain (sound_respondTo (sound_updPath h _) _ _)

theorem sound_timeOut {s : State} (h : Sound s) (r : InFlightRead) : Sound (s.timeOut r) :=
  sound_drain (sound_raise (sound_updPath (sound_updPath (sound_updPath h _) _) _) _)

theorem sound_expireTag {s : State} (h : Sound s) (tag : Tag) : Sound (s.expireTag tag) :=
  sound_drain (sound_updPath (sound_updPath h _) _)

/-! ### The clock, the reset pin and the step -/

theorem sound_finishInit {s : State} (h : Sound s) : Sound s.finishInit :=
  h.of_same Memory.wf_nil (h.events.of_events rfl) rfl rfl rfl (List.Sublist.refl _)

theorem sound_takeEvent {s : State} (h : Sound s) (e : ClockEvent) : Sound (s.takeEvent e) := by
  cases e with
  | slotEnd k => exact (good_slotBoundaryWork s k).sound h
  | cycleEnd =>
    simp only [State.takeEvent]
    split
    · exact sound_cycleBoundaryWork h _
    · exact h
  | initDone => exact sound_finishInit h
  | timeout r => exact sound_timeOut h r
  | expiry tag => exact sound_expireTag h tag

theorem State.entry_reset (i : EntryIndex) : State.reset.entry i = Entry.initial := by
  simp [State.entry, State.reset, Vector.get_eq_getElem]

theorem State.port_reset (p : PortIndex) : State.reset.port p = Port.initial := by
  simp [State.port, State.reset, Vector.get_eq_getElem]

/-- The state right after reset is sound: an empty queue, table, list and hold list, and every gate TRANSPARENT. -/
theorem sound_reset : Sound State.reset where
  memory := Memory.wf_nil
  events := ⟨Nat.zero_le _, fun h => (by cases h), by decide⟩
  order := ⟨List.nodup_nil, fun i => by rw [State.entry_reset]; exact ⟨fun h => (by cases h), fun h => absurd rfl h⟩⟩
  gates := ⟨fun p => by simp [State.port_reset, Port.initial], fun p => by simp [State.port_reset, Port.initial]⟩
  holds := ⟨Nat.zero_le _, List.nodup_nil, fun r h => (by cases h), fun r h => (by cases h)⟩

theorem sound_resetReleased {s : State} (h : Sound s) : Sound (resetReleased s) :=
  sound_reset.of_same h.memory (sound_reset.events.of_events rfl) rfl rfl rfl (List.Sublist.refl _)

theorem sound_pass {s : State} (h : Sound s) (n : Nat) : Sound (s.pass n) :=
  State.pass_induction (P := Sound) (fun _ n _ h => sound_tickBy h n) (fun _ _ _ e _ h => sound_takeEvent (sound_tickBy h _) e) s n h

/-- Every step keeps what the manual states of the shared tables. -/
theorem stepKeeps_sound : StepKeeps Sound where
  pending := fun _ _ h => h.of_eq rfl rfl rfl rfl rfl rfl
  link := fun _ _ h => h.of_eq rfl rfl rfl rfl rfl rfl
  asserted := fun _ h => h.of_eq rfl rfl rfl rfl rfl rfl
  released := fun _ h => sound_resetReleased h
  tick := fun _ n _ h => sound_tickBy h n
  event := fun _ _ _ e _ h => sound_takeEvent (sound_tickBy h _) e
  finishInit := fun _ n _ h => sound_finishInit (sound_pass h n)
  timeOut := fun _ r _ h => sound_timeOut h r
  expireTag := fun _ tag h => sound_expireTag h tag
  present := fun _ r h => sound_present h r
  response := fun tag data error _ h => sound_memoryResponse h tag data error
  body := fun c _ _ h => sound_commandBody c h

/-- Settles O57: the five parts are what `Sound` says, which every step keeps. -/
theorem stepKeepsTables : Obligations.StepKeepsTables := by
  intro s t memory events order gates holds e
  have h := stepKeeps_sound.step ⟨memory, events, order, gates, holds⟩ e
  exact ⟨h.memory, h.events, h.order, h.gates, h.holds⟩

end Sys2Proof.Machine
end

section
/-! A cycle boundary's timer and lock, and what else it leaves as it was; and that every step keeps the in-flight read list
and the quarantine in order (`PathInv`). -/

namespace Sys2Proof.Machine

/-! ### What a cycle boundary leaves as it was -/

/-- What `Steady` says, the timer and the lock apart. -/
structure Rest (s t : State) : Prop where
  pending : t.pending = s.pending
  resetAsserted : t.resetAsserted = s.resetAsserted
  time : t.time = s.time
  link : t.link = s.link
  busy : t.prot.busy = s.prot.busy
  path : t.path = { s.path with ringValid := t.path.ringValid }
  mask : t.events.mask = s.events.mask
  enable : t.events.enable = s.events.enable

theorem Steady.rest {s t : State} (h : Steady s t) : Rest s t :=
  ⟨h.pending, h.resetAsserted, h.time, h.link, h.busy, h.path, h.mask, h.enable⟩

theorem Rest.trans {s t u : State} (h : Rest s t) (k : Rest t u) : Rest s u :=
  ⟨k.pending.trans h.pending, k.resetAsserted.trans h.resetAsserted, k.time.trans h.time, k.link.trans h.link,
    k.busy.trans h.busy, by rw [k.path, h.path], k.mask.trans h.mask, k.enable.trans h.enable⟩

theorem rest_refl (s : State) : Rest s s := (Steady.refl s).rest

theorem rest_timer (s : State) (t : Option Timer) : Rest s { s with timer := t } :=
  ⟨rfl, rfl, rfl, rfl, rfl, rfl, rfl, rfl⟩

theorem rest_setLock (s : State) (l : Lock) : Rest s (s.setLock l) := ⟨rfl, rfl, rfl, rfl, rfl, rfl, rfl, rfl⟩

theorem rest_turnTimer (s : State) (t : Timer) (g : Option Geometry) : Rest s (s.turnTimer t g) :=
  ⟨rfl, rfl, rfl, rfl, rfl, rfl, rfl, rfl⟩

/-- The lock after a cycle boundary, its stored value consumed already: R22 in ACQUIRING, R24, R28 and R29, R31. -/
def Lock.atBoundary (l : Lock) (c : Nat) (now : DeviceTime) (handedOver : Bool) : Lock :=
  match l.state with
  | .free => l
  | .acquiring => l.forgetMark c now
  | .aligning => if handedOver then l else l.enterLocked
  | .locked => l.recordCycle.recordMiss
  | .holdover =>
      if l.holdoverLimit ≤ l.holdoverCount + 1 then { l.cleared with state := .acquiring }
      else { l with holdoverCount := l.holdoverCount + 1 }

/-- The lock's work at a boundary: the lock as above, and of the rest only what its reports move. -/
theorem lockBoundary_frame (s : State) {t : Timer} (ht : s.timer = some t) (handedOver : Bool) (ended : Int) :
    Rest s (s.lockBoundary handedOver ended) ∧ (s.lockBoundary handedOver ended).timer = s.timer ∧
      (s.lockBoundary handedOver ended).lock = s.lock.atBoundary t.geometry.cycleTicks s.time handedOver := by
  unfold State.lockBoundary Lock.atBoundary
  rw [ht]
  cases hs : s.lock.state with
  | free => exact ⟨rest_refl s, ht, rfl⟩
  | acquiring => exact ⟨rest_setLock s _, ht, rfl⟩
  | aligning =>
    dsimp only
    split_ifs
    · exact ⟨rest_refl s, ht, rfl⟩
    · have reported := (good_raise (s.setLock s.lock.enterLocked) (lockEvent .lockAcquired s.lock.enterLocked
        s.cycleNumber (cappedDetail ended.toNat))).steady.trans (good_reportLockWon _).steady
      exact ⟨(rest_setLock s _).trans reported.rest, reported.timer.trans ht, reported.lock⟩
  | locked =>
    dsimp only
    unfold State.lockedBoundary
    dsimp only
    split_ifs <;>
      exact ⟨⟨rfl, rfl, rfl, rfl, rfl, rfl, by simp, by simp⟩, ht, rfl⟩
  | holdover =>
    dsimp only
    unfold State.holdoverBoundary
    dsimp only
    split_ifs
    · have reported := (good_raise (s.setLock { s.lock.cleared with state := .acquiring }) (lockEvent .lockLost
        { s.lock.cleared with state := .acquiring } s.cycleNumber (detail 0))).steady.trans (good_reportLockLoss _).steady
      exact ⟨(rest_setLock s _).trans reported.rest, reported.timer.trans ht, reported.lock⟩
    · exact ⟨rest_setLock s _, ht, by simp [hs]⟩

theorem rest_scrubAhead (s : State) (t : Timer) :
    Rest s (s.scrubAhead t) ∧ (s.scrubAhead t).lock = s.lock := by
  have scrub := (good_scrubOne { s with timer := some { t with cycle := t.cycle + 1 } }).steady
  exact ⟨(rest_timer s _).trans scrub.rest, scrub.lock⟩

/-- The timer's change and the maps of a new geometry. -/
theorem turnCycle_frame (s : State) (t : Timer) (g : Option Geometry) :
    Rest s (s.turnCycle t g) ∧ (s.turnCycle t g).timer = some (t.turn s.time g s.lock.stored) ∧
      (s.turnCycle t g).lock = { s.lock with stored := none } := by
  unfold State.turnCycle
  split
  · rename_i g
    have opened := (good_announceGeometry (s.turnTimer t (some g)) g).steady
    exact ⟨(rest_turnTimer s t _).trans opened.rest, opened.timer, opened.lock⟩
  · exact ⟨rest_turnTimer s t _, rfl, rfl⟩

theorem openingWork_frame (s : State) (t : Timer) (g : Option Geometry) (o : BoundaryOrder) :
    Rest s (s.openingWork t g o) ∧ (s.openingWork t g o).timer = some (t.turn s.time g s.lock.stored) ∧
      (s.openingWork t g o).lock = { s.lock with stored := none } := by
  unfold State.openingWork
  dsimp only
  obtain ⟨v, hv, rest, lock⟩ : ∃ v, v = (if o.scrubFirst then s.scrubAhead t else s) ∧ Rest s v ∧ v.lock = s.lock := by
    refine ⟨_, rfl, ?_⟩
    split_ifs
    · exact rest_scrubAhead s t
    · exact ⟨rest_refl s, rfl⟩
  rw [← hv]
  obtain ⟨turned, timer, turnedLock⟩ := turnCycle_frame v t g
  have after := (((good_expireIf (v.turnCycle t g) o.expiryFirst).trans (good_tableBoundary (!o.scrubFirst && o.asStood)
    o.bitsReturn (t.geometry.slots - 1) t.cycle _)).trans (good_scrubIf _ (!o.scrubFirst && o.scrubSecond))).steady
  exact ⟨(rest.trans turned).trans after.rest, by rw [after.timer, timer, rest.time, lock],
    by rw [after.lock, turnedLock, lock]⟩

/-- The timer and the lock after a cycle boundary, and what it leaves as it was. -/
theorem cycleBoundaryWork_frame (s : State) (t : Timer) :
    Rest s (s.cycleBoundaryWork t) ∧
      (s.cycleBoundaryWork t).timer = some (t.turn s.time (s.applies t) s.lock.stored) ∧
      (s.cycleBoundaryWork t).lock = Lock.atBoundary { s.lock with stored := none }
        (t.turn s.time (s.applies t) s.lock.stored).geometry.cycleTicks s.time s.lock.stored.isSome := by
  unfold State.cycleBoundaryWork
  dsimp only
  obtain ⟨rest, timer, lock⟩ := openingWork_frame (s.dropChoices 5) t (s.applies t) s.boundaryOrder
  generalize State.openingWork _ _ _ _ = u at rest timer lock ⊢
  generalize (!s.boundaryOrder.scrubFirst && !s.boundaryOrder.scrubSecond) = last
  generalize hs : (if (last && s.boundaryOrder.asStood) = true then u.struckMap (s.applies t) else none) = struck
  have part : ∀ p part, struck = some (p, part) → part < 3 := by
    intro p part e
    rw [← hs] at e
    split at e
    · exact State.struckMap_part e
    · cases e
  have maps := (good_mapsBeforeScrub u (s.applies t) struck part).steady
  obtain ⟨lockRest, lockTimer, lockLock⟩ := lockBoundary_frame (u.mapsBeforeScrub (s.applies t) struck)
    (maps.timer.trans timer) s.lock.stored.isSome t.adjustment
  generalize State.lockBoundary _ _ _ = w at lockRest lockTimer lockLock ⊢
  have closed : Steady w (if last = true then (w.closingWork s.boundaryOrder).lastScrub struck else w.closingWork s.boundaryOrder) := by
    split_ifs
    · exact ((good_closingWork w _).trans (good_lastScrub _ struck part)).steady
    · exact (good_closingWork w _).steady
  have dropped : Rest s (s.dropChoices 5) := ⟨rfl, rfl, rfl, rfl, rfl, rfl, rfl, rfl⟩
  refine ⟨dropped.trans (((rest.trans maps.rest).trans lockRest).trans closed.rest), ?_, ?_⟩
  · rw [closed.timer, lockTimer, maps.timer, timer]; rfl
  · rw [closed.lock, lockLock, maps.lock, maps.time, rest.time, lock]; rfl

/-- Every boundary of the cycle timer leaves the rest as it was. -/
theorem rest_slotBoundaryWork (s : State) (k : Nat) : Rest s (s.slotBoundaryWork k) := (good_slotBoundaryWork s k).steady.rest

/-! ### The clock's choice of events -/

theorem nextBoundary_event {s : State} {d : Nat} {e : ClockEvent} (h : s.nextBoundary = some (d, e)) :
    (∃ k, e = .slotEnd k) ∨ e = .cycleEnd := by
  simp only [State.nextBoundary, Option.map_eq_some_iff] at h
  obtain ⟨t, -, h⟩ := h
  split_ifs at h <;> cases h
  exacts [.inl ⟨_, rfl⟩, .inr rfl]

/-- A timeout that is taken is that of a read in the list. -/
theorem nextEvent_timeout {s : State} {n d : Nat} {r : InFlightRead} (h : s.nextEvent n = some (d, .timeout r)) :
    r ∈ s.path.inFlight := by
  rcases (State.nextEvent_le h).2 with boundary | ⟨mem, -⟩
  · rcases nextBoundary_event boundary with ⟨k, e⟩ | e <;> cases e
  · simp only [State.initEnd, State.deadlines, List.mem_append, List.mem_map, Option.mem_toList] at mem
    rcases mem with mem | ⟨x, hx, e⟩ | ⟨x, -, e⟩
    · split_ifs at mem
      cases mem
    · cases e; exact hx
    · cases e

/-! ### The in-flight read list and the quarantine -/

theorem PathInv.of_lists {s t : State} (h : PathInv s) (h1 : t.path.inFlight = s.path.inFlight)
    (h2 : t.path.quarantine = s.path.quarantine) : PathInv t := by
  obtain ⟨room, distinct, apart, once⟩ := h
  exact ⟨by rwa [h1], by rwa [h1], by rwa [h1, h2], by rwa [h2]⟩

theorem Rest.pathInv {s t : State} (k : Rest s t) (h : PathInv s) : PathInv t :=
  h.of_lists (by rw [k.path]) (by rw [k.path])

/-- Fewer reads and fewer tags in quarantine. -/
theorem PathInv.of_sublists {s t : State} (h : PathInv s) (h1 : t.path.inFlight.Sublist s.path.inFlight)
    (h2 : t.path.quarantine.Sublist s.path.quarantine) : PathInv t :=
  ⟨h1.length_le.trans h.room, h.distinct.sublist (h1.map _),
    fun r hr q hq => h.apart r (h1.subset hr) q (h2.subset hq), h.once.sublist (h2.map _)⟩

theorem pathInv_acceptRead {s : State} (h : PathInv s) {tag : Tag} (a : Address) (accepted : s.path.accepts tag = true) :
    PathInv (s.acceptRead tag a) := by
  have checked := (good_checkTransmitRings s).steady.path
  have lists : ∃ r : InFlightRead, r.tag = tag ∧ (s.acceptRead tag a).path.inFlight = s.path.inFlight ++ [r] ∧
      (s.acceptRead tag a).path.quarantine = s.path.quarantine := by
    refine ⟨⟨tag, a, s.checkTransmitRings.time, s.checkTransmitRings.path.responseLimit, s.checkTransmitRings.recognise a⟩,
      rfl, ?_, ?_⟩
    · unfold State.acceptRead
      dsimp only [State.updPath]
      rw [checked]
    · unfold State.acceptRead
      dsimp only [State.updPath]
      rw [checked]
  obtain ⟨r, rfl, inFlight, quarantine⟩ := lists
  simp only [Path.accepts, Path.inList, Path.quarantined, Bool.and_eq_true, decide_eq_true_eq, Bool.not_eq_true',
    List.any_eq_false] at accepted
  obtain ⟨⟨room, fresh⟩, apart⟩ := accepted
  refine ⟨?_, ?_, ?_, ?_⟩
  · rw [inFlight, List.length_append, List.length_singleton]; omega
  · rw [inFlight, List.map_append, List.map_singleton]
    refine h.distinct.append (List.nodup_singleton _) (List.disjoint_singleton.mpr fun mem => ?_)
    obtain ⟨x, hx, e⟩ := List.mem_map.mp mem
    exact fresh x hx e
  · rw [inFlight, quarantine]
    intro x hx q hq
    rcases List.mem_append.mp hx with hx | hx
    · exact h.apart x hx q hq
    · rw [List.mem_singleton.mp hx]
      exact fun e => apart q hq e.symm
  · rw [quarantine]; exact h.once

theorem rest_observeWrite (s : State) (a : Address) (data : Word) (lanes : BitVec 4) :
    Rest s (s.observeWrite a data lanes) := by
  unfold State.observeWrite
  have checked := (good_checkSync s).steady.rest
  dsimp only
  split
  · exact checked
  · split_ifs
    · exact checked.trans (rest_setLock _ _)
    · exact checked

theorem pathInv_passWrite {s : State} (h : PathInv s) (tag : Tag) (a : Address) (data : Word) (lanes : BitVec 4) :
    PathInv (s.passWrite tag a data lanes) := by
  unfold State.passWrite
  exact (rest_observeWrite _ a data lanes).pathInv (h.of_lists rfl rfl)

theorem pathInv_drain {s : State} (h : PathInv s) : PathInv s.drain := by
  have passed : PathInv (passRequests s.path.waiting s).2 :=
    passRequests_induction (P := PathInv) (fun _ tag a data lanes h => pathInv_passWrite h tag a data lanes)
      (fun _ _ a accepted h => pathInv_acceptRead h a accepted) s.path.waiting s h
  exact passed.of_lists rfl rfl

theorem pathInv_present {s : State} (h : PathInv s) (r : Request) : PathInv (s.present r) := by
  unfold State.present
  split_ifs
  · exact h
  · exact pathInv_drain (h.of_lists rfl rfl)

/-- A response decided leaves the lists as they were. -/
theorem lists_respondTo (s : State) (r : InFlightRead) (data : Word) :
    (s.respondTo r data).path.inFlight = s.path.inFlight ∧ (s.respondTo r data).path.quarantine = s.path.quarantine := by
  have checked : Rest s (s.checkNamed r) := by
    unfold State.checkNamed
    split
    · exact rest_refl s
    · exact (good_checkRing s _).steady.rest
  unfold State.respondTo
  dsimp only
  split
  · dsimp only [State.answer, State.updPath]
    rw [checked.path]
    exact ⟨rfl, rfl⟩
  · rename_i c _
    dsimp only [State.answer, State.updPath]
    rw [(checked.trans (good_gateDecision c _).steady.rest).path]
    exact ⟨rfl, rfl⟩

theorem pathInv_memoryResponse {s : State} (h : PathInv s) (tag : Tag) (data : Word) (error : Bool) :
    PathInv (memoryResponse tag data error s) := by
  unfold memoryResponse
  split_ifs
  · exact h
  · split
    · exact pathInv_drain (h.of_sublists (List.Sublist.refl _) List.filter_sublist)
    · exact pathInv_drain (h.of_sublists List.filter_sublist (List.Sublist.refl _))
  · split
    · exact pathInv_drain (h.of_sublists (List.Sublist.refl _) List.filter_sublist)
    · refine pathInv_drain ?_
      obtain ⟨e1, e2⟩ := lists_respondTo (s.dropRead tag) ‹InFlightRead› data
      exact PathInv.of_lists (s := s.dropRead tag) (h.of_sublists List.filter_sublist (List.Sublist.refl _)) e1 e2

/-- The tag of a read that times out enters quarantine, and no other read has it. -/
theorem pathInv_timeOut {s : State} (h : PathInv s) {r : InFlightRead} (hr : r ∈ s.path.inFlight) :
    PathInv (s.timeOut r) := by
  refine pathInv_drain ?_
  refine PathInv.mk (List.filter_sublist.length_le.trans h.room) (h.distinct.sublist (List.filter_sublist.map _)) ?_ ?_
  · intro x hx q hq
    obtain ⟨listed, other⟩ := List.mem_filter.mp hx
    rcases List.mem_append.mp hq with hq | hq
    · exact h.apart x listed q hq
    · rw [List.mem_singleton.mp hq]
      exact of_decide_eq_true other
  · show ((s.path.quarantine ++ [_]).map Quarantined.tag).Nodup
    rw [List.map_append, List.map_singleton]
    refine h.once.append (List.nodup_singleton _) (List.disjoint_singleton.mpr fun mem => ?_)
    obtain ⟨q, hq, e⟩ := List.mem_map.mp mem
    exact h.apart r hr q hq e.symm

theorem pathInv_expireTag {s : State} (h : PathInv s) (tag : Tag) : PathInv (s.expireTag tag) :=
  pathInv_drain (h.of_sublists (List.Sublist.refl _) List.filter_sublist)

/-- Ticks pass and leave all but the clock, the words the initialisation pass writes and the marks of an instant. -/
theorem State.tickBy_frame (s : State) (n : Nat) :
    (s.tickBy n).time = afterTicks s.time n ∧ (s.tickBy n).timer = s.timer ∧ (s.tickBy n).lock = s.lock ∧
      (s.tickBy n).path.inFlight = s.path.inFlight ∧ (s.tickBy n).path.quarantine = s.path.quarantine := by
  have path : (s.path.afterTicks n).inFlight = s.path.inFlight ∧ (s.path.afterTicks n).quarantine = s.path.quarantine := by
    cases n <;> exact ⟨rfl, rfl⟩
  unfold State.tickBy
  dsimp only
  split_ifs <;> exact ⟨rfl, rfl, rfl, path⟩

/-- A boundary of the cycle timer leaves the rest as it was. -/
theorem rest_takeBoundary {s : State} {e : ClockEvent} (he : (∃ k, e = .slotEnd k) ∨ e = .cycleEnd) :
    Rest s (s.takeEvent e) := by
  rcases he with ⟨k, rfl⟩ | rfl
  · exact rest_slotBoundaryWork s k
  · simp only [State.takeEvent]
    split
    · exact (cycleBoundaryWork_frame s _).1
    · exact rest_refl s

theorem pathInv_takeEvent {s : State} (h : PathInv s) {e : ClockEvent} (he : ∀ r, e = .timeout r → r ∈ s.path.inFlight) :
    PathInv (s.takeEvent e) := by
  cases e with
  | slotEnd k => exact (rest_takeBoundary (.inl ⟨k, rfl⟩)).pathInv h
  | cycleEnd => exact (rest_takeBoundary (.inr rfl)).pathInv h
  | initDone => exact h.of_lists rfl rfl
  | timeout r => exact pathInv_timeOut h (he r rfl)
  | expiry tag => exact pathInv_expireTag h tag

/-- What SET_GEOMETRY leaves as it was. -/
theorem rest_setGeometryBody (n : Byte) (ticks : BitVec 16) (s : State) :
    ∃ u, Rest s u ∧ u.lock = s.lock ∧ ∃ r, setGeometryBody n ticks s = { u with link := r } := by
  unfold setGeometryBody
  split
  · exact ⟨s, rest_refl s, rfl, _, rfl⟩
  · split_ifs
    · exact ⟨s, rest_refl s, rfl, _, rfl⟩
    · exact ⟨s, rest_refl s, rfl, _, rfl⟩
    · unfold setGeometryEffect
      split
      · rename_i g _ _ _ _ _
        have opened := (good_announceGeometry { s with timer := some ⟨g, none, 0, s.time, 0⟩ } g).steady
        exact ⟨_, (rest_timer s _).trans opened.rest, opened.lock, _, rfl⟩
      · rename_i g _ _ _ _ t _
        exact ⟨_, rest_timer s (some (t.stage g)), rfl, _, rfl⟩

/-- What SET_SYNC leaves as it was. -/
theorem rest_setSyncEffect (set : SyncSettings) (s : State) :
    ∃ u, Rest s u ∧ u.timer = s.timer ∧ u.lock = s.lock.configured set ∧ ∃ r, setSyncEffect set s = { u with link := r } := by
  unfold setSyncEffect
  dsimp only
  have reported : Steady (s.setLock (s.lock.configured set)) (if s.hasLock = true then
      (s.setLock (s.lock.configured set)).reportLockLoss.raise (lockEvent .lockLost s.lock
        (s.setLock (s.lock.configured set)).cycleNumber (detail 1))
      else s.setLock (s.lock.configured set)) := by
    split_ifs
    · exact ((good_reportLockLoss _).trans (good_raise _ _)).steady
    · exact Steady.refl _
  have walked := reported.trans (good_walkLastSlots _).steady
  generalize State.walkLastSlots _ = u at walked ⊢
  exact ⟨u, (rest_setLock s _).trans walked.rest, walked.timer, walked.lock, _, rfl⟩

theorem pathInv_commandBody (c : Instr) {s : State} (h : PathInv s) : PathInv (commandBody c s) := by
  rcases commandBody_cases c s with e | k | ⟨n, t, e⟩ | ⟨p, t, phi, tol, m, l, e⟩ | ⟨l, e⟩ | ⟨m, on, e⟩ | e
  · rw [e]; exact h
  · obtain ⟨u, code, status, result, good, e⟩ := k
    rw [e]
    exact (good.steady.rest.pathInv h).of_lists rfl rfl
  · obtain ⟨u, rest, -, r, e'⟩ := rest_setGeometryBody n t s
    rw [e, e']
    exact (rest.pathInv h).of_lists rfl rfl
  · rw [e]
    unfold setSyncBody
    split
    · exact h.of_lists rfl rfl
    · split
      · exact h.of_lists rfl rfl
      · split_ifs
        · obtain ⟨u, rest, -, -, r, e'⟩ := rest_setSyncEffect ‹SyncSettings› s
          rw [e']
          exact (rest.pathInv h).of_lists rfl rfl
        · exact h.of_lists rfl rfl
  · rw [e]
    unfold setMemoryBody
    split <;> exact h.of_lists rfl rfl
  · rw [e]
    unfold setEventsBody
    split <;> exact h.of_lists rfl rfl
  · rw [e]
    exact h.of_lists rfl rfl

theorem pathInv_tickBy {s : State} (h : PathInv s) (n : Nat) : PathInv (s.tickBy n) := by
  obtain ⟨-, -, -, inFlight, quarantine⟩ := s.tickBy_frame n
  exact h.of_lists inFlight quarantine

theorem pathInv_event {s : State} {n d : Nat} {e : ClockEvent} (he : s.nextEvent n = some (d, e)) (h : PathInv s) :
    PathInv ((s.tickBy d).takeEvent e) := by
  obtain ⟨-, -, -, inFlight, -⟩ := s.tickBy_frame d
  exact pathInv_takeEvent (pathInv_tickBy h d) fun r er => inFlight ▸ nextEvent_timeout (er ▸ he)

theorem pathInv_pass {s : State} (h : PathInv s) (n : Nat) : PathInv (s.pass n) :=
  State.pass_induction (P := PathInv) (fun _ n _ h => pathInv_tickBy h n) (fun _ _ _ _ he h => pathInv_event he h) s n h

/-- Every step keeps the in-flight read list and the quarantine in order. -/
theorem stepKeeps_pathInv : StepKeeps PathInv where
  pending := fun _ _ h => h.of_lists rfl rfl
  link := fun _ _ h => h.of_lists rfl rfl
  asserted := fun _ h => h.of_sublists (List.nil_sublist _) (List.Sublist.refl _)
  released := fun _ h => h.of_sublists (List.nil_sublist _) (List.nil_sublist _)
  tick := fun _ n _ h => pathInv_tickBy h n
  event := fun _ _ _ _ he h => pathInv_event he h
  finishInit := fun _ n _ h => (pathInv_pass h n).of_lists rfl rfl
  timeOut := fun _ _ hr h => pathInv_timeOut h hr
  expireTag := fun _ tag h => pathInv_expireTag h tag
  present := fun _ r h => pathInv_present h r
  response := fun tag data error _ h => pathInv_memoryResponse h tag data error
  body := fun c _ _ h => pathInv_commandBody c h

/-- Settles O58. -/
theorem stepKeepsPath : Obligations.StepKeepsPath := fun _ _ h e => stepKeeps_pathInv.step h e

end Sys2Proof.Machine
end

section
/-! When the next boundary of the cycle timer comes, which clock event is taken next, and a state in which the invariant of
timer and lock is not kept by a step. -/

namespace Sys2Proof.Machine

/-! ### Positions and boundaries -/

/-- A cycle is at least 2 slots of at least 500 ticks. -/
theorem Geometry.ok.bounds {g : Geometry} (h : g.ok) : 1000 ≤ g.cycleTicks ∧ g.cycleTicks ≤ 48 * 65535 := by
  obtain ⟨slotsLow, slotsHigh, ticksLow, ticksHigh⟩ := h
  exact ⟨Nat.mul_le_mul slotsLow ticksLow, Nat.mul_le_mul slotsHigh ticksHigh⟩

/-- The end of a slot that is not the last comes before the end of the cycle. -/
theorem Timer.ok.slotEnd_lt {t : Timer} {now : DeviceTime} (h : t.ok now) {k : Nat} (hk : k + 1 < t.geometry.slots) :
    (k + 1) * t.geometry.ticks < t.length := by
  have low := h.low
  have ticksLow := h.geometry.ticksLow
  have last : (k + 1) * t.geometry.ticks + t.geometry.ticks ≤ t.geometry.cycleTicks := by
    have := Nat.mul_le_mul_right t.geometry.ticks (show k + 1 + 1 ≤ t.geometry.slots from hk)
    rwa [Nat.add_one_mul (k + 1)] at this
  unfold Timer.length
  omega

/-- A slot that is not the last is the position divided by the slot length. -/
theorem Timer.lt_slotEnd {t : Timer} {position : Nat} (ticks : 0 < t.geometry.ticks)
    (hk : t.slotAt position + 1 < t.geometry.slots) : position < (t.slotAt position + 1) * t.geometry.ticks := by
  have exact : t.slotAt position = position / t.geometry.ticks := by
    unfold Timer.slotAt at hk ⊢; omega
  rw [exact, Nat.mul_comm]
  exact Nat.lt_mul_div_succ position ticks

/-- The position n ticks on, while it stays in the range of device time. -/
theorem Timer.position_afterTicks (t : Timer) (now : DeviceTime) {n : Nat} (h : t.position now + n < 2 ^ 48) :
    t.position (afterTicks now n) = t.position now + n := by
  unfold Timer.position afterTicks at *
  have : now + BitVec.ofNat 48 n - t.start = (now - t.start) + BitVec.ofNat 48 n := by
    rw [BitVec.sub_eq_add_neg, BitVec.sub_eq_add_neg, BitVec.add_assoc, BitVec.add_assoc, BitVec.add_comm (BitVec.ofNat 48 n)]
  rw [this, BitVec.toNat_add, BitVec.toNat_ofNat, Nat.add_mod_mod, Nat.mod_eq_of_lt h]

theorem Timer.position_start (t : Timer) : t.position t.start = 0 := by
  unfold Timer.position; rw [BitVec.sub_self]; rfl

theorem Timer.ok.length_lt {t : Timer} {now : DeviceTime} (h : t.ok now) : t.length < 2 ^ 47 := by
  have bounds := h.geometry.bounds
  have high := h.high
  unfold Timer.length
  omega

/-- What the next boundary of a running timer is. -/
theorem nextBoundary_of_timer {s : State} {t : Timer} (ht : s.timer = some t) :
    s.nextBoundary = some
      (if t.slot s.time + 1 < t.geometry.slots then
        ((t.slot s.time + 1) * t.geometry.ticks - t.position s.time, .slotEnd (t.slot s.time))
      else (t.length - t.position s.time, .cycleEnd)) := by
  rw [State.nextBoundary, ht]
  rfl

/-- Up to the next boundary the position stays in the cycle. -/
theorem Timer.ok.before_boundary {t : Timer} {s : State} (h : t.ok s.time) (ht : s.timer = some t) {x : Nat × ClockEvent}
    (hx : s.nextBoundary = some x) : t.position s.time + x.1 ≤ t.length ∧ 0 < x.1 := by
  rw [nextBoundary_of_timer ht, Option.some.injEq] at hx
  have inside := h.position
  subst hx
  by_cases hk : t.slot s.time + 1 < t.geometry.slots
  · rw [if_pos hk]
    have ends := h.slotEnd_lt hk
    have before := Timer.lt_slotEnd (position := t.position s.time) (by have := h.geometry.ticksLow; omega) hk
    unfold Timer.slot at *
    dsimp only
    omega
  · rw [if_neg hk]
    dsimp only
    omega

/-! ### The choice of the next event -/

/-- The soonest of a list is the first, or sooner than the first. -/
theorem foldl_sooner (l : List (Nat × ClockEvent)) (x : Nat × ClockEvent) :
    l.foldl sooner x = x ∨ (l.foldl sooner x).1 < x.1 := by
  induction l generalizing x with
  | nil => exact .inl rfl
  | cons y l ih =>
    rw [List.foldl_cons]
    unfold sooner at ih ⊢
    split_ifs with earlier
    · rcases ih y with e | lt
      · exact .inr (by rw [e]; exact earlier)
      · exact .inr (lt.trans earlier)
    · exact ih x

/-- Where nothing falls due the next boundary is later. -/
theorem nextEvent_none {s : State} {n : Nat} (h : s.nextEvent n = none) {x : Nat × ClockEvent}
    (hx : s.nextBoundary = some x) : n < x.1 := by
  by_contra due
  have kept : s.nextBoundary.filter (fun x => decide (x.1 ≤ n)) = some x := by
    rw [hx, Option.filter_some, if_pos (decide_eq_true (Nat.not_lt.mp due))]
  simp only [State.nextEvent, kept, Option.toList_some, List.singleton_append] at h
  cases h

/-- The event taken next is the next boundary, or it is before it. -/
theorem nextEvent_some {s : State} {n d : Nat} {e : ClockEvent} (h : s.nextEvent n = some (d, e)) {x : Nat × ClockEvent}
    (hx : s.nextBoundary = some x) : x = (d, e) ∨ d < x.1 := by
  by_cases due : x.1 ≤ n
  · have kept : s.nextBoundary.filter (fun x => decide (x.1 ≤ n)) = some x := by
      rw [hx, Option.filter_some, if_pos (decide_eq_true due)]
    simp only [State.nextEvent, kept, Option.toList_some, List.singleton_append, Option.some.injEq] at h
    rcases foldl_sooner ((s.initEnd.toList ++ s.deadlines).filter (fun x => decide (x.1 < n))) x with e | lt
    · exact .inl (e ▸ h)
    · exact .inr (by rw [h] at lt; exact lt)
  · have := (State.nextEvent_le h).1
    exact .inr (by omega)

/-- A boundary is taken as the event of its timer. -/
theorem nextEvent_boundary {s : State} {n d : Nat} {e : ClockEvent} (h : s.nextEvent n = some (d, e))
    (he : (∃ k, e = .slotEnd k) ∨ e = .cycleEnd) : s.nextBoundary = some (d, e) := by
  rcases (State.nextEvent_le h).2 with boundary | ⟨mem, -⟩
  · exact boundary
  · exfalso
    simp only [State.initEnd, State.deadlines, List.mem_append, List.mem_map, Option.mem_toList] at mem
    rcases mem with mem | ⟨x, -, e'⟩ | ⟨x, -, e'⟩
    · split_ifs at mem
      rcases he with ⟨k, rfl⟩ | rfl <;> cases mem
    · rcases he with ⟨k, rfl⟩ | rfl <;> cases e'
    · rcases he with ⟨k, rfl⟩ | rfl <;> cases e'

/-- A geometry applied at a boundary is the staged one, with the lock FREE. -/
theorem State.applies_eq_some {s : State} {t : Timer} {g : Geometry} (h : s.applies t = some g) :
    t.staged = some g ∧ s.lock.state = .free := by
  unfold State.applies at h
  split at h
  · split_ifs at h with busy
    cases h
    refine ⟨‹_›, ?_⟩
    simp only [Bool.or_eq_true, not_or, State.geometryHeld, decide_eq_true_eq, not_not] at busy
    exact busy.2.2
  · cases h

/-! ### A value stored while STOPPED -/

/-- The reset state after the initialisation pass, but with an adjustment stored by the FREE lock while the timer is
STOPPED, and SET_GEOMETRY waiting. `TimingInv` bounds a stored value only while the timer runs. -/
def storedWhileStopped : State :=
  { State.reset with
      pending := [.setGeometry 2 500]
      lock := { Lock.initial with stored := some 5 }
      prot := { Protection.initial with busy := false } }

theorem timingInv_storedWhileStopped : TimingInv storedWhileStopped where
  timer := fun _ h => by cases h
  free := iff_of_true rfl rfl
  running := fun h => absurd rfl h
  phi := fun _ h => by cases h
  maxStep := by decide
  stored := fun _ _ h => by cases h

/-- The step starts the timer and leaves the lock, FREE with its stored value (R5). -/
theorem step_storedWhileStopped :
    ∃ t, step storedWhileStopped = .next t ∧ t.timer = some ⟨⟨2, 500⟩, none, 0, 0, 0⟩ ∧
      t.lock = { Lock.initial with stored := some 5 } :=
  ⟨setGeometryTaken 2 500 { storedWhileStopped with pending := [] }, rfl, by decide, by decide⟩

/-- Refutes O59: a value stored by a FREE lock while STOPPED, of which the invariant says nothing, is there still when
SET_GEOMETRY starts the timer, and then the invariant asks for ALIGNING or LOCKED. No run from reset stores one. -/
theorem not_stepKeepsTiming : ¬ Obligations.StepKeepsTiming := by
  intro keeps
  obtain ⟨t, step, timer, lock⟩ := step_storedWhileStopped
  have kept := (keeps storedWhileStopped t timingInv_storedWhileStopped step).stored _ 5 timer (by rw [lock])
  rw [lock] at kept
  rcases kept with ⟨aligning, -⟩ | ⟨locked, -⟩
  · cases aligning
  · cases locked

end Sys2Proof.Machine
end

section
/-! The fields of reservation entries, maps and ring map entries in table memory: what is read back after a write. -/

namespace Sys2Proof.Machine

/-! ### Packing and unpacking -/

/-- A field read out of two joined values, where it lies in the lower one. -/
theorem extract_append_low {m n : Nat} (a : BitVec m) (b : BitVec n) {start len : Nat} (h : start + len ≤ n) :
    (a ++ b).extractLsb' start len = b.extractLsb' start len := by
  ext i hi
  simp [BitVec.getLsbD_append, show start + i < n by omega]

/-- A field read out of two joined values, where it lies in the upper one. -/
theorem extract_append_high {m n : Nat} (a : BitVec m) (b : BitVec n) {start len : Nat} (h : n ≤ start) :
    (a ++ b).extractLsb' start len = a.extractLsb' (start - n) len := by
  ext i hi
  simp [BitVec.getLsbD_append, show ¬ start + i < n by omega, show start + i - n = start - n + i by omega]

theorem extract_all {n : Nat} (a : BitVec n) : a.extractLsb' 0 n = a := by
  ext i _
  simp

/-- The first word of an entry gives its port, tag, slot and frames. -/
theorem Reservation.word0_fields (r : Reservation) :
    (r.word0.extractLsb' 0 3).toNat = r.port.val ∧ r.word0.extractLsb' 3 12 = r.tag ∧ r.word0.extractLsb' 15 6 = r.slot ∧
      r.word0.extractLsb' 21 3 = r.frames := by
  have port : (BitVec.ofNat 3 r.port.val).toNat = r.port.val := by
    rw [BitVec.toNat_ofNat]; exact Nat.mod_eq_of_lt r.port.isLt
  unfold Reservation.word0
  refine ⟨?_, ?_, ?_, ?_⟩
  · rw [extract_append_low _ _ (by decide), extract_all, port]
  · rw [extract_append_high _ _ (by decide), extract_append_low _ _ (by decide), extract_all]
  · rw [extract_append_high _ _ (by decide), extract_append_high _ _ (by decide), extract_append_low _ _ (by decide),
      extract_all]
  · rw [extract_append_high _ _ (by decide), extract_append_high _ _ (by decide), extract_append_high _ _ (by decide),
      extract_append_low _ _ (by decide), extract_all]

/-- The second word of an entry gives its maximum length, its counts and its marks. -/
theorem Reservation.word1_fields (r : Reservation) :
    r.word1.extractLsb' 0 14 = r.maxLength ∧ r.word1.extractLsb' 14 3 = r.used ∧ r.word1.extractLsb' 17 8 = r.misses ∧
      r.word1.getLsbD 25 = r.overbooked ∧ r.word1.getLsbD 26 = r.silent := by
  unfold Reservation.word1
  refine ⟨?_, ?_, ?_, ?_, ?_⟩
  · rw [extract_append_low _ _ (by decide), extract_all]
  · rw [extract_append_high _ _ (by decide), extract_append_low _ _ (by decide), extract_all]
  · rw [extract_append_high _ _ (by decide), extract_append_high _ _ (by decide), extract_append_low _ _ (by decide),
      extract_all]
  · simp only [BitVec.getLsbD_append]; simp
  · simp only [BitVec.getLsbD_append]; simp

theorem Reservation.word2_fields (r : Reservation) : r.word2.extractLsb' 0 23 = r.cost := by
  unfold Reservation.word2
  rw [extract_append_low _ _ (by decide), extract_all]

/-- The fields of four words, each word by itself. -/
theorem unpackReservation_eq {a b c d : Word} {r0 r1 r2 : Reservation} (h0 : a = r0.word0) (h1 : b = r1.word1)
    (h2 : c = r2.word2) :
    unpackReservation a b c d =
      { port := r0.port, tag := r0.tag, slot := r0.slot, frames := r0.frames
        maxLength := r1.maxLength, used := r1.used, misses := r1.misses, overbooked := r1.overbooked, silent := r1.silent
        cost := r2.cost, admitted := d } := by
  obtain ⟨port, tag, slot, frames⟩ := r0.word0_fields
  obtain ⟨maxLength, used, misses, overbooked, silent⟩ := r1.word1_fields
  rw [h0, h1, h2, unpackReservation, tag, slot, frames, maxLength, used, misses, overbooked, silent, r2.word2_fields]
  simp only [Reservation.mk.injEq, and_true]
  exact Fin.ext port

/-- Only the second word of four is another. -/
theorem unpackReservation_word1 (a b c d : Word) (r : Reservation) :
    unpackReservation a r.word1 c d = { unpackReservation a b c d with
      maxLength := r.maxLength, used := r.used, misses := r.misses, overbooked := r.overbooked, silent := r.silent } := by
  obtain ⟨maxLength, used, misses, overbooked, silent⟩ := r.word1_fields
  simp only [unpackReservation, maxLength, used, misses, overbooked, silent]

/-- Only the third word of four is another. -/
theorem unpackReservation_word2 (a b c d : Word) (r : Reservation) :
    unpackReservation a b r.word2 d = { unpackReservation a b c d with cost := r.cost } := by
  simp only [unpackReservation, r.word2_fields]

/-- The kind of a ring is read back from its code. -/
theorem ringKindOfCode_ringKindCode (k : RingKind) : ringKindOfCode (ringKindCode k) = k := by
  cases k <;> rfl

/-- A ring map entry is read back from its two words. -/
theorem unpackRing_pack (r : Ring) : unpackRing r.word0 r.word1 = r := by
  obtain ⟨kind, base, count⟩ := r
  simp only [unpackRing, Ring.word0, Ring.word1]
  rw [extract_append_high _ _ (by decide), extract_append_low _ _ (by decide), extract_append_low _ _ (by decide),
    extract_append_low _ _ (by decide), extract_all, extract_all, extract_all, ringKindOfCode_ringKindCode]

/-! ### Words of the state -/

/-- A word after a write of one word. -/
theorem State.word_putWord {s : State} (h : MemoryInv s) (k j : Nat) (d : Word) :
    (s.putWord k d).word j = if j = k then cleanWord d else s.word j := by
  simp only [State.word, State.putWord_memory, Memory.read_write h.1]

/-- A word that none of the writes names. -/
theorem State.word_putWords_of_notMem {l : List (Nat × Word)} {s : State} (h : MemoryInv s) (hl : ∀ x ∈ l, x.1 < 1024)
    {j : Nat} (hj : ∀ x ∈ l, x.1 ≠ j) : (s.putWords l).word j = s.word j := by
  induction l generalizing s with
  | nil => rfl
  | cons x l ih =>
    obtain ⟨k, d⟩ := x
    have hk : k < 1024 := hl (k, d) List.mem_cons_self
    have other : k ≠ j := hj (k, d) List.mem_cons_self
    show ((s.putWord k d).putWords l).word j = _
    rw [ih (s := s.putWord k d) (State.wf_putWord h hk d) (fun y hy => hl y (List.mem_cons_of_mem _ hy))
      (fun y hy => hj y (List.mem_cons_of_mem _ hy)), State.word_putWord h, if_neg other.symm]

/-- The word that one of the writes names, each named once. -/
theorem State.word_putWords_of_mem {l : List (Nat × Word)} {s : State} (h : MemoryInv s) (hl : ∀ x ∈ l, x.1 < 1024)
    (once : (l.map Prod.fst).Nodup) {k : Nat} {d : Word} (mem : (k, d) ∈ l) : (s.putWords l).word k = cleanWord d := by
  induction l generalizing s with
  | nil => cases mem
  | cons x l ih =>
    obtain ⟨k', d'⟩ := x
    have hk : k' < 1024 := hl (k', d') List.mem_cons_self
    rw [List.map_cons, List.nodup_cons] at once
    have wf := State.wf_putWord (s := s) h hk d'
    have hl' : ∀ y ∈ l, y.1 < 1024 := fun y hy => hl y (List.mem_cons_of_mem _ hy)
    show ((s.putWord k' d').putWords l).word k = _
    rcases List.mem_cons.mp mem with same | mem
    · cases same
      have absent : ∀ y ∈ l, y.1 ≠ k := fun y hy e => once.1 (List.mem_map.mpr ⟨y, hy, e⟩)
      rw [State.word_putWords_of_notMem wf hl' absent, State.word_putWord h, if_pos rfl]
    · exact ih wf hl' once.2 mem

theorem State.cleanTable_putWords {l : List (Nat × Word)} {s : State} (hc : s.cleanTable) (h : MemoryInv s)
    (hl : ∀ x ∈ l, x.1 < 1024) : (s.putWords l).cleanTable := by
  induction l generalizing s with
  | nil => exact hc
  | cons x l ih =>
    exact ih (State.cleanTable_putWord hc h x.1 x.2) (State.wf_putWord h (hl x List.mem_cons_self) x.2)
      fun y hy => hl y (List.mem_cons_of_mem _ hy)

theorem State.data_of_word {s t : State} {k : Nat} (h : t.word k = s.word k) : t.data k = s.data k := by
  unfold State.data; rw [h]

theorem State.data_cleanWord {s : State} {k : Nat} {d : Word} (h : s.word k = cleanWord d) : s.data k = d := by
  unfold State.data; rw [h]; exact stored_of_flips rfl

/-! ### Fields of the state -/

/-- The fields of an entry depend on its four words alone. -/
theorem State.reservation_of_words {s t : State} {i : EntryIndex}
    (h : ∀ k, 4 * i.val ≤ k → k < 4 * i.val + 4 → t.word k = s.word k) : t.reservation i = s.reservation i := by
  have data : ∀ j, j < 4 → t.data (entryWord i j) = s.data (entryWord i j) := fun j hj =>
    State.data_of_word (h _ (by unfold entryWord; omega) (by unfold entryWord; omega))
  simp only [State.reservation, data 0 (by omega), data 1 (by omega), data 2 (by omega), data 3 (by omega)]

theorem State.reservation_of_memory {s t : State} (h : t.prot.memory = s.prot.memory) (i : EntryIndex) :
    t.reservation i = s.reservation i := State.reservation_of_words fun k _ _ => State.word_of_prot h k

/-- A ring map entry depends on its two words alone. -/
theorem State.ring_of_words {s t : State} {e : RingIndex}
    (h : ∀ k, 304 + 2 * e.val ≤ k → k < 306 + 2 * e.val → t.word k = s.word k) : t.ring e = s.ring e := by
  have data : ∀ j, j < 2 → t.data (ringWord e j) = s.data (ringWord e j) := fun j hj =>
    State.data_of_word (h _ (by unfold ringWord; omega) (by unfold ringWord; omega))
  simp only [State.ring, data 0 (by omega), data 1 (by omega)]

/-- The fields of the entries after changed fields of the second word of one are written. -/
theorem State.reservation_putUse {s : State} (h : MemoryInv s) (i j : EntryIndex) (f : Reservation → Reservation) :
    (s.putUse i f).reservation j =
      if j = i then { s.reservation i with
        maxLength := (f (s.reservation i)).maxLength, used := (f (s.reservation i)).used
        misses := (f (s.reservation i)).misses, overbooked := (f (s.reservation i)).overbooked
        silent := (f (s.reservation i)).silent }
      else s.reservation j := by
  unfold State.putUse
  split_ifs with same
  · subst same
    have other : ∀ n, n ≠ 1 → n < 4 → (s.putWord (entryWord j 1) (f (s.reservation j)).word1).data (entryWord j n) =
        s.data (entryWord j n) := fun n hn _ => by
      rw [State.data_putWord h, if_neg (by unfold entryWord; omega)]
    have this : (s.putWord (entryWord j 1) (f (s.reservation j)).word1).data (entryWord j 1) = (f (s.reservation j)).word1 := by
      rw [State.data_putWord h, if_pos rfl]
    generalize hr : f (s.reservation j) = r at *
    unfold State.reservation
    rw [this, other 0 (by decide) (by decide), other 2 (by decide) (by decide), other 3 (by decide) (by decide)]
    exact unpackReservation_word1 _ _ _ _ r
  · refine State.reservation_of_words fun k low high => ?_
    have := i.isLt
    have apart : j.val ≠ i.val := fun e => same (Fin.ext e)
    rw [State.word_putWord h, if_neg (by unfold entryWord; omega)]

/-- The fields of the entries after the cost of one is written. -/
theorem State.reservation_putCost {s : State} (h : MemoryInv s) (i j : EntryIndex) (cost : BitVec 23) :
    (s.putCost i cost).reservation j = if j = i then { s.reservation i with cost } else s.reservation j := by
  unfold State.putCost
  split_ifs with same
  · subst same
    have other : ∀ n, n ≠ 2 → n < 4 → (s.putWord (entryWord j 2) { s.reservation j with cost }.word2).data (entryWord j n) =
        s.data (entryWord j n) := fun n hn _ => by
      rw [State.data_putWord h, if_neg (by unfold entryWord; omega)]
    have this : (s.putWord (entryWord j 2) { s.reservation j with cost }.word2).data (entryWord j 2) =
        { s.reservation j with cost }.word2 := by rw [State.data_putWord h, if_pos rfl]
    unfold State.reservation at *
    rw [this, other 0 (by decide) (by decide), other 1 (by decide) (by decide), other 3 (by decide) (by decide)]
    exact unpackReservation_word2 _ _ _ _ _
  · refine State.reservation_of_words fun k low high => ?_
    have apart : j.val ≠ i.val := fun e => same (Fin.ext e)
    rw [State.word_putWord h, if_neg (by unfold entryWord; omega)]

theorem putReservation_lt (i : EntryIndex) (a b c d : Word) :
    ∀ x ∈ [(entryWord i 0, a), (entryWord i 1, b), (entryWord i 2, c), (entryWord i 3, d)], x.1 < 1024 := by
  intro x hx
  simp only [List.mem_cons, List.not_mem_nil, or_false] at hx
  rcases hx with rfl | rfl | rfl | rfl <;> exact entryWord_lt i (by omega)

/-- Four words written to an entry leave the words of all else. -/
theorem State.word_putEntry {s : State} (h : MemoryInv s) (i : EntryIndex) (a b c d : Word) {k : Nat}
    (hk : k < 4 * i.val ∨ 4 * i.val + 4 ≤ k) :
    (s.putWords [(entryWord i 0, a), (entryWord i 1, b), (entryWord i 2, c), (entryWord i 3, d)]).word k = s.word k := by
  refine State.word_putWords_of_notMem h (putReservation_lt i a b c d) fun x hx => ?_
  simp only [List.mem_cons, List.not_mem_nil, or_false] at hx
  rcases hx with rfl | rfl | rfl | rfl <;> (dsimp only [entryWord]; omega)

/-- Four words written to an entry. -/
theorem State.word_putEntry_self {s : State} (h : MemoryInv s) (i : EntryIndex) (a b c d : Word) :
    let u := s.putWords [(entryWord i 0, a), (entryWord i 1, b), (entryWord i 2, c), (entryWord i 3, d)]
    u.word (entryWord i 0) = cleanWord a ∧ u.word (entryWord i 1) = cleanWord b ∧ u.word (entryWord i 2) = cleanWord c ∧
      u.word (entryWord i 3) = cleanWord d := by
  have once : ([(entryWord i 0, a), (entryWord i 1, b), (entryWord i 2, c), (entryWord i 3, d)].map Prod.fst).Nodup := by
    simp [entryWord]
  have at' := fun k d' => State.word_putWords_of_mem h (putReservation_lt i a b c d) once (k := k) (d := d')
  exact ⟨at' _ _ (by simp), at' _ _ (by simp), at' _ _ (by simp), at' _ _ (by simp)⟩

/-- The fields of the entries after all four words of one are written. -/
theorem State.reservation_putReservation {s : State} (h : MemoryInv s) (i j : EntryIndex) (r : Reservation) :
    (s.putReservation i r).reservation j = if j = i then r else s.reservation j := by
  unfold State.putReservation
  split_ifs with same
  · subst same
    obtain ⟨w0, w1, w2, w3⟩ := State.word_putEntry_self h j r.word0 r.word1 r.word2 r.word3
    unfold State.reservation
    rw [State.data_cleanWord w0, State.data_cleanWord w1, State.data_cleanWord w2, State.data_cleanWord w3,
      unpackReservation_eq rfl rfl rfl]
    rfl
  · refine State.reservation_of_words fun k low high => State.word_putEntry h i _ _ _ _ ?_
    have apart : j.val ≠ i.val := fun e => same (Fin.ext e)
    omega

/-- The words of the entry at data 0, all others as they were. -/
theorem State.word_blankReservation {s : State} (h : MemoryInv s) (i : EntryIndex) (k : Nat) :
    (s.blankReservation i).word k = if 4 * i.val ≤ k ∧ k < 4 * i.val + 4 then blankWord else s.word k := by
  unfold State.blankReservation
  split_ifs with inside
  · obtain ⟨w0, w1, w2, w3⟩ := State.word_putEntry_self h i 0 0 0 0
    unfold entryWord at w0 w1 w2 w3 ⊢
    obtain rfl | rfl | rfl | rfl : k = 4 * i.val + 0 ∨ k = 4 * i.val + 1 ∨ k = 4 * i.val + 2 ∨ k = 4 * i.val + 3 := by omega
    exacts [w0, w1, w2, w3]
  · exact State.word_putEntry h i 0 0 0 0 (by omega)

end Sys2Proof.Machine
end

section
/-! The re-evaluation walk (R79 to R81) where no bit of table memory is wrong: one visit, the visits in the order of the
admission order list, the walk. -/

namespace Sys2Proof.Machine

/-! ### What a walk can change -/

/-- Table memory words, the event queue and the hold records may be others; all else is as it was. -/
def Reworked (s u : State) : Prop :=
  ∃ m q l, u = { s with
    prot := { s.prot with memory := m }, events := q, holds := { s.holds with records := l } }

theorem Reworked.refl (s : State) : Reworked s s := ⟨_, _, _, rfl⟩

theorem Reworked.trans {s t u : State} (h : Reworked s t) (k : Reworked t u) : Reworked s u := by
  obtain ⟨_, _, _, rfl⟩ := h
  obtain ⟨_, _, _, rfl⟩ := k
  exact ⟨_, _, _, rfl⟩

theorem Reworked.frame {s u : State} (h : Reworked s u) :
    { u with events := s.events, holds := { u.holds with records := s.holds.records }
             prot := { u.prot with memory := s.prot.memory } } = s := by
  obtain ⟨_, _, _, rfl⟩ := h
  rfl

section
variable {s u : State} (h : Reworked s u)
include h

theorem Reworked.timer : u.timer = s.timer := by obtain ⟨_, _, _, rfl⟩ := h; rfl
theorem Reworked.lock : u.lock = s.lock := by obtain ⟨_, _, _, rfl⟩ := h; rfl
theorem Reworked.order : u.order = s.order := by obtain ⟨_, _, _, rfl⟩ := h; rfl
theorem Reworked.ports : u.ports = s.ports := by obtain ⟨_, _, _, rfl⟩ := h; rfl
theorem Reworked.table : u.table = s.table := by obtain ⟨_, _, _, rfl⟩ := h; rfl
theorem Reworked.entry (i : EntryIndex) : u.entry i = s.entry i := State.entry_of_table h.table i
theorem Reworked.port (p : PortIndex) : u.port p = s.port p := State.port_of_ports h.ports p
theorem Reworked.inUse (i : EntryIndex) : u.inUse i = s.inUse i := by unfold State.inUse; rw [h.entry]
theorem Reworked.cycleNumber : u.cycleNumber = s.cycleNumber := by unfold State.cycleNumber; rw [h.timer]

end

theorem reworked_putWord (s : State) (k : Nat) (d : Word) : Reworked s (s.putWord k d) := ⟨_, _, _, rfl⟩
theorem reworked_raise (s : State) (e : EventEntry) : Reworked s (s.raise e) := ⟨_, _, _, rfl⟩
theorem reworked_keepHolds (s : State) (keep : HoldRecord → Bool) : Reworked s (s.keepHolds keep) := ⟨_, _, _, rfl⟩

/-! ### Offers in turn -/

theorem EventQueue.offers_nil (q : EventQueue) : q.offers [] = q := rfl

theorem EventQueue.offers_cons (q : EventQueue) (e : EventEntry) (l : List EventEntry) :
    q.offers (e :: l) = (q.offer e).offers l := rfl

theorem EventQueue.offers_append (q : EventQueue) (l l' : List EventEntry) :
    q.offers (l ++ l') = (q.offers l).offers l' := List.foldl_append

/-! ### One visit -/

/-- The cost of an entry of port p under the port's settings (R58). -/
def State.costAt (s : State) (p : PortIndex) (i : EntryIndex) : Nat :=
  (s.reservation i).frames.toNat * duration (s.port p).settings (s.reservation i).maxLength.toNat

theorem State.inSlot_iff (s : State) (p : PortIndex) (k : Nat) (i : EntryIndex) :
    s.inSlot p k i = true ↔ s.inUse i = true ∧ (s.reservation i).port = p ∧ (s.reservation i).slot.toNat = k := by
  simp [State.inSlot, and_assoc]

/-- What a visit of entry i does: its cost is computed anew, its flag says whether it fits into what is left, a flag that
changed is reported, and the records of an entry newly overbooked go (R79, R81). -/
structure Visit (s u : State) (p : PortIndex) (i : EntryIndex) (full : Bool) : Prop where
  memory : MemoryInv u
  clean : u.cleanTable
  reworked : Reworked s u
  reservation : ∀ j, u.reservation j =
    if j = i then { s.reservation i with cost := BitVec.ofNat 23 (s.costAt p i), overbooked := full } else s.reservation j
  words : ∀ n, 256 ≤ n → u.word n = s.word n
  records : u.holds.records =
    s.holds.records.filter (fun r => !(decide (r.entry = i) && !(s.reservation i).overbooked && full))
  events : u.events = s.events.offers
    (if (s.reservation i).overbooked != full then
      [s.tableEvent (if full then .resOverbooked else .resReinstated) i s.cycleNumber (min (s.costAt p i) 0xFFFF)]
    else [])

/-- A cost and a flag are written to an entry, and all other fields and words stay. -/
theorem putCost_putUse {s : State} (h : MemoryInv s) (hc : s.cleanTable) (i : EntryIndex) (cost : BitVec 23) (full : Bool) :
    let u := (s.putCost i cost).putUse i (fun r => { r with overbooked := full })
    MemoryInv u ∧ u.cleanTable ∧ Reworked s u ∧
      (∀ j, u.reservation j =
        if j = i then { s.reservation i with cost := cost, overbooked := full } else s.reservation j) ∧
      ∀ n, 256 ≤ n → u.word n = s.word n := by
  have wf : MemoryInv (s.putCost i cost) := State.wf_putCost h i cost
  have clean : (s.putCost i cost).cleanTable := State.cleanTable_putWord hc h _ _
  refine ⟨State.wf_putUse wf i _, State.cleanTable_putWord clean wf _ _,
    (reworked_putWord s _ _).trans (reworked_putWord _ _ _), fun j => ?_, fun n hn => ?_⟩
  · simp only [State.reservation_putUse wf, State.reservation_putCost h, if_true]
    split_ifs <;> rfl
  · have := i.isLt
    unfold State.putUse
    rw [State.word_putWord wf, if_neg (by unfold entryWord; omega)]
    unfold State.putCost
    rw [State.word_putWord h, if_neg (by unfold entryWord; omega)]

theorem costOf_of_port {s : State} {p : PortIndex} {i : EntryIndex} (h : (s.reservation i).port = p) :
    s.costOf i = s.costAt p i := by
  subst h; rfl

/-- A visit of an entry of the pair. -/
theorem visit_of_inSlot {s : State} (h : MemoryInv s) (hc : s.cleanTable) {p : PortIndex} {k : Nat} {i : EntryIndex}
    (hi : s.inSlot p k i = true) (budget a : Int) :
    Visit s (walkStep p k budget (a, s) i).2 p i (decide (budget < a + s.costAt p i)) ∧
      (walkStep p k budget (a, s) i).1 = a + (if decide (budget < a + s.costAt p i) = false then s.costAt p i else 0 : Nat) := by
  obtain ⟨-, port, -⟩ := (s.inSlot_iff p k i).mp hi
  have cost := costOf_of_port port
  simp only [walkStep, hi, if_true, cost]
  have flag : ((s.putCost i (BitVec.ofNat 23 (s.costAt p i))).reservation i).overbooked = (s.reservation i).overbooked := by
    rw [State.reservation_putCost h, if_pos rfl]
  have event : ∀ kind c d, entryEvent kind i ((s.putCost i (BitVec.ofNat 23 (s.costAt p i))).reservation i) c (cappedDetail d) =
      s.tableEvent kind i c (min d 0xFFFF) := fun kind c d => by
    rw [State.reservation_putCost h, if_pos rfl]; rfl
  by_cases fits : a + (s.costAt p i : Int) ≤ budget
  · have full : decide (budget < a + s.costAt p i) = false := decide_eq_false (not_lt.mpr fits)
    rw [full, if_pos fits]
    obtain ⟨memory, clean, reworked, reservation, words⟩ := putCost_putUse h hc i (BitVec.ofNat 23 (s.costAt p i)) false
    refine ⟨?_, by simp⟩
    unfold State.fitEntry
    dsimp only
    rw [flag]
    cases hf : (s.reservation i).overbooked
    · exact ⟨memory, clean, reworked, reservation, words, by simp [hf], by simp [hf, EventQueue.offers_nil]⟩
    · refine ⟨memory, clean, reworked.trans (reworked_raise _ _), reservation, words, by simp [hf], ?_⟩
      simp only [if_true, State.raise_events, event, hf]
      rfl
  · have full : decide (budget < a + s.costAt p i) = true := decide_eq_true (not_le.mp fits)
    rw [full, if_neg fits]
    obtain ⟨memory, clean, reworked, reservation, words⟩ := putCost_putUse h hc i (BitVec.ofNat 23 (s.costAt p i)) true
    refine ⟨?_, by simp⟩
    unfold State.overbookEntry
    dsimp only
    rw [flag]
    cases hf : (s.reservation i).overbooked
    · refine ⟨memory, clean, (reworked.trans (reworked_raise _ _)).trans (reworked_keepHolds _ _), reservation, words, ?_, ?_⟩
      · simp [hf, State.removeEntryHolds]
      · simp only [event, hf]
        rfl
    · exact ⟨memory, clean, reworked, reservation, words, by simp [hf], by simp [hf, EventQueue.offers_nil]⟩

/-! ### The visits in turn -/

/-- What the visits of these entries do, the sum `a` being counted already: each is judged after the costs of the earlier
ones that were found to fit. -/
structure Visits (s u : State) (p : PortIndex) (budget a : Int) (visited : List EntryIndex) : Prop where
  memory : MemoryInv u
  clean : u.cleanTable
  reworked : Reworked s u
  reservation : ∀ before i after, visited = before ++ i :: after →
    u.reservation i = { s.reservation i with
      cost := BitVec.ofNat 23 (s.costAt p i)
      overbooked := decide (budget <
        a + (((before.filter (fun j => !(u.reservation j).overbooked)).map (s.costAt p)).sum + s.costAt p i : Nat)) }
  other : ∀ i, i ∉ visited → u.reservation i = s.reservation i
  words : ∀ n, 256 ≤ n → u.word n = s.word n
  records : u.holds.records = s.holds.records.filter (fun r =>
    !(decide (r.entry ∈ visited) && !(s.reservation r.entry).overbooked && (u.reservation r.entry).overbooked))
  events : u.events = s.events.offers
    ((visited.filter (fun i => (s.reservation i).overbooked != (u.reservation i).overbooked)).map (fun i =>
      s.tableEvent (if (u.reservation i).overbooked then .resOverbooked else .resReinstated) i s.cycleNumber
        (min (s.costAt p i) 0xFFFF)))

theorem visits_nil {s : State} (h : MemoryInv s) (hc : s.cleanTable) (p : PortIndex) (budget a : Int) :
    Visits s s p budget a [] :=
  ⟨h, hc, Reworked.refl s, fun before i after e => by simp at e, fun _ _ => rfl, fun _ _ => rfl, by simp, rfl⟩

section
variable {s t : State} {p : PortIndex} {i : EntryIndex} {full : Bool} (v : Visit s t p i full)
include v

theorem Visit.costAt {j : EntryIndex} : t.costAt p j = s.costAt p j := by
  unfold State.costAt
  rw [v.reservation, v.reworked.port]
  split_ifs with same
  · rw [same]
  · rfl

theorem Visit.tableEvent {j : EntryIndex} (kind : EventKind) (cycle : CycleNumber) (d : Nat) :
    t.tableEvent kind j cycle d = s.tableEvent kind j cycle d := by
  unfold State.tableEvent
  rw [v.reservation]
  split_ifs with same
  · rw [same]
  · rfl

theorem Visit.inSlot (q : PortIndex) (k : Nat) (j : EntryIndex) : t.inSlot q k j = s.inSlot q k j := by
  unfold State.inSlot
  rw [v.reworked.inUse, v.reservation]
  split_ifs with same
  · rw [same]
  · rfl

/-- A visit and the visits after it. -/
theorem Visit.cons {u : State} {budget a : Int} {l : List EntryIndex} (fresh : i ∉ l)
    (hfull : full = decide (budget < a + s.costAt p i))
    (w : Visits t u p budget (a + (if full = false then s.costAt p i else 0 : Nat)) l) :
    Visits s u p budget a (i :: l) := by
  have first : u.reservation i = { s.reservation i with cost := BitVec.ofNat 23 (s.costAt p i), overbooked := full } := by
    rw [w.other i fresh, v.reservation, if_pos rfl]
  have later : ∀ j, j ≠ i → t.reservation j = s.reservation j := fun j hj => by rw [v.reservation, if_neg hj]
  have apart : ∀ j ∈ l, j ≠ i := fun j hj e => fresh (e ▸ hj)
  have costs : t.costAt p = s.costAt p := funext fun j => v.costAt
  refine ⟨w.memory, w.clean, v.reworked.trans w.reworked, fun before j after e => ?_, fun j hj => ?_, fun n hn => ?_, ?_, ?_⟩
  · rcases before with _ | ⟨b, before⟩
    · obtain ⟨rfl, -⟩ := List.cons.inj e
      rw [first, hfull]
      simp
    · obtain ⟨rfl, tail⟩ := List.cons.inj e
      have mem : j ∈ l := tail ▸ List.mem_append_right _ List.mem_cons_self
      rw [w.reservation before j after tail, later j (apart j mem), v.costAt, costs, List.filter_cons, first]
      cases full <;> simp [add_assoc]
  · rw [List.mem_cons, not_or] at hj
    rw [w.other j hj.2, later j hj.1]
  · rw [w.words n hn, v.words n hn]
  · rw [w.records, v.records, List.filter_filter]
    refine List.filter_congr fun r _ => ?_
    by_cases same : r.entry = i
    · cases full <;> simp [same, fresh, first]
    · simp [same, later r.entry same]
  · rw [w.events, v.events, ← EventQueue.offers_append]
    congr 1
    have rest : l.filter (fun j => (t.reservation j).overbooked != (u.reservation j).overbooked) =
        l.filter (fun j => (s.reservation j).overbooked != (u.reservation j).overbooked) :=
      List.filter_congr fun j hj => by rw [later j (apart j hj)]
    rw [rest, List.filter_cons, first, v.reworked.cycleNumber]
    simp only [v.costAt, v.tableEvent]
    by_cases was : (s.reservation i).overbooked = true <;> cases full <;> simp [was, first]

end

/-- A walk's visits, in the order of the list. -/
theorem visits_foldl {s : State} (h : MemoryInv s) (hc : s.cleanTable) (p : PortIndex) (k : Nat) (budget a : Int)
    {l : List EntryIndex} (once : l.Nodup) :
    Visits s (l.foldl (walkStep p k budget) (a, s)).2 p budget a (l.filter (s.inSlot p k)) := by
  induction l generalizing s a with
  | nil => exact visits_nil h hc p budget a
  | cons i l ih =>
    rw [List.nodup_cons] at once
    rw [List.foldl_cons]
    by_cases hi : s.inSlot p k i = true
    · obtain ⟨v, sum⟩ := visit_of_inSlot h hc hi budget a
      rw [List.filter_cons, if_pos hi]
      have w := ih v.memory v.clean (walkStep p k budget (a, s) i).1 once.2
      rw [sum, show (walkStep p k budget (a, s) i).2.inSlot p k = s.inSlot p k from funext (v.inSlot p k)] at w
      rw [show walkStep p k budget (a, s) i = ((walkStep p k budget (a, s) i).1, (walkStep p k budget (a, s) i).2) from rfl, sum]
      exact v.cons (fun mem => once.1 (List.mem_filter.mp mem).1) rfl w
    · have skip : walkStep p k budget (a, s) i = (a, s) := if_neg hi
      rw [skip, List.filter_cons, if_neg hi]
      exact ih h hc a once.2

/-- The walk of a pair while the timer runs. -/
theorem visits_walk {s : State} (h : MemoryInv s) (hc : s.cleanTable) (once : s.order.Nodup) {t : Timer}
    (ht : s.timer = some t) (p : PortIndex) (k : Nat) :
    Visits s (s.walk p k) p (slotBudget t.geometry s.lock (s.port p).settings k) 0 (s.order.filter (s.inSlot p k)) := by
  have walked : s.walk p k =
      (s.order.foldl (walkStep p k (slotBudget t.geometry s.lock (s.port p).settings k)) (0, s)).2 := by
    simp only [State.walk, ht, State.checkEntries_of_clean hc]
  rw [walked]
  exact visits_foldl h hc p k _ 0 once

/-- While STOPPED a walk does nothing. -/
theorem walk_stopped {s : State} (h : s.timer = none) (p : PortIndex) (k : Nat) : s.walk p k = s := by
  simp only [State.walk, h]

/-- Settles O29: a walk is the visits of the entries of the pair in the order of the admission order list. -/
theorem walkFollowsAdmissionOrder : Obligations.WalkFollowsAdmissionOrder := by
  intro s t p k memory clean order ht set u visited cost budget
  have w := visits_walk memory clean order.once ht p k
  have cycle : s.cycleNumber = t.cycle := by simp [State.cycleNumber, ht]
  refine ⟨fun before i after e => ?_, w.other, w.words, w.records, ?_, w.reworked.frame⟩
  · rw [w.reservation before i after e, zero_add]
    rfl
  · rw [← cycle]
    exact w.events

end Sys2Proof.Machine
end

section
/-! The step, the reset pin, the initialisation pass, the offer of an event, a mark, and a decision outside ENFORCING. -/

namespace Sys2Proof.Machine

/-! ### The step -/

/-- Settles O1, by the definition of a step. -/
theorem stepRunsFrontCommand : Obligations.StepRunsFrontCommand := by
  intro s c rest front
  simp only [step, front]

/-- Where nothing falls due in n ticks there is no event to take in them. -/
theorem State.nothingDue.nextEvent {s : State} {n : Nat} (h : s.nothingDue n) :
    s.nextEvent n = none := by
  have boundary : s.nextBoundary.filter (fun x => decide (x.1 ≤ n)) = none := by
    cases hb : s.nextBoundary with
    | none => rfl
    | some x => simp [h.boundary x hb]
  have others : (s.initEnd.toList ++ s.deadlines).filter (fun x => decide (x.1 < n)) = [] := by
    rw [List.filter_eq_nil_iff]
    intro x hx
    rw [decide_eq_true_eq, not_lt]
    rcases List.mem_append.mp hx with hx | hx
    · unfold State.initEnd at hx
      split_ifs at hx with busy
      · obtain rfl : x = _ := by simpa using hx
        have := h.initEnd busy
        show n ≤ 1024 - s.time.toNat
        omega
      · simp at hx
    · rcases List.mem_append.mp hx with hx | hx
      · obtain ⟨r, hr, rfl⟩ := List.mem_map.mp hx
        exact h.reads r hr
      · obtain ⟨q, hq, rfl⟩ := List.mem_map.mp hx
        exact h.tags q hq
  simp only [State.nextEvent, boundary, others]
  rfl

/-- Where nothing falls due in n ticks, they pass and nothing else. -/
theorem State.nothingDue.pass {s : State} {n : Nat} (h : s.nothingDue n) : s.pass n = s.tickBy n :=
  State.pass_quiet h.released h.nextEvent

theorem State.tickBy_path (s : State) (n : Nat) : (s.tickBy n).path = s.path.afterTicks n := by
  unfold State.tickBy
  split_ifs <;> rfl

theorem State.tickBy_time (s : State) (n : Nat) : (s.tickBy n).time = Machine.afterTicks s.time n := by
  unfold State.tickBy
  split_ifs <;> rfl

/-- The words after n ticks: in the initialisation pass those of these ticks are written. -/
theorem State.word_tickBy (s : State) (n k : Nat) :
    (s.tickBy n).word k =
      if s.prot.busy = true ∧ s.time.toNat ≤ k ∧ k < s.time.toNat + n then blankWord else s.word k := by
  unfold State.tickBy
  by_cases busy : s.prot.busy = true
  · rw [if_pos busy]
    simp only [busy, true_and]
    exact Memory.read_clear _ _ _
  · rw [if_neg busy]
    simp only [busy]
    rfl

/-- Of the rest of the state nothing changes while ticks pass. -/
theorem State.tickBy_rest (s : State) (n : Nat) :
    { s.tickBy n with time := s.time, path := s.path, prot := { (s.tickBy n).prot with memory := s.prot.memory } } = s := by
  unfold State.tickBy
  split_ifs <;> rfl

/-- Settles O2: with nothing due the tick is only the passing of its time. -/
theorem emptyQueueIsOneTick : Obligations.EmptyQueueIsOneTick := by
  intro s empty quiet
  refine ⟨s.tickBy 1, ?_, s.tickBy_time 1, fun k => ?_, s.tickBy_path 1, s.tickBy_rest 1⟩
  · simp only [Machine.step, empty, State.tick, quiet.pass]
  · rw [s.word_tickBy]
    have one : s.time.toNat ≤ k ∧ k < s.time.toNat + 1 ↔ k = s.time.toNat := by omega
    simp only [one]

/-- Settles O5: with nothing due before, the ticks up to tick 1,024 pass, and the pass is complete. -/
theorem initialisationPassEnds : Obligations.InitialisationPassEnds := by
  intro s busy quiet early
  have run : initialisationPassDone s = (s.tickBy (1024 - s.time.toNat)).finishInit := by
    unfold initialisationPassDone
    rw [quiet.released, busy, quiet.pass]
    rfl
  have rest := s.tickBy_rest (1024 - s.time.toNat)
  refine ⟨_, congrArg Host.Outcome.next run, ?_, rfl, fun k => rfl, ?_, ?_⟩
  · rw [State.finishInit_time, s.tickBy_time]
    apply BitVec.eq_of_toNat_eq
    have : (1024 : DeviceTime).toNat = 1024 := rfl
    simp only [afterTicks, BitVec.toNat_add, BitVec.toNat_ofNat]
    omega
  · rw [State.finishInit_path, s.tickBy_path, Path.afterTicks]
    have zero : 1024 - s.time.toNat = 0 ↔ s.time.toNat = 1024 := by omega
    split_ifs <;> first | rfl | omega
  · have flag : (s.tickBy (1024 - s.time.toNat)).prot.busy = true := by
      rw [← busy, ← congrArg (fun x => x.prot.busy) rest]
    conv_rhs => rw [← rest]
    rw [← flag]
    rfl

/-! ### The reset pin -/

theorem State.pass_of_asserted {s : State} (h : s.resetAsserted = true) (n : Nat) : s.pass n = s := by
  unfold State.pass
  rw [if_pos h]

theorem State.present_of_asserted {s : State} (h : s.resetAsserted = true) (r : Request) : s.present r = s := by
  unfold State.present
  rw [if_pos h]

/-- Settles O3: each command that names an effect of a clock, a bus or the serial link asks for the pin first. -/
theorem resetPinAsserted : Obligations.ResetPinAsserted := by
  refine ⟨fun s => rfl, fun s h => ⟨fun tag a => ?_, fun tag a d l => ?_, fun tag d e => ?_, fun e => ?_, fun tag => ?_,
    fun tag => ?_, ?_, ?_, ?_, ?_, ?_⟩⟩
  · exact congrArg Host.Outcome.next (State.present_of_asserted h _)
  · exact congrArg Host.Outcome.next (State.present_of_asserted h _)
  · exact congrArg Host.Outcome.next (if_pos h)
  · exact congrArg Host.Outcome.next (by simp only [sckEdge, h, Bool.true_or, if_true])
  · exact congrArg Host.Outcome.next (by simp only [readTimeout, h])
  · exact congrArg Host.Outcome.next (by simp only [quarantineExpiry, h])
  · refine congrArg Host.Outcome.next ?_
    unfold slotBoundary
    cases s.timer with
    | none => rfl
    | some t => simp only [State.pass_of_asserted h, ite_self]
  · refine congrArg Host.Outcome.next ?_
    unfold cycleBoundary
    cases s.timer with
    | none => rfl
    | some t => simp only [State.pass_of_asserted h]
  · exact congrArg Host.Outcome.next (by simp only [initialisationPassDone, h, Bool.true_or, if_true])
  · simp only [State.intN, h, Bool.true_or]
  · simp only [State.mgtDout, h, Bool.not_true, Bool.false_and, Bool.false_eq_true, if_false]

/-- The release of the pin gives every block its reset values. -/
theorem resetValues_resetReleased (s : State) : ResetValues (resetReleased s) where
  time := rfl
  timer := rfl
  lock := by and_intros <;> rfl
  maps := fun p => by
    show (Vector.replicate 8 _).get p = _
    simp [Vector.get]
  entries := State.entry_reset
  order := rfl
  path := by and_intros <;> rfl
  rings := fun e => by
    show (Vector.replicate 40 false).get e = false
    simp [Vector.get]
  ports := fun p => by
    rw [show (resetReleased s).port p = Port.initial from State.port_reset p]
    decide
  holds := rfl
  protection := by and_intros <;> rfl
  link := by and_intros <;> rfl
  events := rfl

/-- The state right after reset is what the release of the pin makes of itself. -/
theorem resetReleased_reset : resetReleased State.reset = State.reset := rfl

/-- Settles O4. -/
theorem resetPinReleased : Obligations.ResetPinReleased := by
  refine ⟨fun s => ⟨resetReleased s, rfl, rfl, resetValues_resetReleased s, rfl, rfl, rfl, rfl, rfl, fun k => rfl⟩, rfl, ?_,
    fun k => rfl⟩
  rw [← resetReleased_reset]
  exact resetValues_resetReleased State.reset

/-! ### The offer of an event -/

/-- The limit mark of an offer is set exactly where the statement of R175 finds it. -/
theorem EventQueue.marked_iff (q : EventQueue) (e : EventEntry) : q.marked e = true ↔ ∃ m, e.limit = some m ∧ m ∈ q.marks := by
  unfold EventQueue.marked
  cases e.limit with
  | none => simp
  | some m => simp

/-- Settles O54, by the three tests of an offer in their order. -/
theorem offerPassesThreeTests : Obligations.OfferPassesThreeTests := by
  intro q e limited
  have marked : q.marked e = true ↔ limited := q.marked_iff e
  refine ⟨fun off => ?_, fun on hl => ?_, fun on hl full => ?_, fun on hl room => ?_, ?_⟩
  · exact if_pos off
  · rw [EventQueue.offer, if_neg (by simp [EventQueue.enabled, on]), if_pos (marked.mpr hl)]
  · rw [EventQueue.offer, if_neg (by simp [EventQueue.enabled, on]), if_neg (mt marked.mp hl), if_pos full]
  · rw [EventQueue.offer, if_neg (by simp [EventQueue.enabled, on]), if_neg (mt marked.mp hl), if_neg (by omega)]
  · unfold EventEntry.limit
    cases e.kind <;> rfl

/-! ### The reset state and the invariants -/

/-- Settles O56: no entry is in use, no list holds anything, and the timer is STOPPED. -/
theorem resetSatisfiesInv : Obligations.ResetSatisfiesInv := by
  have unused : ∀ i, State.reset.inUse i = false := fun i => by
    unfold State.inUse
    rw [State.entry_reset]
    rfl
  obtain ⟨memory, events, order, gates, holds⟩ := sound_reset
  refine ⟨⟨memory, events, ⟨by decide, by decide, by decide, by decide⟩, order, gates, holds, ?_, fun _ => rfl⟩, ?_, fun k => rfl⟩
  · exact
      { timer := fun t h => by cases h
        free := by decide
        running := fun h => absurd rfl h
        phi := fun t h => by cases h
        maxStep := by decide
        stored := fun t v h => by cases h }
  · exact
      { geometry := fun t h => by cases h
        extra := fun p => by rw [State.port_reset]; decide
        frames := fun i h => by rw [unused i] at h; cases h
        timed := fun i h => by rw [unused i] at h; cases h
        holds := fun r h => by cases h
        costs := fun i h => by rw [unused i] at h; cases h
        budget := fun t h => by cases h }

/-! ### A decision outside ENFORCING -/

/-- Settles O46, by the gate's state and in FAILSAFE by the fail mode. -/
theorem decisionOutsideEnforcing : Obligations.DecisionOutsideEnforcing := by
  intro s c passed held
  refine ⟨fun h => ?_, fun h => ?_, fun h => ?_⟩
  · simp only [gateDecision, h]
  · simp only [gateDecision, h]
    rfl
  · simp only [gateDecision, h, failsafeDecision]
    cases (s.port c.port).settings.failMode with
    | passAll => rfl
    | motionOnly => cases c.motion <;> rfl

end Sys2Proof.Machine
end

section
/-! The reports of the lock at the gates, the expiry of hold records, and the marks. -/

namespace Sys2Proof.Machine

/-! ### Work on one port after the other

What a fold over the ports does where the work on one of them changes that port's gate, takes its hold records and reports:
`change` is what becomes of a port, `drops` says whether its records go, `reports` what it raises. -/

/-- From `s` to `u` the ports of the list, and no others, have changed so. -/
structure Sweep (change : Port → Port) (drops : Port → Bool) (reports : PortIndex → Port → List EventEntry)
    (l : List PortIndex) (s u : State) : Prop where
  port : ∀ q, u.port q = if q ∈ l then change (s.port q) else s.port q
  records : u.holds.records = s.holds.records.filter (fun r => !(decide (r.port ∈ l) && drops (s.port r.port)))
  events : u.events = s.events.offers (l.flatMap (fun q => reports q (s.port q)))
  frame : { u with ports := s.ports, events := s.events, holds := { u.holds with records := s.holds.records } } = s

section
variable {change : Port → Port} {drops : Port → Bool} {reports : PortIndex → Port → List EventEntry}

theorem Sweep.time {l : List PortIndex} {s u : State} (h : Sweep change drops reports l s u) : u.time = s.time :=
  (congrArg State.time h.frame :)

theorem Sweep.timer {l : List PortIndex} {s u : State} (h : Sweep change drops reports l s u) : u.timer = s.timer :=
  (congrArg State.timer h.frame :)

theorem Sweep.memory {l : List PortIndex} {s u : State} (h : Sweep change drops reports l s u) :
    u.prot.memory = s.prot.memory := (congrArg (fun x : State => x.prot.memory) h.frame :)

theorem Sweep.nil (s : State) : Sweep change drops reports [] s s where
  port := fun q => by simp
  records := by simp
  events := rfl
  frame := rfl

/-- Work on a port, and then on others. -/
theorem Sweep.cons {p : PortIndex} {l : List PortIndex} {s t u : State} (fresh : p ∉ l)
    (h : Sweep change drops reports [p] s t) (k : Sweep change drops reports l t u) :
    Sweep change drops reports (p :: l) s u := by
  have other : ∀ q, q ≠ p → t.port q = s.port q := fun q hq => by rw [h.port, if_neg (by simpa using hq)]
  refine ⟨fun q => ?_, ?_, ?_, ?_⟩
  · by_cases hq : q = p
    · subst hq
      rw [k.port, if_neg fresh, h.port]
      simp
    · rw [k.port, other q hq]
      simp [hq]
  · rw [k.records, h.records, List.filter_filter]
    refine List.filter_congr fun r _ => ?_
    by_cases hr : r.port = p
    · simp [hr, fresh]
    · simp [hr, other r.port hr]
  · rw [k.events, h.events, ← EventQueue.offers_append]
    congr 1
    rw [List.flatMap_cons, List.flatMap_cons, List.flatMap_nil, List.append_nil]
    congr 1
    exact List.flatMap_congr fun q hq => by rw [other q (fun e => fresh (e ▸ hq))]
  · conv_rhs => rw [← h.frame, ← k.frame]

/-- A fold over ports of the list, where each step is such work on its port. -/
theorem sweep_foldl {f : State → PortIndex → State} {s : State}
    (step : ∀ x p, x.time = s.time → x.timer = s.timer → Sweep change drops reports [p] x (f x p))
    {l : List PortIndex} (once : l.Nodup) : Sweep change drops reports l s (l.foldl f s) := by
  induction l generalizing s with
  | nil => exact Sweep.nil s
  | cons p l ih =>
    rw [List.nodup_cons] at once
    have first := step s p rfl rfl
    exact first.cons once.1 (ih (fun x q ht hr => step x q (ht.trans first.time) (hr.trans first.timer)) once.2)

end

theorem nodup_allPorts : allPorts.Nodup := List.nodup_finRange 8

theorem mem_allPorts (p : PortIndex) : p ∈ allPorts := List.mem_finRange p

/-- Reports of at most one event for each port, as a list of the ports that report. -/
theorem flatMap_if (l : List PortIndex) (fires : PortIndex → Bool) (e : PortIndex → EventEntry) :
    l.flatMap (fun p => if fires p then [e p] else []) = (l.filter fires).map e := by
  induction l with
  | nil => rfl
  | cons p l ih =>
    rw [List.flatMap_cons, ih, List.filter_cons]
    by_cases h : fires p = true <;> simp [h]

/-! ### The reports of the lock (R122) -/

/-- A port that a loss of the lock takes out of ENFORCING. -/
def Port.losesLock (q : Port) : Bool := decide (q.gate = .enforcing) && q.settings.requireLock

/-- A port that an entry into LOCKED takes back to ENFORCING. -/
def Port.regainsLock (q : Port) : Bool := decide (q.gate = .failsafe) && decide (q.cause = .lockLost)

/-- The gate after a loss of the lock. -/
def Port.lockLost (q : Port) : Port :=
  if q.losesLock then { q with gate := .failsafe, cause := .lockLost, busy := none } else q

/-- The gate after an entry into LOCKED at this time. -/
def Port.lockWon (now : DeviceTime) (q : Port) : Port :=
  if q.regainsLock then
    { q with gate := .enforcing, cause := .none,
             busy := some (afterTicks (afterTicks now q.settings.lead) (duration q.settings q.settings.maxFrame)) }
  else q

/-- A port changed twice. -/
theorem State.updPort_updPort (s : State) (p : PortIndex) (f g : Port → Port) :
    (s.updPort p f).updPort p g = s.updPort p (fun q => g (f q)) := by
  have first := s.port_updPort_self p f
  simp only [State.port, State.updPort] at first ⊢
  rw [first, Vector.set_set]

/-- A gate that leaves ENFORCING for FAILSAFE: its records go, and it reports. -/
theorem toFailsafe_of_enforcing (s : State) (p : PortIndex) (c : FailsafeCause) (h : (s.port p).gate = .enforcing) :
    s.toFailsafe p c =
      { (s.updPort p (fun q => { q with gate := .failsafe, cause := c, busy := none })) with
          holds := { s.holds with records := s.holds.records.filter (fun r => decide (r.port ≠ p)) }
          events := s.events.offer (portEvent .portFailsafe p s.cycleNumber c.byte.toNat) } := by
  have left : (s.leaveEnforcing p).updPort p (fun q => { q with gate := .failsafe, cause := c }) =
      { (s.updPort p (fun q => { q with gate := .failsafe, cause := c, busy := none })) with
          holds := { s.holds with records := s.holds.records.filter (fun r => decide (r.port ≠ p)) } } := by
    rw [State.leaveEnforcing, State.updPort_updPort]
    rfl
  simp only [State.toFailsafe, h, if_true, left]
  have again : decide (GateState.enforcing = GateState.failsafe) = false := rfl
  simp only [again, State.raise, failsafeEvent, portEvent, detail, weight, Bool.false_eq_true, if_false, Nat.zero_add]
  rfl

theorem sweep_lockLossAt (s : State) (p : PortIndex) :
    Sweep Port.lockLost Port.losesLock
      (fun q x => if x.losesLock then [portEvent .portFailsafe q s.cycleNumber 1] else []) [p] s (s.lockLossAt p) := by
  unfold State.lockLossAt
  by_cases h : (s.port p).gate = .enforcing ∧ (s.port p).settings.requireLock = true
  · have loses : (s.port p).losesLock = true := by simp [Port.losesLock, h.1, h.2]
    rw [if_pos h, toFailsafe_of_enforcing s p _ h.1]
    refine ⟨fun q => ?_, ?_, ?_, rfl⟩
    · refine (s.port_updPort p q (fun q => { q with gate := .failsafe, cause := .lockLost, busy := none })).trans ?_
      by_cases hq : q = p
      · simp [hq, Port.lockLost, loses]
      · simp [hq]
    · refine List.filter_congr fun r _ => ?_
      by_cases hr : r.port = p
      · simp [hr, loses]
      · simp [hr]
    · simp [loses]
      rfl
  · have stays : (s.port p).losesLock = false := by simpa [Port.losesLock] using h
    rw [if_neg h]
    refine ⟨fun q => ?_, ?_, ?_, rfl⟩
    · by_cases hq : q = p
      · simp [hq, Port.lockLost, stays]
      · simp [hq]
    · rw [List.filter_eq_self.mpr]
      intro r _
      by_cases hr : r.port = p
      · simp [hr, stays]
      · simp [hr]
    · simp [stays, EventQueue.offers_nil]

theorem sweep_reportLockLoss (s : State) :
    Sweep Port.lockLost Port.losesLock
      (fun q x => if x.losesLock then [portEvent .portFailsafe q s.cycleNumber 1] else []) allPorts s s.reportLockLoss := by
  refine sweep_foldl (fun x p _ ht => ?_) nodup_allPorts
  have cycle : s.cycleNumber = x.cycleNumber := by simp only [State.cycleNumber, ht]
  rw [cycle]
  exact sweep_lockLossAt x p

theorem sweep_lockWonAt (s : State) (p : PortIndex) :
    Sweep (Port.lockWon s.time) (fun _ => false)
      (fun q x => if x.regainsLock then [portEvent .portRecovered q s.cycleNumber 1] else []) [p] s (s.lockWonAt p) := by
  unfold State.lockWonAt
  by_cases h : (s.port p).gate = .failsafe ∧ (s.port p).cause = .lockLost
  · have wins : (s.port p).regainsLock = true := by simp [Port.regainsLock, h.1, h.2]
    rw [if_pos h]
    refine ⟨fun q => ?_, ?_, ?_, rfl⟩
    · show (s.enterEnforcing p).port q = _
      rw [State.enterEnforcing, State.port_updPort]
      by_cases hq : q = p
      · simp [hq, Port.lockWon, wins]
      · simp [hq]
    · simp [State.enterEnforcing]
    · simp [wins]
      rfl
  · have stays : (s.port p).regainsLock = false := by simpa [Port.regainsLock] using h
    rw [if_neg h]
    refine ⟨fun q => ?_, by simp, ?_, rfl⟩
    · by_cases hq : q = p
      · simp [hq, Port.lockWon, stays]
      · simp [hq]
    · simp [stays, EventQueue.offers_nil]

theorem sweep_reportLockWon (s : State) :
    Sweep (Port.lockWon s.time) (fun _ => false)
      (fun q x => if x.regainsLock then [portEvent .portRecovered q s.cycleNumber 1] else []) allPorts s
      s.reportLockWon := by
  refine sweep_foldl (fun x p hn ht => ?_) nodup_allPorts
  have cycle : s.cycleNumber = x.cycleNumber := by simp only [State.cycleNumber, ht]
  rw [cycle, ← hn]
  exact sweep_lockWonAt x p

/-- Settles O11: each report is a sweep over all ports. -/
theorem lockReportsMoveGates : Obligations.LockReportsMoveGates := by
  intro s loses returns
  have lost := sweep_reportLockLoss s
  have won := sweep_reportLockWon s
  have kept : s.reportLockWon.holds.records = s.holds.records := by rw [won.records]; simp
  refine ⟨fun p => ?_, ?_, ?_, lost.frame, fun p => ?_, ?_, ?_⟩
  · rw [lost.port, if_pos (mem_allPorts p)]
    rfl
  · rw [lost.records]
    exact List.filter_congr fun r _ => by simp only [mem_allPorts, decide_true, Bool.true_and]; rfl
  · rw [lost.events]
    exact congrArg s.events.offers (flatMap_if allPorts loses _)
  · rw [won.port, if_pos (mem_allPorts p)]
    rfl
  · rw [won.events]
    exact congrArg s.events.offers (flatMap_if allPorts returns _)
  · conv_rhs => rw [← won.frame, ← kept]

/-! ### The expiry of hold records (R147, R150) -/

/-- Weights of powers of two, summed, are a number by its bits. -/
theorem sum_weight_eq_ofBits {n : Nat} (f : Fin n → Bool) :
    ((List.finRange n).map (fun p => weight (f p) (2 ^ p.val))).sum = Nat.ofBits f := by
  induction n with
  | zero => rfl
  | succ n ih =>
    have twice : ∀ p : Fin n, weight (f p.succ) (2 ^ p.succ.val) = 2 * weight ((f ∘ Fin.succ) p) (2 ^ p.val) := fun p => by
      simp only [weight, Function.comp, Fin.val_succ, Nat.pow_succ, Nat.mul_comm]
      split_ifs <;> rfl
    have first : weight (f 0) (2 ^ (0 : Fin (n + 1)).val) = (f 0).toNat := by cases h : f 0 <;> rfl
    rw [List.finRange_succ, List.map_cons, List.sum_cons, List.map_map, Nat.ofBits_succ, ← ih (f ∘ Fin.succ), first,
      ← List.sum_map_mul_left, Nat.add_comm]
    exact congrArg (· + _) (congrArg List.sum (List.map_congr_left fun p _ => twice p))

/-- Where no record is of age 32 nothing expires. -/
theorem State.expireHolds_of_none {s : State} (h : s.holds.records.filter (fun r => decide (s.holdAge r = 32)) = []) :
    s.expireHolds = s := by
  simp only [State.expireHolds, h, List.isEmpty_nil, if_true]

/-- The event of hold records that expire. -/
def State.expiryEvent (s : State) (gone : List HoldRecord) : EventEntry where
  kind := .holdExpired
  port := none
  index := none
  tag := none
  cycle := lowCycle s.cycleNumber
  detail := detail (256 * expiredPorts gone + gone.length)

/-- Where records are of age 32 they go, are counted, and are reported. -/
theorem State.expireHolds_of_some {s : State} (h : s.holds.records.filter (fun r => decide (s.holdAge r = 32)) ≠ []) :
    s.expireHolds =
      { s with
          holds := { s.holds with
            records := s.holds.records.filter (fun r => decide (s.holdAge r ≠ 32))
            expired := satAdd s.holds.expired (s.holds.records.filter (fun r => decide (s.holdAge r = 32))).length }
          events := s.events.offer (s.expiryEvent (s.holds.records.filter (fun r => decide (s.holdAge r = 32)))) } := by
  simp only [State.expireHolds, List.isEmpty_eq_false_iff.mpr h, Bool.false_eq_true, if_false]
  rfl

/-- The detail of HOLD_EXPIRED: the number of the records in the low byte, their ports in the high byte. -/
theorem State.expiryEvent_detail (s : State) {gone : List HoldRecord} (few : gone.length ≤ 32) :
    (s.expiryEvent gone).detail.toNat % 256 = gone.length
      ∧ ∀ p : PortIndex, (s.expiryEvent gone).detail.getLsbD (8 + p.val) = gone.any (fun r => decide (r.port = p)) := by
  have bits : expiredPorts gone = Nat.ofBits (fun p : PortIndex => gone.any (fun r => decide (r.port = p))) :=
    sum_weight_eq_ofBits _
  have high := Nat.ofBits_lt_two_pow (fun p : PortIndex => gone.any (fun r => decide (r.port = p)))
  rw [← bits] at high
  refine ⟨?_, fun p => ?_⟩
  · simp only [State.expiryEvent, detail, BitVec.toNat_ofNat]
    omega
  · have low : gone.length < 2 ^ 8 := by omega
    have hp := p.isLt
    simp only [State.expiryEvent, detail, BitVec.getLsbD_ofNat]
    rw [show 256 = 2 ^ 8 from rfl, Nat.testBit_two_pow_mul_add _ low, if_neg (by omega), Nat.add_sub_cancel_left, bits,
      Nat.testBit_ofBits_lt _ _ hp, decide_eq_true (by omega), Bool.true_and]

/-- Settles O12, by whether a record is of age 32. -/
theorem holdRecordsExpireAtAge32 : Obligations.HoldRecordsExpireAtAge32 := by
  intro s room gone
  have few : gone.length ≤ 32 := (List.length_filter_le _ _).trans room
  by_cases h : gone = []
  · have same := State.expireHolds_of_none h
    refine ⟨?_, ?_, fun _ => same, fun some => absurd h some, by rw [same]⟩
    · rw [same, List.filter_eq_self.mpr]
      intro r hr
      by_contra aged
      have : r ∈ gone := List.mem_filter.mpr ⟨hr, by simpa using aged⟩
      rw [h] at this
      cases this
    · rw [same, h]
      apply BitVec.eq_of_toNat_eq
      have := s.holds.expired.isLt
      simp only [satAdd, List.length_nil, Nat.add_zero, BitVec.toNat_ofNat]
      omega
  · have some := State.expireHolds_of_some h
    rw [some]
    obtain ⟨low, high⟩ := s.expiryEvent_detail few
    exact ⟨rfl, rfl, fun none => absurd none h, fun _ => ⟨_, rfl, rfl, rfl, rfl, rfl, rfl, low, high⟩, rfl⟩

/-! ### What a mark does, by the state of the lock (R18) -/

section
variable {l : Lock} (t : Timer) (now : DeviceTime)

theorem Lock.takeMark_of_free (hs : l.state = .free) : l.takeMark t now = l := by
  simp only [Lock.takeMark, hs]

theorem Lock.takeMark_of_acquiring (hs : l.state = .acquiring) :
    l.takeMark t now = Lock.acquire { l with marks := satInc l.marks } t now := by simp only [Lock.takeMark, hs]

theorem Lock.takeMark_of_aligning (hs : l.state = .aligning) : l.takeMark t now = { l with marks := satInc l.marks } := by
  simp only [Lock.takeMark, hs]

theorem Lock.takeMark_of_locked (hs : l.state = .locked) :
    l.takeMark t now = Lock.track { l with marks := satInc l.marks } t now := by simp only [Lock.takeMark, hs]

theorem Lock.takeMark_of_holdover (hs : l.state = .holdover) :
    l.takeMark t now = Lock.recover { l with marks := satInc l.marks } t now := by simp only [Lock.takeMark, hs]

theorem Lock.track_of_good (h : l.goodMark = true) : l.track t now = l := by
  simp only [Lock.track, h, if_true]

theorem Lock.track_of_tolerated (h : l.goodMark = false) (near : (l.errorAt t now).natAbs ≤ l.tolerance) :
    l.track t now = { l with first := l.first.orFirst .good, goodMark := true,
                             stored := some (correction l.jitter l.maxStep (l.errorAt t now)) } := by
  simp only [Lock.track, h, Lock.inTolerance, near, decide_true, Bool.false_eq_true, if_false, if_true]

theorem Lock.track_of_outlier (h : l.goodMark = false) (far : l.tolerance < (l.errorAt t now).natAbs) :
    l.track t now = { l with first := l.first.orFirst .outlier, outliers := satInc l.outliers } := by
  simp only [Lock.track, h, Lock.inTolerance, Nat.not_le.mpr far, decide_false, Bool.false_eq_true, if_false]

theorem Lock.recover_of_tolerated (near : (l.errorAt t now).natAbs ≤ l.tolerance) :
    l.recover t now = { l with state := .locked, stored := some (correction l.jitter l.maxStep (l.errorAt t now)),
                               missRun := 0, first := .good, goodMark := true } := by
  simp only [Lock.recover, Lock.inTolerance, near, decide_true, if_true]

theorem Lock.recover_of_outlier (far : l.tolerance < (l.errorAt t now).natAbs) :
    l.recover t now = { l with outliers := satInc l.outliers } := by
  simp only [Lock.recover, Lock.inTolerance, Nat.not_le.mpr far, decide_false, Bool.false_eq_true, if_false]

end

/-- Settles O23, by the state of the lock. -/
theorem markInEachLockState : Obligations.MarkInEachLockState := by
  intro l t now c e fix
  refine ⟨Lock.takeMark_of_free t now, Lock.takeMark_of_aligning t now, fun hs none => ?_, fun hs before some => ?_,
    fun hs good => ?_, fun hs fresh near => ?_, fun hs fresh far => ?_, fun hs near => ?_, fun hs far => ?_⟩
  · rw [Lock.takeMark_of_acquiring t now hs]
    simp only [Lock.acquire, none]
  · rw [Lock.takeMark_of_acquiring t now hs]
    simp only [Lock.acquire, some, Lock.goodInterval, decide_eq_true_eq]
    rfl
  · exact (Lock.takeMark_of_locked t now hs).trans (Lock.track_of_good t now good)
  · exact (Lock.takeMark_of_locked t now hs).trans (Lock.track_of_tolerated t now fresh near)
  · exact (Lock.takeMark_of_locked t now hs).trans (Lock.track_of_outlier t now fresh far)
  · exact (Lock.takeMark_of_holdover t now hs).trans (Lock.recover_of_tolerated t now near)
  · exact (Lock.takeMark_of_holdover t now hs).trans (Lock.recover_of_outlier t now far)

end Sys2Proof.Machine
end

section
/-! The management link: the ends of a transaction, the serial clock, frames and their commands, READ_STATUS. -/

namespace Sys2Proof.Machine

/-! ### The ends of a transaction -/

/-- The rising edge of MGT_CSN that ends no transaction of the device, or one without a whole byte. -/
theorem transactionEnd_of_empty {s : State} (low : s.link.csnLow = true)
    (h : s.resetAsserted = true ∨ s.link.receiving = false ∨ s.link.count = 0) : transactionEnd s = s.ended := by
  rw [transactionEnd, low, Bool.not_true, if_neg Bool.false_ne_true]
  split_ifs with idle
  · rfl
  · have empty : s.link.count = 0 := by
      rcases h with h | h | h
      · simp [h] at idle
      · simp [h] at idle
      · exact h
    rw [State.takeFrame, if_pos empty]
    rfl

section
variable {s : State} (low : s.link.csnLow = true) (released : s.resetAsserted = false) (receiving : s.link.receiving = true)
include low released receiving

/-- The rising edge of MGT_CSN that ends a transaction of the device. -/
theorem transactionEnd_of_receiving : transactionEnd s = s.takeFrame := by
  rw [transactionEnd, low, released, receiving]
  rfl

omit low in
theorem badFrame_of_receiving (first : Byte) : s.badFrame first = s.answered first .badFrame [] := by
  have takes : s.takesFrame = true := by simp [State.takesFrame, released, receiving]
  rw [State.badFrame, if_pos takes]
  rfl

end

theorem takeFrame_of_command {s : State} {c : Instr} (some : s.link.count ≠ 0)
    (h : decodeFrame s.link.count s.link.buffer = .some c) : s.takeFrame = takeCommand c s := by
  simp only [State.takeFrame, if_neg some, h]

theorem takeFrame_of_none {s : State} (some : s.link.count ≠ 0) (h : decodeFrame s.link.count s.link.buffer = none) :
    s.takeFrame = s.badFrame (s.link.buffer.headD 0) := by
  simp only [State.takeFrame, if_neg some, h]

/-- Settles O13. -/
theorem transactionBeginsAndEnds : Obligations.TransactionBeginsAndEnds := by
  refine ⟨fun s high released => ?_, fun s low h => congrArg Host.Outcome.next (transactionEnd_of_empty low h),
    fun s low released receiving some bad => ?_⟩
  · refine congrArg Host.Outcome.next ?_
    simp only [transactionStart, high, released, Bool.false_eq_true, if_false]
  · refine congrArg Host.Outcome.next ?_
    rw [transactionEnd_of_receiving low released receiving, takeFrame_of_none some bad]
    exact badFrame_of_receiving released receiving _

/-! ### The serial clock (R161) -/

/-- The present bit of a record, its bytes given. -/
theorem ResponseRecord.bit_eq (r : ResponseRecord) (n : Nat) :
    r.bit n = (r.bytes[n / 8]?.getD 0x00).getLsbD (7 - n % 8) := by
  unfold ResponseRecord.bit
  cases r.bytes[n / 8]? with
  | none => simp
  | some b => rfl

theorem mgtDout_of_receiving {s : State} (released : s.resetAsserted = false) (receiving : s.link.receiving = true) :
    s.mgtDout = some (s.link.record.bit s.link.shifted) := by
  simp only [State.mgtDout, released, receiving, Bool.not_false, Bool.and_self, if_true]

theorem mgtDout_of_idle {s : State} (h : s.resetAsserted = true ∨ s.link.receiving = false) : s.mgtDout = none := by
  rcases h with h | h <;> simp [State.mgtDout, h]

section
variable {s : State} (released : s.resetAsserted = false) (receiving : s.link.receiving = true)
include released receiving

theorem exec_mgtSckEdge (e : SckEdge) : exec (.mgtSckEdge e) s = .next { s with link := s.link.sckEdge e } := by
  refine congrArg Host.Outcome.next ?_
  simp only [sckEdge, released, receiving, Bool.not_true, Bool.or_self, Bool.false_eq_true, if_false]

end

/-- The edges that sample these bits, first bit first. -/
def risingEdges (bits : List Bool) : List Instr := bits.map (fun b => .mgtSckEdge (.rising b))

/-- Fewer than eight bits are kept as they come. -/
theorem execAll_risingEdges {s : State} (released : s.resetAsserted = false) (receiving : s.link.receiving = true)
    (bits : List Bool) (rest : List Instr) (room : s.link.bits.length + bits.length ≤ 7) :
    execAll (risingEdges bits ++ rest) s =
      execAll rest { s with link := { s.link with bits := s.link.bits ++ bits } } := by
  induction bits generalizing s with
  | nil => simp [risingEdges]
  | cons b bits ih =>
    rw [List.length_cons] at room
    have short : ¬ 7 ≤ s.link.bits.length := by omega
    have edge := exec_mgtSckEdge released receiving (.rising b)
    simp only [Link.sckEdge, if_neg short] at edge
    have next := ih (s := { s with link := { s.link with bits := s.link.bits ++ [b] } }) released receiving
      (by rw [List.length_append, List.length_singleton]; omega)
    simp only [risingEdges, List.map_cons, List.cons_append, execAll, edge]
    rw [List.append_assoc] at next
    exact next

theorem byteOfBits_bits (b : Byte) : byteOfBits ([7, 6, 5, 4, 3, 2, 1, 0].map b.getLsbD) = b := by
  revert b
  decide

/-- Eight rising edges carry one byte in. -/
theorem execAll_byteEdges {s : State} (released : s.resetAsserted = false) (receiving : s.link.receiving = true)
    (fresh : s.link.bits = []) (b : Byte) : execAll (byteEdges b) s = .next { s with link := s.link.receiveByte b } := by
  have edges : byteEdges b = risingEdges ([7, 6, 5, 4, 3, 2, 1].map b.getLsbD) ++ [.mgtSckEdge (.rising (b.getLsbD 0))] := rfl
  have last := exec_mgtSckEdge
    (s := { s with link := { s.link with bits := [7, 6, 5, 4, 3, 2, 1].map b.getLsbD } }) released receiving
    (.rising (b.getLsbD 0))
  rw [edges, execAll_risingEdges released receiving _ _ (by simp [fresh]), fresh, List.nil_append]
  simp only [execAll, last]
  refine congrArg Host.Outcome.next ?_
  show { s with link := Link.receiveByte _ (byteOfBits ([7, 6, 5, 4, 3, 2, 1, 0].map b.getLsbD)) } = _
  rw [byteOfBits_bits]
  rfl

/-- Settles O14. -/
theorem eightRisingEdgesCarryOneByte : Obligations.EightRisingEdgesCarryOneByte := by
  intro s code bytes bit
  have bits : ∀ n, s.link.record.bit n = bit n := fun n => by
    rw [ResponseRecord.bit_eq]
    have same : s.link.record.bytes = bytes := by
      have : s.link.record.status.byte = code := by
        dsimp only [code]
        cases s.link.record.status <;> rfl
      simp only [ResponseRecord.bytes, this]
      rfl
    rw [same]
  refine ⟨fun released high => ?_, fun released receiving => ⟨?_, fun fresh b => ?_, fun din => ?_, ?_⟩, mgtDout_of_idle⟩
  · refine ⟨_, transactionBeginsAndEnds.1 s high released, rfl, ?_⟩
    exact Eq.trans (mgtDout_of_receiving (by exact released) (by rfl)) (congrArg some (bits 0))
  · rw [mgtDout_of_receiving released receiving, bits]
  · rw [execAll_byteEdges released receiving fresh, Link.receiveByte, ← fresh]
  · refine ⟨_, exec_mgtSckEdge released receiving _, ?_⟩
    rw [Link.sckEdge]
    split_ifs <;> rfl
  · refine ⟨_, exec_mgtSckEdge released receiving .falling, rfl, ?_⟩
    exact Eq.trans (mgtDout_of_receiving (by exact released) (by exact receiving)) (congrArg some (bits _))

end Sys2Proof.Machine
end

section
/-! Frames and their commands: decoding and encoding agree, a frame runs its command, BUSY in the initialisation pass, and
READ_STATUS. -/

namespace Sys2Proof.Machine

/-! ### Multi-byte values (R171) -/

/-- Two neighbouring parts of a value, joined. -/
theorem extract_join {w : Nat} (x : BitVec w) (start m n : Nat) :
    x.extractLsb' (start + n) m ++ x.extractLsb' start n = x.extractLsb' start (m + n) := by
  apply BitVec.eq_of_getLsbD_eq
  intro i hi
  rw [BitVec.getLsbD_append]
  by_cases low : i < n
  · simp [low, hi]
  · have high : i - n < m := by omega
    have place : start + n + (i - n) = start + i := by omega
    simp [low, hi, high, place]

theorem join_bytes16 (x : BitVec 16) : x.extractLsb' 8 8 ++ x.extractLsb' 0 8 = x :=
  (extract_join x 0 8 8).trans (extract_all x)

theorem join_bytes24 (x : BitVec 24) : x.extractLsb' 16 8 ++ x.extractLsb' 8 8 ++ x.extractLsb' 0 8 = x := by
  rw [show x.extractLsb' 16 8 ++ x.extractLsb' 8 8 = x.extractLsb' 8 16 from extract_join x 8 8 8]
  exact (extract_join x 0 16 8).trans (extract_all x)

theorem join_bytes32 (x : BitVec 32) :
    x.extractLsb' 24 8 ++ x.extractLsb' 16 8 ++ x.extractLsb' 8 8 ++ x.extractLsb' 0 8 = x := by
  rw [show x.extractLsb' 24 8 ++ x.extractLsb' 16 8 = x.extractLsb' 16 16 from extract_join x 16 8 8,
    show x.extractLsb' 16 16 ++ x.extractLsb' 8 8 = x.extractLsb' 8 24 from extract_join x 8 16 8]
  exact (extract_join x 0 24 8).trans (extract_all x)

/-- The low byte of a joined value, and what is above it. -/
theorem extract_low {n : Nat} (a : BitVec n) (b : Byte) : (a ++ b).extractLsb' 0 8 = b :=
  (extract_append_low a b (Nat.le_refl 8)).trans (extract_all b)

theorem extract_high {n : Nat} (a : BitVec n) (b : Byte) (start : Nat) :
    (a ++ b).extractLsb' (start + 8) 8 = a.extractLsb' start 8 :=
  (extract_append_high a b (Nat.le_add_left 8 start)).trans (by rw [Nat.add_sub_cancel])

@[simp] theorem bytes16_append (a b : Byte) : bytes16 (a ++ b) = [a, b] := by
  have high : (a ++ b).extractLsb' 8 8 = a := (extract_high a b 0).trans (extract_all a)
  have low : (a ++ b).extractLsb' 0 8 = b := extract_low a b
  unfold bytes16
  rw [high, low]

@[simp] theorem bytes24_append (a b c : Byte) : bytes24 (a ++ b ++ c) = [a, b, c] := by
  have high : (a ++ b ++ c).extractLsb' 16 8 = a := ((extract_high (a ++ b) c 8).trans (extract_high a b 0)).trans (extract_all a)
  have mid : (a ++ b ++ c).extractLsb' 8 8 = b := (extract_high (a ++ b) c 0).trans (extract_low a b)
  have low : (a ++ b ++ c).extractLsb' 0 8 = c := extract_low (a ++ b) c
  unfold bytes24
  rw [high, mid, low]

@[simp] theorem bytes32_append (a b c d : Byte) : bytes32 (a ++ b ++ c ++ d) = [a, b, c, d] := by
  have first : (a ++ b ++ c ++ d).extractLsb' 24 8 = a :=
    ((extract_high (a ++ b ++ c) d 16).trans (extract_high (a ++ b) c 8)).trans ((extract_high a b 0).trans (extract_all a))
  have second : (a ++ b ++ c ++ d).extractLsb' 16 8 = b :=
    ((extract_high (a ++ b ++ c) d 8).trans (extract_high (a ++ b) c 0)).trans (extract_low a b)
  have third : (a ++ b ++ c ++ d).extractLsb' 8 8 = c := (extract_high (a ++ b ++ c) d 0).trans (extract_low (a ++ b) c)
  have fourth : (a ++ b ++ c ++ d).extractLsb' 0 8 = d := extract_low (a ++ b ++ c) d
  unfold bytes32
  rw [first, second, third, fourth]

/-! ### Frames (R164) -/

/-- The arguments of a well-formed management command spell it again. -/
theorem decodeCommand_encodeArguments {c : Instr} {code : Byte} (hc : commandCode c = some code)
    (hw : c.wellFormed = true) : decodeCommand code (encodeArguments c) = some c := by
  cases c
  case loadMap port kinds =>
    cases hc
    exact if_pos (of_decide_eq_true hw)
  all_goals cases hc
  case setGeometry n s => exact congrArg (fun x => some (Instr.setGeometry n x)) (join_bytes16 s)
  case setSync p t phi tol m l =>
    show some (Instr.setSync p _ _ _ m l) = _
    rw [join_bytes16, join_bytes24, join_bytes24]
  case admitStream p t s len f =>
    show some (Instr.admitStream p _ s _ f) = _
    rw [join_bytes16, join_bytes16]
  case setRing p r k base n =>
    show some (Instr.setRing p r k _ _) = _
    rw [join_bytes24, join_bytes16]
  case setMemory l => exact congrArg (fun x => some (Instr.setMemory x)) (join_bytes16 l)
  case setPort p r x lead guard frame m l k u s q =>
    show some (Instr.setPort p r x _ _ _ m l k u s q) = _
    rw [join_bytes16, join_bytes16, join_bytes16]
  case setEvents m e => exact congrArg (fun x => some (Instr.setEvents x e)) (join_bytes32 m)
  all_goals rfl

/-- The command codes (10, 'Command Codes'). -/
def commandCodes : List Byte :=
  [0x00, 0x01, 0x10, 0x11, 0x20, 0x21, 0x22, 0x30, 0x31, 0x32, 0x33, 0x40, 0x41, 0x42, 0x50, 0x51, 0x52, 0x53, 0x54, 0x60,
   0x61, 0x62]

/-- No other code spells a command. -/
theorem decodeCommand_of_unknown {code : Byte} (h : code ∉ commandCodes) (args : List Byte) :
    decodeCommand code args = none := by
  obtain ⟨⟨n, hn⟩⟩ := code
  have small : n < 256 := hn
  interval_cases n <;> first | rfl | exact absurd (by decide +revert) h

/-- What argument bytes spell under a code is a well-formed command with that code and those arguments. -/
theorem encode_of_decodeCommand {code : Byte} {args : List Byte} {c : Instr} (h : decodeCommand code args = some c) :
    commandCode c = some code ∧ encodeArguments c = args ∧ c.wellFormed = true := by
  have known : code ∈ commandCodes := by
    by_contra unknown
    rw [decodeCommand_of_unknown unknown] at h
    cases h
  simp only [commandCodes, List.mem_cons, List.not_mem_nil, or_false] at known
  rcases known with rfl | rfl | rfl | rfl | rfl | rfl | rfl | rfl | rfl | rfl | rfl | rfl | rfl | rfl | rfl | rfl | rfl | rfl | rfl | rfl | rfl | rfl
  · rcases args with _ | ⟨more, rest⟩ <;> cases h
    exact ⟨rfl, by simp [encodeArguments], rfl⟩
  · rcases args with _ | ⟨more, rest⟩ <;> cases h
    exact ⟨rfl, by simp [encodeArguments], rfl⟩
  · rcases args with _ | ⟨n, _ | ⟨a, _ | ⟨b, _ | ⟨more, rest⟩⟩⟩⟩ <;> cases h
    exact ⟨rfl, by simp [encodeArguments], rfl⟩
  · rcases args with _ | ⟨p, _ | ⟨a, _ | ⟨b, _ | ⟨c, _ | ⟨d, _ | ⟨e, _ | ⟨f, _ | ⟨g, _ | ⟨h, _ | ⟨m, _ | ⟨l, _ | ⟨more, rest⟩⟩⟩⟩⟩⟩⟩⟩⟩⟩⟩⟩ <;> cases h
    exact ⟨rfl, by simp [encodeArguments], rfl⟩
  · rcases args with _ | ⟨p, kinds⟩
    · cases h
    · obtain ⟨len, e⟩ := Option.ite_none_right_eq_some.mp (show (if _ then _ else _) = _ from h)
      cases e
      exact ⟨rfl, rfl, decide_eq_true len⟩
  · rcases args with _ | ⟨p, _ | ⟨more, rest⟩⟩ <;> cases h
    exact ⟨rfl, by simp [encodeArguments], rfl⟩
  · rcases args with _ | ⟨p, _ | ⟨more, rest⟩⟩ <;> cases h
    exact ⟨rfl, by simp [encodeArguments], rfl⟩
  · rcases args with _ | ⟨p, _ | ⟨a, _ | ⟨b, _ | ⟨s, _ | ⟨c, _ | ⟨d, _ | ⟨f, _ | ⟨more, rest⟩⟩⟩⟩⟩⟩⟩⟩ <;> cases h
    exact ⟨rfl, by simp [encodeArguments], rfl⟩
  · rcases args with _ | ⟨i, _ | ⟨more, rest⟩⟩ <;> cases h
    exact ⟨rfl, by simp [encodeArguments], rfl⟩
  · rcases args with _ | ⟨i, _ | ⟨more, rest⟩⟩ <;> cases h
    exact ⟨rfl, by simp [encodeArguments], rfl⟩
  · rcases args with _ | ⟨i, _ | ⟨more, rest⟩⟩ <;> cases h
    exact ⟨rfl, by simp [encodeArguments], rfl⟩
  · rcases args with _ | ⟨p, _ | ⟨r, _ | ⟨k, _ | ⟨a, _ | ⟨b, _ | ⟨c, _ | ⟨d, _ | ⟨e, _ | ⟨more, rest⟩⟩⟩⟩⟩⟩⟩⟩⟩ <;> cases h
    exact ⟨rfl, by simp [encodeArguments], rfl⟩
  · rcases args with _ | ⟨p, _ | ⟨r, _ | ⟨more, rest⟩⟩⟩ <;> cases h
    exact ⟨rfl, by simp [encodeArguments], rfl⟩
  · rcases args with _ | ⟨a, _ | ⟨b, _ | ⟨more, rest⟩⟩⟩ <;> cases h
    exact ⟨rfl, by simp [encodeArguments], rfl⟩
  · rcases args with _ | ⟨p, _ | ⟨r, _ | ⟨x, _ | ⟨a, _ | ⟨b, _ | ⟨c, _ | ⟨d, _ | ⟨e, _ | ⟨f, _ | ⟨m, _ | ⟨l, _ | ⟨k, _ | ⟨u, _ | ⟨s, _ | ⟨q, _ | ⟨more, rest⟩⟩⟩⟩⟩⟩⟩⟩⟩⟩⟩⟩⟩⟩⟩⟩ <;> cases h
    exact ⟨rfl, by simp [encodeArguments], rfl⟩
  · rcases args with _ | ⟨p, _ | ⟨more, rest⟩⟩ <;> cases h
    exact ⟨rfl, by simp [encodeArguments], rfl⟩
  · rcases args with _ | ⟨p, _ | ⟨more, rest⟩⟩ <;> cases h
    exact ⟨rfl, by simp [encodeArguments], rfl⟩
  · rcases args with _ | ⟨p, _ | ⟨more, rest⟩⟩ <;> cases h
    exact ⟨rfl, by simp [encodeArguments], rfl⟩
  · rcases args with _ | ⟨p, _ | ⟨x, _ | ⟨more, rest⟩⟩⟩ <;> cases h
    exact ⟨rfl, by simp [encodeArguments], rfl⟩
  · rcases args with _ | ⟨more, rest⟩ <;> cases h
    exact ⟨rfl, by simp [encodeArguments], rfl⟩
  · rcases args with _ | ⟨a, _ | ⟨b, _ | ⟨c, _ | ⟨d, _ | ⟨e, _ | ⟨more, rest⟩⟩⟩⟩⟩⟩ <;> cases h
    exact ⟨rfl, by simp [encodeArguments], rfl⟩
  · rcases args with _ | ⟨x, _ | ⟨i, _ | ⟨more, rest⟩⟩⟩ <;> cases h
    exact ⟨rfl, by simp [encodeArguments], rfl⟩

/-- The frame of a management command with this code. -/
theorem encodeFrame_of_code {c : Instr} {code : Byte} (hc : commandCode c = some code) :
    encodeFrame c = code :: BitVec.ofNat 8 (encodeArguments c).length :: encodeArguments c := by
  simp only [encodeFrame, hc]

theorem code_of_isManagement {c : Instr} (h : c.isManagement = true) : ∃ code, commandCode c = some code := by
  cases c <;> first | exact ⟨_, rfl⟩ | cases h

/-- A management command carries at most 49 argument bytes. -/
theorem length_encodeArguments {c : Instr} (hw : c.wellFormed = true) : (encodeArguments c).length ≤ 49 := by
  cases c
  case loadMap port kinds => exact Nat.succ_le_succ (of_decide_eq_true hw).2
  all_goals exact Nat.le_of_ble_eq_true rfl

theorem decodeFrame_encodeFrame {c : Instr} (hm : c.isManagement = true) (hw : c.wellFormed = true) :
    decodeFrame (encodeFrame c).length (encodeFrame c) = some c := by
  obtain ⟨code, hc⟩ := code_of_isManagement hm
  have few := length_encodeArguments hw
  have len : (BitVec.ofNat 8 (encodeArguments c).length : Byte).toNat = (encodeArguments c).length := by
    rw [BitVec.toNat_ofNat]
    omega
  rw [encodeFrame_of_code hc]
  simp only [decodeFrame, List.length_cons, len]
  rw [if_pos ⟨trivial, by omega⟩]
  exact decodeCommand_encodeArguments hc hw

theorem encodeFrame_of_decodeFrame {bytes : List Byte} {c : Instr} (h : decodeFrame bytes.length bytes = some c) :
    c.isManagement = true ∧ c.wellFormed = true ∧ encodeFrame c = bytes := by
  rcases bytes with _ | ⟨code, _ | ⟨n, args⟩⟩
  · cases h
  · cases h
  · obtain ⟨⟨count, -⟩, decoded⟩ := Option.ite_none_right_eq_some.mp (show (if _ then _ else _) = _ from h)
    obtain ⟨hc, ha, hw⟩ := encode_of_decodeCommand decoded
    have len : args.length = n.toNat := by simpa using count
    refine ⟨isManagement_of_code hc, hw, ?_⟩
    rw [encodeFrame_of_code hc, ha, len, BitVec.ofNat_toNat, BitVec.setWidth_eq]

/-- Settles O16. -/
theorem decodeAndEncodeAgree : Obligations.DecodeAndEncodeAgree :=
  ⟨fun _ hm hw => decodeFrame_encodeFrame hm hw, fun _ _ h => encodeFrame_of_decodeFrame h⟩

/-- Settles O15: the frame received is decoded to its command, which is taken as it is executed. -/
theorem frameRunsItsCommand : Obligations.FrameRunsItsCommand := by
  intro s c hm hw released low receiving buffer count
  have decoded : decodeFrame s.link.count s.link.buffer = some c := by
    rw [count, buffer, decodeFrame_encodeFrame hm hw]
  have some : s.link.count ≠ 0 := by
    obtain ⟨code, hc⟩ := code_of_isManagement hm
    rw [count, encodeFrame_of_code hc]
    exact Nat.succ_ne_zero _
  have taken : transactionEnd s = takeCommand c s := by
    rw [transactionEnd_of_receiving low released receiving, takeFrame_of_command some decoded]
  exact (congrArg Host.Outcome.next taken).trans (exec_eq_takeCommand hm s).symm

/-- Settles O18: but NOP and READ_STATUS every command asks the initialisation flag first. -/
theorem busyDuringInitialisation : Obligations.BusyDuringInitialisation := by
  intro s c code hc hw
  rw [exec_eq_takeCommand (isManagement_of_code hc)]
  refine ⟨fun takes busy hn hr => ?_, fun untaken => ?_⟩
  · rw [takeCommand_eq_command hc hw hn hr, State.command_busy takes busy, State.respond_endTransaction]
  · refine congrArg Host.Outcome.next ?_
    by_cases hn : c = .nop
    · rw [hn]
      exact s.endTransaction_eq_ended
    by_cases hr : c = .readStatus
    · rw [hr]
      show (if s.takesFrame = true then _ else s.endTransaction) = s.ended
      rw [untaken, if_neg Bool.false_ne_true, s.endTransaction_eq_ended]
    · rw [takeCommand_eq_command hc hw hn hr, State.command_untaken untaken, s.endTransaction_eq_ended]

/-! ### READ_STATUS (R168) -/

/-- READ_STATUS answers in the initialisation pass too. -/
theorem exec_readStatus_of_takes {s : State} (h : s.takesFrame = true) :
    exec .readStatus s = .next (s.answered 0x01 .ok s.statusBytes) :=
  congrArg Host.Outcome.next (if_pos h)

/-- Some entry is FAULTED, read off the table. -/
theorem State.anyFaulted_eq (s : State) : s.anyFaulted = s.table.any (fun e => decide (e.state = .faulted)) := by
  rw [Bool.eq_iff_iff, Vector.any_eq_true]
  simp only [State.anyFaulted, allEntries, List.any_eq_true, List.mem_finRange, true_and, decide_eq_true_eq]
  exact ⟨fun ⟨i, hi⟩ => ⟨i.val, i.isLt, hi⟩, fun ⟨i, hi, h⟩ => ⟨⟨i, hi⟩, h⟩⟩

theorem State.length_timerBytes (s : State) : s.timerBytes.length = 12 := by
  unfold State.timerBytes
  cases s.timer <;> rfl

/-- The bytes of the status after the timer's twelve. -/
def State.statusTail (s : State) : List Byte :=
  [s.lock.state.byte, byteOf s.events.queue.length]
    ++ beBytes4 s.path.timeouts.toNat ++ beBytes4 s.path.lates.toNat ++ beBytes4 s.prot.corrected.toNat
    ++ beBytes4 s.holds.full.toNat ++ beBytes4 s.holds.expired.toNat
    ++ beBytes4 s.lock.marks.toNat ++ beBytes4 s.lock.outliers.toNat
    ++ [byteOf s.holds.records.length] ++ allPorts.map (fun p => byteOf (s.portHolds p))

theorem State.statusBytes_eq (s : State) : s.statusBytes = s.timerBytes ++ s.statusTail := by
  simp only [State.statusBytes, State.statusTail, List.append_assoc]

theorem State.length_statusTail (s : State) : s.statusTail.length = 39 := by
  simp [State.statusTail, beBytes4, allPorts]

/-- The timer's bytes: state and geometry, the flags, the cycle and the position. -/
theorem State.timerBytes_of_stopped {s : State} (h : s.timer = none) :
    s.timerBytes = [0, 0, 0, 0] ++ statusFlags false s.prot.busy s.anyFaulted s.lock.jitter s.events.overflow ::
      [0, 0, 0, 0, 0, 0, 0] := by
  simp only [State.timerBytes, h]
  rfl

theorem State.timerBytes_of_running {s : State} {t : Timer} (h : s.timer = some t) :
    s.timerBytes = ([1, byteOf t.geometry.slots] ++ beBytes2 t.geometry.ticks)
      ++ statusFlags t.staged.isSome s.prot.busy s.anyFaulted s.lock.jitter s.events.overflow ::
        (beBytes4 t.cycle.toNat ++ beBytes3 (t.position s.time)) := by
  simp only [State.timerBytes, h]
  rfl

/-- A list in three parts of 4, 1 and 7 bytes, and what comes after. -/
theorem take_drop_of_parts {head rest tail : List Byte} {b : Byte} (hh : head.length = 4) (hr : rest.length = 7) :
    (head ++ b :: rest ++ tail).take 4 = head ∧ (head ++ b :: rest ++ tail)[4]? = some b
      ∧ ((head ++ b :: rest ++ tail).drop 5).take 7 = rest := by
  rw [List.append_assoc, List.cons_append]
  refine ⟨List.take_left' hh, ?_, ?_⟩
  · rw [List.getElem?_append_right (by omega), hh]
    rfl
  · rw [show head ++ b :: (rest ++ tail) = (head ++ [b]) ++ (rest ++ tail) by simp,
      List.drop_left' (by simp [hh]), List.take_left' hr]

/-- Settles O19, by whether the timer runs. -/
theorem readStatusAnswers : Obligations.ReadStatusAnswers := by
  intro s takes
  have stopped := fun h : s.timer = none =>
    take_drop_of_parts (head := [0, 0, 0, 0]) (rest := [0, 0, 0, 0, 0, 0, 0]) (tail := s.statusTail)
      (b := statusFlags false s.prot.busy s.anyFaulted s.lock.jitter s.events.overflow) rfl rfl
  have running := fun (t : Timer) (h : s.timer = some t) =>
    take_drop_of_parts (head := [1, byteOf t.geometry.slots] ++ beBytes2 t.geometry.ticks)
      (rest := beBytes4 t.cycle.toNat ++ beBytes3 (t.position s.time)) (tail := s.statusTail)
      (b := statusFlags t.staged.isSome s.prot.busy s.anyFaulted s.lock.jitter s.events.overflow) rfl rfl
  refine ⟨exec_readStatus_of_takes takes, ?_, ?_, ?_, fun h => ?_, fun t h => ?_⟩
  · rw [s.statusBytes_eq, List.length_append, s.length_timerBytes, s.length_statusTail]
  · rw [s.statusBytes_eq, ← s.anyFaulted_eq]
    cases h : s.timer with
    | none =>
      rw [State.timerBytes_of_stopped h, (stopped h).2.1]
      rfl
    | some t =>
      rw [State.timerBytes_of_running h, (running t h).2.1]
      rfl
  · rw [s.statusBytes_eq, List.drop_left' s.length_timerBytes]
    unfold State.statusTail
    cases s.lock.state <;> rfl
  · rw [s.statusBytes_eq, State.timerBytes_of_stopped h]
    exact ⟨(stopped h).1, (stopped h).2.2⟩
  · rw [s.statusBytes_eq, State.timerBytes_of_running h]
    exact ⟨(running t h).1, (running t h).2.2⟩

end Sys2Proof.Machine
end

section
/-! Commands that only look up, set or report: RELEASE, PURGE, READ_RESERVATION, SET_MEMORY, PORT_ENFORCE, PORT_HOLD,
PORT_TRANSPARENT, READ_PORT, READ_EVENT, and SET_GEOMETRY while RUNNING. -/

namespace Sys2Proof.Machine

/-- A management command but NOP and READ_STATUS, where the link takes it and the initialisation pass is done. -/
theorem exec_of_ready {s : State} (hs : s.ready) {c : Instr} {code : Byte} (hc : commandCode c = some code)
    (hw : c.wellFormed = true) (hn : c ≠ .nop) (hr : c ≠ .readStatus) :
    exec c s = .next (commandBody c s.ended) := by
  rw [exec_eq_takeCommand (isManagement_of_code hc), takeCommand_eq_command hc hw hn hr,
    State.command_ready hs.takes hs.passDone, s.endTransaction_eq_ended]

/-- An answer given when the transaction has ended. -/
theorem State.respond_link_of_resting {s : State} {r : ResponseRecord} (h : s.link = restingLink r) {code : Byte}
    {status : Status} {result : List Byte} : (s.respond code status result).link = restingLink ⟨status, code, result⟩ := by
  simp only [State.respond, h, restingLink]

/-! ### RELEASE (R73) -/

section
variable {index : Byte} {i : EntryIndex}

theorem releaseBody_of_not_entry (h : 64 ≤ index.toNat) (s : State) : releaseBody index s = s.respond 0x31 .badArgument [] := by
  simp only [releaseBody, entryOperand_eq_none h]

variable (hi : i.val = index.toNat) (s : State)
include hi

theorem releaseBody_of_pending (h : (s.entry i).state = .pending) :
    releaseBody index s = (s.freeEntry i).respond 0x31 .ok [0x00] := by
  simp only [releaseBody, entryOperand_eq_some hi, h]

theorem releaseBody_of_active (h : (s.entry i).state = .active) :
    releaseBody index s = (s.setEntryState i .releasing).respond 0x31 .ok [0x01] := by
  simp only [releaseBody, entryOperand_eq_some hi, h]

theorem releaseBody_of_other (h : (s.entry i).state = .free ∨ (s.entry i).state = .releasing ∨ (s.entry i).state = .faulted) :
    releaseBody index s = s.respond 0x31 .state [] := by
  rcases h with h | h | h <;> simp only [releaseBody, entryOperand_eq_some hi, h]

end

/-- Settles O30, by the state of the entry. -/
theorem releaseByEntryState : Obligations.ReleaseByEntryState := by
  intro s index hs
  have run : exec (.release index) s = .next (releaseBody index s.ended) := exec_of_ready hs rfl rfl nofun nofun
  rw [run]
  refine ⟨fun h => ?_, fun i hi => ⟨fun h => ?_, fun h => ?_, fun h => ?_⟩⟩
  · exact congrArg Host.Outcome.next (releaseBody_of_not_entry h s.ended)
  · exact congrArg Host.Outcome.next (releaseBody_of_pending hi s.ended h)
  · exact congrArg Host.Outcome.next (releaseBody_of_active hi s.ended h)
  · exact congrArg Host.Outcome.next (releaseBody_of_other hi s.ended h)

/-! ### PURGE (R76) -/

section
variable {index : Byte} {i : EntryIndex}

theorem purgeBody_of_not_entry (h : 64 ≤ index.toNat) (s : State) : purgeBody index s = s.respond 0x32 .badArgument [] := by
  simp only [purgeBody, entryOperand_eq_none h]

variable (hi : i.val = index.toNat) (s : State)
include hi

theorem purgeBody_of_faulted (h : (s.entry i).state = .faulted) :
    purgeBody index s = ((s.freeEntry i).blankReservation i).respond 0x32 .ok [] := by
  simp only [purgeBody, entryOperand_eq_some hi, h]

theorem purgeBody_of_other (h : (s.entry i).state ≠ .faulted) : purgeBody index s = s.respond 0x32 .state [] := by
  simp only [purgeBody, entryOperand_eq_some hi]
  cases e : (s.entry i).state with
  | faulted => exact absurd e h
  | free | pending | active | releasing => rfl

end

theorem State.entry_setEntryState (s : State) (i j : EntryIndex) (st : EntryState) :
    (s.setEntryState i st).entry j = if j = i then { s.entry i with state := st } else s.entry j :=
  s.entry_updEntry i j _

/-- Writing words leaves everything but table memory. -/
theorem State.putWords_frame (l : List (Nat × Word)) (s : State) :
    { s.putWords l with prot := { (s.putWords l).prot with memory := s.prot.memory } } = s := by
  induction l generalizing s with
  | nil => rfl
  | cons x l ih => exact congrArg (fun u : State => { u with prot := { u.prot with memory := s.prot.memory } }) (ih (s.putWord x.1 x.2))

/-- Settles O31, by whether the entry is FAULTED. -/
theorem purgeFreesFaultedEntry : Obligations.PurgeFreesFaultedEntry := by
  intro s index hs memory
  have run : exec (.purge index) s = .next (purgeBody index s.ended) := exec_of_ready hs rfl rfl nofun nofun
  rw [run]
  refine ⟨fun h => ?_, fun i hi => ⟨fun h => ?_, fun h => ⟨_, rfl, ?_⟩⟩⟩
  · exact congrArg Host.Outcome.next (purgeBody_of_not_entry h s.ended)
  · exact congrArg Host.Outcome.next (purgeBody_of_other hi s.ended h)
  · rw [purgeBody_of_faulted hi s.ended h]
    have frame := State.putWords_frame [(entryWord i 0, 0), (entryWord i 1, 0), (entryWord i 2, 0), (entryWord i 3, 0)]
      (s.ended.freeEntry i)
    have table : ∀ j, (((s.ended.freeEntry i).blankReservation i).respond 0x32 .ok []).entry j =
        (s.setEntryState i .free).entry j := fun j => State.entry_of_table (congrArg State.table frame :) j
    refine ⟨?_, fun j hj => ?_, (congrArg State.order frame :), fun k => ?_, ?_, ?_⟩
    · rw [table, State.entry_setEntryState, if_pos rfl]
    · rw [table, State.entry_setEntryState, if_neg hj]
    · exact State.word_blankReservation (s := s.ended.freeEntry i) memory i k
    · exact State.respond_link_of_resting (congrArg State.link frame :)
    · have whole := congrArg (fun x : State => { x with table := s.table, order := s.order, link := s.link }) frame
      exact whole

/-! ### READ_RESERVATION (R78) -/

section
variable {index : Byte} {i : EntryIndex}

theorem readReservationBody_of_not_entry (h : 64 ≤ index.toNat) (s : State) :
    readReservationBody index s = s.respond 0x33 .badArgument [] := by
  simp only [readReservationBody, entryOperand_eq_none h]

variable (hi : i.val = index.toNat) (s : State)
include hi

theorem readReservationBody_of_free (h : (s.entry i).state = .free) :
    readReservationBody index s = s.respond 0x33 .ok [0x00] := by
  simp only [readReservationBody, entryOperand_eq_some hi, h]

theorem readReservationBody_of_clean (hc : s.cleanTable) (h : (s.entry i).state ≠ .free) :
    readReservationBody index s = s.respond 0x33 .ok
      (reservationBytes (s.entry i) (if s.inUse i = true then s.reservation i else absentReservation)) := by
  have read : readReservationBody index s =
      if s.inUse i then s.respond 0x33 .ok (reservationBytes (s.entry i) (s.reservation i))
      else s.respond 0x33 .ok (reservationBytes (s.entry i) absentReservation) := by
    simp only [readReservationBody, entryOperand_eq_some hi, State.checkWords_of_clean hc]
    cases e : (s.entry i).state with
    | free => exact absurd e h
    | pending | active | releasing | faulted => rfl
  rw [read]
  split_ifs <;> rfl

end

/-- The bytes of a FAULTED entry: its counters stand, the absent fields are 0. -/
theorem reservationBytes_absent (e : Entry) :
    reservationBytes e absentReservation = [e.state.byte] ++ List.replicate 14 0x00 ++ (beBytes2 e.totalMisses.toNat
      ++ beBytes2 e.overrunDrops.toNat ++ beBytes2 e.staleDrops.toNat ++ beBytes4 e.passed.toNat) ++ [0, 0, 0, 0] := by
  simp only [reservationBytes, List.append_assoc]
  rfl

/-- Settles O32, by the state of the entry. -/
theorem readReservationReports : Obligations.ReadReservationReports := by
  intro s index hs clean
  have run : exec (.readReservation index) s = .next (readReservationBody index s.ended) :=
    exec_of_ready hs rfl rfl nofun nofun
  rw [run]
  refine ⟨fun h => congrArg Host.Outcome.next (readReservationBody_of_not_entry h s.ended), fun i hi =>
    ⟨fun h => congrArg Host.Outcome.next (readReservationBody_of_free hi s.ended h), fun h => ?_, fun h => ?_⟩⟩
  · have notFree : (s.ended.entry i).state ≠ .free := fun e => by cases e.symm.trans h
    have idle : s.ended.inUse i = false := congrArg EntryState.inUse h
    rw [readReservationBody_of_clean hi s.ended clean notFree, idle, if_neg Bool.false_ne_true, reservationBytes_absent,
      show (s.ended.entry i).state = .faulted from h]
    rfl
  · have notFree : (s.ended.entry i).state ≠ .free := fun e => by
      rw [State.inUse, show (s.entry i).state = .free from e] at h
      cases h
    rw [readReservationBody_of_clean hi s.ended clean notFree, if_pos (show s.ended.inUse i = true from h)]
    have state : (s.entry i).state.byte = match (s.entry i).state with | .pending => 0x01 | .active => 0x02 | _ => 0x03 := by
      revert h
      unfold State.inUse
      cases (s.entry i).state <;> intro h <;> first | rfl | cases h
    refine congrArg (fun bytes => Host.Outcome.next (s.answered 0x33 .ok bytes)) ?_
    show [(s.entry i).state.byte, _] ++ _ ++ _ ++ _ ++ _ ++ _ ++ _ ++ _ ++ _ ++ _ ++ _ ++ _ = _
    rw [state]
    simp only [List.append_assoc]
    rfl

/-! ### SET_MEMORY (R101) -/

/-- Settles O35, by the bounds of the limit. -/
theorem setMemoryReplacesLimit : Obligations.SetMemoryReplacesLimit := by
  intro s limit hs
  have run : exec (.setMemory limit) s = .next (setMemoryBody limit s.ended) := exec_of_ready hs rfl rfl nofun nofun
  rw [run]
  refine congrArg Host.Outcome.next ?_
  unfold setMemoryBody rangeOperand
  split_ifs <;> rfl

/-! ### PORT_ENFORCE (R118) -/

section
variable {port : Byte} {p : PortIndex}

theorem portEnforceBody_of_not_port (h : 8 ≤ port.toNat) (s : State) :
    portEnforceBody port s = s.respond 0x51 .badArgument [] := by
  simp only [portEnforceBody, portOperand_eq_none h]

variable (hp : p.val = port.toNat) (s : State)
include hp

theorem portEnforceBody_of_refused (h : s.timer = none ∨ (s.mapsOf p).bad = true ∨ ∃ i, (s.entry i).state = .faulted) :
    portEnforceBody port s = s.respond 0x51 .state [] := by
  have refused : s.timer = none ∨ (s.mapsOf p).bad ∨ s.anyFaulted := by
    simpa [State.anyFaulted, allEntries] using h
  simp only [portEnforceBody, portOperand_eq_some hp, if_pos refused]

theorem portEnforceBody_of_accepted (h : ¬ (s.timer = none ∨ (s.mapsOf p).bad = true ∨ ∃ i, (s.entry i).state = .faulted)) :
    portEnforceBody port s = (s.enforcePort p).respond 0x51 .ok
      [((s.enforcePort p).port p).gate.byte, ((s.enforcePort p).port p).cause.byte] := by
  have accepted : ¬ (s.timer = none ∨ (s.mapsOf p).bad ∨ s.anyFaulted) := by
    simpa [State.anyFaulted, allEntries] using h
  simp only [portEnforceBody, portOperand_eq_some hp, if_neg accepted]

end

/-- The gate needs the lock and there is none (R118). -/
theorem State.lockless_iff (s : State) (p : PortIndex) :
    ((s.port p).settings.requireLock && !s.hasLock) = true ↔
      (s.port p).settings.requireLock = true ∧ s.lock.state ≠ .locked ∧ s.lock.state ≠ .holdover := by
  simp [State.hasLock]

section
variable (s : State) (p : PortIndex)

theorem enforcePort_of_enforcing (h : (s.port p).gate = .enforcing) : s.enforcePort p = s := by
  simp only [State.enforcePort, h]

theorem enforcePort_of_other (h : (s.port p).gate ≠ .enforcing) :
    s.enforcePort p =
      if (s.port p).settings.requireLock && !s.hasLock then
        (if (s.port p).gate = .failsafe ∧ (s.port p).cause = .lockLost then s else s.toFailsafe p .lockLost)
      else s.enterEnforcing p := by
  unfold State.enforcePort
  cases e : (s.port p).gate with
  | enforcing => exact absurd e h
  | transparent | held | failsafe => rfl

/-- A gate outside ENFORCING enters FAILSAFE, or takes another cause in it. -/
theorem toFailsafe_of_other (c : FailsafeCause) (h : (s.port p).gate ≠ .enforcing) :
    s.toFailsafe p c = { (s.updPort p (fun q => { q with gate := .failsafe, cause := c })) with
      events := s.events.offer (failsafeEvent s p c (decide ((s.port p).gate = .failsafe))) } := by
  simp only [State.toFailsafe, if_neg h]
  rfl

end

/-- Settles O43, by the refusals, the gate and the lock. -/
theorem portEnforceByTable : Obligations.PortEnforceByTable := by
  intro s port hs
  have run : exec (.portEnforce port) s = .next (portEnforceBody port s.ended) := exec_of_ready hs rfl rfl nofun nofun
  rw [run]
  refine ⟨fun h => congrArg Host.Outcome.next (portEnforceBody_of_not_port h s.ended), fun p hp => ?_⟩
  intro q refused lockless
  have need : ((s.ended.port p).settings.requireLock && !s.ended.hasLock) = true ↔ lockless := s.ended.lockless_iff p
  refine ⟨fun h => congrArg Host.Outcome.next (portEnforceBody_of_refused hp s.ended h), fun h gate => ?_,
    fun h gate lock => ?_, fun h lock gate cause => ?_, fun h lock gate => ?_⟩
  · rw [portEnforceBody_of_accepted hp s.ended h, enforcePort_of_enforcing s.ended p gate,
      show (s.ended.port p).gate = .enforcing from gate]
    rfl
  · rw [portEnforceBody_of_accepted hp s.ended h, enforcePort_of_other s.ended p gate, if_neg (mt need.mp lock)]
    have after : (s.ended.enterEnforcing p).port p = _ := s.ended.port_updPort_self p _
    rw [after]
    rfl
  · have other : (s.ended.port p).gate ≠ .enforcing := fun e => by cases e.symm.trans gate
    rw [portEnforceBody_of_accepted hp s.ended h, enforcePort_of_other s.ended p other, if_pos (need.mpr lock),
      if_pos ⟨gate, cause⟩, show (s.ended.port p).gate = .failsafe from gate,
      show (s.ended.port p).cause = .lockLost from cause]
    rfl
  · have other : (s.ended.port p).gate ≠ .enforcing := by
      rcases gate with e | e | e
      · exact fun e' => by cases e'.symm.trans e
      · exact fun e' => by cases e'.symm.trans e
      · exact fun e' => by cases e'.symm.trans e.1
    have changes : ¬ ((s.ended.port p).gate = .failsafe ∧ (s.ended.port p).cause = .lockLost) := by
      rintro ⟨e1, e2⟩
      rcases gate with e | e | e
      · cases e1.symm.trans e
      · cases e1.symm.trans e
      · exact e.2 e2
    refine ⟨failsafeEvent s p .lockLost (decide (q.gate = .failsafe)), rfl, rfl, rfl, rfl, rfl, ?_, ?_⟩
    · by_cases f : q.gate = .failsafe <;> simp only [failsafeEvent, f, decide_true, decide_false, if_true, if_false] <;> rfl
    · rw [portEnforceBody_of_accepted hp s.ended h, enforcePort_of_other s.ended p other, if_pos (need.mpr lock),
        if_neg changes, port_toFailsafe, if_pos rfl, toFailsafe_of_other s.ended p _ other]
      rfl

/-! ### PORT_HOLD and PORT_TRANSPARENT (R120, R121) -/

section
variable {port : Byte} (code : Byte) (g : GateState)

theorem parkBody_of_not_port (h : 8 ≤ port.toNat) (s : State) : parkBody code g port s = s.respond code .badArgument [] := by
  simp only [parkBody, portOperand_eq_none h]

theorem parkBody_of_port {p : PortIndex} (hp : p.val = port.toNat) (s : State) :
    parkBody code g port s = (s.parkPort p g).respond code .ok [(s.port p).gate.byte] := by
  simp only [parkBody, portOperand_eq_some hp]

end

/-- A gate put into HELD or TRANSPARENT: where it leaves ENFORCING its hold records go. -/
theorem parkPort_eq (s : State) (p : PortIndex) (g : GateState) :
    s.parkPort p g =
      { s with holds := { s.holds with records := s.holds.records.filter (fun r =>
          decide ((s.port p).gate ≠ GateState.enforcing ∨ r.port ≠ p)) } }.updPort p
        (fun q => { q with gate := g, cause := .none, busy := none }) := by
  unfold State.parkPort
  by_cases h : (s.port p).gate = .enforcing
  · have keep : ∀ r : HoldRecord, decide ((s.port p).gate ≠ GateState.enforcing ∨ r.port ≠ p) = decide (r.port ≠ p) :=
      fun r => by simp [h]
    simp only [keep]
    rw [if_pos h, State.leaveEnforcing, State.updPort_updPort]
    rfl
  · have keep : s.holds.records.filter (fun r => decide ((s.port p).gate ≠ GateState.enforcing ∨ r.port ≠ p)) =
        s.holds.records := List.filter_eq_self.mpr fun r _ => by simp [h]
    rw [if_neg h, keep]

/-- Settles O44. -/
theorem portLeavesEnforcement : Obligations.PortLeavesEnforcement := by
  intro s port hs
  have hold : exec (.portHold port) s = .next (parkBody 0x52 .held port s.ended) := exec_of_ready hs rfl rfl nofun nofun
  have transparent : exec (.portTransparent port) s = .next (parkBody 0x53 .transparent port s.ended) :=
    exec_of_ready hs rfl rfl nofun nofun
  rw [hold, transparent]
  refine ⟨fun h => ⟨congrArg Host.Outcome.next (parkBody_of_not_port _ _ h _),
    congrArg Host.Outcome.next (parkBody_of_not_port _ _ h _)⟩, fun p hp => ?_⟩
  intro before left
  have gate : (s.ended.port p).gate.byte = before := by
    show (s.port p).gate.byte = before
    dsimp only [before]
    cases (s.port p).gate <;> rfl
  refine ⟨congrArg Host.Outcome.next ?_, congrArg Host.Outcome.next ?_⟩
  · rw [parkBody_of_port _ _ hp, gate, parkPort_eq]
    rfl
  · rw [parkBody_of_port _ _ hp, gate, parkPort_eq]
    rfl

/-! ### READ_PORT (R135) -/

section
variable {port selector : Byte}

theorem readPortBody_of_bad_operand (h : 8 ≤ port.toNat ∨ 2 ≤ selector.toNat) (s : State) :
    readPortBody port selector s = s.respond 0x54 .badArgument [] := by
  unfold readPortBody
  cases e : portOperand port with
  | none => rfl
  | some p =>
    have inRange : ¬ 8 ≤ port.toNat := fun out => by rw [portOperand_eq_none out] at e; cases e
    have selectors : selector ≠ 0 ∧ selector ≠ 1 := by
      constructor <;> rintro rfl <;> exact absurd (h.resolve_left inRange) (by decide)
    simp only [selectors.1, selectors.2, if_false]

theorem readPortBody_of_state {p : PortIndex} (hp : p.val = port.toNat) (s : State) :
    readPortBody port 0x00 s = s.respond 0x54 .ok (portBytes s.time (s.port p) (s.mapsOf p)) := by
  simp only [readPortBody, portOperand_eq_some hp]
  rfl

theorem readPortBody_of_counters {p : PortIndex} (hp : p.val = port.toNat) (s : State) :
    readPortBody port 0x01 s = s.respond 0x54 .ok (s.port p).counters.bytes := by
  simp only [readPortBody, portOperand_eq_some hp]
  rfl

end

/-- Settles O45, by the selector. -/
theorem readPortReports : Obligations.ReadPortReports := by
  intro s port selector hs
  have run : exec (.readPort port selector) s = .next (readPortBody port selector s.ended) :=
    exec_of_ready hs rfl rfl nofun nofun
  rw [run]
  refine ⟨fun h => congrArg Host.Outcome.next (readPortBody_of_bad_operand h s.ended), fun p hp => ?_⟩
  intro q c k remaining head
  refine ⟨?_, ?_⟩
  · rintro rfl
    refine ⟨mapFlags (s.mapsOf p), byteOf (((s.mapsOf p).waiting.map PendingMap.length).getD 0), ?_, ?_, fun none => ?_,
      fun m some => ?_⟩
    · rw [readPortBody_of_state hp]
      refine congrArg (fun bytes => Host.Outcome.next (s.answered 0x54 .ok bytes)) ?_
      show [_, _] ++ (s.port p).settings.bytes ++ _ ++ _ = _
      simp only [Settings.bytes, List.append_assoc]
      rfl
    · rfl
    · rw [none, mapFlags, none]
      cases (s.mapsOf p).bad <;> exact ⟨rfl, rfl⟩
    · rw [some, mapFlags, some]
      cases (s.mapsOf p).bad <;> cases e : m.committed <;> simp [e, weight, byteOf]
  · rintro rfl
    rw [readPortBody_of_counters hp]
    rfl

/-! ### READ_EVENT (R177) -/

/-- Settles O51, by whether the queue holds an entry. -/
theorem readEventTakesOldest : Obligations.ReadEventTakesOldest := by
  unfold Obligations.ReadEventTakesOldest
  intro codes
  refine ⟨fun kind => ?_, by decide, fun s hs inv => ?_⟩
  · cases kind <;> exact ⟨_, by decide, rfl⟩
  · have run : exec .readEvent s = .next (readEventBody s.ended) := exec_of_ready hs rfl rfl nofun nofun
    rw [run]
    refine ⟨fun empty => congrArg Host.Outcome.next ?_, fun e rest queue => congrArg Host.Outcome.next ?_⟩
    · have calm : s.events.overflow = false := by
        by_contra set
        exact inv.overflow (by simpa using set) empty
      have read : s.events.readBytes = List.replicate 12 0x00 := by
        simp only [EventQueue.readBytes, empty, calm]
        rfl
      have kept : s.events.afterRead = s.events := by simp only [EventQueue.afterRead, empty]
      show { s.ended with events := s.events.afterRead }.respond 0x60 .ok s.events.readBytes = _
      rw [read, kept]
      rfl
    · have kept : s.events.afterRead =
          { s.events with queue := rest, overflow := if rest = [] then false else s.events.overflow } := by
        cases rest <;> simp [EventQueue.afterRead, queue]
      show { s.ended with events := s.events.afterRead }.respond 0x60 .ok s.events.readBytes = _
      rw [kept]
      simp only [EventQueue.readBytes, queue, EventEntry.bytes, List.append_assoc]
      rfl

end Sys2Proof.Machine
end

section
/-! SET_GEOMETRY while RUNNING, COMMIT_MAP, SET_RING, ADMIT. -/

namespace Sys2Proof.Machine

/-! ### SET_GEOMETRY while RUNNING (R3, R4, R6) -/

theorem geometryOperand_eq_some {n : Byte} {ticks : BitVec 16} (h : 2 ≤ n.toNat ∧ n.toNat ≤ 48 ∧ 500 ≤ ticks.toNat) :
    geometryOperand n ticks = some ⟨n.toNat, ticks.toNat⟩ := if_pos h

theorem geometryOperand_eq_none {n : Byte} {ticks : BitVec 16} (h : ¬ (2 ≤ n.toNat ∧ n.toNat ≤ 48 ∧ 500 ≤ ticks.toNat)) :
    geometryOperand n ticks = none := if_neg h

theorem State.anyInUse_eq_false_iff (s : State) : s.anyInUse = false ↔ ∀ i, (s.entry i).state = .free := by
  simp [State.anyInUse, allEntries]

/-- The conditions of R7, where every entry is FREE. -/
theorem State.geometryHeld_eq_false_iff {s : State} (free : ∀ i, (s.entry i).state = .free) :
    s.geometryHeld = false ↔ s.freeForGeometry := by
  have parts : s.geometryHeld = false ↔
      (∀ p, (s.port p).gate ≠ .enforcing ∧ (s.port p).gate ≠ .failsafe) ∧ s.lock.state = .free := by
    simp [State.geometryHeld, allPorts]
  rw [parts]
  exact ⟨fun ⟨gates, lock⟩ => ⟨free, gates, lock⟩, fun h => ⟨h.gates, h.lock⟩⟩

section
variable {n : Byte} {ticks : BitVec 16}

theorem setGeometryBody_of_bad_operand (h : ¬ (2 ≤ n.toNat ∧ n.toNat ≤ 48 ∧ 500 ≤ ticks.toNat)) (s : State) :
    setGeometryBody n ticks s = s.respond 0x10 .badArgument [] := by
  simp only [setGeometryBody, geometryOperand_eq_none h]

variable (h : 2 ≤ n.toNat ∧ n.toNat ≤ 48 ∧ 500 ≤ ticks.toNat) {s : State}
include h

theorem setGeometryBody_of_inUse (used : ¬ ∀ i, (s.entry i).state = .free) :
    setGeometryBody n ticks s = s.respond 0x10 .inUse [] := by
  have any : s.anyInUse = true := by
    rw [← Bool.not_eq_false, s.anyInUse_eq_false_iff]
    exact used
  simp only [setGeometryBody, geometryOperand_eq_some h, any, if_true]

theorem setGeometryBody_of_held (free : ∀ i, (s.entry i).state = .free) (held : ¬ s.freeForGeometry) :
    setGeometryBody n ticks s = s.respond 0x10 .state [] := by
  have notHeld : s.geometryHeld = true := by
    rw [← Bool.not_eq_false, State.geometryHeld_eq_false_iff free]
    exact held
  simp only [setGeometryBody, geometryOperand_eq_some h, s.anyInUse_eq_false_iff.mpr free, notHeld, if_true,
    Bool.false_eq_true, if_false]

theorem setGeometryBody_of_free (free : s.freeForGeometry) :
    setGeometryBody n ticks s = setGeometryEffect ⟨n.toNat, ticks.toNat⟩ s := by
  simp only [setGeometryBody, geometryOperand_eq_some h, s.anyInUse_eq_false_iff.mpr free.entries,
    (State.geometryHeld_eq_false_iff free.entries).mpr free, Bool.false_eq_true, if_false]

end

theorem State.freeForGeometry.ended {s : State} (h : s.freeForGeometry) : s.ended.freeForGeometry :=
  ⟨h.entries, h.gates, h.lock⟩

/-- Settles O21, by the refusals in their order and the geometry named. -/
theorem setGeometryStagesOrRefuses : Obligations.SetGeometryStagesOrRefuses := by
  intro s n ticks hs valid allFree
  have run : exec (.setGeometry n ticks) s = .next (setGeometryBody n ticks s.ended) := exec_of_ready hs rfl rfl nofun nofun
  rw [run]
  refine ⟨fun h => congrArg Host.Outcome.next (setGeometryBody_of_bad_operand h s.ended),
    fun h used => congrArg Host.Outcome.next (setGeometryBody_of_inUse (s := s.ended) h used),
    fun h free held => congrArg Host.Outcome.next (setGeometryBody_of_held (s := s.ended) h free fun f =>
      held ⟨f.entries, f.gates, f.lock⟩),
    fun h free t ht => ?_⟩
  have running : s.ended.timer = some t := ht
  rw [setGeometryBody_of_free h free.ended, setGeometryEffect, running]
  by_cases same : t.geometry = ⟨n.toNat, ticks.toNat⟩
  · simp only [Timer.stage, same, if_true]
    rfl
  · have other : ¬ (⟨n.toNat, ticks.toNat⟩ : Geometry) = t.geometry := fun e => same e.symm
    simp only [Timer.stage, same, other, if_false]
    rfl

/-! ### COMMIT_MAP (R40) -/

section
variable {port : Byte}

theorem commitMapBody_of_not_port (h : 8 ≤ port.toNat) (s : State) : commitMapBody port s = s.respond 0x21 .badArgument [] := by
  simp only [commitMapBody, portOperand_eq_none h]

variable {p : PortIndex} (hp : p.val = port.toNat) {s : State} (hc : s.cleanTable)
include hp hc

theorem commitMapBody_of_absent (h : (s.mapsOf p).waiting = none) : commitMapBody port s = s.respond 0x21 .notFound [] := by
  simp only [commitMapBody, portOperand_eq_some hp, State.checkPending_of_clean hc, h]

theorem commitMapBody_of_pending {m : PendingMap} (h : (s.mapsOf p).waiting = some m) :
    commitMapBody port s = if s.anyFaulted || allEntries.any (s.losesSlot p m) then s.respond 0x21 .inUse []
      else (s.setMaps p { s.mapsOf p with waiting := some { m with committed := true } }).respond 0x21 .ok [] := by
  simp only [commitMapBody, portOperand_eq_some hp, State.checkPending_of_clean hc, h, State.checkEntries_of_clean hc]

end

theorem State.anyFaulted_iff (s : State) : s.anyFaulted = true ↔ ∃ i, (s.entry i).state = .faulted := by
  simp [State.anyFaulted, allEntries]

/-- Settles O26, by whether a map is pending and whether an entry would lose its slot. -/
theorem commitMapMarksPendingMap : Obligations.CommitMapMarksPendingMap := by
  intro s port hs clean
  have run : exec (.commitMap port) s = .next (commitMapBody port s.ended) := exec_of_ready hs rfl rfl nofun nofun
  rw [run]
  refine ⟨fun h => congrArg Host.Outcome.next (commitMapBody_of_not_port h s.ended), fun p hp =>
    ⟨fun none => congrArg Host.Outcome.next (commitMapBody_of_absent (s := s.ended) hp clean none), fun m some => ?_⟩⟩
  intro losing
  have loses : (s.ended.anyFaulted || allEntries.any (s.ended.losesSlot p m)) = true ↔
      (∃ i, (s.entry i).state = .faulted) ∨ ∃ i, losing i := by
    rw [Bool.or_eq_true, s.ended.anyFaulted_iff]
    refine or_congr Iff.rfl ?_
    simp only [allEntries, List.any_eq_true, List.mem_finRange, true_and, State.losesSlot, Bool.and_eq_true,
      decide_eq_true_eq, Bool.not_eq_true', Bool.and_eq_false_iff, decide_eq_false_iff_not, losing, not_and_or, and_assoc]
    rfl
  rw [commitMapBody_of_pending (s := s.ended) hp clean some]
  refine ⟨fun h => ?_, fun sound keeps => ?_⟩
  · rw [if_pos (loses.mpr h)]
    rfl
  · have stays : ¬ ((∃ i, (s.entry i).state = .faulted) ∨ ∃ i, losing i) := by
      rintro (⟨i, h⟩ | ⟨i, h⟩)
      · exact sound i h
      · exact keeps i h
    rw [if_neg (mt loses.mp stays)]
    rfl

end Sys2Proof.Machine
end

section
/-! SET_RING and ADMIT. -/

namespace Sys2Proof.Machine

/-! ### SET_RING (R102, R103) -/

/-- A check that changes nothing on this state, done for each of a list, changes nothing. -/
theorem foldl_of_fixed {α : Type} {f : State → α → State} {s : State} (h : ∀ a, f s a = s) (l : List α) :
    l.foldl f s = s := by
  induction l with
  | nil => rfl
  | cons a l ih => rw [List.foldl_cons, h, ih]

theorem State.checkOthers_of_clean {s : State} (h : s.cleanTable) (e : RingIndex) : s.checkOthers e = s :=
  foldl_of_fixed (State.checkRing_of_clean h) _

/-- The values that check 1 of R103 accepts, the ring number being one. -/
def RingAccepted (n : Fin 5) (kind : Byte) (base : BitVec 24) (count : BitVec 16) : Prop :=
  ((n.val < 4 ∧ kind.toNat < 2) ∨ (n.val = 4 ∧ kind.toNat = 2))
    ∧ base.toNat % 8 = 0 ∧ 4 ≤ count.toNat ∧ count.toNat ≤ 4096 ∧ base.toNat + 8 * count.toNat ≤ 0x1000000

/-- The kind that a kind byte stands for, where it is accepted. -/
def ringKindOfByte (kind : Byte) : RingKind :=
  if kind = 0x00 then .txMotion else if kind = 0x01 then .txGeneral else .rxSync

theorem ringKindOperand_eq_some {kind : Byte} (h : kind.toNat ≤ 2) : ringKindOperand kind = some (ringKindOfByte kind) := by
  have : kind = 0x00 ∨ kind = 0x01 ∨ kind = 0x02 := by
    rcases (by omega : kind.toNat = 0 ∨ kind.toNat = 1 ∨ kind.toNat = 2) with e | e | e
    · exact .inl (BitVec.eq_of_toNat_eq e)
    · exact .inr (.inl (BitVec.eq_of_toNat_eq e))
    · exact .inr (.inr (BitVec.eq_of_toNat_eq e))
  rcases this with rfl | rfl | rfl <;> rfl

theorem ringKindOperand_eq_none {kind : Byte} (h : ¬ kind.toNat ≤ 2) : ringKindOperand kind = none := by
  have other : kind ≠ 0x00 ∧ kind ≠ 0x01 ∧ kind ≠ 0x02 := by
    refine ⟨?_, ?_, ?_⟩ <;> rintro rfl <;> exact h (by decide)
  unfold ringKindOperand
  rw [if_neg other.1, if_neg other.2.1, if_neg other.2.2]

theorem ringKindOfByte_eq_rxSync_iff {kind : Byte} (h : kind.toNat ≤ 2) : ringKindOfByte kind = .rxSync ↔ kind.toNat = 2 := by
  unfold ringKindOfByte
  split_ifs with zero one
  · subst zero
    decide
  · subst one
    decide
  · have : kind.toNat ≠ 0 ∧ kind.toNat ≠ 1 := ⟨fun e => zero (BitVec.eq_of_toNat_eq e), fun e => one (BitVec.eq_of_toNat_eq e)⟩
    exact ⟨fun _ => by omega, fun _ => rfl⟩

theorem setRingOperand_eq_some {n : Fin 5} {kind : Byte} {base : BitVec 24} {count : BitVec 16}
    (h : RingAccepted n kind base count) :
    setRingOperand n kind base count = some ⟨ringKindOfByte kind, base, count.setWidth 13⟩ := by
  obtain ⟨agree, range⟩ := h
  have small : kind.toNat ≤ 2 := by omega
  have same : ringKindOfByte kind = .rxSync ↔ n.val = 4 := by
    rw [ringKindOfByte_eq_rxSync_iff small]
    omega
  simp only [setRingOperand, ringKindOperand_eq_some small]
  rw [if_pos ⟨same, range⟩]

theorem setRingOperand_eq_none {n : Fin 5} {kind : Byte} {base : BitVec 24} {count : BitVec 16}
    (h : ¬ RingAccepted n kind base count) : setRingOperand n kind base count = none := by
  by_cases small : kind.toNat ≤ 2
  · simp only [setRingOperand, ringKindOperand_eq_some small]
    refine if_neg fun ⟨same, range⟩ => h ⟨?_, range⟩
    rw [ringKindOfByte_eq_rxSync_iff small] at same
    have := n.isLt
    omega
  · simp only [setRingOperand, ringKindOperand_eq_none small]

section
variable {port ring kind : Byte} {base : BitVec 24} {count : BitVec 16}

theorem setRingBody_of_bad_operand
    (h : ¬ (port.toNat < 8 ∧ ∃ n : Fin 5, n.val = ring.toNat ∧ RingAccepted n kind base count)) (s : State) :
    setRingBody port ring kind base count s = s.respond 0x40 .badArgument [] := by
  unfold setRingBody
  by_cases hp : port.toNat < 8
  · by_cases hr : ring.toNat < 5
    · have refused : ¬ RingAccepted ⟨ring.toNat, hr⟩ kind base count := fun ok => h ⟨hp, _, rfl, ok⟩
      simp only [portOperand_eq_some (p := ⟨port.toNat, hp⟩) rfl, ringOperand_eq_some (n := ⟨ring.toNat, hr⟩) rfl,
        setRingOperand_eq_none refused]
    · simp only [portOperand_eq_some (p := ⟨port.toNat, hp⟩) rfl, ringOperand_eq_none (Nat.not_lt.mp hr)]
  · simp only [portOperand_eq_none (Nat.not_lt.mp hp)]

variable {p : PortIndex} {n : Fin 5} (hp : p.val = port.toNat) (hn : n.val = ring.toNat)
  (accepted : RingAccepted n kind base count) {s : State} (hc : s.cleanTable)
include hp hn accepted

theorem setRingBody_of_accepted :
    setRingBody port ring kind base count s = setRingEffect p n ⟨ringKindOfByte kind, base, count.setWidth 13⟩ s := by
  simp only [setRingBody, portOperand_eq_some hp, ringOperand_eq_some hn, setRingOperand_eq_some accepted]

end

section
variable {p : PortIndex} {n : Fin 5} {r : Ring} {s : State}

theorem setRingEffect_of_busy (busy : s.ringBusy p n = true) : setRingEffect p n r s = s.respond 0x40 .state [] :=
  if_pos busy

theorem setRingEffect_of_clean (idle : ¬ s.ringBusy p n = true) (hc : s.cleanTable) :
    setRingEffect p n r s = if s.overlapsOther (ringIndex p n) r then s.respond 0x40 .overlap []
      else ((s.putRing (ringIndex p n) r).setRingValid (ringIndex p n) true).respond 0x40 .ok
        [flagByte (s.ringValid (ringIndex p n))] := by
  simp only [setRingEffect, if_neg idle, State.checkOthers_of_clean hc]

end

theorem State.overlapsOther_iff (s : State) (e : RingIndex) (r : Ring) :
    s.overlapsOther e r = true ↔
      ∃ o, o ≠ e ∧ s.ringValid o = true ∧ r.base.toNat < (s.ring o).limit ∧ (s.ring o).base.toNat < r.limit := by
  simp [State.overlapsOther, Ring.overlaps, allRings, and_assoc]

/-- The words of the ring map entries after one is written. -/
theorem State.ring_putRing {s : State} (h : MemoryInv s) (e : RingIndex) (r : Ring) :
    (s.putRing e r).ring e = r ∧ (∀ k, k < 304 + 2 * e.val ∨ 306 + 2 * e.val ≤ k → (s.putRing e r).word k = s.word k) := by
  have bound : ∀ x ∈ [(ringWord e 0, r.word0), (ringWord e 1, r.word1)], x.1 < 1024 := by
    intro x hx
    simp only [List.mem_cons, List.not_mem_nil, or_false] at hx
    rcases hx with rfl | rfl <;> exact ringWord_lt e (by omega)
  have once : ([(ringWord e 0, r.word0), (ringWord e 1, r.word1)].map Prod.fst).Nodup := by simp [ringWord]
  refine ⟨?_, fun k hk => State.word_putWords_of_notMem h bound fun x hx => ?_⟩
  · have written := fun k d => State.word_putWords_of_mem h bound once (k := k) (d := d)
    unfold State.ring State.putRing
    rw [State.data_cleanWord (written (ringWord e 0) r.word0 (by simp)),
      State.data_cleanWord (written (ringWord e 1) r.word1 (by simp)), unpackRing_pack]
  · simp only [List.mem_cons, List.not_mem_nil, or_false] at hx
    rcases hx with rfl | rfl <;> (dsimp only [ringWord]; omega)

/-- Settles O33, by the refusals in their order. -/
theorem setRingStoresRing : Obligations.SetRingStoresRing := by
  intro s port ring kind base count hs memory clean valid
  have run : exec (.setRing port ring kind base count) s = .next (setRingBody port ring kind base count s.ended) :=
    exec_of_ready hs rfl rfl nofun nofun
  rw [run]
  refine ⟨fun h => congrArg Host.Outcome.next (setRingBody_of_bad_operand ?_ s.ended), fun h e he => ?_⟩
  · rintro ⟨hp, n, hn, agree, range⟩
    exact h ⟨hp, by omega, range⟩
  obtain ⟨portLow, agree, range⟩ := h
  have ringLow : ring.toNat < 5 := by omega
  obtain ⟨p, hp⟩ : ∃ p : PortIndex, p.val = port.toNat := ⟨⟨_, portLow⟩, rfl⟩
  obtain ⟨n, hn⟩ : ∃ n : Fin 5, n.val = ring.toNat := ⟨⟨_, ringLow⟩, rfl⟩
  obtain rfl : e = ringIndex p n := Fin.ext (by rw [he, ← hp, ← hn]; rfl)
  have accepted : RingAccepted n kind base count := ⟨by omega, range⟩
  intro gate busy overlap
  have isBusy : s.ended.ringBusy p n = true ↔ busy := by
    rw [State.ringBusy_iff, hn]
    dsimp only [busy, gate]
    rw [ringPort_ringIndex]
    rfl
  have limit : (⟨ringKindOfByte kind, base, count.setWidth 13⟩ : Ring).limit = base.toNat + 8 * count.toNat := by
    simp only [Ring.limit, BitVec.toNat_setWidth]
    omega
  have overlaps : s.ended.overlapsOther (ringIndex p n) ⟨ringKindOfByte kind, base, count.setWidth 13⟩ = true ↔ overlap := by
    rw [State.overlapsOther_iff, limit]
    rfl
  rw [setRingBody_of_accepted hp hn accepted]
  refine ⟨fun h => congrArg Host.Outcome.next (setRingEffect_of_busy (isBusy.mpr h)), fun idle overlapping => ?_,
    fun idle apart => ⟨_, rfl, ?_⟩⟩
  · rw [setRingEffect_of_clean (mt isBusy.mp idle) clean, if_pos (overlaps.mpr overlapping)]
    rfl
  · rw [setRingEffect_of_clean (mt isBusy.mp idle) clean, if_neg (mt overlaps.mp apart)]
    have frame := State.putWords_frame [(ringWord (ringIndex p n) 0, Ring.word0 ⟨ringKindOfByte kind, base, count.setWidth 13⟩),
      (ringWord (ringIndex p n) 1, Ring.word1 ⟨ringKindOfByte kind, base, count.setWidth 13⟩)] s.ended
    obtain ⟨stored, others⟩ := State.ring_putRing (s := s.ended) memory (ringIndex p n)
      ⟨ringKindOfByte kind, base, count.setWidth 13⟩
    have valids : ∀ o, (((s.ended.putRing (ringIndex p n) ⟨ringKindOfByte kind, base, count.setWidth 13⟩).setRingValid
        (ringIndex p n) true).respond 0x40 .ok [flagByte (s.ended.ringValid (ringIndex p n))]).ringValid o =
        if o = ringIndex p n then true else s.ringValid o := fun o => by
      refine (State.ringValid_setRingValid _ _ o true).trans ?_
      have kept : (s.ended.putRing (ringIndex p n) ⟨ringKindOfByte kind, base, count.setWidth 13⟩).path = s.path :=
        (congrArg State.path frame :)
      rw [State.ringValid, kept]
      rfl
    refine ⟨(valids _).trans (if_pos rfl), fun o ho => (valids o).trans (if_neg ho), ?_, ?_, ?_, others,
      State.respond_link_of_resting (congrArg State.link frame :), ?_⟩
    · exact congrArg Ring.base stored
    · refine (congrArg (fun x : Ring => x.count.toNat) stored).trans ?_
      simp only [BitVec.toNat_setWidth]
      omega
    · exact congrArg Ring.kind stored
    · have whole := congrArg (fun x : State =>
        { x with link := s.link, path := { x.path with ringValid := s.path.ringValid } }) frame
      exact whole

end Sys2Proof.Machine
end

section
/-! ADMIT. -/

namespace Sys2Proof.Machine

/-- The first entry of the table that satisfies a test. -/
theorem find?_allEntries_eq_some {test : EntryIndex → Bool} {i : EntryIndex} :
    allEntries.find? test = some i ↔ test i = true ∧ ∀ j, j < i → test j = false := by
  unfold allEntries
  rw [← Fin.find?_eq_find?_finRange, Fin.find?_eq_some_iff]

theorem find?_allEntries_eq_none {test : EntryIndex → Bool} : allEntries.find? test = none ↔ ∀ i, test i = false := by
  unfold allEntries
  rw [← Fin.find?_eq_find?_finRange, Fin.find?_eq_none_iff]

/-! ### The operands (R66) -/

/-- The values that step 1 of ADMIT accepts, for a geometry of n slots. -/
def AdmitAccepted (n : Nat) (port : Byte) (tag : BitVec 16) (slot : Byte) (len : BitVec 16) (frames : Byte) : Prop :=
  port.toNat < 8 ∧ tag.toNat < 4096 ∧ slot.toNat < n ∧ 60 ≤ len.toNat ∧ len.toNat ≤ 16383 ∧ 1 ≤ frames.toNat ∧ frames.toNat ≤ 4

section
variable {n : Nat} {port : Byte} {tag : BitVec 16} {slot : Byte} {len : BitVec 16} {frames : Byte}

theorem admitOperand_eq_some (h : AdmitAccepted n port tag slot len frames) {p : PortIndex} (hp : p.val = port.toNat) :
    admitOperand n port tag slot len frames = some ⟨p, tag.setWidth 12, slot.toNat, len.toNat, frames.toNat⟩ := by
  obtain ⟨-, htag, hslot, low, high, one, four⟩ := h
  simp only [admitOperand, portOperand_eq_some hp, tagOperand, if_pos htag, if_pos hslot, rangeOperand,
    if_pos (And.intro low high), if_pos (And.intro one four)]
  rfl

theorem admitOperand_eq_none (h : ¬ AdmitAccepted n port tag slot len frames) :
    admitOperand n port tag slot len frames = none := by
  by_contra some
  obtain ⟨a, ha⟩ := Option.ne_none_iff_exists'.mp some
  simp only [admitOperand, Option.bind_eq_bind, Option.bind_eq_some_iff] at ha
  obtain ⟨p, hp, t, ht, rest⟩ := ha
  have portLow : port.toNat < 8 := by
    by_contra out
    rw [portOperand_eq_none (Nat.not_lt.mp out)] at hp
    cases hp
  split_ifs at rest with hk
  · simp only [Option.bind_some, Option.bind_eq_some_iff] at rest
    obtain ⟨l, hl, f, hf, -⟩ := rest
    obtain ⟨low, high⟩ := (Option.ite_none_right_eq_some.mp hl).1
    obtain ⟨one, four⟩ := (Option.ite_none_right_eq_some.mp hf).1
    exact h ⟨portLow, (Option.ite_none_right_eq_some.mp ht).1, hk, low, high, one, four⟩
  · cases rest

/-! ### The steps (R66 to R70) -/

theorem admitBody_of_stopped {s : State} (h : s.timer = none) :
    admitBody port tag slot len frames s = s.respond 0x30 .badArgument [] := by
  simp only [admitBody, h]

variable {s : State} {t : Timer} (ht : s.timer = some t)
include ht

theorem admitBody_of_bad_operand (h : ¬ AdmitAccepted t.geometry.slots port tag slot len frames) :
    admitBody port tag slot len frames s = s.respond 0x30 .badArgument [] := by
  simp only [admitBody, ht, admitOperand_eq_none h]

theorem admitBody_of_clean {a : AdmitRequest} (ha : admitOperand t.geometry.slots port tag slot len frames = some a)
    (hc : s.cleanTable) :
    admitBody port tag slot len frames s =
      if s.duplicate a.port a.tag then s.respond 0x30 .duplicate []
      else if s.slotReserved a.port a.slot then admitPlace a t.geometry s else s.respond 0x30 .slotKind [] := by
  have maps : s.checkSlotMaps a.port a.slot = s := by
    simp only [State.checkSlotMaps, State.checkActive_of_clean hc, State.checkPending_of_clean hc, ite_self]
  simp only [admitBody, ht, ha, State.checkEntries_of_clean hc, maps]

end

section
variable {s : State} {a : AdmitRequest} {g : Geometry}

theorem admitPlace_of_full (h : ∀ i, (s.entry i).state ≠ .free) : admitPlace a g s = s.respond 0x30 .full [] := by
  have none : s.lowestFree = none := find?_allEntries_eq_none.mpr fun i => decide_eq_false (h i)
  simp only [admitPlace, none]

theorem admitPlace_of_clean {i : EntryIndex} (free : (s.entry i).state = .free) (lowest : ∀ j, j < i → (s.entry j).state ≠ .free)
    (hc : s.cleanTable) :
    admitPlace a g s =
      if (s.countedCosts a.port a.slot : Int) + entryCost (s.port a.port).settings a.frames a.maxLength
          ≤ slotBudget g s.lock (s.port a.port).settings a.slot then
        (s.placeEntry i a (entryCost (s.port a.port).settings a.frames a.maxLength)).respond 0x30 .ok
          (byteOf i.val :: beBytes3 (entryCost (s.port a.port).settings a.frames a.maxLength))
      else s.respond 0x30 .noBudget [] := by
  have some : s.lowestFree = some i :=
    find?_allEntries_eq_some.mpr ⟨decide_eq_true free, fun j hj => decide_eq_false (lowest j hj)⟩
  simp only [admitPlace, some, State.checkEntries_of_clean hc]

end

theorem State.duplicate_iff (s : State) (p : PortIndex) {tag : BitVec 16} (h : tag.toNat < 4096) :
    s.duplicate p (tag.setWidth 12) = true ↔
      ∃ i, s.inUse i = true ∧ (s.reservation i).port = p ∧ (s.reservation i).tag.toNat = tag.toNat := by
  have same : ∀ x : StreamTag, x = tag.setWidth 12 ↔ x.toNat = tag.toNat := fun x => by
    rw [← BitVec.toNat_inj, BitVec.toNat_setWidth, Nat.mod_eq_of_lt h]
  simp [State.duplicate, allEntries, same, and_assoc]

theorem State.slotReserved_iff (s : State) (p : PortIndex) (k : Nat) :
    s.slotReserved p k = true ↔ s.activeKind p k = .reserved ∧ s.nextKind p k = .reserved := by
  simp [State.slotReserved]

/-- The cost of an entry of at most 4 frames fits its field. -/
theorem entryCost_lt {set : Settings} {frames len : Nat} (hf : frames ≤ 4) (hl : len ≤ 16383) (hx : set.extra ≤ 32) :
    entryCost set frames len < 2 ^ 23 := by
  have bytes : wireBytes len set.extra ≤ 16439 := by
    unfold wireBytes
    omega
  have time : byteTime set.rate ≤ 800000 := by cases set.rate <;> decide
  have ticks : duration set len ≤ 1315120 := by
    have := Nat.mul_le_mul bytes time
    unfold duration
    omega
  have := Nat.mul_le_mul hf ticks
  unfold entryCost
  omega

/-! ### An answer leaves the blocks -/

section
variable (s : State) (code : Byte) (status : Status) (result : List Byte)

theorem State.entry_respond (i : EntryIndex) : (s.respond code status result).entry i = s.entry i := rfl

theorem State.word_respond (k : Nat) : (s.respond code status result).word k = s.word k := rfl

theorem State.reservation_respond (i : EntryIndex) : (s.respond code status result).reservation i = s.reservation i := rfl

end

/-! ### The placing (R70) -/

/-- A placing writes the entry, its words and the admission order list. -/
theorem placeEntry_frame (s : State) (i : EntryIndex) (a : AdmitRequest) (cost : Nat) :
    { s.placeEntry i a cost with table := s.table, order := s.order
                                 prot := { (s.placeEntry i a cost).prot with memory := s.prot.memory } } = s := by
  have words := State.putWords_frame
    [(entryWord i 0, (newReservation a cost s.cycleNumber).word0), (entryWord i 1, (newReservation a cost s.cycleNumber).word1),
     (entryWord i 2, (newReservation a cost s.cycleNumber).word2), (entryWord i 3, (newReservation a cost s.cycleNumber).word3)]
    (s.updEntry i (fun _ => { Entry.initial with state := .pending }))
  exact congrArg (fun x : State => { x with table := s.table, order := s.order }) words

theorem order_placeEntry (s : State) (i : EntryIndex) (a : AdmitRequest) (cost : Nat) :
    (s.placeEntry i a cost).order = s.order ++ [i] := by
  simp [State.placeEntry]

theorem memory_placeEntry (s : State) (i : EntryIndex) (a : AdmitRequest) (cost : Nat) :
    (s.placeEntry i a cost).prot.memory = (s.putReservation i (newReservation a cost s.cycleNumber)).prot.memory := rfl

section
variable {s : State} (h : MemoryInv s) (i : EntryIndex) (a : AdmitRequest) (cost : Nat)
include h

theorem reservation_placeEntry : (s.placeEntry i a cost).reservation i = newReservation a cost s.cycleNumber := by
  rw [State.reservation_of_memory (memory_placeEntry s i a cost), State.reservation_putReservation h, if_pos rfl]

theorem word_placeEntry {k : Nat} (hk : k < 4 * i.val ∨ 4 * i.val + 4 ≤ k) : (s.placeEntry i a cost).word k = s.word k := by
  rw [State.word_of_prot (memory_placeEntry s i a cost)]
  exact State.word_putEntry h i _ _ _ _ hk

end

/-- Settles O28, by the steps of ADMIT in their order. -/
theorem admitPlacesOrRefuses : Obligations.AdmitPlacesOrRefuses := by
  intro s port tag slot len frames hs memory clean
  have run : exec (.admitStream port tag slot len frames) s = .next (admitBody port tag slot len frames s.ended) :=
    exec_of_ready hs rfl rfl nofun nofun
  rw [run]
  refine ⟨fun stopped => congrArg Host.Outcome.next (admitBody_of_stopped (s := s.ended) stopped), fun t ht => ?_⟩
  have running : s.ended.timer = some t := ht
  intro valid
  refine ⟨fun bad => congrArg Host.Outcome.next (admitBody_of_bad_operand running bad), fun h p hp => ?_⟩
  intro set duplicate reserved cost counted budget
  have body := admitBody_of_clean running (admitOperand_eq_some h hp) clean
  dsimp only at body
  have dup : s.ended.duplicate p (tag.setWidth 12) = true ↔ duplicate := s.ended.duplicate_iff p h.2.1
  have res : s.ended.slotReserved p slot.toNat = true ↔ reserved := s.ended.slotReserved_iff p slot.toNat
  rw [body]
  refine ⟨fun is => ?_, fun fresh other => ?_, fun fresh isReserved full => ?_, fun fresh isReserved i free lowest => ?_⟩
  · rw [if_pos (dup.mpr is)]
    rfl
  · rw [if_neg (mt dup.mp fresh), if_neg (mt res.mp other)]
    rfl
  · rw [if_neg (mt dup.mp fresh), if_pos (res.mpr isReserved), admitPlace_of_full (s := s.ended) full]
    rfl
  · rw [if_neg (mt dup.mp fresh), if_pos (res.mpr isReserved), admitPlace_of_clean (s := s.ended) free lowest clean]
    dsimp only
    rw [show entryCost (s.ended.port p).settings frames.toNat len.toNat = cost from rfl]
    have sum : ((s.ended.countedCosts p slot.toNat : Int) + cost
        ≤ slotBudget t.geometry s.ended.lock (s.ended.port p).settings slot.toNat) ↔ (counted + cost : Int) ≤ budget := Iff.rfl
    refine ⟨fun tooMuch => ?_, fun fits => ⟨_, rfl, ?_⟩⟩
    · rw [if_neg (fun le => absurd (sum.mp le) (not_le.mpr tooMuch))]
      rfl
    · rw [if_pos (sum.mpr fits)]
      have request : newReservation ⟨p, tag.setWidth 12, slot.toNat, len.toNat, frames.toNat⟩ cost s.ended.cycleNumber =
          { port := p, tag := tag.setWidth 12, slot := slot.setWidth 6, frames := frames.setWidth 3
            maxLength := len.setWidth 14, used := 0, misses := 0, overbooked := false, silent := false
            cost := BitVec.ofNat 23 cost, admitted := t.cycle } := by
        have cycle : s.ended.cycleNumber = t.cycle := by simp [State.cycleNumber, running]
        rw [cycle]
        rfl
      have entries := fun j => State.entry_placeEntry s.ended i ⟨p, tag.setWidth 12, slot.toNat, len.toNat, frames.toNat⟩ cost j
      have frame := placeEntry_frame s.ended i ⟨p, tag.setWidth 12, slot.toNat, len.toNat, frames.toNat⟩ cost
      simp only [State.entry_respond, State.word_respond, State.reservation_respond, State.respond_order]
      refine ⟨(entries i).trans (if_pos rfl), fun j hj => (entries j).trans (if_neg hj), ?_,
        fun extra => entryCost_lt h.2.2.2.2.2.2 h.2.2.2.2.1 extra, fun k hk => ?_, ?_, ?_, ?_⟩
      · rw [reservation_placeEntry (s := s.ended) memory, request]
      · exact word_placeEntry (s := s.ended) memory i _ _ hk
      · exact order_placeEntry s.ended i _ _
      · exact State.respond_link_of_resting (congrArg State.link frame :)
      · have whole := congrArg (fun x : State => { x with link := s.link }) frame
        exact whole

end Sys2Proof.Machine
end

section
/-! A management command that is not answered OK has changed nothing but the link (R167). -/

namespace Sys2Proof.Machine

/-- What a body leaves: it has answered OK, or it has only answered. -/
def Refusing (s t : State) : Prop := t.link.record.status = .ok ∨ ∃ code status result, t = s.respond code status result

theorem refusing_respond (s : State) (code : Byte) (status : Status) (result : List Byte) :
    Refusing s (s.respond code status result) := .inr ⟨code, status, result, rfl⟩

theorem refusing_ok (s t : State) (code : Byte) (result : List Byte) : Refusing s (t.respond code .ok result) := .inl rfl

section
variable {s : State}

theorem refusing_setGeometryBody (n : Byte) (ticks : BitVec 16) : Refusing s (setGeometryBody n ticks s) := by
  unfold setGeometryBody
  split
  · exact refusing_respond s _ _ _
  · split_ifs
    · exact refusing_respond s _ _ _
    · exact refusing_respond s _ _ _
    · unfold setGeometryEffect
      split <;> exact refusing_ok s _ _ _

theorem refusing_setSyncBody (p : Byte) (tag : BitVec 16) (phi tol : BitVec 24) (m l : Byte) :
    Refusing s (setSyncBody p tag phi tol m l s) := by
  unfold setSyncBody
  split
  · exact refusing_respond s _ _ _
  · split
    · exact refusing_respond s _ _ _
    · split_ifs
      · exact refusing_ok s _ _ _
      · exact refusing_respond s _ _ _

theorem refusing_loadMapBody (port : Byte) (kinds : List Byte) : Refusing s (loadMapBody port kinds s) := by
  unfold loadMapBody
  split
  · exact refusing_respond s _ _ _
  · split
    · split_ifs
      · exact refusing_ok s _ _ _
      · exact refusing_respond s _ _ _
    · exact refusing_respond s _ _ _

theorem refusing_commitMapBody (hc : s.cleanTable) (port : Byte) : Refusing s (commitMapBody port s) := by
  unfold commitMapBody
  split
  · exact refusing_respond s _ _ _
  · simp only [State.checkPending_of_clean hc]
    split
    · exact refusing_respond s _ _ _
    · simp only [State.checkEntries_of_clean hc]
      split_ifs
      · exact refusing_respond s _ _ _
      · exact refusing_ok s _ _ _

theorem refusing_cancelMapBody (port : Byte) : Refusing s (cancelMapBody port s) := by
  unfold cancelMapBody
  split
  · exact refusing_respond s _ _ _
  · split
    · exact refusing_respond s _ _ _
    · exact refusing_ok s _ _ _

theorem refusing_admitPlace (hc : s.cleanTable) (a : AdmitRequest) (g : Geometry) : Refusing s (admitPlace a g s) := by
  unfold admitPlace
  split
  · exact refusing_respond s _ _ _
  · simp only [State.checkEntries_of_clean hc]
    split_ifs
    · exact refusing_ok s _ _ _
    · exact refusing_respond s _ _ _

theorem refusing_admitBody (hc : s.cleanTable) (port : Byte) (tag : BitVec 16) (slot : Byte) (len : BitVec 16) (frames : Byte) :
    Refusing s (admitBody port tag slot len frames s) := by
  cases ht : s.timer with
  | none =>
    rw [admitBody_of_stopped ht]
    exact refusing_respond s _ _ _
  | some t =>
    cases ha : admitOperand t.geometry.slots port tag slot len frames with
    | none =>
      simp only [admitBody, ht, ha]
      exact refusing_respond s _ _ _
    | some a =>
      rw [admitBody_of_clean ht ha hc]
      split_ifs
      · exact refusing_respond s _ _ _
      · exact refusing_admitPlace hc a _
      · exact refusing_respond s _ _ _

theorem refusing_releaseBody (index : Byte) : Refusing s (releaseBody index s) := by
  unfold releaseBody
  split
  · exact refusing_respond s _ _ _
  · split <;> first | exact refusing_ok s _ _ _ | exact refusing_respond s _ _ _

theorem refusing_purgeBody (index : Byte) : Refusing s (purgeBody index s) := by
  unfold purgeBody
  split
  · exact refusing_respond s _ _ _
  · split <;> first | exact refusing_ok s _ _ _ | exact refusing_respond s _ _ _

theorem refusing_readReservationBody (hc : s.cleanTable) (index : Byte) : Refusing s (readReservationBody index s) := by
  unfold readReservationBody
  split
  · exact refusing_respond s _ _ _
  · simp only [State.checkWords_of_clean hc]
    split
    · exact refusing_ok s _ _ _
    all_goals split_ifs <;> exact refusing_ok s _ _ _

theorem refusing_setRingBody (hc : s.cleanTable) (port ring kind : Byte) (base : BitVec 24) (count : BitVec 16) :
    Refusing s (setRingBody port ring kind base count s) := by
  unfold setRingBody
  split
  · split
    · rename_i p n _ _ _ r _
      by_cases busy : s.ringBusy p n = true
      · rw [setRingEffect_of_busy busy]
        exact refusing_respond s _ _ _
      · rw [setRingEffect_of_clean busy hc]
        split_ifs
        · exact refusing_respond s _ _ _
        · exact refusing_ok s _ _ _
    · exact refusing_respond s _ _ _
  · exact refusing_respond s _ _ _

theorem refusing_clearRingBody (port ring : Byte) : Refusing s (clearRingBody port ring s) := by
  unfold clearRingBody
  split
  · split_ifs
    · exact refusing_respond s _ _ _
    · exact refusing_ok s _ _ _
    · exact refusing_respond s _ _ _
  · exact refusing_respond s _ _ _

theorem refusing_setMemoryBody (limit : BitVec 16) : Refusing s (setMemoryBody limit s) := by
  unfold setMemoryBody
  split
  · exact refusing_respond s _ _ _
  · exact refusing_ok s _ _ _

theorem refusing_setPortBody (port : Byte) (new : Option Settings) : Refusing s (setPortBody port new s) := by
  unfold setPortBody
  split
  · exact refusing_ok s _ _ _
  · exact refusing_respond s _ _ _

theorem refusing_portEnforceBody (port : Byte) : Refusing s (portEnforceBody port s) := by
  unfold portEnforceBody
  split
  · exact refusing_respond s _ _ _
  · split_ifs
    · exact refusing_respond s _ _ _
    · exact refusing_ok s _ _ _

theorem refusing_parkBody (code : Byte) (g : GateState) (port : Byte) : Refusing s (parkBody code g port s) := by
  unfold parkBody
  split
  · exact refusing_respond s _ _ _
  · exact refusing_ok s _ _ _

theorem refusing_readPortBody (port selector : Byte) : Refusing s (readPortBody port selector s) := by
  unfold readPortBody
  split
  · exact refusing_respond s _ _ _
  · split_ifs
    · exact refusing_ok s _ _ _
    · exact refusing_ok s _ _ _
    · exact refusing_respond s _ _ _

theorem refusing_setEventsBody (mask : BitVec 32) (enable : Byte) : Refusing s (setEventsBody mask enable s) := by
  unfold setEventsBody
  split
  · exact refusing_ok s _ _ _
  · exact refusing_respond s _ _ _

theorem refusing_clearCountersBody (selector index : Byte) : Refusing s (clearCountersBody selector index s) := by
  unfold clearCountersBody
  split_ifs
  · split
    · exact refusing_ok s _ _ _
    · exact refusing_respond s _ _ _
  · split
    · exact refusing_ok s _ _ _
    · exact refusing_respond s _ _ _
  · exact refusing_ok s _ _ _
  · exact refusing_respond s _ _ _

end

/-- Every body answers OK or only answers, where no bit of table memory is wrong. A command without a body leaves the state. -/
theorem refusing_commandBody (c : Instr) {s : State} (hc : s.cleanTable) :
    Refusing s (commandBody c s) ∨ commandBody c s = s := by
  cases c
  case setGeometry n t => exact .inl (refusing_setGeometryBody n t)
  case setSync p t phi tol m l => exact .inl (refusing_setSyncBody p t phi tol m l)
  case loadMap p ks => exact .inl (refusing_loadMapBody p ks)
  case commitMap p => exact .inl (refusing_commitMapBody hc p)
  case cancelMap p => exact .inl (refusing_cancelMapBody p)
  case admitStream p t k l f => exact .inl (refusing_admitBody hc p t k l f)
  case release i => exact .inl (refusing_releaseBody i)
  case purge i => exact .inl (refusing_purgeBody i)
  case readReservation i => exact .inl (refusing_readReservationBody hc i)
  case setRing p r k b n => exact .inl (refusing_setRingBody hc p r k b n)
  case clearRing p r => exact .inl (refusing_clearRingBody p r)
  case setMemory l => exact .inl (refusing_setMemoryBody l)
  case setPort p r x lead g m f q k u st si => exact .inl (refusing_setPortBody p _)
  case portEnforce p => exact .inl (refusing_portEnforceBody p)
  case portHold p => exact .inl (refusing_parkBody _ _ p)
  case portTransparent p => exact .inl (refusing_parkBody _ _ p)
  case readPort p x => exact .inl (refusing_readPortBody p x)
  case readEvent => exact .inl (refusing_ok s _ _ _)
  case setEvents m e => exact .inl (refusing_setEventsBody m e)
  case clearCounters x i => exact .inl (refusing_clearCountersBody x i)
  all_goals exact .inr rfl

/-- Settles O55: what the link itself does changes the link alone, and a body that refuses has only answered. -/
theorem refusedCommandChangesNothing : Obligations.RefusedCommandChangesNothing := by
  intro c s t hm clean run refused
  rw [exec_eq_takeCommand hm] at run
  obtain rfl := Host.Outcome.next.inj run
  rcases takeCommand_cases c s with ⟨l, same⟩ | ⟨-, -, body⟩
  · rw [same]
  · rw [body] at refused ⊢
    rcases refusing_commandBody c (s := s.endTransaction) clean with (ok | ⟨code, status, result, answered⟩) | same
    · exact absurd ok refused
    · rw [answered]
      rfl
    · rw [same]
      rfl

end Sys2Proof.Machine
end

section
/-! Slot maps: packing, LOAD_MAP, and the maps that a geometry or a cycle boundary puts in force one port after the other. -/

namespace Sys2Proof.Machine

/-! ### Kinds in words (R35, R151) -/

theorem kindOfCode_kindCode (k : SlotKind) : kindOfCode (kindCode k) = k := by
  cases k <;> rfl

/-- The bits of packed kinds: a place past the list holds those of OPEN. -/
theorem getLsbD_packKinds (l : List SlotKind) {i b : Nat} (hi : i < 16) (hb : b < 2) :
    (packKinds l).getLsbD (2 * i + b) = (kindCode (l[i]?.getD .openSlot)).getLsbD b := by
  induction l generalizing i with
  | nil => simp [packKinds, kindCode]
  | cons k l ih =>
    have inWord : 2 * i + b < 32 := by omega
    cases i with
    | zero =>
      have low : b < 32 := by omega
      simp [packKinds, hb, low]
    | succ i =>
      have place : 2 * (i + 1) + b - 2 = 2 * i + b := by omega
      have high : ¬ 2 * (i + 1) + b < 2 := by omega
      have code : (kindCode k).getLsbD (2 * (i + 1) + b) = false := BitVec.getLsbD_of_ge _ _ (by omega)
      simp only [packKinds, BitVec.getLsbD_or, BitVec.getLsbD_shiftLeft, BitVec.getLsbD_setWidth, inWord, high, place, code,
        ih (i := i) (by omega), decide_true, decide_false, Bool.not_false, Bool.true_and, Bool.and_false, Bool.or_false]
      rfl

/-- A kind is read back from packed kinds. -/
theorem kindInWord_packKinds (l : List SlotKind) {i : Nat} (hi : i < 16) :
    kindInWord (packKinds l) i = l[i]?.getD .openSlot := by
  have code : ((packKinds l) >>> (2 * i)).setWidth 2 = kindCode (l[i]?.getD .openSlot) := by
    apply BitVec.eq_of_getLsbD_eq
    intro b hb
    simp only [BitVec.getLsbD_setWidth, hb, decide_true, Bool.true_and, BitVec.getLsbD_ushiftRight,
      getLsbD_packKinds l hi hb]
  rw [kindInWord, code, kindOfCode_kindCode]

/-- A kind is read back from the words of a map. -/
theorem kindInWord_mapWord (kinds : List SlotKind) (k : Nat) :
    kindInWord (mapWord kinds (k / 16)) (k % 16) = kinds[k]?.getD .openSlot := by
  have low := Nat.mod_lt k (by omega : 0 < 16)
  rw [mapWord, kindInWord_packKinds _ low, List.getElem?_take_of_lt low, List.getElem?_drop, Nat.div_add_mod]

/-! ### The words of a map written -/

/-- The three words of a map written from word `a` on. -/
def State.putMap (s : State) (a : Nat) (kinds : List SlotKind) : State :=
  s.putWords [(a, mapWord kinds 0), (a + 1, mapWord kinds 1), (a + 2, mapWord kinds 2)]

theorem State.putMap_frame (s : State) (a : Nat) (kinds : List SlotKind) :
    { s.putMap a kinds with prot := { (s.putMap a kinds).prot with memory := s.prot.memory } } = s :=
  State.putWords_frame _ s

theorem putActive_eq_putMap (s : State) (p : PortIndex) (kinds : List SlotKind) :
    s.putActive p kinds = s.putMap (256 + 3 * p.val) kinds := rfl

theorem putPending_eq_putMap (s : State) (p : PortIndex) (kinds : List SlotKind) :
    s.putPending p kinds = s.putMap (280 + 3 * p.val) kinds := rfl

section
variable {s : State} (h : MemoryInv s) {a : Nat} (ha : a + 2 < 1024) (kinds : List SlotKind)
include h ha

theorem State.word_putMap {j : Nat} (hj : j < 3) : (s.putMap a kinds).word (a + j) = cleanWord (mapWord kinds j) := by
  refine State.word_putWords_of_mem h ?_ (by simp) ?_
  · intro x hx
    simp only [List.mem_cons, List.not_mem_nil, or_false] at hx
    rcases hx with rfl | rfl | rfl <;> (dsimp only; omega)
  · obtain rfl | rfl | rfl : j = 0 ∨ j = 1 ∨ j = 2 := by omega
    all_goals simp

theorem State.word_putMap_of_other {k : Nat} (hk : k < a ∨ a + 3 ≤ k) : (s.putMap a kinds).word k = s.word k := by
  refine State.word_putWords_of_notMem h ?_ ?_
  all_goals
    intro x hx
    simp only [List.mem_cons, List.not_mem_nil, or_false] at hx
    rcases hx with rfl | rfl | rfl <;> (dsimp only; omega)

theorem State.kind_putMap {k : Nat} (hk : k < 48) :
    kindInWord ((s.putMap a kinds).data (a + k / 16)) (k % 16) = kinds[k]?.getD .openSlot := by
  rw [State.data_cleanWord (State.word_putMap h ha kinds (by omega)), kindInWord_mapWord]

theorem State.wf_putMap : MemoryInv (s.putMap a kinds) := by
  refine State.wf_putWords ?_ h
  intro x hx
  simp only [List.mem_cons, List.not_mem_nil, or_false] at hx
  rcases hx with rfl | rfl | rfl <;> (dsimp only; omega)

theorem State.clean_putMap (hc : s.cleanTable) : (s.putMap a kinds).cleanTable := by
  refine State.cleanTable_putWords hc h ?_
  intro x hx
  simp only [List.mem_cons, List.not_mem_nil, or_false] at hx
  rcases hx with rfl | rfl | rfl <;> (dsimp only; omega)

end

/-! ### LOAD_MAP (R39) -/

/-- The kind that an accepted kind byte stands for. -/
def kindOfByte (b : Byte) : SlotKind := if b = 0x00 then .openSlot else if b = 0x01 then .reserved else .closed

theorem kindOperand_eq_some {b : Byte} (h : b.toNat ≤ 2) : kindOperand b = some (kindOfByte b) := by
  have : b = 0x00 ∨ b = 0x01 ∨ b = 0x02 := by
    rcases (by omega : b.toNat = 0 ∨ b.toNat = 1 ∨ b.toNat = 2) with e | e | e
    · exact .inl (BitVec.eq_of_toNat_eq e)
    · exact .inr (.inl (BitVec.eq_of_toNat_eq e))
    · exact .inr (.inr (BitVec.eq_of_toNat_eq e))
  rcases this with rfl | rfl | rfl <;> rfl

theorem kindOperand_eq_none {b : Byte} (h : ¬ b.toNat ≤ 2) : kindOperand b = none := by
  have other : b ≠ 0x00 ∧ b ≠ 0x01 ∧ b ≠ 0x02 := by
    refine ⟨?_, ?_, ?_⟩ <;> rintro rfl <;> exact h (by decide)
  unfold kindOperand
  rw [if_neg other.1, if_neg other.2.1, if_neg other.2.2]

theorem kindsOperand_eq_some {kinds : List Byte} (h : ∀ b ∈ kinds, b.toNat ≤ 2) :
    kindsOperand kinds = some (kinds.map kindOfByte) := by
  induction kinds with
  | nil => rfl
  | cons b bs ih =>
    rw [List.forall_mem_cons] at h
    simp only [kindsOperand, kindOperand_eq_some h.1, ih h.2, List.map_cons]

theorem kindsOperand_eq_none {kinds : List Byte} (h : ¬ ∀ b ∈ kinds, b.toNat ≤ 2) : kindsOperand kinds = none := by
  induction kinds with
  | nil => simp at h
  | cons b bs ih =>
    rw [List.forall_mem_cons, not_and_or] at h
    rcases h with bad | bad
    · simp only [kindsOperand, kindOperand_eq_none bad]
    · simp only [kindsOperand, ih bad]
      cases kindOperand b <;> rfl

section
variable {port : Byte} {kinds : List Byte} {s : State}

theorem loadMapBody_of_stopped (h : s.timer = none) : loadMapBody port kinds s = s.respond 0x20 .state [] := by
  simp only [loadMapBody, h]

variable {t : Timer} (ht : s.timer = some t)
include ht

theorem loadMapBody_of_bad_operand (h : ¬ (port.toNat < 8 ∧ ∀ b ∈ kinds, b.toNat ≤ 2)) :
    loadMapBody port kinds s = s.respond 0x20 .badArgument [] := by
  rw [not_and_or, not_lt] at h
  rcases h with bad | bad
  · simp only [loadMapBody, ht, portOperand_eq_none bad]
  · simp only [loadMapBody, ht, kindsOperand_eq_none bad]
    cases portOperand port <;> rfl

theorem loadMapBody_of_accepted {p : PortIndex} (hp : p.val = port.toNat) (h : ∀ b ∈ kinds, b.toNat ≤ 2) :
    loadMapBody port kinds s =
      if kinds.length = t.mapLength then
        ((s.putMap (280 + 3 * p.val) (kinds.map kindOfByte)).setMaps p
          { s.mapsOf p with waiting := some ⟨kinds.length, false⟩ }).respond 0x20 .ok [replacedByte (s.mapsOf p).waiting]
      else s.respond 0x20 .slotCount [] := by
  simp only [loadMapBody, ht, portOperand_eq_some hp, kindsOperand_eq_some h, List.length_map, putPending_eq_putMap]

end

/-- Settles O25, by the refusals in their order. -/
theorem loadMapStoresPendingMap : Obligations.LoadMapStoresPendingMap := by
  intro s port kinds hs memory low high
  have run : exec (.loadMap port kinds) s = .next (loadMapBody port kinds s.ended) :=
    exec_of_ready hs rfl (decide_eq_true ⟨low, high⟩) nofun nofun
  rw [run]
  refine ⟨fun stopped => congrArg Host.Outcome.next (loadMapBody_of_stopped (s := s.ended) stopped), fun t ht => ?_⟩
  have running : s.ended.timer = some t := ht
  intro valid n
  refine ⟨fun bad => congrArg Host.Outcome.next (loadMapBody_of_bad_operand running bad), fun ok length => ?_,
    fun ok length p hp => ⟨_, rfl, ?_⟩⟩
  · rw [loadMapBody_of_accepted running (p := ⟨port.toNat, ok.1⟩) rfl ok.2, if_neg (show kinds.length ≠ t.mapLength from length)]
    rfl
  · rw [loadMapBody_of_accepted running hp ok.2, if_pos (show kinds.length = t.mapLength from length)]
    have range : 280 + 3 * p.val + 2 < 1024 := by omega
    have frame := State.putMap_frame s.ended (280 + 3 * p.val) (kinds.map kindOfByte)
    have kept : (s.ended.putMap (280 + 3 * p.val) (kinds.map kindOfByte)).maps = s.ended.maps :=
      (congrArg State.maps frame :)
    have maps : ∀ q, (((s.ended.putMap (280 + 3 * p.val) (kinds.map kindOfByte)).setMaps p
        { s.ended.mapsOf p with waiting := some ⟨kinds.length, false⟩ }).respond 0x20 .ok
          [replacedByte (s.ended.mapsOf p).waiting]).mapsOf q =
        if q = p then { s.mapsOf p with waiting := some ⟨kinds.length, false⟩ } else s.mapsOf q := fun q => by
      refine (State.mapsOf_setMaps _ p q _).trans ?_
      rw [State.mapsOf_of_maps kept]
      rfl
    refine ⟨(maps p).trans (if_pos rfl), fun q hq => (maps q).trans (if_neg hq), fun k hk => ?_, fun k hk => ?_, ?_, ?_⟩
    · refine (State.kind_putMap (s := s.ended) memory range (kinds.map kindOfByte) (by omega)).trans ?_
      rw [List.getElem?_map, List.getElem?_eq_getElem hk]
      rfl
    · exact State.word_putMap_of_other (s := s.ended) memory range (kinds.map kindOfByte) (by omega)
    · refine (State.respond_link_of_resting (congrArg State.link frame :)).trans ?_
      show restingLink ⟨_, _, [replacedByte (s.mapsOf p).waiting]⟩ = _
      unfold replacedByte
      rfl
    · have whole := congrArg (fun x : State => { x with link := s.link, maps := s.maps }) frame
      exact whole

end Sys2Proof.Machine
end

section
/-! The descriptor path where no bit of table memory is wrong: requests in their turn, and responses. -/

namespace Sys2Proof.Machine

/-! ### Requests that wait -/

/-- The requests that wait, replaced. -/
def State.waits (s : State) (w : List Request) : State := { s with path := { s.path with waiting := w } }

theorem Path.accepts_iff (p : Path) (tag : Tag) :
    p.accepts tag = true ↔
      p.inFlight.length < 4 ∧ (∀ r ∈ p.inFlight, r.tag ≠ tag) ∧ ∀ q ∈ p.quarantine, q.tag ≠ tag := by
  simp [Path.accepts, Path.inList, Path.quarantined, and_assoc]

theorem Ring.statusWord_iff (r : Ring) (a : Address) :
    r.statusWord a = true ↔ r.base.toNat ≤ a.toNat ∧ a.toNat < r.base.toNat + 8 * r.count.toNat ∧
      (a.toNat - r.base.toNat) % 8 = 0 := by
  simp only [Ring.statusWord, Bool.and_eq_true, decide_eq_true_eq, and_assoc]
  rfl

theorem State.recognises_iff (s : State) (a : Address) (e : RingIndex) :
    s.recognises a e = true ↔ s.ringValid e = true ∧ (s.ring e).kind ≠ .rxSync ∧ (s.ring e).base.toNat ≤ a.toNat ∧
      a.toNat < (s.ring e).base.toNat + 8 * (s.ring e).count.toNat ∧ (a.toNat - (s.ring e).base.toNat) % 8 = 0 := by
  simp only [State.recognises, Bool.and_eq_true, decide_eq_true_eq, Ring.statusWord_iff, and_assoc]

theorem mem_transmitRings (e : RingIndex) : e ∈ transmitRings ↔ e.val % 5 ≠ 4 := by
  simp [transmitRings, isReceiveRing, allRings, List.mem_finRange]

/-- The ring that recognises an address is a valid transmit ring with the address as a status word. -/
theorem State.recognise_eq_some {s : State} {a : Address} {e : RingIndex} (h : s.recognise a = some e) :
    e.val % 5 ≠ 4 ∧ s.recognises a e = true :=
  ⟨(mem_transmitRings e).mp (List.mem_of_find?_eq_some h), List.find?_some h⟩

theorem State.recognise_eq_none {s : State} {a : Address} (h : s.recognise a = none) {e : RingIndex} (he : e.val % 5 ≠ 4) :
    ¬ s.recognises a e = true := by
  have := List.find?_eq_none.mp h e ((mem_transmitRings e).mpr he)
  simpa using this

/-! ### Requests that pass, where no bit is wrong -/

section
variable {s : State} (hc : s.cleanTable)
include hc

theorem State.checkTransmitRings_of_clean : s.checkTransmitRings = s :=
  foldl_of_fixed (State.checkRing_of_clean hc) _

theorem State.checkSync_of_clean : s.checkSync = s := by
  unfold State.checkSync
  split
  · rfl
  · exact State.checkRing_of_clean hc _

theorem State.acceptRead_of_clean (tag : Tag) (a : Address) :
    s.acceptRead tag a = { s with path := { s.path with
      inFlight := s.path.inFlight ++ [⟨tag, a, s.time, s.path.responseLimit, s.recognise a⟩]
      toMemory := s.path.toMemory ++ [.read tag a] } } := by
  rw [State.acceptRead, State.checkTransmitRings_of_clean hc]
  rfl

theorem State.observeWrite_of_clean (a : Address) (data : Word) (lanes : BitVec 4) :
    s.observeWrite a data lanes =
      match s.timer with
      | none => s
      | some t => if s.isMark a data lanes then { s with lock := s.lock.takeMark t s.time } else s := by
  rw [State.observeWrite, State.checkSync_of_clean hc]
  rfl

theorem State.observeWrite_of_clean_waits (w : List Request) (a : Address) (data : Word) (lanes : BitVec 4) :
    (s.waits w).observeWrite a data lanes = (s.observeWrite a data lanes).waits w := by
  rw [State.observeWrite_of_clean hc, State.observeWrite_of_clean (s := s.waits w) hc]
  show (match s.timer with
    | none => s.waits w
    | some t => if s.isMark a data lanes then { s.waits w with lock := s.lock.takeMark t s.time } else s.waits w) = _
  cases timer : s.timer with
  | none => rfl
  | some t => split_ifs <;> (unfold State.waits; simp only [timer])

theorem State.clean_observeWrite (a : Address) (data : Word) (lanes : BitVec 4) :
    (s.observeWrite a data lanes).cleanTable := by
  rw [State.observeWrite_of_clean hc]
  cases s.timer with
  | none => exact hc
  | some t => dsimp only; split_ifs <;> exact hc

end

/-- What waits behind does not matter to the requests that pass. -/
theorem passRequests_waits (l : List Request) {s : State} (hc : s.cleanTable) (w : List Request) :
    passRequests l (s.waits w) = ((passRequests l s).1, (passRequests l s).2.waits w) := by
  induction l generalizing s with
  | nil => rfl
  | cons r l ih =>
    cases r with
    | read tag a =>
      have same : (s.waits w).path.accepts tag = s.path.accepts tag := rfl
      simp only [passRequests, same]
      split_ifs
      · have moved : (s.waits w).acceptRead tag a = (s.acceptRead tag a).waits w := by
          rw [State.acceptRead_of_clean hc, State.acceptRead_of_clean (s := s.waits w) hc]
          rfl
        rw [moved]
        refine ih ?_
        rw [State.acceptRead_of_clean hc]
        exact hc
      · rfl
    | write tag a data lanes =>
      simp only [passRequests]
      have moved : (s.waits w).passWrite tag a data lanes = (s.passWrite tag a data lanes).waits w :=
        State.observeWrite_of_clean_waits (s := (s.updPath (fun p => { p with
          toMemory := p.toMemory ++ [.write tag a data lanes] })).removeHold (descriptorAddress a)) hc w a data lanes
      rw [moved]
      exact ih (State.clean_observeWrite (s := (s.updPath _).removeHold _) hc a data lanes)

/-- A write at the head passes, and the requests behind it have their turn. -/
theorem State.drain_of_write {s : State} (hc : s.cleanTable) {tag : Tag} {a : Address} {data : Word} {lanes : BitVec 4}
    {rest : List Request} (hw : s.path.waiting = .write tag a data lanes :: rest) :
    s.drain = ((s.passWrite tag a data lanes).waits rest).drain := by
  have clean : (s.passWrite tag a data lanes).cleanTable :=
    State.clean_observeWrite (s := (s.updPath _).removeHold _) hc a data lanes
  have turn := passRequests_waits rest clean rest
  have behind : ((s.passWrite tag a data lanes).waits rest).path.waiting = rest := rfl
  simp only [State.drain, hw, behind, passRequests, turn]
  rfl

/-- A read at the head that is accepted passes, and the requests behind it have their turn. -/
theorem State.drain_of_read {s : State} (hc : s.cleanTable) {tag : Tag} {a : Address} {rest : List Request}
    (hw : s.path.waiting = .read tag a :: rest) (ok : s.path.accepts tag = true) :
    s.drain = ((s.acceptRead tag a).waits rest).drain := by
  have clean : (s.acceptRead tag a).cleanTable := by rw [State.acceptRead_of_clean hc]; exact hc
  have turn := passRequests_waits rest clean rest
  have behind : ((s.acceptRead tag a).waits rest).path.waiting = rest := rfl
  simp only [State.drain, hw, behind, passRequests, ok, if_true, turn]
  rfl

theorem State.drain_of_empty {s : State} (hw : s.path.waiting = []) : s.drain = s := by
  have same : s.waits [] = s := by unfold State.waits; rw [← hw]
  simp only [State.drain, hw, passRequests]
  exact same

/-- Behind a read that is not accepted everything waits. -/
theorem State.drain_of_refused {s : State} {tag : Tag} {a : Address} {rest : List Request}
    (hw : s.path.waiting = .read tag a :: rest) (no : ¬ s.path.accepts tag = true) : s.drain = s := by
  have same : s.waits (.read tag a :: rest) = s := by unfold State.waits; rw [← hw]
  simp only [State.drain, hw, passRequests, no]
  exact same

theorem readAccepted_of_released {s : State} (h : s.resetAsserted = false) (tag : Tag) (a : Address) :
    readAccepted tag a s = (s.waits (s.path.waiting ++ [.read tag a])).drain := by
  unfold readAccepted State.present
  rw [h]
  rfl

theorem controllerWrite_of_released {s : State} (h : s.resetAsserted = false) (tag : Tag) (a : Address) (data : Word)
    (lanes : BitVec 4) :
    controllerWrite tag a data lanes s = (s.waits (s.path.waiting ++ [.write tag a data lanes])).drain := by
  unfold controllerWrite State.present
  rw [h]
  rfl

/-- Settles O36, by what stands at the head of the requests that wait. -/
theorem readIsAcceptedOrWaits : Obligations.ReadIsAcceptedOrWaits := by
  intro s tag a free waits accepted recognised
  have accepts : s.path.accepts tag = true ↔ free := s.path.accepts_iff tag
  have run : s.resetAsserted = false → ∀ tag a, exec (.readAccepted tag a) s = .next (waits (s.path.waiting ++ [.read tag a])).drain :=
    fun released tag a => congrArg Host.Outcome.next (readAccepted_of_released released tag a)
  have known : recognised (s.recognise a) := by
    refine ⟨fun e he => ?_, fun none e valid transmit kind low high => ?_⟩
    · obtain ⟨transmit, is⟩ := State.recognise_eq_some he
      obtain ⟨valid, kind, low, high, place⟩ := (s.recognises_iff a e).mp is
      exact ⟨valid, transmit, kind, low, high, place⟩
    · intro place
      exact State.recognise_eq_none none transmit ((s.recognises_iff a e).mpr ⟨valid, kind, low, high, place⟩)
  refine ⟨fun released => run released tag a, fun empty => State.drain_of_empty empty, fun rest hw no => ⟨?_, ?_⟩,
    fun clean rest hw ok => ⟨_, ?_, known⟩, fun released empty clean => ⟨fun no => ?_, fun ok => ⟨_, ?_, known⟩⟩⟩
  · exact State.drain_of_refused hw (mt accepts.mp no)
  · intro released tag' a'
    rw [run released]
    refine congrArg Host.Outcome.next (State.drain_of_refused (a := a) (rest := rest ++ [.read tag' a']) ?_ (mt accepts.mp no))
    show s.path.waiting ++ [.read tag' a'] = _
    rw [hw]
    rfl
  · rw [State.drain_of_read clean hw (accepts.mpr ok), State.acceptRead_of_clean clean]
    rfl
  · rw [run released, empty]
    exact congrArg Host.Outcome.next (State.drain_of_refused (s := s.waits [.read tag a]) rfl (mt accepts.mp no))
  · have alone := State.drain_of_read (s := s.waits [.read tag a]) clean rfl (accepts.mpr ok)
    rw [run released, empty]
    refine congrArg Host.Outcome.next (alone.trans ?_)
    rw [State.drain_of_empty rfl, State.acceptRead_of_clean (s := s.waits [.read tag a]) clean]
    rfl

/-! ### Writes -/

/-- The tests of R17 on a write. -/
theorem State.isMark_iff (s : State) (a : Address) (data : Word) (lanes : BitVec 4) :
    s.isMark a data lanes = true ↔ ∃ p e, s.lock.port = some p ∧ e = ringIndex p 4 ∧ s.ringValid e = true ∧
      (s.ring e).kind = .rxSync ∧ (s.ring e).base.toNat ≤ a.toNat ∧
      a.toNat < (s.ring e).base.toNat + 8 * (s.ring e).count.toNat ∧ (a.toNat - (s.ring e).base.toNat) % 8 = 0 ∧
      lanes.getLsbD 3 = true ∧ lanes.getLsbD 2 = true ∧ data.getLsbD 31 = true ∧ data.extractLsb' 16 12 = s.lock.tag := by
  cases hp : s.lock.port with
  | none => simp [State.isMark, Lock.ring, hp]
  | some p =>
    simp only [State.isMark, Lock.ring, hp, Option.map_some, Bool.and_eq_true, decide_eq_true_eq, Ring.statusWord_iff,
      and_assoc, Option.some.injEq]
    constructor
    · exact fun h => ⟨p, _, rfl, rfl, h⟩
    · rintro ⟨_, _, rfl, rfl, h⟩
      exact h

/-- The descriptor of an access lies at its address with the low three bits cleared. -/
theorem eq_descriptorAddress_iff (x a : Address) :
    x = descriptorAddress a ↔ x.toNat / 8 = a.toNat / 8 ∧ x.toNat % 8 = 0 := by
  have value : (descriptorAddress a).toNat = a.toNat / 8 * 8 := by
    have shape : descriptorAddress a = (a >>> 3) <<< 3 := by
      unfold descriptorAddress
      ext i hi
      simp only [BitVec.getElem_and, BitVec.getElem_shiftLeft]
      interval_cases i <;> simp
    rw [shape, BitVec.toNat_shiftLeft, BitVec.toNat_ushiftRight, Nat.shiftLeft_eq, Nat.shiftRight_eq_div_pow]
    have := a.isLt
    omega
  rw [← BitVec.toNat_inj, value]
  omega

/-- The state after a write that is no mark: it goes to memory, and the hold record of its descriptor goes. -/
def State.written (s : State) (tag : Tag) (a : Address) (data : Word) (lanes : BitVec 4) (rest : List Request) : State :=
  { s with
    path := { s.path with waiting := rest, toMemory := s.path.toMemory ++ [.write tag a data lanes] }
    holds := { s.holds with records := s.holds.records.filter (fun r => decide (r.address.toNat / 8 ≠ a.toNat / 8
      ∨ r.address.toNat % 8 ≠ 0)) } }

/-- What a write does where it meets the tests of R17, and where it does not. -/
theorem State.passWrite_of_clean {s : State} (hc : s.cleanTable) (tag : Tag) (a : Address) (data : Word) (lanes : BitVec 4)
    (rest : List Request) :
    (s.passWrite tag a data lanes).waits rest =
      match s.timer with
      | none => s.written tag a data lanes rest
      | some t =>
          if s.isMark a data lanes then { s.written tag a data lanes rest with lock := s.lock.takeMark t s.time }
          else s.written tag a data lanes rest := by
  have gone : s.holds.records.filter (fun r => decide (r.address ≠ descriptorAddress a)) =
      s.holds.records.filter (fun r => decide (r.address.toNat / 8 ≠ a.toNat / 8 ∨ r.address.toNat % 8 ≠ 0)) := by
    refine List.filter_congr fun r _ => ?_
    rw [decide_eq_decide, ne_eq, eq_descriptorAddress_iff, not_and_or]
  rw [State.passWrite, State.observeWrite_of_clean (s := (s.updPath _).removeHold _) hc, State.removeHold, State.keepHolds]
  dsimp only [State.updPath]
  rw [gone]
  cases timer : s.timer with
  | none => simp only [State.waits, State.written, timer]
  | some t =>
    show State.waits (if s.isMark a data lanes then _ else _) rest = _
    split_ifs <;> simp only [State.waits, State.written, timer]

/-- Settles O37: a write at the head passes, and is a mark or not. -/
theorem writePassesAndIsSeen : Obligations.WritePassesAndIsSeen := by
  intro s tag a data lanes waits passed isMark
  have marks : s.isMark a data lanes = true ↔ isMark := s.isMark_iff a data lanes
  have run : s.resetAsserted = false →
      exec (.controllerWrite tag a data lanes) s = .next (waits (s.path.waiting ++ [.write tag a data lanes])).drain :=
    fun released => congrArg Host.Outcome.next (controllerWrite_of_released released tag a data lanes)
  have unmarked : s.cleanTable → (¬ isMark ∨ s.timer = none) → ∀ rest,
      (s.passWrite tag a data lanes).waits rest = passed rest := fun clean no rest => by
    rw [State.passWrite_of_clean clean]
    cases ht : s.timer with
    | none => rfl
    | some t => exact if_neg (mt marks.mp (no.resolve_right (by rw [ht]; nofun)))
  have marked : s.cleanTable → isMark → ∀ t, s.timer = some t → ∀ rest,
      (s.passWrite tag a data lanes).waits rest = { passed rest with lock := s.lock.takeMark t s.time } :=
    fun clean is t ht rest => by
      rw [State.passWrite_of_clean clean, ht]
      exact if_pos (marks.mpr is)
  refine ⟨run, fun released tag' a' rest hw no => ?_, fun clean rest hw => ⟨fun no => ?_, fun is t ht => ?_⟩,
    fun released empty clean => ?_⟩
  · rw [run released]
    refine congrArg Host.Outcome.next (State.drain_of_refused (a := a') (rest := rest ++ [.write tag a data lanes]) ?_
      (Bool.eq_false_iff.mp no))
    show s.path.waiting ++ [.write tag a data lanes] = _
    rw [hw]
    rfl
  · rw [State.drain_of_write clean hw, unmarked clean no]
  · rw [State.drain_of_write clean hw, marked clean is t ht]
  · have alone : (s.waits [.write tag a data lanes]).drain = (s.passWrite tag a data lanes).waits [] := by
      have first := State.drain_of_write (s := s.waits [.write tag a data lanes]) clean rfl
      refine first.trans ((State.drain_of_empty rfl).trans ?_)
      rw [State.passWrite_of_clean (s := s.waits [.write tag a data lanes]) clean, State.passWrite_of_clean clean]
      rfl
    rw [run released, empty]
    refine ⟨fun no => congrArg Host.Outcome.next (alone.trans (unmarked clean no [])),
      fun is t ht => congrArg Host.Outcome.next (alone.trans (marked clean is t ht []))⟩

end Sys2Proof.Machine
end

section
/-! The descriptor path: responses, the response limit and the end of a quarantine. -/

namespace Sys2Proof.Machine

/-! ### Responses (R93, R100, R107, R108) -/

theorem Path.readWith_tag {p : Path} {tag : Tag} {r : InFlightRead} (h : p.readWith tag = some r) : r.tag = tag := by
  simpa using List.find?_some h

theorem Path.readWith_eq_none {p : Path} {tag : Tag} (h : ∀ r ∈ p.inFlight, r.tag ≠ tag) : p.readWith tag = none := by
  rw [Path.readWith, List.find?_eq_none]
  intro r hr
  simpa using h r hr

theorem memoryResponse_of_late {s : State} {tag : Tag} (released : s.resetAsserted = false)
    (late : (∀ r ∈ s.path.inFlight, r.tag ≠ tag) ∨ tag ∈ s.path.expired) (data : Word) (error : Bool) :
    memoryResponse tag data error s = (s.lateResponse tag).drain := by
  have none : s.path.answeredRead tag = none := by
    unfold Path.answeredRead
    split_ifs with here
    · rfl
    · exact Path.readWith_eq_none (late.resolve_right here)
  simp only [memoryResponse, released, none]
  rfl

theorem memoryResponse_of_read {s : State} {tag : Tag} {r : InFlightRead} (released : s.resetAsserted = false)
    (here : tag ∉ s.path.expired) (hr : s.path.readWith tag = some r) (data : Word) (error : Bool) :
    memoryResponse tag data error s =
      if error then ((s.dropRead tag).answer tag data true).drain else ((s.dropRead tag).respondTo r data).drain := by
  have found : s.path.answeredRead tag = some r := by rw [Path.answeredRead, if_neg here, hr]
  simp only [memoryResponse, released, found]
  rfl

theorem State.checkNamed_of_clean {s : State} (h : s.cleanTable) (r : InFlightRead) : s.checkNamed r = s := by
  unfold State.checkNamed
  split
  · rfl
  · exact State.checkRing_of_clean h _

theorem State.candidateOf_eq_some (s : State) {r : InFlightRead} {e : RingIndex} (he : r.ring = some e) (data : Word)
    (c : Candidate) :
    s.candidateOf r data = some c ↔
      s.recognises r.address e = true ∧ data.getLsbD 31 = true ∧ data.getLsbD 30 = false ∧
        c = ⟨ringPort e, decide ((s.ring e).kind = .txMotion), r.address, data⟩ := by
  unfold State.candidateOf
  rw [he]
  dsimp only
  split_ifs with h
  · simp only [Bool.and_eq_true, Bool.not_eq_true'] at h
    obtain ⟨⟨recognised, ready⟩, skip⟩ := h
    rw [Option.some.injEq]
    exact ⟨fun e => ⟨recognised, ready, skip, e.symm⟩, fun ⟨_, _, _, e⟩ => e.symm⟩
  · refine ⟨nofun, fun ⟨recognised, ready, skip, _⟩ => absurd ?_ h⟩
    rw [recognised, show readyBit data = true from ready, show skipBit data = false from skip]
    rfl

theorem State.respondTo_of_none {s : State} {r : InFlightRead} {data : Word}
    (h : (s.checkNamed r).candidateOf r data = none) : s.respondTo r data = (s.checkNamed r).answer r.tag data false := by
  simp only [State.respondTo, h]

theorem State.respondTo_of_some {s : State} {r : InFlightRead} {data : Word} {c : Candidate}
    (h : (s.checkNamed r).candidateOf r data = some c) :
    s.respondTo r data = (gateDecision c (s.checkNamed r)).2.answer r.tag
      (substitute (gateDecision c (s.checkNamed r)).1 data) false := by
  simp only [State.respondTo, h]

/-- Settles O38, by whether the response matches a read. -/
theorem responsePassesOrIsLate : Obligations.ResponsePassesOrIsLate := by
  intro s tag data error released clean
  refine ⟨fun r here hr no => ?_, fun r no => ?_, fun late => ?_⟩
  · have same := Path.readWith_tag hr
    refine congrArg Host.Outcome.next ((memoryResponse_of_read released here hr data error).trans ?_)
    cases error with
    | true => rfl
    | false =>
      have none : s.candidateOf r data = none := no.resolve_left nofun
      have left : (s.dropRead tag).checkNamed r = s.dropRead tag := State.checkNamed_of_clean (s := s.dropRead tag) clean r
      have answered := State.respondTo_of_none (s := s.dropRead tag) (data := data)
        ((congrArg (State.candidateOf · r data) left).trans none)
      rw [if_neg (by simp), answered, left, same]
      rfl
  · unfold State.candidateOf
    cases hr : r.ring with
    | none => rfl
    | some e =>
      refine if_neg fun is => ?_
      simp only [Bool.and_eq_true, Bool.not_eq_true'] at is
      obtain ⟨⟨-, ready⟩, skip⟩ := is
      rcases no with no | no | no
      · rw [hr] at no
        cases no
      · exact Bool.noConfusion ((show data.getLsbD 31 = true from ready).symm.trans no)
      · exact Bool.noConfusion ((show data.getLsbD 30 = false from skip).symm.trans no)
  · exact congrArg Host.Outcome.next (memoryResponse_of_late released late data error)

/-! ### A candidate's word -/

/-- The word that the controller receives: READY unless held, SKIP where dropped, every other bit as memory holds it. -/
theorem getLsbD_substitute (d : Decision) {data : Word} (ready : data.getLsbD 31 = true) (skip : data.getLsbD 30 = false) :
    (∀ n, n < 30 → (substitute d data).getLsbD n = data.getLsbD n) ∧
      (substitute d data).getLsbD 31 = decide (d ≠ .hold) ∧ (substitute d data).getLsbD 30 = decide (d = .drop) := by
  have clear : (∀ n, n < 30 → (0x3FFFFFFF#32).getLsbD n = true) ∧ (0x3FFFFFFF#32).getLsbD 31 = false ∧
      (0x3FFFFFFF#32).getLsbD 30 = false := by decide
  have set : (∀ n, n < 30 → (0xC0000000#32).getLsbD n = false) ∧ (0xC0000000#32).getLsbD 31 = true ∧
      (0xC0000000#32).getLsbD 30 = true := by decide
  cases d with
  | pass => exact ⟨fun _ _ => rfl, ready, skip⟩
  | hold =>
    simp only [substitute, BitVec.getLsbD_and]
    exact ⟨fun n hn => by rw [clear.1 n hn, Bool.and_true], by rw [clear.2.1, Bool.and_false]; rfl,
      by rw [clear.2.2, Bool.and_false]; rfl⟩
  | drop =>
    simp only [substitute, BitVec.getLsbD_or]
    exact ⟨fun n hn => by rw [set.1 n hn, Bool.or_false], by rw [set.2.1, Bool.or_true]; rfl,
      by rw [set.2.2, Bool.or_true]; rfl⟩

/-- Settles O39: the read leaves the list, its ring is read again, and the gate decides where it is a candidate. -/
theorem candidateReceivesItsOutcome : Obligations.CandidateReceivesItsOutcome := by
  intro s tag data r e released here hr he left v
  have same := Path.readWith_tag hr
  have checked : (s.dropRead tag).checkNamed r = v := by
    have second : ringWord e 1 = 305 + 2 * e.val := by unfold ringWord; omega
    unfold State.checkNamed State.checkRing
    rw [he]
    show (if s.ringValid e = true then left.checkWords [ringWord e 0, ringWord e 1] else left) = v
    rw [second]
    rfl
  have run := memoryResponse_of_read released here hr data false
  rw [if_neg (by simp)] at run
  have kept : Kept left v := by
    show Kept left (if s.ringValid e = true then left.checkWords [304 + 2 * e.val, 305 + 2 * e.val] else left)
    split_ifs
    · exact kept_checkWords left _
    · exact Kept.refl left
  have given : v.path.toController = s.path.toController := by rw [kept.path]
  refine ⟨fun clean => ?_, fun c => ?_, fun none => ?_, fun c some => ?_⟩
  · rw [← checked]
    exact State.checkNamed_of_clean (s := s.dropRead tag) clean r
  · rw [v.candidateOf_eq_some he, State.recognises_iff]
    simp only [and_assoc]
  · refine congrArg Host.Outcome.next (run.trans ?_)
    rw [State.respondTo_of_none (by rw [checked]; exact none), checked, same, ← given]
    rfl
  · obtain ⟨-, ready, skip, -⟩ := (v.candidateOf_eq_some he data c).mp some
    obtain ⟨low, hold, drop⟩ := getLsbD_substitute (gateDecision c v).1 ready skip
    have decided : (gateDecision c v).2.path = { v.path with ringValid := (gateDecision c v).2.path.ringValid } :=
      (good_gateDecision c v).steady.path
    have given' : (gateDecision c v).2.path.toController = s.path.toController := by rw [decided, ← given]
    have sent : (gateDecision c v).2.path.toMemory = s.path.toMemory := by rw [decided, kept.path]
    refine ⟨_, _, substitute (gateDecision c v).1 data, rfl, ?_, given', sent, low, hold, drop⟩
    refine congrArg Host.Outcome.next (run.trans ?_)
    rw [State.respondTo_of_some (by rw [checked]; exact some), checked, same, ← given']
    rfl

/-! ### The response limit and the end of a quarantine (R98, R99) -/

/-- Ticks that pass with nothing due and the initialisation pass done. -/
theorem State.tickBy_of_done {s : State} (done : s.prot.busy = false) (n : Nat) :
    s.tickBy n = { s with time := Machine.afterTicks s.time n, path := s.path.afterTicks n } := by
  unfold State.tickBy
  rw [done]
  rfl

theorem Path.expired_afterTicks (p : Path) (n : Nat) : p.afterTicks n = { p with expired := if n = 0 then p.expired else [] } := by
  unfold Path.afterTicks
  split_ifs <;> rfl

/-- Settles O40: time passes to the deadline, and the read times out there. -/
theorem readTimesOut : Obligations.ReadTimesOut := by
  intro s r hr done due
  refine ⟨_, rfl, congrArg Host.Outcome.next ?_⟩
  have passed := due.pass
  rw [State.tickBy_of_done done, Path.expired_afterTicks] at passed
  have still : (s.pass (ticksUntil s.time r.deadline)).path.readWith r.tag = some r := by
    rw [passed]
    exact hr
  have run : readTimeout r.tag s = (s.pass (ticksUntil s.time r.deadline)).timeOut r := by
    simp only [readTimeout, due.released, hr, still]
  rw [run, passed]
  rfl

/-- What the passing of waiting requests leaves of the path and of the reset pin. -/
structure Drained (s u : State) : Prop where
  resetAsserted : u.resetAsserted = s.resetAsserted
  toController : u.path.toController = s.path.toController
  lates : u.path.lates = s.path.lates
  expired : u.path.expired = s.path.expired
  inFlight : ∀ r ∈ s.path.inFlight, r ∈ u.path.inFlight

theorem Drained.trans {s t u : State} (h : Drained s t) (k : Drained t u) : Drained s u :=
  ⟨k.resetAsserted.trans h.resetAsserted, k.toController.trans h.toController, k.lates.trans h.lates,
    k.expired.trans h.expired, fun r hr => k.inFlight r (h.inFlight r hr)⟩

theorem Rest.drained {s u : State} (h : Rest s u) : Drained s u :=
  ⟨h.resetAsserted, by rw [h.path], by rw [h.path], by rw [h.path], fun r hr => by rw [h.path]; exact hr⟩

theorem drained_passWrite (s : State) (tag : Tag) (a : Address) (data : Word) (lanes : BitVec 4) :
    Drained s (s.passWrite tag a data lanes) := by
  have before : Drained s ((s.updPath (fun p => { p with toMemory := p.toMemory ++ [.write tag a data lanes] })).removeHold
      (descriptorAddress a)) := ⟨rfl, rfl, rfl, rfl, fun _ hr => hr⟩
  exact before.trans (rest_observeWrite _ a data lanes).drained

theorem drained_acceptRead (s : State) (tag : Tag) (a : Address) : Drained s (s.acceptRead tag a) := by
  have checked := (good_checkTransmitRings s).steady.rest.drained
  unfold State.acceptRead
  generalize s.checkTransmitRings = x at checked ⊢
  exact checked.trans ⟨rfl, rfl, rfl, rfl, fun r hr => List.mem_append_left _ hr⟩

theorem drained_drain (s : State) : Drained s s.drain := by
  have passed : Drained s (passRequests s.path.waiting s).2 :=
    passRequests_induction (P := Drained s) (fun x tag a data lanes h => h.trans (drained_passWrite x tag a data lanes))
      (fun x tag a _ h => h.trans (drained_acceptRead x tag a)) _ s (rest_refl s).drained
  exact passed.trans ⟨rfl, rfl, rfl, rfl, fun _ hr => hr⟩

/-- Settles O41: time passes to the expiry, and the mark of that instant makes a response with the tag late. -/
theorem quarantineExpires : Obligations.QuarantineExpires := by
  intro s q hq done due n
  have passed := due.pass
  rw [State.tickBy_of_done done, Path.expired_afterTicks] at passed
  have run : quarantineExpiry q.tag s = (s.pass n).expireTag q.tag := by
    simp only [quarantineExpiry, due.released, hq]
    rfl
  refine ⟨_, rfl, ?_, fun data error => ⟨_, rfl, ?_⟩⟩
  · show quarantineExpiry q.tag s = _
    rw [run, passed]
    rfl
  · have before := drained_drain ((s.pass n).endQuarantine q.tag |>.markExpired q.tag)
    have marked : q.tag ∈ (quarantineExpiry q.tag s).path.expired := by
      rw [run]
      exact before.expired ▸ List.mem_append_right _ List.mem_cons_self
    have up : (quarantineExpiry q.tag s).resetAsserted = false := by
      rw [run]
      exact before.resetAsserted.trans ((congrArg State.resetAsserted passed).trans due.released)
    have given : (quarantineExpiry q.tag s).path.toController = s.path.toController := by
      rw [run]
      exact before.toController.trans (congrArg (fun x : State => x.path.toController) passed :)
    have lates : (quarantineExpiry q.tag s).path.lates = s.path.lates := by
      rw [run]
      exact before.lates.trans (congrArg (fun x : State => x.path.lates) passed :)
    rw [memoryResponse_of_late up (.inr marked)]
    have late := drained_drain ((quarantineExpiry q.tag s).lateResponse q.tag)
    refine ⟨late.toController.trans given, late.lates.trans (congrArg satInc lates), late.inFlight, ?_⟩
    rw [late.expired]
    exact fun here => by simpa using (List.mem_filter.mp here).2

end Sys2Proof.Machine
end

section
/-! The gate decision in ENFORCING where no bit of table memory is wrong. -/

namespace Sys2Proof.Machine

/-! ### What the gates ask of the table -/

theorem EntryState.inForce_iff (st : EntryState) : st.inForce = true ↔ st = .active ∨ st = .releasing := by
  cases st <;> simp [EntryState.inForce]

/-- The entry is one that a motion frame of this port and tag can be released against (R84). -/
def State.usable (s : State) (p : PortIndex) (tag : StreamTag) (i : EntryIndex) : Prop :=
  ((s.entry i).state = .active ∨ (s.entry i).state = .releasing)
    ∧ (s.reservation i).port = p ∧ (s.reservation i).tag = tag ∧ (s.reservation i).overbooked = false

/-- The test of the lookup. -/
def State.offers (s : State) (p : PortIndex) (tag : StreamTag) (i : EntryIndex) : Bool :=
  (s.entry i).state.inForce && decide ((s.reservation i).port = p) && decide ((s.reservation i).tag = tag)
    && !(s.reservation i).overbooked

theorem State.offers_iff (s : State) (p : PortIndex) (tag : StreamTag) (i : EntryIndex) :
    s.offers p tag i = true ↔ s.usable p tag i := by
  simp only [State.offers, State.usable, Bool.and_eq_true, Bool.not_eq_true', decide_eq_true_eq, EntryState.inForce_iff,
    and_assoc]

theorem State.lookup_eq_some {s : State} {p : PortIndex} {tag : StreamTag} {i : EntryIndex} (hi : s.usable p tag i)
    (lowest : ∀ j, s.usable p tag j → i ≤ j) : s.lookup p tag = some i := by
  refine find?_allEntries_eq_some.mpr ⟨(s.offers_iff p tag i).mpr hi, fun j hj => Bool.eq_false_iff.mpr fun is => ?_⟩
  exact absurd hj (not_lt.mpr (lowest j ((s.offers_iff p tag j).mp is)))

theorem State.lookup_eq_none {s : State} {p : PortIndex} {tag : StreamTag} (h : ∀ i, ¬ s.usable p tag i) :
    s.lookup p tag = none :=
  find?_allEntries_eq_none.mpr fun i => Bool.eq_false_iff.mpr (mt (s.offers_iff p tag i).mp (h i))

theorem State.reclaimAnswer_iff (s : State) (p : PortIndex) (slot : Nat) :
    s.reclaimAnswer p slot = true ↔ ∀ i, (s.entry i).state = .active → (s.reservation i).port = p →
      (s.reservation i).slot.toNat = slot → (s.reservation i).overbooked = false →
      (s.reservation i).used = (s.reservation i).frames ∨ (s.reservation i).silent = true := by
  simp only [State.reclaimAnswer, List.all_eq_true, allEntries, List.mem_finRange, true_implies, State.reclaimable,
    Bool.or_eq_true, Bool.not_eq_true', decide_eq_true_eq]
  refine forall_congr' fun i => ?_
  constructor
  · rintro ((no | used) | silent) active port slot fits
    · simp [active, port, slot, fits] at no
    · exact .inl used
    · exact .inr silent
  · intro h
    by_cases all : (s.entry i).state = .active ∧ (s.reservation i).port = p ∧ (s.reservation i).slot.toNat = slot ∧
        (s.reservation i).overbooked = false
    · obtain ⟨active, port, slot, fits⟩ := all
      rcases h active port slot fits with used | silent
      · exact .inl (.inr used)
      · exact .inr silent
    · refine .inl (.inl (Bool.eq_false_iff.mpr fun is => all ?_))
      simpa [and_assoc] using is

/-! ### The ports of a decision -/

/-- A port is changed to what the change makes of it. -/
theorem State.updPort_congr {s : State} {p : PortIndex} {f g : Port → Port} (h : f (s.port p) = g (s.port p)) :
    s.updPort p f = s.updPort p g := by
  unfold State.updPort
  rw [show f (s.ports.get p) = g (s.ports.get p) from h]

theorem holdCandidate_eq (c : Candidate) (s : State) :
    holdCandidate c s = (.hold, s.updPort c.port (fun q => { q with counters :=
      if c.motion then { (s.port c.port).counters with motionHeld := satInc (s.port c.port).counters.motionHeld }
      else { (s.port c.port).counters with generalHeld := satInc (s.port c.port).counters.generalHeld } })) := by
  unfold holdCandidate State.countHeld State.countPort
  exact congrArg (Prod.mk Decision.hold) (State.updPort_congr rfl)

/-- The counters with a frame of the candidate's ring kind passed. -/
def Candidate.passes (c : Candidate) (k : PortCounters) : PortCounters :=
  if c.motion then { k with motionPassed := satInc k.motionPassed } else { k with generalPassed := satInc k.generalPassed }

theorem moveBusy_countPassed (c : Candidate) (s : State) (e : DeviceTime) :
    (s.moveBusy c.port e).countPassed c =
      s.updPort c.port (fun q => { q with busy := some e, counters := c.passes (s.port c.port).counters }) := by
  unfold State.moveBusy State.countPassed State.countPort
  rw [State.updPort_updPort]
  exact State.updPort_congr rfl

theorem moveBusy_countPassed_reclaimed (c : Candidate) (s : State) (e : DeviceTime) :
    ((s.moveBusy c.port e).countPassed c).countPort c.port (fun k => { k with reclaimed := satInc k.reclaimed }) =
      s.updPort c.port (fun q => { q with busy := some e, counters := { c.passes (s.port c.port).counters with
        reclaimed := satInc (c.passes (s.port c.port).counters).reclaimed } }) := by
  unfold State.countPort
  rw [moveBusy_countPassed, State.updPort_updPort]

/-! ### The next protected boundary (R54) -/

/-- The first number from `low` up to `high` whose kind is protected. -/
def firstProtected (kind : Nat → SlotKind) (low high k : Nat) : Prop :=
  low ≤ k ∧ k < high ∧ kind k ≠ .openSlot ∧ ∀ j, low ≤ j → j < k → kind j = .openSlot

theorem protectedKind_iff (k : SlotKind) : protectedKind k = true ↔ k ≠ .openSlot := by
  cases k <;> simp [protectedKind]

theorem protectedKind_eq_false (k : SlotKind) : protectedKind k = false ↔ k = .openSlot := by
  cases k <;> simp [protectedKind]

theorem protectedThisCycle_eq_some {n slot : Nat} {kind : Nat → SlotKind} {k : Nat} :
    protectedThisCycle n slot kind = some k ↔ firstProtected kind (slot + 1) n k := by
  rw [protectedThisCycle, List.find?_range_eq_some, Bool.and_eq_true, decide_eq_true_eq, protectedKind_iff, List.mem_range]
  constructor
  · rintro ⟨⟨after, isProtected⟩, inside, before⟩
    refine ⟨after, inside, isProtected, fun j low high => ?_⟩
    simpa [show slot < j from low, protectedKind_eq_false] using before j high
  · rintro ⟨after, inside, isProtected, before⟩
    refine ⟨⟨after, isProtected⟩, inside, fun j high => ?_⟩
    by_cases low : slot < j
    · simp [(protectedKind_eq_false _).mpr (before j low high)]
    · simp [low]

theorem protectedThisCycle_eq_none {n slot : Nat} {kind : Nat → SlotKind} :
    protectedThisCycle n slot kind = none ↔ ∀ k, slot < k → k < n → kind k = .openSlot := by
  rw [protectedThisCycle, List.find?_range_eq_none]
  simp only [Bool.not_and, Bool.or_eq_true, Bool.not_eq_true', decide_eq_false_iff_not, protectedKind_eq_false]
  exact ⟨fun h k after inside => (h k inside).resolve_left (not_not.mpr after),
    fun h k inside => (em (slot < k)).symm.imp_right fun after => h k after inside⟩

theorem protectedNextCycle_eq_some {slot : Nat} {kind : Nat → SlotKind} {k : Nat} :
    protectedNextCycle slot kind = some k ↔ firstProtected kind 0 (slot + 1) k := by
  rw [protectedNextCycle, List.find?_range_eq_some, protectedKind_iff, List.mem_range]
  constructor
  · rintro ⟨isProtected, inside, before⟩
    exact ⟨Nat.zero_le k, inside, isProtected, fun j _ high => (protectedKind_eq_false _).mp (by simpa using before j high)⟩
  · rintro ⟨-, inside, isProtected, before⟩
    exact ⟨isProtected, inside, fun j high => by simp [(protectedKind_eq_false _).mpr (before j (Nat.zero_le j) high)]⟩

theorem State.appliesNext_iff {s : State} {t : Timer} (ht : s.timer = some t) (p : PortIndex) :
    s.appliesNext p = true ↔ (s.mapsOf p).waiting = some ⟨t.geometry.slots, true⟩ := by
  unfold State.appliesNext
  rw [ht]
  cases (s.mapsOf p).waiting with
  | none => simp
  | some m =>
    obtain ⟨length, committed⟩ := m
    simp [and_comm]

/-- The instants at which a protected slot begins next (R54): of this cycle, or else of the next one. -/
def State.protectedAt (s : State) (p : PortIndex) (t : Timer) (b : DeviceTime) : Prop :=
  (∃ k, firstProtected (s.activeKind p) (t.slot s.time + 1) t.geometry.slots k ∧ b = afterTicks t.start (k * t.geometry.ticks))
    ∨ ((∀ k, t.slot s.time < k → k < t.geometry.slots → s.activeKind p k = .openSlot)
      ∧ ∃ k, firstProtected (s.nextKind p) 0 (t.slot s.time + 1) k ∧
        b = afterTicks t.start (t.length + k * t.geometry.ticks))

theorem afterTicks_afterTicks (x : DeviceTime) (m n : Nat) : afterTicks (afterTicks x m) n = afterTicks x (m + n) := by
  simp [afterTicks, BitVec.ofNat_add, BitVec.add_assoc]

theorem State.nextProtected_eq_some (s : State) (p : PortIndex) (t : Timer) (b : DeviceTime) :
    s.nextProtected p t = some b ↔ s.protectedAt p t b := by
  have next : ∀ k, afterTicks t.cycleEnd (k * t.geometry.ticks) = afterTicks t.start (t.length + k * t.geometry.ticks) :=
    fun k => afterTicks_afterTicks _ _ _
  unfold State.nextProtected State.protectedAt
  dsimp only
  cases this : protectedThisCycle t.geometry.slots (t.slot s.time) (s.activeKind p) with
  | some k =>
    have first := protectedThisCycle_eq_some.mp this
    rw [Option.some.injEq]
    constructor
    · exact fun e => .inl ⟨k, first, e.symm⟩
    · rintro (⟨k', first', e⟩ | ⟨free, -⟩)
      · rw [← protectedThisCycle_eq_some, this, Option.some.injEq] at first'
        rw [e, first']
      · exact absurd (free k first.1 first.2.1) first.2.2.1
  | none =>
    have free := protectedThisCycle_eq_none.mp this
    simp only [Option.map_eq_some_iff, protectedNextCycle_eq_some, next]
    constructor
    · rintro ⟨k, first, e⟩
      exact .inr ⟨free, k, first, e.symm⟩
    · rintro (⟨k, first, -⟩ | ⟨-, k, first, e⟩)
      · rw [← protectedThisCycle_eq_some, this] at first
        cases first
      · exact ⟨k, first, e.symm⟩

/-- The fit test passes exactly where the frame with its guard ends no later than the boundary, if there is one (R56). -/
theorem fits_iff (s : State) (p : PortIndex) (t : Timer) (set : Settings) (e : DeviceTime) :
    fits set e (s.nextProtected p t) = true ↔ ∀ b, s.protectedAt p t b → later (afterTicks e set.guard) b = false := by
  simp only [← State.nextProtected_eq_some]
  cases s.nextProtected p t <;> simp [fits]

/-! ### General candidates (R131, R132) -/

section
variable {s : State} (hc : s.cleanTable) (c : Candidate)
include hc

theorem State.checkSearch_of_clean (p : PortIndex) (t : Timer) : s.checkSearch p t = s := by
  unfold State.checkSearch
  split
  · rfl
  · split_ifs
    · exact State.checkPending_of_clean hc p
    · rfl

/-- The fit test of a decision: the frame passes and busy-until moves, or it is held. -/
theorem fitDecision_of_clean (reclaimed : Bool) (t : Timer) :
    fitDecision c reclaimed t s =
      if fits (s.port c.port).settings (s.candidateEnd c) (s.nextProtected c.port t) then
        (.pass, s.updPort c.port (fun q => { q with
          busy := some (s.candidateEnd c)
          counters := if reclaimed then { c.passes (s.port c.port).counters with
              reclaimed := satInc (c.passes (s.port c.port).counters).reclaimed }
            else c.passes (s.port c.port).counters }))
      else holdCandidate c s := by
  unfold fitDecision
  rw [State.checkSearch_of_clean hc]
  dsimp only
  split_ifs
  · rw [moveBusy_countPassed_reclaimed]
  · rw [moveBusy_countPassed]
  · rfl

variable {c} in
theorem generalDecision_of_clean {t : Timer} (ht : s.timer = some t) (hg : (s.port c.port).gate = .enforcing) :
    generalDecision c s =
      match s.activeKind c.port (t.slot s.time) with
      | .openSlot => fitDecision c false t s
      | .closed => holdCandidate c s
      | .reserved =>
          if (s.port c.port).settings.reclaim = true ∧ s.reclaimAnswer c.port (t.slot s.time) = true then
            fitDecision c true t s
          else holdCandidate c s := by
  simp only [generalDecision, ht, State.checkActive_of_clean hc, hg, if_true, reclaimDecision,
    State.checkEntries_of_clean hc]
  cases s.activeKind c.port (t.slot s.time) with
  | reserved => cases (s.port c.port).settings.reclaim <;> simp
  | openSlot => rfl
  | closed => rfl

variable {c} in
theorem gateDecision_unreserved (hg : (s.port c.port).gate = .enforcing) (hm : c.motion = true)
    (hi : ∀ i, ¬ s.usable c.port (tagOf c.word) i) :
    gateDecision c s =
      match (s.port c.port).settings.unreserved with
      | .asGeneral => generalDecision c s
      | .drop => unreservedDrop c s := by
  simp only [gateDecision, hg, hm, if_true, motionDecision, State.checkEntries_of_clean hc, State.lookup_eq_none hi] <;> rfl

end

theorem gateDecision_general {s : State} {c : Candidate} (hg : (s.port c.port).gate = .enforcing) (hm : c.motion = false) :
    gateDecision c s = generalDecision c s := by
  simp only [gateDecision, hg, hm, Bool.false_eq_true, if_false]

/-- The duration is the smallest whole number of ticks not less than the wire time (R49 to R51). -/
theorem duration_bounds (set : Settings) (length : Nat) :
    wireBytes length set.extra * byteTime set.rate ≤ 10000 * duration set length ∧
      10000 * duration set length < wireBytes length set.extra * byteTime set.rate + 10000 := by
  unfold duration
  omega

/-- Settles O48, by the kind of the current slot. -/
theorem generalDecisionBySlotKind : Obligations.GeneralDecisionBySlotKind := by
  refine ⟨fun set length => ?_, fun set busy now => ?_, fun s c clean enforcing => ?_⟩
  · obtain ⟨extra, rate⟩ : ∃ e r, e = set.extra ∧ r = set.rate := ⟨_, _, rfl, rfl⟩
    have bounds := duration_bounds set length
    have bytes : byteTime set.rate = match set.rate with
      | .rate10M => 800000 | .rate100M => 80000 | .rate1G => 8000 | .rate2G5 => 3200 := by cases set.rate <;> rfl
    rw [bytes] at bounds
    exact bounds
  · cases busy with
    | none => rfl
    | some b =>
      show (if later b (afterTicks now set.lead) then b else afterTicks now set.lead) = _
      simp only [later, decide_eq_true_eq]
      rfl
  · intro set k usable unreserved counted held counts finish passed
    have hold : holdCandidate c s = held := holdCandidate_eq c s
    refine ⟨fun un drop => ?_, fun general => ?_⟩
    · rw [gateDecision_unreserved clean enforcing un.1 un.2, show (s.port c.port).settings.unreserved = .drop from drop]
      have counting : s.countPort c.port (fun k => { k with unreservedDrops := satInc k.unreservedDrops }) =
          counted { k with unreservedDrops := satInc k.unreservedDrops } := State.updPort_congr rfl
      show unreservedDrop c s = _
      rw [unreservedDrop, counting]
      rfl
    · have run : gateDecision c s = generalDecision c s := by
        rcases general with no | ⟨un, as⟩
        · exact gateDecision_general enforcing no
        · rw [gateDecision_unreserved clean enforcing un.1 un.2, show (s.port c.port).settings.unreserved = .asGeneral from as]
      refine ⟨fun stopped => ?_, fun t ht => ?_⟩
      · rw [run, generalDecision, stopped]
        exact hold
      · intro slot n next first boundary fit free
        have nextKind : s.nextKind c.port = next := funext fun k => by
          unfold State.nextKind
          simp only [State.appliesNext_iff ht]
          rfl
        have atBoundary : ∀ b, s.protectedAt c.port t b ↔ boundary b := fun b => by
          unfold State.protectedAt
          rw [nextKind]
          rfl
        have fitting : fits set (s.candidateEnd c) (s.nextProtected c.port t) = true ↔ fit :=
          (fits_iff s c.port t set _).trans (forall_congr' fun b => by rw [atBoundary]; rfl)
        have isFree : (s.port c.port).settings.reclaim = true ∧ s.reclaimAnswer c.port (t.slot s.time) = true ↔ free :=
          and_congr_right fun _ => s.reclaimAnswer_iff c.port (t.slot s.time)
        have decision := generalDecision_of_clean clean ht enforcing
        rw [← run] at decision
        have inOpen : s.activeKind c.port slot = .openSlot → gateDecision c s = fitDecision c false t s := fun kind => by
          rw [decision, kind]
        have inReserved : s.activeKind c.port slot = .reserved → gateDecision c s =
            if (s.port c.port).settings.reclaim = true ∧ s.reclaimAnswer c.port (t.slot s.time) = true then
              fitDecision c true t s else holdCandidate c s := fun kind => by rw [decision, kind]
        have unfit : ¬ fit → ∀ b, fitDecision c b t s = held := fun no b => by
          rw [fitDecision_of_clean clean, if_neg (mt fitting.mp no), hold]
        refine ⟨fun kind => ?_, fun kind no => ?_, fun kind no => ?_, fun kind yes => ?_, fun kind isfree yes => ?_⟩
        · rw [decision, kind]
          exact hold
        · rw [inReserved kind, if_neg (mt isFree.mp no), hold]
        · rcases kind with kind | ⟨kind, isfree⟩
          · rw [inOpen kind, unfit no]
          · rw [inReserved kind, if_pos (isFree.mpr isfree), unfit no]
        · rw [inOpen kind, fitDecision_of_clean clean, if_pos (fitting.mpr yes)]
          rfl
        · rw [inReserved kind, if_pos (isFree.mpr isfree), fitDecision_of_clean clean, if_pos (fitting.mpr yes)]
          rfl

end Sys2Proof.Machine
end

section
/-! The decision on a motion candidate with a usable entry (R127 to R130), where no bit of table memory is wrong. -/

namespace Sys2Proof.Machine

section
variable {s : State} {c : Candidate} {i : EntryIndex} {t : Timer}

theorem gateDecision_usable (hc : s.cleanTable) (hg : (s.port c.port).gate = .enforcing) (hm : c.motion = true)
    (hl : s.lookup c.port (tagOf c.word) = some i) : gateDecision c s = entryDecision c i s := by
  simp only [gateDecision, hg, hm, if_true, motionDecision, State.checkEntries_of_clean hc, hl]

/-- The record of the candidate's address is above the port's stale limit (R127). -/
def State.stale (s : State) (c : Candidate) (x : HoldRecord) : Prop :=
  s.holdOf c.address = some x ∧ (s.port c.port).settings.stale < s.holdAge x

theorem State.staleAge_of_stale {x : HoldRecord} (h : s.stale c x) : s.staleAge c = some (s.holdAge x) := by
  obtain ⟨found, old⟩ := h
  simp only [State.staleAge, found, if_pos old]

theorem State.staleAge_of_fresh (h : ∀ x, ¬ s.stale c x) : s.staleAge c = none := by
  unfold State.staleAge
  split
  · rename_i x found
    exact if_neg fun old => h x ⟨found, old⟩
  · rfl

theorem entryDecision_stale {x : HoldRecord} (h : s.stale c x) : entryDecision c i s = staleDrop c i (s.holdAge x) s := by
  simp only [entryDecision, State.staleAge_of_stale h]

theorem entryDecision_overrun (h : ∀ x, ¬ s.stale c x) (long : (s.reservation i).maxLength.toNat < lengthOf c.word) :
    entryDecision c i s = overrunDrop c i s := by
  simp only [entryDecision, State.staleAge_of_fresh h, if_pos long]

theorem State.mayRelease_iff (ht : s.timer = some t) (i : EntryIndex) :
    s.mayRelease i = true ↔
      t.slot s.time = (s.reservation i).slot.toNat ∧ (s.reservation i).used.toNat < (s.reservation i).frames.toNat := by
  simp [State.mayRelease, State.currentSlot, ht]

theorem entryDecision_inLength (h : ∀ x, ¬ s.stale c x) (fits : lengthOf c.word ≤ (s.reservation i).maxLength.toNat)
    (ht : s.timer = some t) :
    entryDecision c i s =
      if s.mayRelease i then releaseCandidate c i (t.slotEnd (t.slot s.time)) s else holdAgainst c i s := by
  simp only [entryDecision, State.staleAge_of_fresh h, if_neg (not_lt.mpr fits), ht]

/-- What a drop leaves, stale or overrun: the counts of the entry and of the port, the record gone, the event. -/
theorem dropped_frame (s : State) (c : Candidate) (i : EntryIndex) (f : Entry → Entry) (g : PortCounters → PortCounters)
    (e : EventEntry) :
    let u := (((s.removeHold c.address).updEntry i f).countPort c.port g).raise e
    u.entry i = f (s.entry i) ∧ (∀ j, j ≠ i → u.entry j = s.entry j)
      ∧ u.port c.port = { s.port c.port with counters := g (s.port c.port).counters }
      ∧ (∀ p, p ≠ c.port → u.port p = s.port p)
      ∧ u.holds.records = s.holds.records.filter (fun x => decide (x.address ≠ c.address))
      ∧ u.events = s.events.offer e
      ∧ { u with table := s.table, ports := s.ports, events := s.events,
                 holds := { u.holds with records := s.holds.records } } = s := by
  have entry : ∀ j, ((s.removeHold c.address).updEntry i f).entry j = if j = i then f (s.entry i) else s.entry j :=
    fun j => State.entry_updEntry (s.removeHold c.address) i j f
  have port : ∀ q, (((s.removeHold c.address).updEntry i f).countPort c.port g).port q =
      if q = c.port then { s.port c.port with counters := g (s.port c.port).counters } else s.port q :=
    fun q => State.port_updPort ((s.removeHold c.address).updEntry i f) c.port q _
  exact ⟨(entry i).trans (if_pos rfl), fun j hj => (entry j).trans (if_neg hj), (port c.port).trans (if_pos rfl),
    fun q hq => (port q).trans (if_neg hq), rfl, rfl, rfl⟩

/-- A port that has released a frame of motion with this end, late or not. -/
def Port.releases (finish : DeviceTime) (late : Option Nat) (q : Port) : Port :=
  { q with
    busy := some finish
    counters := { q.counters with
      motionPassed := satInc q.counters.motionPassed
      lateMotion := late.elim q.counters.lateMotion (fun _ => satInc q.counters.lateMotion) } }

/-- The fields of an entry against which a frame has been released (R85). -/
def Reservation.served (r : Reservation) : Reservation := { r with used := r.used + 1, misses := 0, silent := false }

/-- The counters of an entry against which a frame has been released (R85). -/
def Entry.served (e : Entry) : Entry := { e with passed := satInc e.passed }

/-- The state that a release leaves: the entry's counts, its frame counter, the record, the port, the events. -/
def State.released (s : State) (c : Candidate) (i : EntryIndex) (late : Option Nat) : State :=
  { s.putUse i Reservation.served with
    table := (s.updEntry i Entry.served).table
    holds := { s.holds with records := s.holds.records.filter (fun x => decide (x.address ≠ c.address)) }
    ports := (s.updPort c.port (Port.releases (s.candidateEnd c) late)).ports
    events := s.events.offers
      ((if (s.reservation i).silent then
          [s.tableEvent .resResumed i s.cycleNumber (s.reservation i).misses.toNat] else [])
        ++ late.toList.map (s.tableEvent .lateMotion i s.cycleNumber)) }

theorem State.port_released (s : State) (c : Candidate) (i : EntryIndex) (late : Option Nat) (q : PortIndex) :
    (s.released c i late).port q =
      if q = c.port then Port.releases (s.candidateEnd c) late (s.port c.port) else s.port q :=
  State.port_updPort s c.port q (Port.releases (s.candidateEnd c) late)

theorem State.entry_released (s : State) (c : Candidate) (i j : EntryIndex) (late : Option Nat) :
    (s.released c i late).entry j = if j = i then (s.entry i).served else s.entry j :=
  State.entry_updEntry s i j Entry.served

theorem State.reservation_released {s : State} (h : MemoryInv s) (c : Candidate) (i j : EntryIndex) (late : Option Nat) :
    (s.released c i late).reservation j = if j = i then (s.reservation i).served else s.reservation j :=
  State.reservation_putUse h i j Reservation.served

theorem State.word_released {s : State} (h : MemoryInv s) (c : Candidate) (i : EntryIndex) (late : Option Nat) {n : Nat}
    (hn : n ≠ 4 * i.val + 1) : (s.released c i late).word n = s.word n :=
  (State.word_putWord h _ n _).trans (if_neg hn)

theorem State.released_frame (s : State) (c : Candidate) (i : EntryIndex) (late : Option Nat) :
    { s.released c i late with
      table := s.table, ports := s.ports, events := s.events
      holds := { (s.released c i late).holds with records := s.holds.records }
      prot := { (s.released c i late).prot with memory := s.prot.memory } } = s := rfl

theorem releaseFrame_eq :
    s.releaseFrame i = { s.putUse i Reservation.served with
      table := (s.updEntry i Entry.served).table
      events := s.events.offers (if (s.reservation i).silent then
        [s.tableEvent .resResumed i s.cycleNumber (s.reservation i).misses.toNat] else []) } := by
  unfold State.releaseFrame
  dsimp only
  cases (s.reservation i).silent <;> rfl

theorem releaseCandidate_eq (hm : c.motion = true) (slotEnd : DeviceTime) :
    releaseCandidate c i slotEnd s = (.pass, s.released c i
      (if later (s.candidateEnd c) slotEnd then some (min (s.candidateEnd c - slotEnd).toNat 0xFFFF) else none)) := by
  unfold releaseCandidate State.released State.countPort
  dsimp only
  rw [releaseFrame_eq, moveBusy_countPassed, State.updPort_updPort, EventQueue.offers_append]
  simp only [Candidate.passes, hm, if_true]
  split_ifs <;> rfl

/-- The state that a hold against an entry leaves. -/
theorem holdAgainst_eq (hm : c.motion = true) (ht : (s.reservation i).tag = tagOf c.word) (hp : (s.reservation i).port = c.port) :
    holdAgainst c i s =
      let u := s.updPort c.port (fun q => { q with counters := { q.counters with motionHeld := satInc q.counters.motionHeld } })
      (.hold,
        if s.holdOf c.address ≠ none then u
        else if s.holds.records.length < 32 then
          { u with holds := { s.holds with records := s.holds.records ++ [⟨c.address, c.port, i, s.cycleNumber⟩] } }
        else
          { u with
            holds := { s.holds with full := satInc s.holds.full }
            events := s.events.offer (s.tableEvent .holdListFull i s.cycleNumber
              (s.holds.records.countP (fun x => decide (x.port = c.port)))) }) := by
  have counted : s.countHeld c = s.updPort c.port (fun q => { q with counters :=
      { q.counters with motionHeld := satInc q.counters.motionHeld } }) := by
    unfold State.countHeld State.countPort
    simp only [hm, if_true]
  unfold holdAgainst
  rw [counted]
  dsimp only
  have same : (s.updPort c.port (fun q => { q with counters :=
      { q.counters with motionHeld := satInc q.counters.motionHeld } })).holdOf c.address = s.holdOf c.address := rfl
  rw [same]
  cases s.holdOf c.address with
  | some x => rfl
  | none =>
    rw [if_neg (by simp)]
    have event : s.tableEvent .holdListFull i = fun cycle d =>
        ⟨.holdListFull, some c.port, some i, some (tagOf c.word), lowCycle cycle, BitVec.ofNat 16 d⟩ := by
      unfold State.tableEvent
      rw [ht, hp]
    rw [event]
    by_cases room : s.holds.records.length < 32
    · rw [if_pos room]
      exact congrArg (Prod.mk Decision.hold) (if_pos room)
    · rw [if_neg room]
      exact congrArg (Prod.mk Decision.hold) (if_neg room)

end

/-- Settles O47, by the checks in their order. -/
theorem motionDecisionWithEntry : Obligations.MotionDecisionWithEntry := by
  intro s c i t memory clean ht enforcing motion usable isUsable lowest set k r others stale inSlot finish slotEnd late
  have found : s.lookup c.port (tagOf c.word) = some i := State.lookup_eq_some isUsable lowest
  have run : gateDecision c s = entryDecision c i s := gateDecision_usable clean enforcing motion found
  have cycle : s.cycleNumber = t.cycle := by simp [State.cycleNumber, ht]
  have isStale : ∀ x, s.stale c x ↔ stale x := fun x => by unfold State.stale State.holdAge; rw [cycle]
  have fresh : (∀ x, ¬ stale x) → ∀ x, ¬ s.stale c x := fun h x => mt (isStale x).mp (h x)
  have tableEvent : ∀ kind d, s.tableEvent kind i t.cycle d = entryEvent kind i (s.reservation i) s.cycleNumber (detail d) :=
    fun kind d => by rw [cycle]; rfl
  refine ⟨found, fun x is => ?_, fun none long => ?_, fun none short now => ?_, fun none short other => ?_⟩
  · have age : s.holdAge x = (t.cycle - x.firstHeld).toNat := by unfold State.holdAge; rw [cycle]
    refine ⟨_, run.trans (entryDecision_stale ((isStale x).mpr is)), ?_⟩
    rw [tableEvent, ← age]
    exact dropped_frame s c i (fun e => { e with staleDrops := satInc e.staleDrops })
      (fun k => { k with staleDrops := satInc k.staleDrops }) _
  · refine ⟨_, run.trans (entryDecision_overrun (fresh none) long), ?_⟩
    rw [tableEvent]
    exact dropped_frame s c i (fun e => { e with overrunDrops := satInc e.overrunDrops })
      (fun k => { k with overrunDrops := satInc k.overrunDrops }) _
  · have decided : gateDecision c s = (.pass, s.released c i
        (if late then some (min (finish - slotEnd).toNat 0xFFFF) else Option.none)) := by
      rw [run, entryDecision_inLength (fresh none) short ht, if_pos ((State.mayRelease_iff ht i).mpr now)]
      exact releaseCandidate_eq motion slotEnd
    refine ⟨_, decided, ?_, fun j hj => ?_, fun n hn => State.word_released memory c i _ hn, ?_, fun j hj => ?_, ?_,
      fun q hq => ?_, rfl, ?_, State.released_frame s c i _⟩
    · rw [State.reservation_released memory, if_pos rfl]
      rfl
    · rw [State.reservation_released memory, if_neg hj]
    · rw [State.entry_released, if_pos rfl]
      rfl
    · rw [State.entry_released, if_neg hj]
    · rw [State.port_released, if_pos rfl]
      cases late <;> rfl
    · rw [State.port_released, if_neg hq]
    · rw [← cycle]
      cases late <;> rfl
  · obtain ⟨-, hport, htag, -⟩ := isUsable
    have decided := holdAgainst_eq (s := s) (c := c) (i := i) motion htag hport
    rw [cycle] at decided
    have port := fun q => State.port_updPort s c.port q (fun q => { q with counters :=
      { q.counters with motionHeld := satInc q.counters.motionHeld } })
    have whole : gateDecision c s = holdAgainst c i s := by
      rw [run, entryDecision_inLength (fresh none) short ht, if_neg (mt (State.mayRelease_iff ht i).mp other)]
    refine ⟨_, whole.trans decided, ?_, fun q hq => ?_, fun has => ?_, fun has room => ?_, fun has full => ?_, ?_⟩
    · split_ifs <;> exact (port c.port).trans (if_pos rfl)
    · split_ifs <;> exact (port q).trans (if_neg hq)
    · rw [if_pos has]
      exact ⟨rfl, rfl⟩
    · rw [if_neg (not_not.mpr has), if_pos room]
      exact ⟨rfl, rfl⟩
    · rw [if_neg (not_not.mpr has), if_neg (not_lt.mpr full)]
      exact ⟨rfl, rfl⟩
    · split_ifs <;> rfl

end Sys2Proof.Machine
end

section
/-! Maps put in force on one port after the other: by a geometry that becomes active, or by a cycle boundary. -/

namespace Sys2Proof.Machine

/-- The kind of a slot depends on the BAD mark and the words of the active map alone. -/
theorem State.activeKind_of_words {s u : State} {p : PortIndex} {k : Nat} (hm : u.mapsOf p = s.mapsOf p)
    (h : u.word (256 + 3 * p.val + k / 16) = s.word (256 + 3 * p.val + k / 16)) : u.activeKind p k = s.activeKind p k := by
  unfold State.activeKind activeWord
  rw [State.data_of_word h, hm]

/-- The kind of a slot depends on the words of the pending map alone. -/
theorem State.pendingKind_of_words {s u : State} {p : PortIndex} {k : Nat}
    (h : u.word (280 + 3 * p.val + k / 16) = s.word (280 + 3 * p.val + k / 16)) : u.pendingKind p k = s.pendingKind p k := by
  unfold State.pendingKind pendingWord
  rw [State.data_of_word h]

/-- From `s` to `u` the active maps of the ports of the list to which `kinds` gives some have become these, with nothing
pending and no BAD mark, and what `reports` says has been raised. -/
structure MapSweep (kinds : PortIndex → Option (List SlotKind)) (reports : PortIndex → List EventEntry)
    (l : List PortIndex) (s u : State) : Prop where
  memory : MemoryInv u
  clean : s.cleanTable → u.cleanTable
  maps : ∀ q, u.mapsOf q = if q ∈ l ∧ (kinds q).isSome then ⟨false, none⟩ else s.mapsOf q
  active : ∀ q ∈ l, ∀ ks, kinds q = some ks → ∀ k, k < 48 → u.activeKind q k = ks[k]?.getD .openSlot
  words : ∀ k, (∀ q ∈ l, (kinds q).isSome → k < 256 + 3 * q.val ∨ 259 + 3 * q.val ≤ k) → u.word k = s.word k
  events : u.events = s.events.offers (l.flatMap reports)
  frame : { u with maps := s.maps, events := s.events, prot := { u.prot with memory := s.prot.memory } } = s

section
variable {kinds : PortIndex → Option (List SlotKind)} {reports : PortIndex → List EventEntry} {l : List PortIndex} {s u : State}

theorem MapSweep.timer (h : MapSweep kinds reports l s u) : u.timer = s.timer := (congrArg State.timer h.frame :)

/-- The words outside the active maps stay. -/
theorem MapSweep.outside (h : MapSweep kinds reports l s u) {k : Nat} (hk : k < 256 ∨ 280 ≤ k) : u.word k = s.word k :=
  h.words k fun q _ _ => by omega

theorem MapSweep.nil (h : MemoryInv s) : MapSweep kinds reports [] s s where
  memory := h
  clean := id
  maps := fun q => by simp
  active := fun q hq => by simp at hq
  words := fun _ _ => rfl
  events := rfl
  frame := rfl

/-- The maps of a port, and then those of others. -/
theorem MapSweep.cons {p : PortIndex} {t : State} (fresh : p ∉ l) (h : MapSweep kinds reports [p] s t)
    (k : MapSweep kinds reports l t u) : MapSweep kinds reports (p :: l) s u := by
  refine ⟨k.memory, fun c => k.clean (h.clean c), fun q => ?_, fun q hq ks hks n hn => ?_, fun n hn => ?_, ?_, ?_⟩
  · rw [k.maps, h.maps]
    by_cases hq : q = p
    · simp [hq, fresh]
    · simp [hq]
  · rcases List.mem_cons.mp hq with rfl | hq
    · have kept : u.mapsOf q = t.mapsOf q := by rw [k.maps, if_neg (fun e => fresh e.1)]
      rw [State.activeKind_of_words kept (k.words _ fun r hr _ => ?_)]
      · exact h.active q (by simp) ks hks n hn
      · have apart : r.val ≠ q.val := fun e => fresh (Fin.ext e ▸ hr)
        omega
    · exact k.active q hq ks hks n hn
  · rw [k.words n fun q hq => hn q (List.mem_cons_of_mem _ hq), h.words n fun q hq => hn q (by simp_all)]
  · rw [k.events, h.events, ← EventQueue.offers_append]
    simp
  · conv_rhs => rw [← h.frame, ← k.frame]

/-- A fold over ports of the list, where each step is such work on its port. -/
theorem mapSweep_foldl {f : State → PortIndex → State} {s₀ : State}
    (step : ∀ x p, MemoryInv x → (s₀.cleanTable → x.cleanTable) → x.timer = s₀.timer → x.mapsOf p = s₀.mapsOf p →
      (∀ k, 280 ≤ k → x.word k = s₀.word k) → MapSweep kinds reports [p] x (f x p))
    {l : List PortIndex} (once : l.Nodup) {s : State} (h : MemoryInv s) (hc : s₀.cleanTable → s.cleanTable)
    (ht : s.timer = s₀.timer) (hm : ∀ p ∈ l, s.mapsOf p = s₀.mapsOf p) (hw : ∀ k, 280 ≤ k → s.word k = s₀.word k) :
    MapSweep kinds reports l s (l.foldl f s) := by
  induction l generalizing s with
  | nil => exact MapSweep.nil h
  | cons p l ih =>
    rw [List.nodup_cons] at once
    have first := step s p h hc ht (hm p List.mem_cons_self) hw
    refine first.cons once.1 (ih once.2 first.memory (fun c => first.clean (hc c)) (first.timer.trans ht) (fun q hq => ?_)
      fun k hk => (first.outside (.inr hk)).trans (hw k hk))
    have other : q ≠ p := fun e => once.1 (e ▸ hq)
    rw [first.maps, if_neg (by simp [other])]
    exact hm q (List.mem_cons_of_mem _ hq)

/-- One port whose map is put in force. -/
theorem mapSweep_put (h : MemoryInv s) {p : PortIndex} {ks : List SlotKind} (hk : kinds p = some ks) :
    MapSweep kinds reports [p] s
      { (s.setMaps p ⟨false, none⟩).putActive p ks with events := s.events.offers (reports p) } := by
  have range : 256 + 3 * p.val + 2 < 1024 := by omega
  refine ⟨State.wf_putMap (s := s.setMaps p _) h range ks, fun c => State.clean_putMap (s := s.setMaps p _) h range ks c,
    fun q => ?_, fun q hq ks' hks n hn => ?_, fun n hn => ?_, by simp, ?_⟩
  · have kept := State.mapsOf_setMaps s p q ⟨false, none⟩
    simp only [List.mem_singleton]
    by_cases hq : q = p
    · subst hq
      rw [if_pos ⟨rfl, by rw [hk]; rfl⟩]
      exact kept.trans (if_pos rfl)
    · rw [if_neg (fun e => hq e.1)]
      exact kept.trans (if_neg hq)
  · obtain rfl : q = p := by simpa using hq
    obtain rfl : ks = ks' := Option.some.inj (hk.symm.trans hks)
    have good : (s.setMaps q ⟨false, none⟩).mapsOf q = ⟨false, none⟩ := State.mapsOf_setMaps_self s q _
    have kind := State.kind_putMap (s := s.setMaps q ⟨false, none⟩) h range ks hn
    have unmarked : (((s.setMaps q ⟨false, none⟩).putActive q ks).mapsOf q).bad = false := congrArg PortMaps.bad good
    show (if (((s.setMaps q ⟨false, none⟩).putActive q ks).mapsOf q).bad = true then SlotKind.closed else _) = _
    rw [unmarked]
    exact kind
  · exact State.word_putMap_of_other (s := s.setMaps p _) h range ks (by
      have := hn p (by simp) (by rw [hk]; rfl)
      omega)
  · have frame := State.putMap_frame (s.setMaps p ⟨false, none⟩) (256 + 3 * p.val) ks
    have whole := congrArg (fun x : State => { x with maps := s.maps }) frame
    exact whole

/-- One port whose maps stay. -/
theorem mapSweep_skip (h : MemoryInv s) {p : PortIndex} (hk : kinds p = none) (hr : reports p = []) :
    MapSweep kinds reports [p] s s := by
  refine ⟨h, id, fun q => ?_, fun q hq ks hks => ?_, fun _ _ => rfl, by simp [hr, EventQueue.offers_nil], rfl⟩
  · rw [if_neg]
    rintro ⟨hq, is⟩
    obtain rfl : q = p := by simpa using hq
    rw [hk] at is
    cases is
  · obtain rfl : q = p := by simpa using hq
    rw [hk] at hks
    cases hks

end

/-! ### A geometry that becomes active (R14, R37, R47) -/

/-- MAP_CANCELLED of a pending map that a geometry discards. -/
def State.cancelReports (s : State) (p : PortIndex) : List EventEntry :=
  ((s.mapsOf p).waiting.map (fun m =>
    portEvent .mapCancelled p s.cycleNumber (if m.committed then 0x101 else 0x001))).toList

theorem cancelEvent_eq (s : State) (p : PortIndex) (committed : Bool) :
    cancelEvent s p 1 committed = portEvent .mapCancelled p s.cycleNumber (if committed then 0x101 else 0x001) := by
  cases committed <;> rfl

theorem mapSweep_openMap (n : Nat) {s : State} (h : MemoryInv s) (p : PortIndex) :
    MapSweep (fun _ => some (List.replicate n .openSlot)) s.cancelReports [p] s (s.openMap n p) := by
  have put := mapSweep_put (reports := s.cancelReports) h (p := p)
    (kinds := fun _ => some (List.replicate n SlotKind.openSlot)) rfl
  have same : s.openMap n p = { (s.setMaps p ⟨false, none⟩).putActive p (List.replicate n .openSlot) with
      events := s.events.offers (s.cancelReports p) } := by
    unfold State.openMap State.cancelReports
    dsimp only
    cases (s.mapsOf p).waiting with
    | none => rfl
    | some m =>
      rw [Option.map_some, ← cancelEvent_eq]
      rfl
  rw [same]
  exact put

theorem mapSweep_openMaps (n : Nat) {s : State} (h : MemoryInv s) :
    MapSweep (fun _ => some (List.replicate n .openSlot)) s.cancelReports allPorts s (s.openMaps n) := by
  refine mapSweep_foldl (s₀ := s) (fun x p hx _ timer maps _ => ?_) nodup_allPorts h id rfl (fun _ _ => rfl) (fun _ _ => rfl)
  have reports : x.cancelReports p = s.cancelReports p := by
    unfold State.cancelReports State.cycleNumber
    rw [maps, timer]
  obtain ⟨memory, clean, maps, active, words, events, frame⟩ := mapSweep_openMap n hx p
  refine ⟨memory, clean, maps, active, words, ?_, frame⟩
  rw [events, List.flatMap_singleton, List.flatMap_singleton, reports]

/-- The events of a geometry, as the statements list them. -/
theorem State.geometryEvents_eq (s : State) (n : Nat) :
    s.geometryEvents n s.cycleNumber =
      allPorts.flatMap s.cancelReports ++ [⟨.geometryApplied, none, none, none, lowCycle s.cycleNumber, BitVec.ofNat 16 n⟩] := by
  unfold State.geometryEvents State.cancelReports
  rw [List.filterMap_eq_flatMap_toList]

/-- What becomes of the maps, and what is raised, where a geometry becomes active. -/
theorem announceGeometry_sweep {s : State} (h : MemoryInv s) (g : Geometry) :
    ∃ u, MapSweep (fun _ => some (List.replicate g.slots .openSlot)) s.cancelReports allPorts s u ∧
      s.announceGeometry g = { u with events := s.events.offers (s.geometryEvents g.slots s.cycleNumber) } := by
  have sweep := mapSweep_openMaps g.slots h
  refine ⟨_, sweep, ?_⟩
  have cycle : (s.openMaps g.slots).cycleNumber = s.cycleNumber := by unfold State.cycleNumber; rw [sweep.timer]
  rw [State.announceGeometry, State.raise, geometryEvent, cycle, s.geometryEvents_eq, EventQueue.offers_append, ← sweep.events]
  rfl

/-- Settles O20: the timer starts, and the maps of one port after the other open. -/
theorem setGeometryStartsTimer : Obligations.SetGeometryStartsTimer := by
  intro s n ticks hs memory stopped free low high length
  have valid : 2 ≤ n.toNat ∧ n.toNat ≤ 48 ∧ 500 ≤ ticks.toNat := ⟨low, high, length⟩
  have run : exec (.setGeometry n ticks) s = .next (setGeometryBody n ticks s.ended) := exec_of_ready hs rfl rfl nofun nofun
  have body : setGeometryBody n ticks s.ended = (s.ended.startTimer ⟨n.toNat, ticks.toNat⟩).respond 0x10 .ok [0x00] := by
    rw [setGeometryBody_of_free valid free.ended, setGeometryEffect, show s.ended.timer = none from stopped]
  have start := announceGeometry_sweep (s := { s.ended with timer := some ⟨⟨n.toNat, ticks.toNat⟩, none, 0, s.time, 0⟩ })
    memory ⟨n.toNat, ticks.toNat⟩
  obtain ⟨u, sweep, started⟩ := start
  rw [run, body]
  refine ⟨_, rfl, ?_⟩
  have whole : s.ended.startTimer ⟨n.toNat, ticks.toNat⟩ = _ := started
  rw [whole]
  refine ⟨sweep.timer, ?_, fun p => ⟨?_, fun k hk => ?_⟩, fun k hk => sweep.outside hk, rfl, ?_⟩
  · exact State.respond_link_of_resting (congrArg State.link sweep.frame :)
  · exact (sweep.maps p).trans (if_pos ⟨mem_allPorts p, rfl⟩)
  · refine (sweep.active p (mem_allPorts p) _ rfl k (by omega)).trans ?_
    rw [List.getElem?_replicate]
    split_ifs <;> rfl
  · have whole := congrArg (fun x : State => { x with timer := s.timer, link := s.link }) sweep.frame
    exact whole

end Sys2Proof.Machine
end

section
/-! The walks of several ports and slots one after the other, where no bit of table memory is wrong. -/

namespace Sys2Proof.Machine

/-- The entries that the walk of a pair visits, in their order (R79). -/
def State.visited (s : State) (x : PortIndex × Nat) : List EntryIndex := s.order.filter (s.inSlot x.1 x.2)

theorem State.mem_visited {s : State} {x : PortIndex × Nat} {i : EntryIndex} :
    i ∈ s.visited x ↔ i ∈ s.order ∧ s.inUse i = true ∧ (s.reservation i).port = x.1 ∧ (s.reservation i).slot.toNat = x.2 := by
  unfold State.visited
  rw [List.mem_filter, State.inSlot_iff]

theorem State.visited_apart {s : State} {x y : PortIndex × Nat} {i : EntryIndex} (hx : i ∈ s.visited x) (hy : i ∈ s.visited y) :
    x = y := by
  obtain ⟨-, -, port, slot⟩ := State.mem_visited.mp hx
  obtain ⟨-, -, port', slot'⟩ := State.mem_visited.mp hy
  exact Prod.ext (port.symm.trans port') (slot.symm.trans slot')

/-- The flag that a walk of the pair leaves: the entry does not fit after the earlier ones that were found to fit. -/
def State.misfits (s u : State) (g : Geometry) (x : PortIndex × Nat) (before : List EntryIndex) (i : EntryIndex) : Bool :=
  decide (slotBudget g s.lock (s.port x.1).settings x.2 <
    (((before.filter (fun j => !(u.reservation j).overbooked)).map (s.costAt x.1)).sum + s.costAt x.1 i : Nat))

/-- What the walks of these pairs raise, one pair after the other. -/
def State.walkEvents (s u : State) (x : PortIndex × Nat) : List EventEntry :=
  ((s.visited x).filter (fun i => (s.reservation i).overbooked != (u.reservation i).overbooked)).map (fun i =>
    s.tableEvent (if (u.reservation i).overbooked then .resOverbooked else .resReinstated) i s.cycleNumber
      (min (s.costAt x.1 i) 0xFFFF))

/-- What the walks of these pairs do, one after the other. -/
structure Walks (s u : State) (g : Geometry) (pairs : List (PortIndex × Nat)) : Prop where
  memory : MemoryInv u
  clean : u.cleanTable
  reworked : Reworked s u
  reservation : ∀ x ∈ pairs, ∀ before i after, s.visited x = before ++ i :: after →
    u.reservation i = { s.reservation i with
      cost := BitVec.ofNat 23 (s.costAt x.1 i), overbooked := s.misfits u g x before i }
  other : ∀ i, (∀ x ∈ pairs, i ∉ s.visited x) → u.reservation i = s.reservation i
  words : ∀ n, 256 ≤ n → u.word n = s.word n
  records : u.holds.records =
    s.holds.records.filter (fun r => !(!(s.reservation r.entry).overbooked && (u.reservation r.entry).overbooked))
  events : u.events = s.events.offers (pairs.flatMap (s.walkEvents u))

section
variable {s t u : State} {g : Geometry} {pairs : List (PortIndex × Nat)}

theorem Walks.nil (h : MemoryInv s) (hc : s.cleanTable) : Walks s s g [] where
  memory := h
  clean := hc
  reworked := Reworked.refl s
  reservation := fun x hx => by simp at hx
  other := fun _ _ => rfl
  words := fun _ _ => rfl
  records := by simp
  events := rfl

/-- The walk of one pair. -/
theorem walks_walk {c : Timer} (h : MemoryInv s) (hc : s.cleanTable) (once : s.order.Nodup) (ht : s.timer = some c)
    (x : PortIndex × Nat) : Walks s (s.walk x.1 x.2) c.geometry [x] := by
  have v := visits_walk h hc once ht x.1 x.2
  have single : ∀ i, (∀ y ∈ [x], i ∉ s.visited y) ↔ i ∉ s.visited x := fun i => by simp
  refine ⟨v.memory, v.clean, v.reworked, fun y hy before i after e => ?_, fun i hi => v.other i ((single i).mp hi), v.words,
    ?_, ?_⟩
  · obtain rfl : y = x := by simpa using hy
    rw [v.reservation before i after e, zero_add]
    rfl
  · rw [v.records]
    refine List.filter_congr fun r _ => ?_
    by_cases visited : r.entry ∈ s.visited x
    · have : r.entry ∈ s.order.filter (s.inSlot x.1 x.2) := visited
      simp [this]
    · have : r.entry ∉ s.order.filter (s.inSlot x.1 x.2) := visited
      simp [this, v.other r.entry this]
  · rw [v.events, List.flatMap_singleton]
    rfl

/-- Walks change the cost and the flag of an entry, and nothing else of it. -/
theorem Walks.fixed (w : Walks s u g pairs) (i : EntryIndex) :
    ∃ cost full, u.reservation i = { s.reservation i with cost := cost, overbooked := full } := by
  by_cases visited : ∃ x ∈ pairs, i ∈ s.visited x
  · obtain ⟨x, hx, hi⟩ := visited
    obtain ⟨before, after, e⟩ := List.append_of_mem hi
    exact ⟨_, _, w.reservation x hx before i after e⟩
  · push Not at visited
    exact ⟨_, _, w.other i visited⟩

theorem Walks.inSlot (w : Walks s u g pairs) : u.inSlot = s.inSlot := by
  funext p k i
  obtain ⟨cost, full, e⟩ := w.fixed i
  unfold State.inSlot
  rw [w.reworked.inUse, e]

theorem Walks.visited (w : Walks s u g pairs) : u.visited = s.visited := by
  funext x
  unfold State.visited
  rw [w.inSlot, w.reworked.order]

theorem Walks.costAt (w : Walks s u g pairs) : u.costAt = s.costAt := by
  funext p i
  obtain ⟨cost, full, e⟩ := w.fixed i
  unfold State.costAt
  rw [w.reworked.port, e]

theorem Walks.tableEvent (w : Walks s u g pairs) (kind : EventKind) (i : EntryIndex) (cycle : CycleNumber) (d : Nat) :
    u.tableEvent kind i cycle d = s.tableEvent kind i cycle d := by
  obtain ⟨cost, full, e⟩ := w.fixed i
  unfold State.tableEvent
  rw [e]

/-- The walk of a pair, and then those of others. -/
theorem Walks.cons {x : PortIndex × Nat} (fresh : x ∉ pairs) (v : Walks s t g [x]) (w : Walks t u g pairs) :
    Walks s u g (x :: pairs) := by
  have later : ∀ i, i ∉ s.visited x → t.reservation i = s.reservation i := fun i hi => v.other i (by simpa using hi)
  have settled : ∀ i, i ∈ s.visited x → u.reservation i = t.reservation i := fun i hi =>
    w.other i fun y hy hi' => by
      rw [v.visited] at hi'
      exact fresh (State.visited_apart hi hi' ▸ hy)
  have apart : ∀ y ∈ pairs, ∀ i ∈ s.visited y, i ∉ s.visited x := fun y hy i hi hi' =>
    fresh (State.visited_apart hi' hi ▸ hy)
  refine ⟨w.memory, w.clean, v.reworked.trans w.reworked, fun y hy before i after e => ?_, fun i hi => ?_, fun n hn => ?_,
    ?_, ?_⟩
  · have inBefore : ∀ j ∈ before, j ∈ s.visited y := fun j hj => e ▸ List.mem_append_left _ hj
    have mem : i ∈ s.visited y := e ▸ List.mem_append_right _ List.mem_cons_self
    rcases List.mem_cons.mp hy with rfl | hy
    · rw [settled i mem, v.reservation y (by simp) before i after e]
      have flags : before.filter (fun j => !(t.reservation j).overbooked) = before.filter (fun j => !(u.reservation j).overbooked) :=
        List.filter_congr fun j hj => by rw [settled j (inBefore j hj)]
      unfold State.misfits
      rw [flags]
    · have e' : t.visited y = before ++ i :: after := by rw [v.visited]; exact e
      rw [w.reservation y hy before i after e', later i (apart y hy i mem), State.misfits, State.misfits, v.costAt,
        v.reworked.lock, v.reworked.port]
  · rw [w.other i fun y hy => by rw [v.visited]; exact hi y (List.mem_cons_of_mem _ hy), later i (hi x List.mem_cons_self)]
  · rw [w.words n hn, v.words n hn]
  · rw [w.records, v.records, List.filter_filter]
    refine List.filter_congr fun r _ => ?_
    by_cases here : r.entry ∈ s.visited x
    · rw [settled _ here]
      simp
    · rw [later _ here]
      simp
  · rw [w.events, v.events, ← EventQueue.offers_append, List.flatMap_singleton, List.flatMap_cons]
    congr 1
    congr 1
    · unfold State.walkEvents
      have flags : (s.visited x).filter (fun i => (s.reservation i).overbooked != (t.reservation i).overbooked) =
          (s.visited x).filter (fun i => (s.reservation i).overbooked != (u.reservation i).overbooked) :=
        List.filter_congr fun i hi => by rw [settled i hi]
      rw [flags]
      exact List.map_congr_left fun i hi => by rw [settled i (List.mem_filter.mp hi).1]
    · refine List.flatMap_congr fun y hy => ?_
      unfold State.walkEvents
      have flags : (t.visited y).filter (fun i => (t.reservation i).overbooked != (u.reservation i).overbooked) =
          (s.visited y).filter (fun i => (s.reservation i).overbooked != (u.reservation i).overbooked) := by
        rw [v.visited]
        exact List.filter_congr fun i hi => by rw [later i (apart y hy i hi)]
      rw [flags, v.costAt, v.reworked.cycleNumber]
      exact List.map_congr_left fun i _ => v.tableEvent _ _ _ _

/-- Walks of pairs that differ. -/
theorem walks_foldl {c : Timer} (h : MemoryInv s) (hc : s.cleanTable) (once : s.order.Nodup) (ht : s.timer = some c)
    (distinct : pairs.Nodup) : Walks s (pairs.foldl (fun s x => s.walk x.1 x.2) s) c.geometry pairs := by
  induction pairs generalizing s with
  | nil => exact Walks.nil h hc
  | cons x pairs ih =>
    rw [List.nodup_cons] at distinct
    have v := walks_walk h hc once ht x
    exact v.cons distinct.1 (ih v.memory v.clean (v.reworked.order ▸ once) (v.reworked.timer.trans ht) distinct.2)

end

end Sys2Proof.Machine
end

section
/-! SET_SYNC and SET_PORT. -/

namespace Sys2Proof.Machine

/-! ### The operands of SET_SYNC (R19) -/

/-- The values that SET_SYNC accepts, for a cycle of c ticks, but for the ring of the port. -/
def SyncAccepted (c : Nat) (port : Byte) (tag : BitVec 16) (phi tolerance : BitVec 24) (maxStep limit : Byte) : Prop :=
  (port.toNat < 8 ∨ port = 0xFF) ∧ tag.toNat < 4096 ∧ phi.toNat + 1 ≤ c ∧ 1 ≤ tolerance.toNat ∧ tolerance.toNat + 1 ≤ c / 2 ∧
    1 ≤ maxStep.toNat ∧ 1 ≤ limit.toNat

theorem rangeOperand_byte {b : Byte} (h : 1 ≤ b.toNat) : rangeOperand 1 255 b = some b.toNat :=
  if_pos ⟨h, Nat.le_of_lt_succ b.isLt⟩

theorem syncPortOperand_eq_some {port : Byte} {sp : Option PortIndex} (h : syncPortOperand port = some sp) :
    (port.toNat < 8 ∨ port = 0xFF) ∧ (sp = none ↔ port = 0xFF) ∧ ∀ p, sp = some p → p.val = port.toNat := by
  unfold syncPortOperand at h
  split_ifs at h with none
  · obtain rfl := Option.some.inj h
    exact ⟨.inr none, by simp [none], nofun⟩
  · obtain ⟨p, hp, rfl⟩ := Option.map_eq_some_iff.mp h
    have low : port.toNat < 8 := by
      by_contra out
      rw [portOperand_eq_none (Nat.not_lt.mp out)] at hp
      cases hp
    rw [portOperand_eq_some (p := ⟨port.toNat, low⟩) rfl] at hp
    obtain rfl := Option.some.inj hp
    refine ⟨.inl low, by simp [none], fun q hq => ?_⟩
    obtain rfl := Option.some.inj hq
    rfl

theorem syncPortOperand_accepted {port : Byte} (h : port.toNat < 8 ∨ port = 0xFF) : ∃ sp, syncPortOperand port = some sp := by
  rcases h with low | rfl
  · have other : port ≠ 0xFF#8 := by rintro rfl; exact absurd low (by decide)
    exact ⟨some ⟨port.toNat, low⟩, by rw [syncPortOperand, if_neg other, portOperand_eq_some (p := ⟨port.toNat, low⟩) rfl]; rfl⟩
  · exact ⟨none, rfl⟩

section
variable {c : Nat} {port : Byte} {tag : BitVec 16} {phi tolerance : BitVec 24} {maxStep limit : Byte}

theorem syncOperand_eq_some (h : SyncAccepted c port tag phi tolerance maxStep limit) {sp : Option PortIndex}
    (hsp : syncPortOperand port = some sp) :
    syncOperand c port tag phi tolerance maxStep limit =
      some ⟨sp, tag.setWidth 12, phi.toNat, tolerance.toNat, maxStep.toNat, limit.toNat⟩ := by
  obtain ⟨-, htag, hphi, low, high, step, hold⟩ := h
  simp only [syncOperand, hsp, tagOperand, if_pos htag, if_pos hphi, if_pos (And.intro low high), rangeOperand_byte step,
    rangeOperand_byte hold]
  rfl

theorem syncOperand_eq_none (h : ¬ SyncAccepted c port tag phi tolerance maxStep limit) :
    syncOperand c port tag phi tolerance maxStep limit = none := by
  by_contra some
  obtain ⟨a, ha⟩ := Option.ne_none_iff_exists'.mp some
  simp only [syncOperand, Option.bind_eq_bind, Option.bind_eq_some_iff] at ha
  obtain ⟨sp, hsp, t, ht, rest⟩ := ha
  split_ifs at rest with hphi htol htol
  · simp only [Option.bind_some, Option.bind_eq_some_iff] at rest
    obtain ⟨m, hm, l, hl, -⟩ := rest
    exact h ⟨(syncPortOperand_eq_some hsp).1, (Option.ite_none_right_eq_some.mp ht).1, hphi, htol.1, htol.2,
      (Option.ite_none_right_eq_some.mp hm).1.1, (Option.ite_none_right_eq_some.mp hl).1.1⟩
  all_goals cases rest

end

/-! ### SET_SYNC (R19, R20) -/

theorem State.syncRingValid_iff (s : State) {port : Byte} {sp : Option PortIndex} (h : syncPortOperand port = some sp) :
    s.syncRingValid sp = true ↔ ∀ p : PortIndex, port.toNat = p.val → s.ringValid (ringIndex p 4) = true := by
  obtain ⟨-, none, some⟩ := syncPortOperand_eq_some h
  cases sp with
  | none =>
    have high : port = 0xFF := none.mp rfl
    refine ⟨fun _ p hp => ?_, fun _ => rfl⟩
    rw [high] at hp
    exact absurd p.isLt (by rw [← hp]; decide)
  | some q =>
    have same := some q rfl
    refine ⟨fun valid p hp => ?_, fun valid => valid q same.symm⟩
    obtain rfl : p = q := Fin.ext (hp.symm.trans same.symm)
    exact valid

theorem State.hasLock_iff (s : State) : s.hasLock = true ↔ s.lock.state = .locked ∨ s.lock.state = .holdover := by
  simp [State.hasLock]

/-- While the timer runs, the last slot whose walk is next stays the same. -/
theorem foldl_walkLast {s : State} {t : Timer} (ht : s.timer = some t) (l : List PortIndex) :
    l.foldl (fun s p => State.walk s p (s.slotCount - 1)) s = l.foldl (fun s p => s.walk p (t.geometry.slots - 1)) s := by
  induction l generalizing s with
  | nil => rfl
  | cons p l ih =>
    have count : s.slotCount = t.geometry.slots := by simp [State.slotCount, ht]
    rw [List.foldl_cons, List.foldl_cons, count]
    exact ih ((kept_walk s p _).timer.trans ht)

theorem State.respond_eq_answered {s : State} {r : ResponseRecord} (h : s.link = restingLink r) (code : Byte) (status : Status)
    (result : List Byte) : s.respond code status result = s.answered code status result := by
  unfold State.respond State.answered
  rw [h]
  rfl

theorem setSyncBody_of_bad {s : State} {t : Timer} (ht : s.timer = some t) {port : Byte} {tag : BitVec 16}
    {phi tolerance : BitVec 24} {maxStep limit : Byte}
    (h : ¬ (SyncAccepted t.geometry.cycleTicks port tag phi tolerance maxStep limit ∧
      ∀ p : PortIndex, port.toNat = p.val → s.ringValid (ringIndex p 4) = true)) :
    setSyncBody port tag phi tolerance maxStep limit s = s.respond 0x11 .badArgument [] := by
  simp only [setSyncBody, ht]
  by_cases accepted : SyncAccepted t.geometry.cycleTicks port tag phi tolerance maxStep limit
  · obtain ⟨sp, hsp⟩ := syncPortOperand_accepted accepted.1
    have invalid : ¬ s.syncRingValid sp = true := fun valid => h ⟨accepted, (s.syncRingValid_iff hsp).mp valid⟩
    simp only [syncOperand_eq_some accepted hsp, if_neg invalid]
  · simp only [syncOperand_eq_none accepted]

/-- The state of SET_SYNC before its walks: the lock as configured, and a lock that was held reported lost. -/
def State.syncReported (s : State) (set : SyncSettings) : State :=
  let v := { s with lock := s.lock.configured set }
  if s.hasLock then v.reportLockLoss.raise (lockEvent .lockLost s.lock s.cycleNumber (detail 1)) else v

/-- What the report of a lost lock leaves as it was. -/
theorem State.syncReported_frame (s : State) (set : SyncSettings) :
    (s.syncReported set).timer = s.timer ∧ (s.syncReported set).order = s.order ∧ (s.syncReported set).time = s.time ∧
      (s.syncReported set).pending = s.pending ∧ (s.syncReported set).lock = s.lock.configured set ∧
      (s.syncReported set).link = s.link := by
  have lost := (sweep_reportLockLoss { s with lock := s.lock.configured set }).frame
  unfold State.syncReported
  dsimp only
  split_ifs
  · exact ⟨(congrArg State.timer lost :), (congrArg State.order lost :), (congrArg State.time lost :),
      (congrArg State.pending lost :), (congrArg State.lock lost :), (congrArg State.link lost :)⟩
  · exact ⟨rfl, rfl, rfl, rfl, rfl, rfl⟩

/-- SET_SYNC that is taken: the report, the walks, the answer. -/
theorem setSyncEffect_eq {s : State} {t : Timer} (ht : s.timer = some t) {r : ResponseRecord} (hl : s.link = restingLink r)
    (set : SyncSettings) :
    setSyncEffect set s =
      (allPorts.foldl (fun x p => x.walk p (t.geometry.slots - 1)) (s.syncReported set)).answered 0x11 .ok
        [s.lock.state.byte] := by
  obtain ⟨timer, -, -, -, -, link⟩ := s.syncReported_frame set
  have walked : Kept (s.syncReported set)
      (allPorts.foldl (fun x p => x.walk p (t.geometry.slots - 1)) (s.syncReported set)) :=
    kept_foldl _ (fun x p => kept_walk x p _) allPorts _
  rw [← State.respond_eq_answered (walked.link.trans (link.trans hl)), ← foldl_walkLast (timer.trans ht)]
  have reported : s.syncReported set =
      if s.hasLock then (s.setLock (s.lock.configured set)).reportLockLoss.raise
        (lockEvent .lockLost s.lock (s.setLock (s.lock.configured set)).cycleNumber (detail 1))
      else s.setLock (s.lock.configured set) := rfl
  unfold setSyncEffect State.walkLastSlots
  dsimp only
  rw [reported]

/-- Settles O22, by the checks and the effect of R20. -/
theorem setSyncStoresSettings : Obligations.SetSyncStoresSettings := by
  intro s port tag phi tolerance maxStep limit hs
  have run : exec (.setSync port tag phi tolerance maxStep limit) s =
      .next (setSyncBody port tag phi tolerance maxStep limit s.ended) := exec_of_ready hs rfl rfl nofun nofun
  rw [run]
  refine ⟨fun stopped => ?_, fun t ht => ?_⟩
  · have stopped' : s.ended.timer = none := stopped
    exact congrArg Host.Outcome.next (by simp only [setSyncBody, stopped']; rfl)
  · have running : s.ended.timer = some t := ht
    intro c valid
    have parts : valid ↔ SyncAccepted c port tag phi tolerance maxStep limit ∧
        ∀ p : PortIndex, port.toNat = p.val → s.ended.ringValid (ringIndex p 4) = true := by
      unfold SyncAccepted
      simp only [and_assoc]
      rfl
    refine ⟨fun bad => congrArg Host.Outcome.next (setSyncBody_of_bad running (mt parts.mpr bad)), fun ok => ?_⟩
    obtain ⟨accepted, ring⟩ := parts.mp ok
    obtain ⟨sp, hsp⟩ := syncPortOperand_accepted accepted.1
    obtain ⟨-, noPort, onPort⟩ := syncPortOperand_eq_some hsp
    have accepted' : SyncAccepted t.geometry.cycleTicks port tag phi tolerance maxStep limit := accepted
    obtain ⟨given, hgiven⟩ : ∃ given : SyncSettings,
      given = ⟨sp, tag.setWidth 12, phi.toNat, tolerance.toNat, maxStep.toNat, limit.toNat⟩ := ⟨_, rfl⟩
    have body : setSyncBody port tag phi tolerance maxStep limit s.ended = setSyncEffect given s.ended := by
      simp only [setSyncBody, running, syncOperand_eq_some accepted' hsp, hgiven]
      exact if_pos ((s.ended.syncRingValid_iff hsp).mpr ring)
    have effect := setSyncEffect_eq running (r := s.link.record) rfl given
    obtain ⟨timer, order, time, pending, lock, -⟩ := s.ended.syncReported_frame given
    have walked : Kept (s.ended.syncReported given)
        (allPorts.foldl (fun x p => x.walk p (t.geometry.slots - 1)) (s.ended.syncReported given)) :=
      kept_foldl _ (fun x p => kept_walk x p _) allPorts _
    rw [body, effect]
    generalize hu : allPorts.foldl (fun x p => x.walk p (t.geometry.slots - 1)) (s.ended.syncReported given) = u at walked
    have set : u.lock = s.lock.configured given := walked.lock.trans lock
    have onlyPort : u.lock.port = sp := by rw [set, hgiven]; rfl
    refine ⟨_, rfl, rfl, ?_, ?_, ?_, walked.timer.trans timer, walked.time.trans time, walked.order.trans order,
      walked.pending.trans pending, ?_⟩
    · exact (iff_of_eq (congrArg (· = none) onlyPort)).trans noPort
    · exact fun p hp => onPort p (onlyPort.symm.trans hp)
    · have state : (if sp.isSome then LockState.acquiring else .free) = if port = 0xFF then .free else .acquiring := by
        cases sp with
        | none => exact (if_pos (noPort.mp rfl)).symm
        | some p => exact (if_neg fun high => nomatch noPort.mpr high).symm
      show u.lock = { state := _, port := u.lock.port, .. }
      rw [onlyPort, set, hgiven, ← state]
      rfl
    · intro v w
      have hv : v = { s.ended with lock := s.ended.lock.configured given } :=
        congrArg (fun l => { s.ended with lock := l }) set
      have same : w = s.ended.syncReported given := by
        have cycle : s.ended.cycleNumber = t.cycle := by simp [State.cycleNumber, running]
        rw [State.syncReported, ← hv, cycle]
        by_cases held : s.lock.state = .locked ∨ s.lock.state = .holdover
        · rw [if_pos (s.ended.hasLock_iff.mpr held)]
          exact if_pos held
        · rw [if_neg (mt s.ended.hasLock_iff.mp held)]
          exact if_neg held
      rw [same, hu]
      rfl

/-! ### The operands of SET_PORT (R116) -/

/-- The values that SET_PORT accepts, but for the port. -/
def SettingsAccepted (rate extra : Byte) (lead guard frame : BitVec 16) (mode lock reclaim policy stale silence : Byte) : Prop :=
  rate.toNat < 4 ∧ extra.toNat ≤ 32 ∧ lead.toNat ≤ 1023 ∧ guard.toNat ≤ 4095
    ∧ 64 ≤ frame.toNat ∧ frame.toNat ≤ 16383 ∧ mode.toNat < 2 ∧ lock.toNat < 2 ∧ reclaim.toNat < 2 ∧ policy.toNat < 2
    ∧ 1 ≤ stale.toNat ∧ stale.toNat ≤ 15 ∧ 1 ≤ silence.toNat

/-- The settings that accepted values stand for. -/
def settingsOf (rate extra : Byte) (lead guard frame : BitVec 16) (mode lock reclaim policy stale silence : Byte) : Settings where
  rate := match rate.toNat with | 0 => .rate10M | 1 => .rate100M | 2 => .rate1G | _ => .rate2G5
  extra := extra.toNat
  lead := lead.toNat
  guard := guard.toNat
  maxFrame := frame.toNat
  failMode := if mode = 0x00 then .passAll else .motionOnly
  requireLock := decide (lock = 0x01)
  reclaim := decide (reclaim = 0x01)
  unreserved := if policy = 0x00 then .asGeneral else .drop
  stale := stale.toNat
  silence := silence.toNat

theorem rateOperand_eq_some {b : Byte} (h : b.toNat < 4) :
    rateOperand b = some (match b.toNat with | 0 => .rate10M | 1 => .rate100M | 2 => .rate1G | _ => .rate2G5) := by
  obtain rfl | rfl | rfl | rfl : b = 0 ∨ b = 1 ∨ b = 2 ∨ b = 3 := by bv_omega
  all_goals rfl

theorem rateOperand_accepted {b : Byte} {r : Rate} (h : rateOperand b = some r) : b.toNat < 4 := by
  unfold rateOperand at h
  split_ifs at h with zero one two three
  all_goals subst_vars; decide

theorem flagOperand_accepted {b : Byte} {on : Bool} (h : flagOperand b = some on) : b.toNat < 2 := by
  unfold flagOperand at h
  split_ifs at h with zero one
  all_goals subst_vars; decide

theorem failModeOperand_eq_some {b : Byte} (h : b.toNat < 2) :
    failModeOperand b = some (if b = 0x00 then .passAll else .motionOnly) := by
  obtain rfl | rfl : b = 0 ∨ b = 1 := by bv_omega
  all_goals rfl

theorem policyOperand_eq_some {b : Byte} (h : b.toNat < 2) : policyOperand b = some (if b = 0x00 then .asGeneral else .drop) := by
  obtain rfl | rfl : b = 0 ∨ b = 1 := by bv_omega
  all_goals rfl

section
variable {rate extra : Byte} {lead guard frame : BitVec 16} {mode lock reclaim policy stale silence : Byte}

theorem settingsOperand_eq_some (h : SettingsAccepted rate extra lead guard frame mode lock reclaim policy stale silence) :
    settingsOperand rate extra lead guard frame mode lock reclaim policy stale silence =
      some (settingsOf rate extra lead guard frame mode lock reclaim policy stale silence) := by
  obtain ⟨hrate, hextra, hlead, hguard, short, long, hmode, hlock, hreclaim, hpolicy, low, high, hsilence⟩ := h
  simp only [settingsOperand, rateOperand_eq_some hrate, rangeOperand, if_pos (And.intro (Nat.zero_le extra.toNat) hextra),
    if_pos (And.intro (Nat.zero_le lead.toNat) hlead), if_pos (And.intro (Nat.zero_le guard.toNat) hguard),
    if_pos (And.intro short long), failModeOperand_eq_some hmode, flagOperand_eq_some (Nat.le_of_lt_succ hlock), flagOperand_eq_some (Nat.le_of_lt_succ hreclaim),
    policyOperand_eq_some hpolicy, if_pos (And.intro low high), if_pos (And.intro hsilence (Nat.le_of_lt_succ silence.isLt))]
  rfl

theorem settingsOperand_eq_none (h : ¬ SettingsAccepted rate extra lead guard frame mode lock reclaim policy stale silence) :
    settingsOperand rate extra lead guard frame mode lock reclaim policy stale silence = none := by
  by_contra some
  obtain ⟨a, ha⟩ := Option.ne_none_iff_exists'.mp some
  simp only [settingsOperand, Option.bind_eq_bind, Option.bind_eq_some_iff, failModeOperand, policyOperand,
    Option.map_eq_some_iff] at ha
  obtain ⟨_, hrate, _, hextra, _, hlead, _, hguard, _, hframe, _, ⟨_, hmode, -⟩, _, hlock, _, hreclaim, _, ⟨_, hpolicy, -⟩,
    _, hstale, _, hsilence, -⟩ := ha
  obtain ⟨short, long⟩ := (Option.ite_none_right_eq_some.mp hframe).1
  obtain ⟨low, high⟩ := (Option.ite_none_right_eq_some.mp hstale).1
  exact h ⟨rateOperand_accepted hrate, (Option.ite_none_right_eq_some.mp hextra).1.2,
    (Option.ite_none_right_eq_some.mp hlead).1.2, (Option.ite_none_right_eq_some.mp hguard).1.2, short, long,
    flagOperand_accepted hmode, flagOperand_accepted hlock, flagOperand_accepted hreclaim, flagOperand_accepted hpolicy,
    low, high, (Option.ite_none_right_eq_some.mp hsilence).1.1⟩

end

/-! ### SET_PORT (R117) -/

theorem budgetInputsDiffer_eq_false (a b : Settings) :
    budgetInputsDiffer a b = false ↔ a.rate = b.rate ∧ a.extra = b.extra ∧ a.lead = b.lead ∧ a.guard = b.guard := by
  simp [budgetInputsDiffer, and_assoc]

/-- The slots of a port, as pairs. -/
def slotsOf (p : PortIndex) (n : Nat) : List (PortIndex × Nat) := (List.range n).map (fun k => (p, k))

theorem nodup_slotsOf (p : PortIndex) (n : Nat) : (slotsOf p n).Nodup :=
  List.nodup_range.map fun _ _ e => (Prod.mk.inj e).2

theorem mem_slotsOf {p : PortIndex} {n : Nat} {x : PortIndex × Nat} : x ∈ slotsOf p n ↔ x.1 = p ∧ x.2 < n := by
  obtain ⟨q, k⟩ := x
  simp [slotsOf, eq_comm, and_comm]

theorem State.walkPort_eq (s : State) (p : PortIndex) :
    s.walkPort p = (slotsOf p s.slotCount).foldl (fun s x => s.walk x.1 x.2) s := by
  rw [State.walkPort, slotsOf, List.foldl_map]

/-- Where the admission order list is sound, an entry in use stands in it. -/
theorem OrderInv.mem_of_inUse {s : State} (h : OrderInv s) {i : EntryIndex} (hi : s.inUse i = true) : i ∈ s.order := by
  rw [h.exact]
  intro free
  rw [State.inUse, free] at hi
  cases hi

/-- The walks of a port leave its entries with their costs computed anew. -/
theorem walkPort_reservation {s : State} {t : Timer} (memory : MemoryInv s) (clean : s.cleanTable) (order : OrderInv s)
    (ht : s.timer = some t) {p : PortIndex} {i : EntryIndex} (hi : s.inUse i = true) (hp : (s.reservation i).port = p)
    (hk : (s.reservation i).slot.toNat < t.geometry.slots) :
    (s.walkPort p).reservation i = { s.reservation i with
      overbooked := ((s.walkPort p).reservation i).overbooked, cost := BitVec.ofNat 23 (s.costAt p i) } := by
  have count : s.slotCount = t.geometry.slots := by simp [State.slotCount, ht]
  have w := walks_foldl (pairs := slotsOf p s.slotCount) memory clean order.once ht (nodup_slotsOf _ _)
  rw [← State.walkPort_eq] at w
  have pair : (p, (s.reservation i).slot.toNat) ∈ slotsOf p s.slotCount := mem_slotsOf.mpr ⟨rfl, by rw [count]; exact hk⟩
  have visited : i ∈ s.visited (p, (s.reservation i).slot.toNat) :=
    State.mem_visited.mpr ⟨order.mem_of_inUse hi, hi, hp, rfl⟩
  obtain ⟨before, after, e⟩ := List.append_of_mem visited
  rw [w.reservation _ pair before i after e]

theorem reworked_walkPort {s : State} (memory : MemoryInv s) (clean : s.cleanTable) (order : OrderInv s) (p : PortIndex) :
    Reworked s (s.walkPort p) := by
  rw [State.walkPort_eq]
  cases ht : s.timer with
  | none =>
    have count : s.slotCount = 0 := by simp [State.slotCount, ht]
    rw [count]
    exact Reworked.refl s
  | some t => exact (walks_foldl memory clean order.once ht (nodup_slotsOf _ _)).reworked

/-- Settles O42: the settings are replaced, and the walks of the port follow where a budget input changed. -/
theorem setPortReplacesSettings : Obligations.SetPortReplacesSettings := by
  intro s port rate extra lead guard frame mode lock reclaim policy stale silence hs memory clean order valid
  have run : exec (.setPort port rate extra lead guard frame mode lock reclaim policy stale silence) s =
      .next (setPortBody port (settingsOperand rate extra lead guard frame mode lock reclaim policy stale silence) s.ended) :=
    exec_of_ready hs rfl rfl nofun nofun
  have parts : valid ↔ port.toNat < 8 ∧ SettingsAccepted rate extra lead guard frame mode lock reclaim policy stale silence :=
    Iff.rfl
  rw [run]
  refine ⟨fun bad => ?_, ?_⟩
  · refine congrArg Host.Outcome.next ?_
    by_cases low : port.toNat < 8
    · simp only [setPortBody, settingsOperand_eq_none fun accepted => bad ⟨low, accepted⟩]
      cases portOperand port <;> rfl
    · simp only [setPortBody, portOperand_eq_none (Nat.not_lt.mp low)]
      rfl
  · intro ok p hp old new
    have body : setPortBody port (settingsOperand rate extra lead guard frame mode lock reclaim policy stale silence) s.ended =
        setPortEffect p new s.ended := by
      simp only [setPortBody, settingsOperand_eq_some (parts.mp ok).2, portOperand_eq_some hp]
      rfl
    rw [body]
    intro same
    have differ : budgetInputsDiffer old new = false ↔ same := budgetInputsDiffer_eq_false old new
    refine ⟨fun equal => ?_, fun other => ?_⟩
    · have unchanged : budgetInputsDiffer (s.ended.port p).settings new = false := differ.mpr equal
      simp only [setPortEffect, unchanged]
      rfl
    · have changed : budgetInputsDiffer (s.ended.port p).settings new = true := by
        rw [← Bool.not_eq_false]
        exact mt differ.mp other
      obtain ⟨v, hv⟩ : ∃ v, v = s.ended.updPort p (fun q => { q with settings := new }) := ⟨_, rfl⟩
      have effect : setPortEffect p new s.ended = (v.walkPort p).respond 0x50 .ok [0x01] := by
        rw [hv]
        simp only [setPortEffect, changed, if_true]
        rfl
      have memory' : MemoryInv v := by rw [hv]; exact memory
      have clean' : v.cleanTable := by rw [hv]; exact clean
      have order' : OrderInv v := by rw [hv]; exact ⟨order.once, order.exact⟩
      have reworked := reworked_walkPort memory' clean' order' p
      have port : ∀ q, (v.walkPort p).port q = if q = p then { s.port p with settings := new } else s.port q := fun q => by
        rw [reworked.port, hv]
        exact State.port_updPort s.ended p q _
      have link : (v.walkPort p).link = restingLink s.link.record := by
        rw [(kept_walkPort v p).link, hv]
        rfl
      refine ⟨_, congrArg Host.Outcome.next effect, (port p).trans (if_pos rfl), fun q hq => (port q).trans (if_neg hq),
        fun i => ?_, fun t ht i hi hip hik => ?_, State.respond_link_of_resting link, ?_, ?_⟩
      · exact (reworked.entry i).trans (by rw [hv]; rfl)
      · have ht' : v.timer = some t := by rw [hv]; exact ht
        have res : v.reservation i = s.reservation i := by rw [hv]; rfl
        have cost : v.costAt p i = (s.reservation i).frames.toNat * duration new (s.reservation i).maxLength.toNat := by
          have set : (v.port p).settings = new := by
            rw [hv]
            exact congrArg Port.settings (State.port_updPort_self s.ended p _)
          rw [State.costAt, set, res]
        have walked := walkPort_reservation (p := p) (i := i) memory' clean' order' ht' (by rw [hv]; exact hi)
          (by rw [res]; exact hip) (by rw [res]; exact hik)
        rw [cost, res] at walked
        exact walked
      · rw [State.respond_eq_answered link, State.walkPort, hv]
        rfl
      · have whole := congrArg (fun x : State => { x with ports := s.ports, link := s.link }) reworked.frame
        subst hv
        exact whole

end Sys2Proof.Machine
end

section
/-! What the budgets of the slots depend on, and what leaves it as it was, or less of it, where no bit of table memory is
wrong. -/

namespace Sys2Proof.Machine

/-! ### Less to count -/

/-- Table memory stays sound, and of what the budgets depend on nothing is there in `u` that was not there in `s`: entries
in use keep the fields that are counted, no flag is set, and no record is added against an overbooked entry. -/
structure Alike (s u : State) : Prop where
  memory : MemoryInv u
  clean : u.cleanTable
  order : OrderInv s → OrderInv u
  geometry : u.timer.map Timer.geometry = s.timer.map Timer.geometry
  staged : ∀ t, u.timer = some t → ∀ g, t.staged = some g → ∃ t', s.timer = some t' ∧ t'.staged = some g
  free : u.lock.state = .free ↔ s.lock.state = .free
  maxStep : u.lock.maxStep = s.lock.maxStep
  settings : ∀ p, (u.port p).settings = (s.port p).settings
  inUse : ∀ i, u.inUse i = true → s.inUse i = true
  fields : ∀ i, u.inUse i = true → ∃ used misses silent,
    u.reservation i = { s.reservation i with used := used, misses := misses, silent := silent }
  flags : ∀ i, (u.reservation i).overbooked = true → (s.reservation i).overbooked = true
  records : ∀ r ∈ u.holds.records, r ∈ s.holds.records ∨ (u.reservation r.entry).overbooked = false
  busy : u.prot.busy = s.prot.busy

/-- From a state with sound and clean table memory the change is such. -/
def Mild (s u : State) : Prop := MemoryInv s → s.cleanTable → Alike s u

theorem Mild.trans {s t u : State} (h : Mild s t) (k : Mild t u) : Mild s u := by
  intro memory clean
  have a := h memory clean
  have b := k a.memory a.clean
  refine ⟨b.memory, b.clean, fun o => b.order (a.order o), b.geometry.trans a.geometry, fun x hx g hg => ?_,
    b.free.trans a.free, b.maxStep.trans a.maxStep, fun p => (b.settings p).trans (a.settings p),
    fun i hi => a.inUse i (b.inUse i hi), fun i hi => ?_, fun i hi => a.flags i (b.flags i hi), fun r hr => ?_,
    b.busy.trans a.busy⟩
  · obtain ⟨t', ht', hg'⟩ := b.staged x hx g hg
    exact a.staged t' ht' g hg'
  · obtain ⟨_, _, _, e⟩ := b.fields i hi
    obtain ⟨_, _, _, e'⟩ := a.fields i (b.inUse i hi)
    exact ⟨_, _, _, by rw [e, e']⟩
  · rcases b.records r hr with here | fits
    · refine (a.records r here).imp_right fun fits => ?_
      rw [← Bool.not_eq_true] at fits ⊢
      exact mt (b.flags r.entry) fits
    · exact .inr fits

section
variable {s u : State}

/-- Words, timer, lock, settings, entries and their order stay, and no record comes. -/
theorem mild_rest (memory : u.prot.memory = s.prot.memory) (timer : u.timer = s.timer) (lock : u.lock = s.lock)
    (settings : ∀ p, (u.port p).settings = (s.port p).settings) (table : u.table = s.table) (order : u.order = s.order)
    (records : ∀ r ∈ u.holds.records, r ∈ s.holds.records) (busy : u.prot.busy = s.prot.busy) : Mild s u := by
  intro wf clean
  have entry := State.entry_of_table table
  have inUse : ∀ i, u.inUse i = s.inUse i := fun i => by unfold State.inUse; rw [entry]
  have reservation := State.reservation_of_memory memory
  refine ⟨?_, fun k => ?_, fun o => o.of_fields order (fun i => by rw [entry]), by rw [timer], fun t ht g hg => ⟨t, ?_, hg⟩,
    by rw [lock], by rw [lock], settings, fun i hi => inUse i ▸ hi, fun i _ => ⟨_, _, _, reservation i⟩,
    fun i hi => reservation i ▸ hi, fun r hr => .inl (records r hr), busy⟩
  · unfold MemoryInv
    rw [memory]
    exact wf
  · rw [State.word_of_prot memory]
    exact clean k
  · rw [← timer]
    exact ht

theorem Mild.refl (s : State) : Mild s s := mild_rest rfl rfl rfl (fun _ => rfl) rfl rfl (fun _ h => h) rfl

theorem mild_raise (s : State) (e : EventEntry) : Mild s (s.raise e) :=
  mild_rest rfl rfl rfl (fun _ => rfl) rfl rfl (fun _ h => h) rfl

theorem mild_keepHolds (s : State) (keep : HoldRecord → Bool) : Mild s (s.keepHolds keep) :=
  mild_rest rfl rfl rfl (fun _ => rfl) rfl rfl (fun _ h => List.mem_of_mem_filter h) rfl

theorem mild_updPort (s : State) (p : PortIndex) {f : Port → Port}
    (hf : ∀ q, (f q).settings = q.settings := by exact fun _ => rfl) : Mild s (s.updPort p f) := by
  refine mild_rest rfl rfl rfl (fun q => ?_) rfl rfl (fun _ h => h) rfl
  rw [State.port_updPort]
  split_ifs with same
  · rw [hf, same]
  · rfl

theorem mild_countPort (s : State) (p : PortIndex) (f : PortCounters → PortCounters) : Mild s (s.countPort p f) :=
  mild_updPort s p fun _ => rfl

theorem mild_updPath (s : State) (f : Path → Path) : Mild s (s.updPath f) :=
  mild_rest rfl rfl rfl (fun _ => rfl) rfl rfl (fun _ h => h) rfl

theorem mild_setMaps (s : State) (p : PortIndex) (m : PortMaps) : Mild s (s.setMaps p m) :=
  mild_rest rfl rfl rfl (fun _ => rfl) rfl rfl (fun _ h => h) rfl

theorem mild_setRingValid (s : State) (e : RingIndex) (v : Bool) : Mild s (s.setRingValid e v) :=
  mild_rest rfl rfl rfl (fun _ => rfl) rfl rfl (fun _ h => h) rfl

theorem mild_respond (s : State) (code : Byte) (status : Status) (result : List Byte) : Mild s (s.respond code status result) :=
  mild_rest rfl rfl rfl (fun _ => rfl) rfl rfl (fun _ h => h) rfl

theorem mild_dropChoices (s : State) (n : Nat) : Mild s (s.dropChoices n) :=
  mild_rest rfl rfl rfl (fun _ => rfl) rfl rfl (fun _ h => h) rfl

theorem mild_setLock (s : State) {l : Lock} (free : l.state = .free ↔ s.lock.state = .free) (maxStep : l.maxStep = s.lock.maxStep) :
    Mild s (s.setLock l) := by
  intro wf clean
  exact ⟨wf, clean, fun o => ⟨o.once, o.exact⟩, rfl, fun t ht g hg => ⟨t, ht, hg⟩, free, maxStep, fun _ => rfl,
    fun _ h => h, fun _ _ => ⟨_, _, _, rfl⟩, fun _ h => h, fun _ h => .inl h, rfl⟩

/-- Words are written so that entries in use keep the fields that are counted, and no flag is set. -/
theorem mild_setMemory {m : Memory} (wf : MemoryInv s → m.wf) (clean : MemoryInv s → s.cleanTable → (s.setMemory m).cleanTable)
    (fields : MemoryInv s → ∀ i, s.inUse i = true → ∃ used misses silent,
      (s.setMemory m).reservation i = { s.reservation i with used := used, misses := misses, silent := silent })
    (flags : MemoryInv s → ∀ i, ((s.setMemory m).reservation i).overbooked = true → (s.reservation i).overbooked = true) :
    Mild s (s.setMemory m) := fun h hc =>
  ⟨wf h, clean h hc, fun o => ⟨o.once, o.exact⟩, rfl, fun t ht _ hg => ⟨t, ht, hg⟩, Iff.rfl, rfl, fun _ => rfl,
    fun _ h => h, fields h, flags h, fun _ h => .inl h, rfl⟩

/-- Words outside the entries are written. -/
theorem mild_words {m : Memory} (wf : MemoryInv s → m.wf) (clean : MemoryInv s → s.cleanTable → (s.setMemory m).cleanTable)
    (words : MemoryInv s → ∀ k, k < 256 → (s.setMemory m).word k = s.word k) : Mild s (s.setMemory m) := by
  have reservation : MemoryInv s → ∀ i, (s.setMemory m).reservation i = s.reservation i := fun h i =>
    State.reservation_of_words fun k _ high => words h k (by have := i.isLt; omega)
  exact mild_setMemory wf clean (fun h i _ => ⟨_, _, _, reservation h i⟩) fun h i hi => reservation h i ▸ hi

theorem mild_putMap (s : State) {a : Nat} (low : 256 ≤ a) (high : a + 2 < 1024) (kinds : List SlotKind) :
    Mild s (s.putMap a kinds) :=
  mild_words (s := s) (fun h => State.wf_putMap h high kinds) (fun h hc => State.clean_putMap h high kinds hc)
    fun h k hk => State.word_putMap_of_other h high kinds (by omega)

theorem mild_putRing (s : State) (e : RingIndex) (r : Ring) : Mild s (s.putRing e r) := by
  have range : ∀ x ∈ [(ringWord e 0, r.word0), (ringWord e 1, r.word1)], x.1 < 1024 ∧ 256 ≤ x.1 := by
    have := e.isLt
    simp only [List.mem_cons, List.not_mem_nil, or_false]
    rintro x (rfl | rfl) <;> (unfold ringWord; omega)
  exact mild_words (s := s) (fun h => State.wf_putRing h e r)
    (fun h hc => State.cleanTable_putWords hc h fun x hx => (range x hx).1)
    fun h k hk => State.word_putWords_of_notMem h (fun x hx => (range x hx).1) fun x hx => by
      have := (range x hx).2
      omega

/-- The counts and the mark of silence of an entry are written. -/
theorem mild_putUse (s : State) (i : EntryIndex) {f : Reservation → Reservation}
    (hf : ∀ r, (f r).maxLength = r.maxLength ∧ (f r).overbooked = r.overbooked := by exact fun _ => ⟨rfl, rfl⟩) :
    Mild s (s.putUse i f) := by
  have fields : MemoryInv s → ∀ j, ∃ used misses silent,
      (s.putUse i f).reservation j = { s.reservation j with used := used, misses := misses, silent := silent } := fun h j => by
    obtain ⟨length, flag⟩ := hf (s.reservation i)
    rw [State.reservation_putUse h, length, flag]
    split_ifs with same
    · rw [same]
      exact ⟨_, _, _, rfl⟩
    · exact ⟨_, _, _, rfl⟩
  refine mild_setMemory (s := s) (fun h => State.wf_putUse h i f) (fun h hc => State.cleanTable_putWord hc h _ _)
    (fun h j _ => fields h j) fun h j hj => ?_
  obtain ⟨_, _, _, e⟩ := fields h j
  exact (congrArg Reservation.overbooked e).symm.trans hj

/-- Entries change so that none comes into use and the admission order list stays exact. -/
theorem mild_entries (memory : u.prot = s.prot) (timer : u.timer = s.timer) (lock : u.lock = s.lock) (ports : u.ports = s.ports)
    (holds : u.holds = s.holds) (order : OrderInv s → OrderInv u) (inUse : ∀ i, u.inUse i = true → s.inUse i = true) :
    Mild s u := by
  intro wf clean
  have same : u.prot.memory = s.prot.memory := by rw [memory]
  have reservation := State.reservation_of_memory same
  refine ⟨?_, fun k => ?_, order, by rw [timer], fun t ht g hg => ⟨t, ?_, hg⟩, by rw [lock], by rw [lock],
    fun p => by rw [State.port_of_ports ports], inUse, fun i _ => ⟨_, _, _, reservation i⟩, fun i hi => reservation i ▸ hi,
    fun r hr => .inl (by rw [← holds]; exact hr), by rw [memory]⟩
  · unfold MemoryInv
    rw [memory]
    exact wf
  · rw [State.word_of_prot same]
    exact clean k
  · rw [← timer]
    exact ht

theorem mild_setEntryState (s : State) (i : EntryIndex) {st : EntryState} (free : st = .free ↔ (s.entry i).state = .free)
    (inUse : st.inUse = true → s.inUse i = true) : Mild s (s.setEntryState i st) := by
  refine mild_entries rfl rfl rfl rfl rfl (fun o => o.of_fields rfl fun j => ?_) fun j hj => ?_
  · rw [State.entry_setEntryState]
    split_ifs with same
    · rw [same]
      exact free
    · rfl
  · unfold State.inUse at hj
    rw [State.entry_setEntryState] at hj
    split_ifs at hj with same
    · rw [same]
      exact inUse hj
    · exact hj

theorem mild_updEntry (s : State) (i : EntryIndex) {f : Entry → Entry}
    (hf : ∀ e, (f e).state = e.state := by exact fun _ => rfl) : Mild s (s.updEntry i f) := by
  have state : ∀ j, ((s.updEntry i f).entry j).state = (s.entry j).state := fun j => by
    rw [State.entry_updEntry]
    split_ifs with same
    · rw [hf, same]
    · rfl
  refine mild_entries rfl rfl rfl rfl rfl (fun o => o.of_fields rfl fun j => by rw [state]) fun j hj => ?_
  unfold State.inUse at hj ⊢
  rwa [state] at hj

theorem mild_freeEntry (s : State) (i : EntryIndex) : Mild s (s.freeEntry i) := by
  have entry : ∀ j, (s.freeEntry i).entry j = if j = i then { s.entry i with state := .free } else s.entry j :=
    fun j => State.entry_setEntryState s i j .free
  refine mild_entries rfl rfl rfl rfl rfl (fun o => ⟨?_, fun j => ?_⟩) fun j hj => ?_
  · rw [State.freeEntry_order]
    exact o.once.filter _
  · rw [State.freeEntry_order, List.mem_filter, o.exact, entry]
    by_cases same : j = i <;> simp [same]
  · unfold State.inUse at hj ⊢
    rw [entry] at hj
    split_ifs at hj
    · cases hj
    · exact hj

/-- The words of an entry that is not in use are rewritten. -/
theorem mild_blankReservation (s : State) (i : EntryIndex) (idle : s.inUse i = false) : Mild s (s.blankReservation i) := by
  have other : MemoryInv s → ∀ j, j ≠ i → (s.blankReservation i).reservation j = s.reservation j := fun h j hj =>
    State.reservation_of_words fun k low high => by
      rw [State.word_blankReservation h, if_neg]
      rintro ⟨low', high'⟩
      exact hj (Fin.ext (by omega))
  have blank : MemoryInv s → (s.blankReservation i).reservation i = absentReservation := fun h => by
    have data : ∀ j, j < 4 → (s.blankReservation i).data (entryWord i j) = 0 := fun j hj => by
      refine State.data_cleanWord ?_
      rw [State.word_blankReservation h, if_pos (by unfold entryWord; omega)]
      rfl
    simp only [State.reservation, data 0 (by omega), data 1 (by omega), data 2 (by omega), data 3 (by omega)]
    rfl
  refine mild_setMemory (s := s) (fun h => State.wf_putWords (fun x hx => putReservation_lt i 0 0 0 0 x hx) h)
    (fun h hc => State.cleanTable_putWords hc h fun x hx => putReservation_lt i 0 0 0 0 x hx) (fun h j hj => ?_)
    fun h j hj => ?_
  · have apart : j ≠ i := by
      rintro rfl
      rw [idle] at hj
      cases hj
    exact ⟨_, _, _, other h j apart⟩
  · by_cases same : j = i
    · rw [same] at hj
      have := (congrArg Reservation.overbooked (blank h)).symm.trans hj
      cases this
    · exact (congrArg Reservation.overbooked (other h j same)).symm.trans hj

end

/-! ### Lists of changes -/

theorem mild_foldl {α : Type} {f : State → α → State} (hf : ∀ s a, Mild s (f s a)) (l : List α) (s : State) :
    Mild s (l.foldl f s) := by
  induction l generalizing s with
  | nil => exact Mild.refl s
  | cons a l ih => exact (hf s a).trans (ih (f s a))

end Sys2Proof.Machine
end

section
/-! The budgets of the slots: kept by a change that leaves less to count, and established by the walks. -/

namespace Sys2Proof.Machine

/-! ### Sums of costs -/

/-- The sum of the costs that count in a slot. -/
def State.countedSum (s : State) (p : PortIndex) (k : Nat) : Nat :=
  ((allEntries.filter (s.counts p k)).map (fun i => (s.reservation i).cost.toNat)).sum

theorem State.counts_iff (s : State) (p : PortIndex) (k : Nat) (i : EntryIndex) :
    s.counts p k i = true ↔ s.inUse i = true ∧ (s.reservation i).port = p ∧ (s.reservation i).slot.toNat = k ∧
      (s.reservation i).overbooked = false := by
  simp [State.counts, and_assoc]

/-- Where fewer entries count, each with the cost it had, the sum is no greater. -/
theorem sum_filter_le {f g : EntryIndex → Bool} {a b : EntryIndex → Nat} (h : ∀ i, f i = true → g i = true ∧ a i = b i)
    (l : List EntryIndex) : ((l.filter f).map a).sum ≤ ((l.filter g).map b).sum := by
  induction l with
  | nil => exact le_refl _
  | cons i l ih =>
    by_cases hf : f i = true
    · obtain ⟨hg, e⟩ := h i hf
      simp only [List.filter_cons, hf, hg, if_true, List.map_cons, List.sum_cons, e]
      exact Nat.add_le_add_left ih _
    · rw [List.filter_cons, if_neg hf, List.filter_cons]
      split_ifs
      · exact ih.trans (Nat.le_add_left _ _)
      · exact ih

/-- Where the last of the entries that fit is judged to fit after the others, their costs lie in the budget. -/
theorem sum_fits {l : List EntryIndex} {full : EntryIndex → Bool} {cost : EntryIndex → Nat} {budget : Int}
    (h : ∀ before i after, l = before ++ i :: after →
      full i = decide (budget < (((before.filter (fun j => !full j)).map cost).sum + cost i : Nat)))
    (some : ∃ i ∈ l, full i = false) : (((l.filter (fun j => !full j)).map cost).sum : Int) ≤ budget := by
  induction l using List.reverseRecOn with
  | nil =>
    obtain ⟨i, hi, -⟩ := some
    cases hi
  | append_singleton l i ih =>
    by_cases fits : full i = false
    · have last := h l i [] rfl
      rw [fits, eq_comm, decide_eq_false_iff_not, not_lt] at last
      simpa [List.filter_append, fits] using last
    · obtain ⟨j, hj, fitsj⟩ := some
      have here : j ∈ l := by
        rcases List.mem_append.mp hj with hj | hj
        · exact hj
        · obtain rfl : j = i := by simpa using hj
          exact absurd fitsj fits
      have rest : (l ++ [i]).filter (fun j => !full j) = l.filter (fun j => !full j) := by
        simp [List.filter_append, fits]
      rw [rest]
      exact ih (fun before x after e => h before x (after ++ [i]) (by rw [e]; simp)) ⟨j, here, fitsj⟩

/-! ### Less to count -/

theorem Alike.reservation {s u : State} (a : Alike s u) {i : EntryIndex} (hi : u.inUse i = true) :
    (u.reservation i).port = (s.reservation i).port ∧ (u.reservation i).slot = (s.reservation i).slot ∧
      (u.reservation i).frames = (s.reservation i).frames ∧ (u.reservation i).maxLength = (s.reservation i).maxLength ∧
      (u.reservation i).overbooked = (s.reservation i).overbooked ∧ (u.reservation i).cost = (s.reservation i).cost := by
  obtain ⟨_, _, _, e⟩ := a.fields i hi
  rw [e]
  exact ⟨rfl, rfl, rfl, rfl, rfl, rfl⟩

theorem Alike.timer {s u : State} (a : Alike s u) {t : Timer} (ht : u.timer = some t) :
    ∃ t', s.timer = some t' ∧ t'.geometry = t.geometry := by
  have same := a.geometry
  rw [ht] at same
  obtain ⟨t', ht', e⟩ := Option.map_eq_some_iff.mp same.symm
  exact ⟨t', ht', e⟩

theorem Alike.counts {s u : State} (a : Alike s u) {p : PortIndex} {k : Nat} {i : EntryIndex} (h : u.counts p k i = true) :
    s.counts p k i = true ∧ (u.reservation i).cost.toNat = (s.reservation i).cost.toNat := by
  obtain ⟨used, port, slot, fits⟩ := (u.counts_iff p k i).mp h
  obtain ⟨port', slot', -, -, flag, cost⟩ := a.reservation used
  exact ⟨(s.counts_iff p k i).mpr ⟨a.inUse i used, port' ▸ port, slot' ▸ slot, flag ▸ fits⟩, by rw [cost]⟩

/-! ### Some pairs left -/

/-- The state is sound as far as the budgets go, but for the costs and the sums of the pairs that are still to be walked. -/
structure BudgetBut (s : State) (pairs : List (PortIndex × Nat)) : Prop where
  geometry : ∀ t, s.timer = some t → t.geometry.slots ≤ 48 ∧ ∀ g, t.staged = some g → g.slots ≤ 48
  extra : ∀ p, (s.port p).settings.extra ≤ 32
  frames : ∀ i, s.inUse i = true → (s.reservation i).frames.toNat ≤ 4
  timed : ∀ i, s.inUse i = true → ∃ t, s.timer = some t ∧ (s.reservation i).slot.toNat < t.geometry.slots
  holds : ∀ r ∈ s.holds.records, (s.reservation r.entry).overbooked = false
  costs : ∀ i, s.inUse i = true → ((s.reservation i).port, (s.reservation i).slot.toNat) ∉ pairs →
    (s.reservation i).cost.toNat = s.costAt (s.reservation i).port i
  budget : ∀ t, s.timer = some t → ∀ p k, (p, k) ∉ pairs → (∃ i, s.counts p k i = true) →
    (s.countedSum p k : Int) ≤ slotBudget t.geometry s.lock (s.port p).settings k

theorem BudgetInv.but {s : State} (h : BudgetInv s) (pairs : List (PortIndex × Nat)) : BudgetBut s pairs where
  geometry := h.geometry
  extra := h.extra
  frames := h.frames
  timed := h.timed
  holds := h.holds
  costs := fun i hi _ => h.costs i hi
  budget := fun t ht p k _ some => h.budget t ht p k some

theorem BudgetBut.inv {s : State} (h : BudgetBut s []) : BudgetInv s where
  geometry := h.geometry
  extra := h.extra
  frames := h.frames
  timed := h.timed
  holds := h.holds
  costs := fun i hi => h.costs i hi (List.not_mem_nil)
  budget := fun t ht p k some => h.budget t ht p k (List.not_mem_nil) some

/-- Where there is less to count the budgets are kept. -/
theorem Alike.budgetBut {s u : State} {pairs : List (PortIndex × Nat)} (a : Alike s u) (h : BudgetBut s pairs) :
    BudgetBut u pairs := by
  refine ⟨fun t ht => ?_, fun p => ?_, fun i hi => ?_, fun i hi => ?_, fun r hr => ?_, fun i hi out => ?_,
    fun t ht p k out ⟨i, hi⟩ => ?_⟩
  · obtain ⟨t', ht', e⟩ := a.timer ht
    refine ⟨e ▸ (h.geometry t' ht').1, fun g hg => ?_⟩
    obtain ⟨t'', ht'', hg'⟩ := a.staged t ht g hg
    exact (h.geometry t'' ht'').2 g hg'
  · rw [a.settings]
    exact h.extra p
  · obtain ⟨-, -, frames, -, -, -⟩ := a.reservation hi
    rw [frames]
    exact h.frames i (a.inUse i hi)
  · obtain ⟨-, slot, -, -, -, -⟩ := a.reservation hi
    obtain ⟨t, ht, low⟩ := h.timed i (a.inUse i hi)
    have same := a.geometry
    rw [ht] at same
    obtain ⟨t', ht', e⟩ := Option.map_eq_some_iff.mp same
    exact ⟨t', ht', by rw [slot, e]; exact low⟩
  · rcases a.records r hr with here | fits
    · have fits := h.holds r here
      rw [← Bool.not_eq_true] at fits ⊢
      exact mt (a.flags r.entry) fits
    · exact fits
  · obtain ⟨port, slot, frames, length, -, cost⟩ := a.reservation hi
    unfold State.costAt
    rw [cost, frames, length, a.settings, port]
    exact h.costs i (a.inUse i hi) (port ▸ slot ▸ out)
  · obtain ⟨t', ht', e⟩ := a.timer ht
    have budget := h.budget t' ht' p k out ⟨i, (a.counts hi).1⟩
    rw [e] at budget
    have less := sum_filter_le (fun i (hi : u.counts p k i = true) => a.counts hi) allEntries
    unfold slotBudget at budget ⊢
    rw [a.settings, a.maxStep]
    simp only [ne_eq, a.free]
    exact (Int.ofNat_le.mpr less).trans budget

/-! ### What the walks establish -/

/-- A cost fits into its field where the entry has at most 4 frames. -/
theorem BudgetBut.cost_lt {s : State} {pairs : List (PortIndex × Nat)} (h : BudgetBut s pairs) {i : EntryIndex}
    (hi : s.inUse i = true) (p : PortIndex) : s.costAt p i < 2 ^ 23 :=
  entryCost_lt (h.frames i hi) (by have := (s.reservation i).maxLength.isLt; omega) (h.extra p)

/-- The walks of the pairs that were left make the budgets sound. -/
theorem Walks.budgetInv {s u : State} {t : Timer} {pairs : List (PortIndex × Nat)} (w : Walks s u t.geometry pairs)
    (ht : s.timer = some t) (order : OrderInv s) (h : BudgetBut s pairs) : BudgetInv u := by
  have inUse := w.reworked.inUse
  have timer := w.reworked.timer
  have lock := w.reworked.lock
  have port := w.reworked.port
  have visited : ∀ i, s.inUse i = true → i ∈ s.visited ((s.reservation i).port, (s.reservation i).slot.toNat) :=
    fun i hi => State.mem_visited.mpr ⟨order.mem_of_inUse hi, hi, rfl, rfl⟩
  have untouched : ∀ i, s.inUse i = true → ((s.reservation i).port, (s.reservation i).slot.toNat) ∉ pairs →
      u.reservation i = s.reservation i := fun i hi out => w.other i fun x hx hi' =>
    out (State.visited_apart (visited i hi) hi' ▸ hx)
  have walked : ∀ i, s.inUse i = true → ((s.reservation i).port, (s.reservation i).slot.toNat) ∈ pairs →
      (u.reservation i).cost.toNat = s.costAt (s.reservation i).port i := fun i hi inside => by
    obtain ⟨before, after, e⟩ := List.append_of_mem (visited i hi)
    rw [w.reservation _ inside before i after e]
    show (BitVec.ofNat 23 _).toNat = _
    rw [BitVec.toNat_ofNat, Nat.mod_eq_of_lt (h.cost_lt hi _)]
  refine ⟨fun t ht => ?_, fun p => ?_, fun i hi => ?_, fun i hi => ?_, fun r hr => ?_, fun i hi => ?_, fun c hc p k some => ?_⟩
  · exact h.geometry t (timer ▸ ht)
  · rw [port]
    exact h.extra p
  · obtain ⟨_, _, e⟩ := w.fixed i
    rw [e]
    exact h.frames i (inUse i ▸ hi)
  · obtain ⟨_, _, e⟩ := w.fixed i
    rw [e, timer]
    exact h.timed i (inUse i ▸ hi)
  · rw [w.records, List.mem_filter] at hr
    obtain ⟨here, stays⟩ := hr
    simpa [h.holds r here] using stays
  · have hi' : s.inUse i = true := inUse i ▸ hi
    have cost : (u.reservation i).cost.toNat = s.costAt (s.reservation i).port i := by
      by_cases inside : ((s.reservation i).port, (s.reservation i).slot.toNat) ∈ pairs
      · exact walked i hi' inside
      · rw [untouched i hi' inside]
        exact h.costs i hi' inside
    obtain ⟨_, _, e⟩ := w.fixed i
    rw [cost, port, e]
    rfl
  · obtain rfl : t = c := Option.some.inj (ht.symm.trans (timer ▸ hc))
    have budget : slotBudget t.geometry s.lock (s.port p).settings k = (t.geometry.ticks : Int) - (u.port p).settings.guard
        - (u.port p).settings.lead
        - (if k + 1 = t.geometry.slots ∧ u.lock.state ≠ .free then (u.lock.maxStep : Int) else 0) := by
      rw [port, lock]
      rfl
    rw [← budget]
    have member : ∀ i, u.counts p k i = true ↔ i ∈ s.visited (p, k) ∧ (u.reservation i).overbooked = false := fun i => by
      rw [State.counts_iff, State.mem_visited, inUse]
      obtain ⟨_, _, e⟩ := w.fixed i
      have samePort : (u.reservation i).port = (s.reservation i).port := by rw [e]
      have sameSlot : (u.reservation i).slot = (s.reservation i).slot := by rw [e]
      rw [samePort, sameSlot]
      exact ⟨fun ⟨hi, hp, hk, hf⟩ => ⟨⟨order.mem_of_inUse hi, hi, hp, hk⟩, hf⟩, fun ⟨⟨_, hi, hp, hk⟩, hf⟩ => ⟨hi, hp, hk, hf⟩⟩
    by_cases inside : (p, k) ∈ pairs
    · have cost : ∀ i ∈ s.visited (p, k), (u.reservation i).cost.toNat = s.costAt p i := fun i hi => by
        obtain ⟨-, used, port, slot⟩ := State.mem_visited.mp hi
        rw [walked i used (by rw [port, slot]; exact inside), port]
      have fits := sum_fits (l := s.visited (p, k)) (full := fun i => (u.reservation i).overbooked) (cost := s.costAt p)
        (budget := slotBudget t.geometry s.lock (s.port p).settings k) (fun before i after e => by
          rw [w.reservation _ inside before i after e]
          rfl) (some.imp fun i hi => (member i).mp hi)
      have same : (allEntries.filter (u.counts p k)).Perm ((s.visited (p, k)).filter (fun i => !(u.reservation i).overbooked)) :=
        (List.perm_ext_iff_of_nodup ((List.nodup_finRange 64).filter _) ((order.once.filter _).filter _)).mpr fun i => by
          rw [List.mem_filter, List.mem_filter, member i, Bool.not_eq_true']
          exact ⟨fun h => h.2, fun h => ⟨List.mem_finRange i, h⟩⟩
      have sum : ((allEntries.filter (u.counts p k)).map (fun i => (u.reservation i).cost.toNat)).sum =
          (((s.visited (p, k)).filter (fun i => !(u.reservation i).overbooked)).map (s.costAt p)).sum := by
        rw [(same.map _).sum_eq]
        congr 1
        exact List.map_congr_left fun i hi => cost i (List.mem_filter.mp hi).1
      rw [sum]
      exact fits
    · have same : ∀ i, u.counts p k i = true → s.counts p k i = true ∧
          (u.reservation i).cost.toNat = (s.reservation i).cost.toNat := fun i hi => by
        obtain ⟨hi, fits⟩ := (member i).mp hi
        obtain ⟨-, used, port, slot⟩ := State.mem_visited.mp hi
        have e := untouched i used (by rw [port, slot]; exact inside)
        rw [e] at fits
        exact ⟨(s.counts_iff p k i).mpr ⟨used, port, slot, fits⟩, by rw [e]⟩
      have less := sum_filter_le same allEntries
      exact (Int.ofNat_le.mpr less).trans (h.budget t ht p k inside (some.imp fun i hi => (same i hi).1))

end Sys2Proof.Machine
end

section
/-! What the gates, the descriptor path and the boundaries do to the budgets of the slots, where no bit of table memory is
wrong: nothing, or less is left to count. -/

namespace Sys2Proof.Machine

/-! ### Readers -/

section
variable {s u v : State}

theorem Mild.of_clean (m : Mild s u) (e : s.cleanTable → v = u) : Mild s v := fun wf clean => e clean ▸ m wf clean

theorem mild_checkEntries (s : State) (which : EntryState → Bool) : Mild s (s.checkEntries which) :=
  (Mild.refl s).of_clean fun h => State.checkEntries_of_clean h which

theorem mild_checkWords (s : State) (ks : List Nat) : Mild s (s.checkWords ks) :=
  (Mild.refl s).of_clean fun h => State.checkWords_of_clean h ks

theorem mild_checkActive (s : State) (p : PortIndex) : Mild s (s.checkActive p) :=
  (Mild.refl s).of_clean fun h => State.checkActive_of_clean h p

theorem mild_checkPending (s : State) (p : PortIndex) : Mild s (s.checkPending p) :=
  (Mild.refl s).of_clean fun h => State.checkPending_of_clean h p

end

/-! ### The gates -/

theorem mild_removeHold (s : State) (a : Address) : Mild s (s.removeHold a) := mild_keepHolds s _

theorem mild_leaveEnforcing (s : State) (p : PortIndex) : Mild s (s.leaveEnforcing p) :=
  (mild_keepHolds s _).trans (mild_updPort _ p)

theorem mild_toFailsafe (s : State) (p : PortIndex) (cause : FailsafeCause) : Mild s (s.toFailsafe p cause) := by
  have left : Mild s (if (s.port p).gate = .enforcing then s.leaveEnforcing p else s) := by
    split_ifs
    exacts [mild_leaveEnforcing s p, Mild.refl s]
  exact (left.trans (mild_updPort _ p)).trans (mild_raise _ _)

theorem mild_enterEnforcing (s : State) (p : PortIndex) : Mild s (s.enterEnforcing p) := mild_updPort s p

theorem mild_reportLockLoss (s : State) : Mild s s.reportLockLoss := by
  refine mild_foldl (fun s p => ?_) allPorts s
  unfold State.lockLossAt
  split_ifs
  exacts [mild_toFailsafe s p _, Mild.refl s]

theorem mild_reportLockWon (s : State) : Mild s s.reportLockWon := by
  refine mild_foldl (fun s p => ?_) allPorts s
  unfold State.lockWonAt
  split_ifs
  exacts [(mild_enterEnforcing s p).trans (mild_raise _ _), Mild.refl s]

theorem mild_enforcePort (s : State) (p : PortIndex) : Mild s (s.enforcePort p) := by
  unfold State.enforcePort
  split
  · exact Mild.refl s
  all_goals
    split_ifs
    exacts [Mild.refl s, mild_toFailsafe s p _, mild_enterEnforcing s p]

theorem mild_parkPort (s : State) (p : PortIndex) (g : GateState) : Mild s (s.parkPort p g) := by
  have left : Mild s (if (s.port p).gate = .enforcing then s.leaveEnforcing p else s) := by
    split_ifs
    exacts [mild_leaveEnforcing s p, Mild.refl s]
  unfold State.parkPort
  exact left.trans (mild_updPort _ _)

/-! ### The decision -/

section
variable (c : Candidate) (s : State)

theorem mild_countPassed : Mild s (s.countPassed c) := mild_countPort s _ _

theorem mild_countHeld : Mild s (s.countHeld c) := mild_countPort s _ _

theorem mild_holdCandidate : Mild s (holdCandidate c s).2 := mild_countHeld c s

theorem mild_failsafeDecision : Mild s (failsafeDecision c s).2 := by
  unfold failsafeDecision
  split
  · exact mild_countPassed c s
  · split_ifs
    exacts [mild_countPassed c s, mild_holdCandidate c s]

theorem mild_staleDrop (i : EntryIndex) (age : Nat) : Mild s (staleDrop c i age s).2 :=
  (((mild_removeHold s _).trans (mild_updEntry _ i)).trans (mild_countPort _ _ _)).trans (mild_raise _ _)

theorem mild_overrunDrop (i : EntryIndex) : Mild s (overrunDrop c i s).2 :=
  (((mild_updEntry s i).trans (mild_countPort _ _ _)).trans (mild_raise _ _)).trans (mild_removeHold _ _)

theorem mild_releaseFrame (i : EntryIndex) : Mild s (s.releaseFrame i) := by
  have counted : Mild s ((s.putUse i fun r => { r with used := r.used + 1, misses := 0, silent := false }).updEntry i
      fun e => { e with passed := satInc e.passed }) :=
    (mild_putUse s i).trans (mild_updEntry _ i)
  unfold State.releaseFrame
  dsimp only
  split_ifs
  exacts [counted.trans (mild_raise _ _), counted]

theorem mild_releaseCandidate (i : EntryIndex) (slotEnd : DeviceTime) : Mild s (releaseCandidate c i slotEnd s).2 := by
  have released : Mild s ((((s.releaseFrame i).removeHold c.address).moveBusy c.port (s.candidateEnd c)).countPassed c) :=
    (((mild_releaseFrame s i).trans (mild_removeHold _ _)).trans (mild_updPort _ _)).trans (mild_countPassed c _)
  unfold releaseCandidate
  dsimp only
  split_ifs
  exacts [(released.trans (mild_countPort _ _ _)).trans (mild_raise _ _), released]

variable {s} in
/-- A record is made against an entry that is not overbooked. -/
theorem mild_addHold (r : HoldRecord) (tag : StreamTag) (fits : (s.reservation r.entry).overbooked = false) :
    Mild s (s.addHold r tag) := by
  unfold State.addHold
  split_ifs
  · intro wf clean
    refine ⟨wf, clean, fun o => ⟨o.once, o.exact⟩, rfl, fun t ht g hg => ⟨t, ht, hg⟩, Iff.rfl, rfl, fun _ => rfl,
      fun _ h => h, fun _ _ => ⟨_, _, _, rfl⟩, fun _ h => h, fun x hx => ?_, rfl⟩
    rcases List.mem_append.mp hx with hx | hx
    · exact .inl hx
    · obtain rfl := List.mem_singleton.mp hx
      exact .inr fits
  · have counted : Mild s { s with holds := { s.holds with full := satInc s.holds.full } } :=
      mild_rest rfl rfl rfl (fun _ => rfl) rfl rfl (fun _ h => h) rfl
    exact counted.trans (mild_raise _ _)

variable {s} in
theorem mild_holdAgainst (i : EntryIndex) (fits : (s.reservation i).overbooked = false) : Mild s (holdAgainst c i s).2 := by
  have counted := mild_countHeld c s
  unfold holdAgainst
  dsimp only
  split
  · exact counted
  · exact counted.trans (mild_addHold _ _ fits)

variable {s} in
theorem mild_entryDecision (i : EntryIndex) (fits : (s.reservation i).overbooked = false) : Mild s (entryDecision c i s).2 := by
  unfold entryDecision
  split
  · exact mild_staleDrop c s i _
  · by_cases long : (s.reservation i).maxLength.toNat < lengthOf c.word
    · rw [if_pos long]
      exact mild_overrunDrop c s i
    · rw [if_neg long]
      split
      · exact mild_holdAgainst c i fits
      · split_ifs
        exacts [mild_releaseCandidate c s i _, mild_holdAgainst c i fits]

theorem mild_fitDecision (reclaimed : Bool) (t : Timer) : Mild s (fitDecision c reclaimed t s).2 := by
  have searched : Mild s (s.checkSearch c.port t) := (Mild.refl s).of_clean fun h => State.checkSearch_of_clean h _ _
  have passed : ∀ e, Mild s (((s.checkSearch c.port t).moveBusy c.port e).countPassed c) := fun e =>
    (searched.trans (mild_updPort _ _)).trans (mild_countPassed c _)
  unfold fitDecision
  dsimp only
  split_ifs
  · dsimp only
    exact (passed _).trans (mild_countPort _ _ _)
  · exact passed _
  · exact searched.trans (mild_holdCandidate c _)

theorem mild_reclaimDecision (t : Timer) : Mild s (reclaimDecision c t s).2 := by
  have read := mild_checkEntries s EntryState.inForce
  unfold reclaimDecision
  dsimp only
  split_ifs
  · exact read.trans (mild_fitDecision c _ _ _)
  · exact read.trans (mild_holdCandidate c _)
  · exact read.trans (mild_failsafeDecision c _)
  · exact mild_holdCandidate c s

theorem mild_generalDecision : Mild s (generalDecision c s).2 := by
  have read := mild_checkActive s c.port
  unfold generalDecision
  split
  · exact mild_holdCandidate c s
  · dsimp only
    split_ifs
    · split
      · exact read.trans (mild_fitDecision c _ _ _)
      · exact read.trans (mild_holdCandidate c _)
      · exact read.trans (mild_reclaimDecision c _ _)
    · exact read.trans (mild_failsafeDecision c _)

theorem mild_unreservedDrop : Mild s (unreservedDrop c s).2 := (mild_countPort s _ _).trans (mild_raise _ _)

theorem mild_motionDecision : Mild s (motionDecision c s).2 := by
  have read := mild_checkEntries s EntryState.inForce
  unfold motionDecision
  dsimp only
  split_ifs
  · split
    · rename_i i found
      obtain ⟨-, -, -, fits⟩ := (State.offers_iff _ _ _ i).mp (List.find?_some found)
      exact read.trans (mild_entryDecision c i fits)
    · split
      · exact read.trans (mild_generalDecision c _)
      · exact read.trans (mild_unreservedDrop c _)
  · exact read.trans (mild_failsafeDecision c _)

theorem mild_gateDecision : Mild s (gateDecision c s).2 := by
  unfold gateDecision
  split
  · exact Mild.refl s
  · exact mild_holdCandidate c s
  · exact mild_failsafeDecision c s
  · split_ifs
    exacts [mild_motionDecision c s, mild_generalDecision c s]

end

/-! ### The descriptor path -/

theorem takeMark_free (l : Lock) (t : Timer) (now : DeviceTime) :
    ((l.takeMark t now).state = .free ↔ l.state = .free) ∧ (l.takeMark t now).maxStep = l.maxStep := by
  unfold Lock.takeMark
  cases h : l.state with
  | free => exact ⟨by simp [h], rfl⟩
  | acquiring =>
    simp only [Lock.acquire]
    split
    · simp
    · split_ifs <;> simp
  | aligning => simp
  | locked =>
    simp only [Lock.track]
    split_ifs <;> simp
  | holdover =>
    simp only [Lock.recover]
    split_ifs <;> simp

section
variable (s : State)

theorem mild_observeWrite (a : Address) (data : Word) (lanes : BitVec 4) : Mild s (s.observeWrite a data lanes) := by
  have read : Mild s s.checkSync := (Mild.refl s).of_clean fun h => State.checkSync_of_clean h
  unfold State.observeWrite
  dsimp only
  split
  · exact read
  · split_ifs
    · obtain ⟨free, step⟩ := takeMark_free s.checkSync.lock ‹Timer› s.checkSync.time
      exact read.trans (mild_setLock _ free step)
    · exact read

theorem mild_passWrite (tag : Tag) (a : Address) (data : Word) (lanes : BitVec 4) : Mild s (s.passWrite tag a data lanes) :=
  ((mild_updPath s _).trans (mild_removeHold _ _)).trans (mild_observeWrite _ a data lanes)

theorem mild_acceptRead (tag : Tag) (a : Address) : Mild s (s.acceptRead tag a) := by
  have read : Mild s s.checkTransmitRings := (Mild.refl s).of_clean fun h => State.checkTransmitRings_of_clean h
  unfold State.acceptRead
  exact read.trans (mild_updPath _ _)

theorem mild_drain : Mild s s.drain := by
  have passed : Mild s (passRequests s.path.waiting s).2 :=
    passRequests_induction (P := Mild s) (fun t tag a data lanes h => h.trans (mild_passWrite t tag a data lanes))
      (fun t tag a _ h => h.trans (mild_acceptRead t tag a)) s.path.waiting s (Mild.refl s)
  unfold State.drain
  exact passed.trans (mild_updPath _ _)

theorem mild_present (r : Request) : Mild s (s.present r) := by
  unfold State.present
  split_ifs
  exacts [Mild.refl s, (mild_updPath s _).trans (mild_drain _)]

theorem mild_respondTo (r : InFlightRead) (data : Word) : Mild s (s.respondTo r data) := by
  have read : Mild s (s.checkNamed r) := (Mild.refl s).of_clean fun h => State.checkNamed_of_clean h r
  unfold State.respondTo
  dsimp only
  split
  · exact read.trans (mild_updPath _ _)
  · exact (read.trans (mild_gateDecision _ _)).trans (mild_updPath _ _)

theorem mild_lateResponse (tag : Tag) : Mild s (s.lateResponse tag) :=
  (((mild_updPath s _).trans (mild_updPath _ _)).trans (mild_updPath _ _)).trans (mild_raise _ _)

theorem mild_memoryResponse (tag : Tag) (data : Word) (error : Bool) : Mild s (memoryResponse tag data error s) := by
  have dropped : Mild s (s.dropRead tag) := mild_updPath s _
  unfold memoryResponse
  split_ifs with held failed
  · exact Mild.refl s
  · split
    · exact (mild_lateResponse s tag).trans (mild_drain _)
    · exact (dropped.trans (mild_updPath _ _)).trans (mild_drain _)
  · split
    · exact (mild_lateResponse s tag).trans (mild_drain _)
    · exact (dropped.trans (mild_respondTo _ _ data)).trans (mild_drain _)

theorem mild_timeOut (r : InFlightRead) : Mild s (s.timeOut r) :=
  ((((mild_updPath s _).trans (mild_updPath _ _)).trans (mild_updPath _ _)).trans (mild_raise _ _)).trans (mild_drain _)

theorem mild_expireTag (tag : Tag) : Mild s (s.expireTag tag) :=
  ((mild_updPath s _).trans (mild_updPath _ _)).trans (mild_drain _)

end

end Sys2Proof.Machine
end

section
/-! The boundaries and the clock keep the budgets of the slots. -/

namespace Sys2Proof.Machine

/-! ### What is kept -/

/-- The state is sound as far as O60 goes, but for the pairs that are still to be walked. -/
structure BudgetedBut (s : State) (pairs : List (PortIndex × Nat)) : Prop where
  memory : MemoryInv s
  clean : s.cleanTable
  order : OrderInv s
  pass : PassInv s
  budgets : BudgetBut s pairs

/-- The state is sound as far as O60 goes. -/
def Budgeted (s : State) : Prop := BudgetedBut s []

section
variable {s u : State}

theorem BudgetedBut.mild {pairs : List (PortIndex × Nat)} (h : BudgetedBut s pairs) (m : Mild s u) : BudgetedBut u pairs := by
  have a := m h.memory h.clean
  refine ⟨a.memory, a.clean, a.order h.order, fun busy => ?_, a.budgetBut h.budgets⟩
  have stopped := a.geometry
  rw [h.pass (a.busy ▸ busy)] at stopped
  exact Option.map_eq_none_iff.mp stopped

theorem Budgeted.mild (h : Budgeted s) (m : Mild s u) : Budgeted u := BudgetedBut.mild h m

/-- A change keeps the budgets. -/
def Keeps (s u : State) : Prop := Budgeted s → Budgeted u

theorem Mild.keeps (m : Mild s u) : Keeps s u := fun h => h.mild m

theorem Keeps.trans {v : State} (h : Keeps s u) (k : Keeps u v) : Keeps s v := fun b => k (h b)

/-- The walks of the pairs that were left restore the budgets. -/
theorem BudgetedBut.walked {pairs : List (PortIndex × Nat)} (h : BudgetedBut s pairs) (distinct : pairs.Nodup) :
    Budgeted (pairs.foldl (fun s x => s.walk x.1 x.2) s) := by
  cases ht : s.timer with
  | none =>
    have idle : ∀ x : PortIndex × Nat, s.walk x.1 x.2 = s := fun x => by unfold State.walk; rw [ht]
    have unused : ∀ i, s.inUse i ≠ true := fun i hi => by
      obtain ⟨t, ht', -⟩ := h.budgets.timed i hi
      rw [ht] at ht'
      cases ht'
    rw [foldl_of_fixed idle]
    refine ⟨h.memory, h.clean, h.order, h.pass, h.budgets.geometry, h.budgets.extra, h.budgets.frames, h.budgets.timed,
      h.budgets.holds, fun i hi => absurd hi (unused i), fun t ht' => ?_⟩
    rw [ht] at ht'
    cases ht'
  | some t =>
    have w := walks_foldl h.memory h.clean h.order.once ht distinct
    obtain ⟨m, q, l, e⟩ := w.reworked
    have state : ∀ i, ((pairs.foldl (fun s x => s.walk x.1 x.2) s).entry i).state = (s.entry i).state := fun i => by rw [e]; rfl
    have idle : ¬ (pairs.foldl (fun s x => s.walk x.1 x.2) s).prot.busy = true := fun busy => by
      rw [e] at busy
      have stopped := h.pass busy
      rw [ht] at stopped
      cases stopped
    exact ⟨w.memory, w.clean, h.order.of_fields w.reworked.order fun i => by rw [state], fun busy => absurd busy idle,
      (w.budgetInv ht h.order h.budgets).but []⟩

/-- Where no entry is in use there is nothing to count. -/
theorem budgetBut_of_unused (unused : ∀ i, u.inUse i = false)
    (geometry : ∀ t, u.timer = some t → t.geometry.slots ≤ 48 ∧ ∀ g, t.staged = some g → g.slots ≤ 48)
    (extra : ∀ p, (u.port p).settings.extra ≤ 32) (holds : ∀ r ∈ u.holds.records, (u.reservation r.entry).overbooked = false)
    (pairs : List (PortIndex × Nat)) : BudgetBut u pairs := by
  have never : ∀ i, u.inUse i ≠ true := fun i => by rw [unused i]; exact Bool.false_ne_true
  exact ⟨geometry, extra, fun i hi => absurd hi (never i), fun i hi => absurd hi (never i), holds,
    fun i hi => absurd hi (never i), fun _ _ p k _ ⟨i, hi⟩ => absurd ((u.counts_iff p k i).mp hi).1 (never i)⟩

/-- The clock of the cycle timer changes, and not its geometry. -/
theorem mild_timer {t t' : Timer} (ht : s.timer = some t) (geometry : t'.geometry = t.geometry) (staged : t'.staged = t.staged) :
    Mild s { s with timer := some t' } := by
  intro wf clean
  refine ⟨wf, clean, fun o => ⟨o.once, o.exact⟩, ?_, fun x hx g hg => ⟨t, ht, ?_⟩, Iff.rfl, rfl, fun _ => rfl, fun _ h => h,
    fun _ _ => ⟨_, _, _, rfl⟩, fun _ h => h, fun _ h => .inl h, rfl⟩
  · rw [ht]
    exact congrArg some geometry
  · cases hx
    exact staged ▸ hg

end

/-! ### Scrubs and hold records -/

section
variable (s : State)

theorem mild_scrubOne : Mild s s.scrubOne := by
  refine Mild.of_clean (u := { s with prot := { s.prot with scrub := s.prot.scrub + 1 } }) ?_ State.scrubOne_of_clean
  exact mild_rest rfl rfl rfl (fun _ => rfl) rfl rfl (fun _ h => h) rfl

theorem mild_scrubIf (here : Bool) : Mild s (s.scrubIf here) := by
  unfold State.scrubIf
  split_ifs
  exacts [mild_scrubOne s, Mild.refl s]

theorem mild_expireHolds : Mild s s.expireHolds := by
  unfold State.expireHolds
  dsimp only
  split_ifs
  · exact Mild.refl s
  · have gone := mild_keepHolds s (fun r => decide (s.holdAge r ≠ 32))
    have counted : ∀ u : State, ∀ n, Mild u { u with holds := { u.holds with expired := n } } := fun u n =>
      mild_rest rfl rfl rfl (fun _ => rfl) rfl rfl (fun _ h => h) rfl
    exact (gone.trans (counted _ _)).trans (mild_raise _ _)

theorem mild_expireIf (here : Bool) : Mild s (s.expireIf here) := by
  unfold State.expireIf
  split_ifs
  exacts [mild_expireHolds s, Mild.refl s]

/-! ### The table at a boundary -/

theorem mild_missedEntry (slot : Nat) (ended : CycleNumber) (i : EntryIndex) : Mild s (missedEntry slot ended s i) := by
  unfold missedEntry
  dsimp only
  split_ifs
  · exact ((mild_putUse s i).trans (mild_updEntry _ i)).trans (mild_countPort _ _ _) |>.trans (mild_raise _ _)
  · exact ((mild_putUse s i).trans (mild_updEntry _ i)).trans (mild_countPort _ _ _)
  · exact Mild.refl s

theorem mild_missedSlotCheck (slot : Nat) (ended : CycleNumber) : Mild s (s.missedSlotCheck slot ended) :=
  (mild_checkEntries s _).trans (mild_foldl (fun s i => mild_missedEntry s slot ended i) allEntries _)

theorem mild_beforeScrub {f : State → State} (hf : ∀ s, Mild s (f s)) (asStood bitsReturn : Bool) :
    Mild s (s.beforeScrub asStood bitsReturn f) :=
  (hf s).of_clean fun h => State.beforeScrub_of_clean h asStood bitsReturn f

theorem mild_freeReleasing (i : EntryIndex) : Mild s (s.freeReleasing i) :=
  ((mild_freeEntry s i).trans (mild_keepHolds _ _)).trans (mild_raise _ _)

theorem keeps_freeAndWalk : Keeps s s.freeAndWalk := by
  intro h
  unfold State.freeAndWalk
  rw [State.checkEntries_of_clean h.clean]
  have freed := h.mild (mild_foldl mild_freeReleasing (s.entriesIn .releasing) s)
  refine BudgetedBut.walked ⟨freed.memory, freed.clean, freed.order, freed.pass, ?_⟩ (List.nodup_dedup _)
  exact freed.budgets.inv.but _

variable {s} in
theorem mild_activate {i : EntryIndex} (hi : s.inUse i = true) : Mild s (s.activate i) := by
  have taken : (s.entry i).state ≠ .free := by
    intro free
    rw [State.inUse, free] at hi
    cases hi
  have active : Mild s (s.setEntryState i .active) := mild_setEntryState s i (iff_of_false (by decide) taken) fun _ => hi
  exact active.trans (mild_raise _ _)

theorem inUse_activate (i j : EntryIndex) (h : s.inUse j = true) : (s.activate i).inUse j = true := by
  show ((s.setEntryState i .active).entry j).state.inUse = true
  rw [State.entry_setEntryState]
  split_ifs
  exacts [rfl, h]

theorem mild_activateList (l : List EntryIndex) (h : ∀ i ∈ l, s.inUse i = true) : Mild s (l.foldl State.activate s) := by
  induction l generalizing s with
  | nil => exact Mild.refl s
  | cons i l ih =>
    exact (mild_activate (h i (List.mem_cons_self ..))).trans
      (ih _ fun j hj => inUse_activate s i j (h j (List.mem_cons_of_mem _ hj)))

theorem mild_activateAll : Mild s s.activateAll := by
  have pending : ∀ i ∈ (s.checkEntries fun st => decide (st = .pending)).entriesIn .pending,
      (s.checkEntries fun st => decide (st = .pending)).inUse i = true := fun i hi => by
    have state := of_decide_eq_true (List.mem_filter.mp hi).2
    unfold State.inUse
    rw [state]
    rfl
  exact (mild_checkEntries s _).trans (mild_activateList _ _ pending)

theorem mild_resetUsed (i : EntryIndex) : Mild s (s.resetUsed i) := by
  have read : Mild s (s.checkWord false (entryWord i 1)) := (Mild.refl s).of_clean fun h => State.checkWord_of_clean h _ _
  unfold State.resetUsed
  dsimp only
  split_ifs
  exacts [read.trans (mild_putUse _ i), read, Mild.refl s]

theorem keeps_turnTable : Keeps s s.turnTable :=
  ((keeps_freeAndWalk s).trans (mild_activateAll _).keeps).trans (mild_foldl mild_resetUsed allEntries _).keeps

theorem keeps_tableBoundary (asStood bitsReturn : Bool) (slot : Nat) (ended : CycleNumber) :
    Keeps s (State.tableBoundary asStood bitsReturn slot ended s) :=
  (mild_beforeScrub s (fun s => mild_missedSlotCheck s slot ended) asStood bitsReturn).keeps.trans (keeps_turnTable _)

/-! ### The slot maps at a boundary -/

theorem mild_putActive (p : PortIndex) (kinds : List SlotKind) : Mild s (s.putActive p kinds) := by
  rw [putActive_eq_putMap]
  exact mild_putMap s (by omega) (by have := p.isLt; omega) kinds

theorem mild_openMap (n : Nat) (p : PortIndex) : Mild s (State.openMap n s p) := by
  have opened := (mild_setMaps s p ⟨false, none⟩).trans (mild_putActive _ p (List.replicate n .openSlot))
  unfold State.openMap
  dsimp only
  split
  · exact opened.trans (mild_raise _ _)
  · exact opened

theorem mild_announceGeometry (g : Geometry) : Mild s (s.announceGeometry g) :=
  (mild_foldl (fun s p => mild_openMap s g.slots p) allPorts s).trans (mild_raise _ _)

theorem mild_applyMap (p : PortIndex) : Mild s (s.applyMap p) := by
  have read := mild_checkPending s p
  unfold State.applyMap
  dsimp only
  split_ifs
  · split
    · exact ((read.trans (mild_setMaps _ p _)).trans (mild_putActive _ p _)).trans (mild_raise _ _)
    · exact read
  · exact Mild.refl s

theorem mild_mapsBoundary (applied : Option Geometry) : Mild s (s.mapsBoundary applied) := by
  cases applied with
  | some g => exact Mild.refl s
  | none => exact mild_foldl mild_applyMap allPorts s

/-! ### The lock at a boundary -/

theorem recordCycle_settings (l : Lock) : l.recordCycle.state = l.state ∧ l.recordCycle.maxStep = l.maxStep := by
  simp only [Lock.recordCycle]
  split_ifs <;> exact ⟨rfl, rfl⟩

theorem recordMiss_settings (l : Lock) (h : l.state ≠ .free) : l.recordMiss.state ≠ .free ∧ l.recordMiss.maxStep = l.maxStep := by
  simp only [Lock.recordMiss]
  split_ifs
  exacts [⟨nofun, rfl⟩, ⟨h, rfl⟩, ⟨nofun, rfl⟩, ⟨h, rfl⟩]

theorem forgetMark_settings (l : Lock) (c : Nat) (now : DeviceTime) :
    (l.forgetMark c now).state = l.state ∧ (l.forgetMark c now).maxStep = l.maxStep := by
  unfold Lock.forgetMark
  split
  · split_ifs <;> exact ⟨rfl, rfl⟩
  · exact ⟨rfl, rfl⟩

variable {s} in
/-- A lock that is not FREE and does not become so. -/
theorem mild_setLock_busy {l : Lock} (before : s.lock.state ≠ .free) (after : l.state ≠ .free) (step : l.maxStep = s.lock.maxStep) :
    Mild s (s.setLock l) := mild_setLock s (iff_of_false after before) step

variable {s} in
theorem mild_lockedBoundary (h : s.lock.state ≠ .free) : Mild s s.lockedBoundary := by
  obtain ⟨state, step⟩ := recordCycle_settings s.lock
  have recorded : Mild s (s.setLock s.lock.recordCycle) := mild_setLock_busy h (state ▸ h) step
  have offered : ∀ u : State, Mild s u → u.lock = s.lock.recordCycle → Mild s (u.setLock u.lock.recordMiss) := fun u m e => by
    have busy : u.lock.state ≠ .free := by rw [e, state]; exact h
    obtain ⟨after, step'⟩ := recordMiss_settings u.lock busy
    exact m.trans (mild_setLock_busy busy after step')
  unfold State.lockedBoundary
  dsimp only
  split_ifs
  · exact (offered _ (recorded.trans (mild_raise _ _)) rfl).trans (mild_raise _ _)
  · exact offered _ (recorded.trans (mild_raise _ _)) rfl
  · exact (offered _ recorded rfl).trans (mild_raise _ _)
  · exact offered _ recorded rfl

variable {s} in
theorem mild_holdoverBoundary (h : s.lock.state ≠ .free) : Mild s s.holdoverBoundary := by
  unfold State.holdoverBoundary
  dsimp only
  split_ifs
  · have lost : Mild s (s.setLock { s.lock.cleared with state := .acquiring }) := mild_setLock_busy h nofun rfl
    exact (lost.trans (mild_raise _ _)).trans (mild_reportLockLoss _)
  · exact mild_setLock_busy h h rfl

theorem mild_lockBoundary (handedOver : Bool) (ended : Int) : Mild s (s.lockBoundary handedOver ended) := by
  unfold State.lockBoundary
  split
  · rename_i t state _
    obtain ⟨same, step⟩ := forgetMark_settings s.lock t.geometry.cycleTicks s.time
    exact mild_setLock s (by rw [same]) step
  · exact Mild.refl s
  · rename_i state
    split_ifs
    · exact Mild.refl s
    · have won : Mild s (s.setLock s.lock.enterLocked) := mild_setLock_busy (by simp [state]) nofun rfl
      exact (won.trans (mild_raise _ _)).trans (mild_reportLockWon _)
  · rename_i state
    exact mild_lockedBoundary (by simp [state])
  · rename_i state
    exact mild_holdoverBoundary (by simp [state])
  · exact Mild.refl s

theorem mild_closingWork (o : BoundaryOrder) : Mild s (s.closingWork o) := by
  have cleared : Mild s (allPorts.foldl State.clearPastBusy s) := mild_foldl (fun s p => mild_updPort s p) allPorts s
  have expired := cleared.trans (mild_expireIf _ (!o.expiryFirst))
  exact expired.trans (mild_rest rfl rfl rfl (fun _ => rfl) rfl rfl (fun _ h => h) rfl)

/-! ### The boundaries -/

theorem mild_slotBoundaryWork (k : Nat) : Mild s (s.slotBoundaryWork k) := by
  have check : ∀ s : State, Mild s (s.missedSlotCheck k s.cycleNumber) := fun s => mild_missedSlotCheck s k _
  have dropped := mild_dropChoices s 3
  unfold State.slotBoundaryWork
  dsimp only
  split_ifs
  · exact (dropped.trans (mild_scrubOne _)).trans (check _)
  · exact (dropped.trans (mild_beforeScrub _ check _ _)).trans (mild_scrubOne _)

end

section
variable {s : State} {t : Timer}

/-- The timer turns and no geometry is applied. -/
theorem mild_turnTimer {t' : Timer} (ht : s.timer = some t') (geometry : t.geometry = t'.geometry) (staged : t.staged = t'.staged) :
    Mild s (s.turnTimer t none) := by
  have turned : Mild s { s with timer := some (t.turn s.time none s.lock.stored) } := mild_timer ht geometry staged
  exact turned.trans (mild_setLock _ Iff.rfl rfl)

theorem unused_of_anyInUse (h : s.anyInUse = false) (i : EntryIndex) : (s.entry i).state = .free := by
  simpa [State.anyInUse, allEntries] using (List.any_eq_false.mp h) i (List.mem_finRange i)

theorem inUse_of_free {i : EntryIndex} (h : (s.entry i).state = .free) : s.inUse i = false := by
  rw [State.inUse, h]
  rfl

/-- The timer takes a geometry while no entry is in use. -/
theorem Budgeted.newTimer (h : Budgeted s) (unused : s.anyInUse = false) (busy : s.prot.busy = false) {t : Timer}
    (geometry : t.geometry.slots ≤ 48 ∧ ∀ g, t.staged = some g → g.slots ≤ 48) : Budgeted { s with timer := some t } := by
  refine ⟨h.memory, h.clean, ⟨h.order.once, h.order.exact⟩, fun is => ?_, ?_⟩
  · exact absurd (show s.prot.busy = true from is) (by simp [busy])
  · refine budgetBut_of_unused (u := { s with timer := some t })
      (fun i => inUse_of_free (s := s) (unused_of_anyInUse unused i)) (fun x hx => ?_) h.budgets.extra h.budgets.holds []
    cases hx
    exact geometry

/-- The timer's change of a cycle boundary keeps the budgets, whether a geometry is applied or not. -/
theorem keeps_turnCycle {t' : Timer} (ht : s.timer = some t') (geometry : t.geometry = t'.geometry) (staged : t.staged = t'.staged)
    {applied : Option Geometry} (fit : ∀ g, applied = some g → s.anyInUse = false ∧ t.staged = some g) :
    Keeps s (s.turnCycle t applied) := by
  intro h
  cases applied with
  | none => exact h.mild (mild_turnTimer ht geometry staged)
  | some g =>
    obtain ⟨unused, here⟩ := fit g rfl
    have idle : s.prot.busy = false := by
      rw [← Bool.not_eq_true]
      intro busy
      exact absurd (h.pass busy) (by simp [ht])
    have timed : Budgeted { s with timer := some (t.turn s.time (some g) s.lock.stored) } :=
      h.newTimer unused idle ⟨(h.budgets.geometry t' ht).2 g (staged ▸ here), nofun⟩
    have locked := timed.mild (mild_setLock _ (l := { s.lock with stored := none }) Iff.rfl rfl)
    exact locked.mild (mild_announceGeometry _ g)

theorem applies_eq_some {g : Geometry} (h : s.applies t = some g) : s.anyInUse = false ∧ t.staged = some g := by
  unfold State.applies at h
  split at h
  · split_ifs at h with held
    cases h
    simp only [Bool.or_eq_true, not_or, Bool.not_eq_true] at held
    exact ⟨held.1, ‹_›⟩
  · cases h

theorem mild_scrubAhead (ht : s.timer = some t) : Mild s (s.scrubAhead t) := by
  have timed : Mild s { s with timer := some { t with cycle := t.cycle + 1 } } := mild_timer ht rfl rfl
  exact timed.trans (mild_scrubOne _)

theorem State.scrubAhead_of_clean (clean : s.cleanTable) (t : Timer) :
    (s.scrubAhead t).timer = some { t with cycle := t.cycle + 1 } ∧ (s.scrubAhead t).anyInUse = s.anyInUse := by
  have same : State.cleanTable { s with timer := some { t with cycle := t.cycle + 1 } } := clean
  rw [State.scrubAhead, State.scrubOne_of_clean same]
  exact ⟨rfl, rfl⟩

theorem keeps_openingWork (ht : s.timer = some t) {applied : Option Geometry}
    (fit : ∀ g, applied = some g → s.anyInUse = false ∧ t.staged = some g) (o : BoundaryOrder) :
    Keeps s (s.openingWork t applied o) := by
  have turned : Keeps s ((if o.scrubFirst then s.scrubAhead t else s).turnCycle t applied) := by
    split_ifs
    · intro h
      obtain ⟨timer, unused⟩ := State.scrubAhead_of_clean h.clean t
      exact keeps_turnCycle (t := t) timer rfl rfl (fun g e => by rw [unused]; exact fit g e) (h.mild (mild_scrubAhead ht))
    · exact keeps_turnCycle ht rfl rfl fit
  have worked := (turned.trans (mild_expireIf _ o.expiryFirst).keeps).trans
    (keeps_tableBoundary _ (!o.scrubFirst && o.asStood) o.bitsReturn (t.geometry.slots - 1) t.cycle)
  exact worked.trans (mild_scrubIf _ (!o.scrubFirst && o.scrubSecond)).keeps

theorem keeps_cycleBoundaryWork (ht : s.timer = some t) : Keeps s (s.cycleBoundaryWork t) := by
  intro h
  have dropped := h.mild (mild_dropChoices s 5)
  have opened := keeps_openingWork (s := s.dropChoices 5) ht (applied := s.applies t) (fun g e => applies_eq_some e)
    s.boundaryOrder dropped
  unfold State.cycleBoundaryWork
  dsimp only
  have none : ∀ b : Bool, (if b then ((s.dropChoices 5).openingWork t (s.applies t) s.boundaryOrder).struckMap (s.applies t)
      else none) = none := fun b => by
    rw [State.struckMap_of_clean opened.clean, ite_self]
  rw [none]
  have closed := ((opened.mild (mild_mapsBoundary _ (s.applies t))).mild
    (mild_lockBoundary _ s.lock.stored.isSome t.adjustment)).mild (mild_closingWork _ s.boundaryOrder)
  split_ifs
  exacts [closed.mild (mild_scrubOne _), closed]

end

end Sys2Proof.Machine
end

section
/-! The commands and every step keep the budgets of the slots. -/

namespace Sys2Proof.Machine

/-! ### ADMIT (R59, R69, R70) -/

/-- One more entry counts: its cost is added. -/
theorem sum_filter_add {f g : EntryIndex → Bool} {a b : EntryIndex → Nat} {i : EntryIndex} (fresh : f i = false)
    (counted : g i = true) (other : ∀ j, j ≠ i → g j = f j ∧ b j = a j) :
    ((allEntries.filter g).map b).sum = ((allEntries.filter f).map a).sum + b i := by
  have without : ∀ l : List EntryIndex, i ∉ l → (l.filter g).map b = (l.filter f).map a := fun l hl => by
    have same : ∀ j ∈ l, g j = f j ∧ b j = a j := fun j hj => other j fun e => hl (e ▸ hj)
    rw [List.filter_congr fun j hj => (same j hj).1]
    exact List.map_congr_left fun j hj => (same j (List.mem_of_mem_filter hj)).2
  obtain ⟨before, after, e⟩ := List.append_of_mem (List.mem_finRange i : i ∈ allEntries)
  have once : (before ++ i :: after).Nodup := e ▸ List.nodup_finRange 64
  have apart := List.nodup_middle.mp once
  rw [List.nodup_cons, List.mem_append, not_or] at apart
  rw [show allEntries = before ++ i :: after from e]
  simp only [List.filter_append, List.filter_cons, fresh, counted, if_true, Bool.false_eq_true, if_false, List.map_append,
    List.map_cons, List.sum_append, List.sum_cons, without before apart.1.1, without after apart.1.2]
  omega

/-- A request that ADMIT accepts is in its bounds. -/
theorem admitOperand_bounds {n : Nat} {port : Byte} {tag : BitVec 16} {slot : Byte} {len : BitVec 16} {frames : Byte}
    {a : AdmitRequest} (h : admitOperand n port tag slot len frames = some a) :
    a.slot < n ∧ a.maxLength ≤ 16383 ∧ a.frames ≤ 4 := by
  by_cases accepted : AdmitAccepted n port tag slot len frames
  · have e := admitOperand_eq_some accepted (p := ⟨port.toNat, accepted.1⟩) rfl
    rw [h] at e
    cases e
    obtain ⟨-, -, low, -, len, -, frames⟩ := accepted
    exact ⟨low, len, frames⟩
  · rw [admitOperand_eq_none accepted] at h
    cases h

/-- The fields of a new entry hold the request's numbers. -/
theorem newReservation_fields {a : AdmitRequest} {cost : Nat} (slot : a.slot < 64) (len : a.maxLength ≤ 16383)
    (frames : a.frames ≤ 4) (low : cost < 2 ^ 23) (cycle : CycleNumber) :
    (newReservation a cost cycle).slot.toNat = a.slot ∧ (newReservation a cost cycle).frames.toNat = a.frames ∧
      (newReservation a cost cycle).maxLength.toNat = a.maxLength ∧ (newReservation a cost cycle).cost.toNat = cost := by
  have exact : ∀ w n : Nat, n < 2 ^ w → (BitVec.ofNat w n).toNat = n := fun w n h => by
    rw [BitVec.toNat_ofNat, Nat.mod_eq_of_lt h]
  exact ⟨exact 6 _ slot, exact 3 _ (by omega), exact 14 _ (by omega), exact 23 _ low⟩

section
variable {s : State} {t : Timer} {i : EntryIndex} {a : AdmitRequest}

/-- A stream that fits the budget is placed. -/
theorem Budgeted.placeEntry (h : Budgeted s) (ht : s.timer = some t) (free : (s.entry i).state = .free)
    (low : a.slot < t.geometry.slots) (len : a.maxLength ≤ 16383) (frames : a.frames ≤ 4)
    (fits : (s.countedCosts a.port a.slot : Int) + entryCost (s.port a.port).settings a.frames a.maxLength
      ≤ slotBudget t.geometry s.lock (s.port a.port).settings a.slot) :
    Budgeted (s.placeEntry i a (entryCost (s.port a.port).settings a.frames a.maxLength)) := by
  generalize hcost : entryCost (s.port a.port).settings a.frames a.maxLength = cost at fits ⊢
  have costLow : cost < 2 ^ 23 := hcost ▸ entryCost_lt frames len (h.budgets.extra a.port)
  have few := (h.budgets.geometry t ht).1
  have written := memory_placeEntry s i a cost
  have memory : MemoryInv (s.placeEntry i a cost) := by
    unfold MemoryInv
    rw [written]
    exact State.wf_putReservation h.memory i _
  have put : (s.putReservation i (newReservation a cost s.cycleNumber)).cleanTable :=
    State.cleanTable_putWords h.clean h.memory fun x hx => putReservation_lt i _ _ _ _ x hx
  have clean : (s.placeEntry i a cost).cleanTable := put.of_memory written
  have frame := placeEntry_frame s i a cost
  have timer : (s.placeEntry i a cost).timer = s.timer := (congrArg State.timer frame :)
  have lock : (s.placeEntry i a cost).lock = s.lock := (congrArg State.lock frame :)
  have holds : (s.placeEntry i a cost).holds = s.holds := (congrArg State.holds frame :)
  have busy : (s.placeEntry i a cost).prot.busy = s.prot.busy := (congrArg (fun x => x.prot.busy) frame :)
  have port : ∀ p, (s.placeEntry i a cost).port p = s.port p := State.port_of_ports (congrArg State.ports frame :)
  have new := reservation_placeEntry h.memory i a cost
  have old : ∀ j, j ≠ i → (s.placeEntry i a cost).reservation j = s.reservation j := fun j hj =>
    State.reservation_of_words fun k low high => word_placeEntry h.memory i a cost (by
      have : j.val ≠ i.val := fun e => hj (Fin.ext e)
      omega)
  have inUse : ∀ j, j ≠ i → (s.placeEntry i a cost).inUse j = s.inUse j := fun j hj => by
    unfold State.inUse
    rw [s.entry_placeEntry, if_neg hj]
  obtain ⟨slotField, frameField, lengthField, costField⟩ :=
    newReservation_fields (by omega : a.slot < 64) len frames costLow s.cycleNumber
  have fresh : ∀ p k, s.counts p k i = false := fun p k => by
    rw [← Bool.not_eq_true, s.counts_iff, inUse_of_free free]
    exact fun c => Bool.false_ne_true c.1
  have countsNew : ∀ p k, (s.placeEntry i a cost).counts p k i = true ↔ p = a.port ∧ k = a.slot := fun p k => by
    rw [State.counts_iff, new, slotField]
    have used : (s.placeEntry i a cost).inUse i = true := by
      unfold State.inUse
      rw [s.entry_placeEntry, if_pos rfl]
      rfl
    exact ⟨fun ⟨_, hp, hk, _⟩ => ⟨hp.symm, hk.symm⟩, fun ⟨hp, hk⟩ => ⟨used, hp.symm, hk.symm, rfl⟩⟩
  have countsOld : ∀ p k j, j ≠ i → (s.placeEntry i a cost).counts p k j = s.counts p k j := fun p k j hj => by
    unfold State.counts
    rw [inUse j hj, old j hj]
  refine ⟨memory, clean, orderInv_placeEntry h.order free a cost, fun is => ?_, fun t' ht' => ?_, fun p => ?_, fun j hj => ?_,
    fun j hj => ?_, fun r hr => ?_, fun j hj _ => ?_, fun t' ht' p k _ some => ?_⟩
  · rw [timer]
    exact h.pass (busy ▸ is)
  · exact h.budgets.geometry t' (timer ▸ ht')
  · rw [port]
    exact h.budgets.extra p
  · by_cases same : j = i
    · rw [same, new, frameField]
      exact frames
    · rw [old j same]
      exact h.budgets.frames j (inUse j same ▸ hj)
  · rw [timer]
    by_cases same : j = i
    · exact ⟨t, ht, by rw [same, new, slotField]; exact low⟩
    · rw [old j same]
      exact h.budgets.timed j (inUse j same ▸ hj)
  · rw [holds] at hr
    by_cases same : r.entry = i
    · rw [same, new]
      rfl
    · rw [old _ same]
      exact h.budgets.holds r hr
  · by_cases same : j = i
    · rw [same, new, costField, State.costAt, new, port, frameField, lengthField]
      exact hcost.symm
    · rw [State.costAt, old j same, port]
      exact h.budgets.costs j (inUse j same ▸ hj) (List.not_mem_nil)
  · obtain rfl : t = t' := Option.some.inj (ht.symm.trans (timer ▸ ht'))
    rw [lock, port]
    by_cases here : p = a.port ∧ k = a.slot
    · have sum := sum_filter_add (fresh p k) ((countsNew p k).mpr here)
        (a := fun j => (s.reservation j).cost.toNat) (b := fun j => ((s.placeEntry i a cost).reservation j).cost.toNat)
        fun j hj => ⟨countsOld p k j hj, by rw [old j hj]⟩
      obtain ⟨rfl, rfl⟩ := here
      have total : (s.placeEntry i a cost).countedSum a.port a.slot = s.countedCosts a.port a.slot + cost := by
        unfold State.countedSum
        rw [sum, new, costField]
        rfl
      rw [total]
      exact_mod_cast fits
    · have same : ∀ j, (s.placeEntry i a cost).counts p k j = true → s.counts p k j = true ∧
          ((s.placeEntry i a cost).reservation j).cost.toNat = (s.reservation j).cost.toNat := fun j hj => by
        have apart : j ≠ i := fun e => here ((countsNew p k).mp (e ▸ hj))
        exact ⟨countsOld p k j apart ▸ hj, by rw [old j apart]⟩
      have less := sum_filter_le same allEntries
      exact (Int.ofNat_le.mpr less).trans (h.budgets.budget t ht p k (List.not_mem_nil) (some.imp fun j hj => (same j hj).1))

end

end Sys2Proof.Machine
end

section
/-! Every command and every step keeps the budgets of the slots. -/

namespace Sys2Proof.Machine

/-! ### Commands that leave less to count, or nothing new -/

section
variable (s : State)

theorem mild_loadMapBody (port : Byte) (kinds : List Byte) : Mild s (loadMapBody port kinds s) := by
  unfold loadMapBody
  split
  · exact mild_respond s _ _ _
  · split
    · rename_i p ks _ _
      have put : Mild s (s.putPending p ks) := by
        rw [putPending_eq_putMap]
        exact mild_putMap s (by omega) (by have := p.isLt; omega) ks
      dsimp only
      split_ifs
      · exact (put.trans (mild_setMaps _ _ _)).trans (mild_respond _ _ _ _)
      · exact mild_respond s _ _ _
    · exact mild_respond s _ _ _

theorem mild_commitMapBody (port : Byte) : Mild s (commitMapBody port s) := by
  unfold commitMapBody
  split
  · exact mild_respond s _ _ _
  · rename_i p _
    refine (mild_checkPending s p).trans ?_
    dsimp only
    split
    · exact mild_respond _ _ _ _
    · refine (mild_checkEntries _ EntryState.inUse).trans ?_
      split_ifs
      · exact mild_respond _ _ _ _
      · exact (mild_setMaps _ _ _).trans (mild_respond _ _ _ _)

theorem mild_cancelMapBody (port : Byte) : Mild s (cancelMapBody port s) := by
  unfold cancelMapBody
  split
  · exact mild_respond s _ _ _
  · split
    · exact mild_respond s _ _ _
    · exact (mild_setMaps s _ _).trans (mild_respond _ _ _ _)

theorem mild_releaseBody (index : Byte) : Mild s (releaseBody index s) := by
  unfold releaseBody
  split
  · exact mild_respond s _ _ _
  · rename_i i _
    split
    · exact (mild_freeEntry s i).trans (mild_respond _ _ _ _)
    · rename_i active
      have going : Mild s (s.setEntryState i .releasing) :=
        mild_setEntryState s i (by simp [active]) fun _ => by rw [State.inUse, active]; rfl
      exact going.trans (mild_respond _ _ _ _)
    all_goals exact mild_respond s _ _ _

theorem mild_purgeBody (index : Byte) : Mild s (purgeBody index s) := by
  unfold purgeBody
  split
  · exact mild_respond s _ _ _
  · rename_i i _
    split
    · have idle : (s.freeEntry i).inUse i = false := by
        have state : ((s.freeEntry i).entry i) = { s.entry i with state := .free } :=
          (State.entry_setEntryState s i i .free).trans (if_pos rfl)
        unfold State.inUse
        rw [state]
        rfl
      exact ((mild_freeEntry s i).trans (mild_blankReservation _ i idle)).trans (mild_respond _ _ _ _)
    all_goals exact mild_respond s _ _ _

theorem mild_readReservationBody (index : Byte) : Mild s (readReservationBody index s) := by
  unfold readReservationBody
  split
  · exact mild_respond s _ _ _
  · rename_i i _
    split
    · exact mild_respond s _ _ _
    all_goals
      dsimp only
      refine (mild_checkWords s (entryWords i)).trans ?_
      split_ifs <;> exact mild_respond _ _ _ _

theorem mild_setRingBody (port ring kind : Byte) (base : BitVec 24) (count : BitVec 16) :
    Mild s (setRingBody port ring kind base count s) := by
  unfold setRingBody
  split
  · split
    · rename_i p n _ _ _ r _
      have read : Mild s (s.checkOthers (ringIndex p n)) := (Mild.refl s).of_clean fun h => State.checkOthers_of_clean h _
      unfold setRingEffect
      dsimp only
      split_ifs
      · exact mild_respond s _ _ _
      · exact read.trans (mild_respond _ _ _ _)
      · exact ((read.trans (mild_putRing _ _ r)).trans (mild_setRingValid _ _ true)).trans (mild_respond _ _ _ _)
    · exact mild_respond s _ _ _
  · exact mild_respond s _ _ _

theorem mild_clearRingBody (port ring : Byte) : Mild s (clearRingBody port ring s) := by
  unfold clearRingBody
  split
  · split_ifs
    exacts [mild_respond s _ _ _, (mild_setRingValid s _ false).trans (mild_respond _ _ _ _), mild_respond s _ _ _]
  · exact mild_respond s _ _ _

theorem mild_setMemoryBody (limit : BitVec 16) : Mild s (setMemoryBody limit s) := by
  unfold setMemoryBody
  split
  exacts [mild_respond s _ _ _, (mild_updPath s _).trans (mild_respond _ _ _ _)]

theorem mild_portEnforceBody (port : Byte) : Mild s (portEnforceBody port s) := by
  unfold portEnforceBody
  split
  · exact mild_respond s _ _ _
  · dsimp only
    split_ifs
    exacts [mild_respond s _ _ _, (mild_enforcePort s _).trans (mild_respond _ _ _ _)]

theorem mild_parkBody (code : Byte) (g : GateState) (port : Byte) : Mild s (parkBody code g port s) := by
  unfold parkBody
  split
  exacts [mild_respond s _ _ _, (mild_parkPort s _ g).trans (mild_respond _ _ _ _)]

theorem mild_readPortBody (port selector : Byte) : Mild s (readPortBody port selector s) := by
  unfold readPortBody
  split
  · exact mild_respond s _ _ _
  · split_ifs <;> exact mild_respond s _ _ _

theorem mild_events (q : EventQueue) : Mild s { s with events := q } :=
  mild_rest rfl rfl rfl (fun _ => rfl) rfl rfl (fun _ h => h) rfl

theorem mild_setEventsBody (mask : BitVec 32) (enable : Byte) : Mild s (setEventsBody mask enable s) := by
  unfold setEventsBody
  split
  exacts [(mild_events s _).trans (mild_respond _ _ _ _), mild_respond s _ _ _]

theorem mild_clearGlobals : Mild s s.clearGlobals := by
  have counts : Mild s { s with path := { s.path with timeouts := 0, lates := 0 }, prot := { s.prot with corrected := 0 }
                                holds := { s.holds with full := 0, expired := 0 } } :=
    mild_rest rfl rfl rfl (fun _ => rfl) rfl rfl (fun _ h => h) rfl
  exact counts.trans (mild_setLock _ (l := { s.lock with marks := 0, outliers := 0 }) Iff.rfl rfl)

theorem mild_clearCountersBody (selector index : Byte) : Mild s (clearCountersBody selector index s) := by
  unfold clearCountersBody
  split_ifs
  · split
    exacts [(mild_countPort s _ _).trans (mild_respond _ _ _ _), mild_respond s _ _ _]
  · split
    exacts [(mild_updEntry s _).trans (mild_respond _ _ _ _), mild_respond s _ _ _]
  · exact (mild_clearGlobals s).trans (mild_respond _ _ _ _)
  · exact mild_respond s _ _ _

/-! ### ADMIT -/

theorem keeps_admitBody (port : Byte) (tag : BitVec 16) (slot : Byte) (len : BitVec 16) (frames : Byte) :
    Keeps s (admitBody port tag slot len frames s) := by
  intro h
  cases ht : s.timer with
  | none =>
    simp only [admitBody, ht]
    exact h.mild (mild_respond s _ _ _)
  | some t =>
    cases ha : admitOperand t.geometry.slots port tag slot len frames with
    | none =>
      simp only [admitBody, ht, ha]
      exact h.mild (mild_respond s _ _ _)
    | some a =>
      obtain ⟨low, short, few⟩ := admitOperand_bounds ha
      rw [admitBody_of_clean ht ha h.clean]
      split_ifs
      · exact h.mild (mild_respond s _ _ _)
      · unfold admitPlace
        split
        · exact h.mild (mild_respond s _ _ _)
        · rename_i i found
          have free : (s.entry i).state = .free := by
            have test := List.find?_some (show allEntries.find? (fun i => decide ((s.entry i).state = .free)) = some i from found)
            exact of_decide_eq_true test
          rw [State.checkEntries_of_clean h.clean]
          dsimp only
          split_ifs with fits
          · exact (h.placeEntry ht free low short few fits).mild (mild_respond _ _ _ _)
          · exact h.mild (mild_respond s _ _ _)
      · exact h.mild (mild_respond s _ _ _)

/-! ### SET_GEOMETRY -/

theorem geometryOperand_slots {n : Byte} {ticks : BitVec 16} {g : Geometry} (h : geometryOperand n ticks = some g) :
    g.slots ≤ 48 := by
  unfold geometryOperand at h
  split_ifs at h with fits
  cases h
  exact fits.2.1

theorem keeps_setGeometryBody (n : Byte) (ticks : BitVec 16) (idle : s.prot.busy = false) :
    Keeps s (setGeometryBody n ticks s) := by
  intro h
  unfold setGeometryBody
  split
  · exact h.mild (mild_respond s _ _ _)
  · rename_i g operand
    have slots := geometryOperand_slots operand
    split_ifs with used held
    · exact h.mild (mild_respond s _ _ _)
    · exact h.mild (mild_respond s _ _ _)
    · have unused : s.anyInUse = false := Bool.eq_false_iff.mpr used
      unfold setGeometryEffect
      split
      · have started := h.newTimer unused idle (t := ⟨g, none, 0, s.time, 0⟩) ⟨slots, nofun⟩
        exact (started.mild (mild_announceGeometry _ g)).mild (mild_respond _ _ _ _)
      · rename_i t ht
        have staged := h.newTimer unused idle (t := t.stage g) ⟨(h.budgets.geometry t ht).1, fun x hx => by
          unfold Timer.stage at hx
          dsimp only at hx
          split_ifs at hx
          cases hx
          exact slots⟩
        exact staged.mild (mild_respond _ _ _ _)

/-! ### SET_PORT and SET_SYNC -/

variable {s}

/-- New settings leave the budgets of the slots where no budget input changes or the slot is still to be walked. -/
theorem Budgeted.newSettings (h : Budgeted s) (p : PortIndex) {new : Settings} (extra : new.extra ≤ 32)
    {pairs : List (PortIndex × Nat)}
    (left : ∀ k, k < s.slotCount → (p, k) ∉ pairs → budgetInputsDiffer (s.port p).settings new = false) :
    BudgetedBut (s.updPort p (fun q => { q with settings := new })) pairs := by
  have settings : ∀ q, ((s.updPort p (fun q => { q with settings := new })).port q).settings =
      if q = p then new else (s.port q).settings := fun q => by
    rw [State.port_updPort]
    split_ifs <;> rfl
  have inSlots : ∀ i, s.inUse i = true → (s.reservation i).slot.toNat < s.slotCount := fun i hi => by
    obtain ⟨t, ht, low⟩ := h.budgets.timed i hi
    simpa [State.slotCount, ht] using low
  refine ⟨h.memory, h.clean, ⟨h.order.once, h.order.exact⟩, h.pass, h.budgets.geometry, fun q => ?_, h.budgets.frames,
    h.budgets.timed, h.budgets.holds, fun i hi out => ?_, fun t ht q k out some => ?_⟩
  · rw [settings]
    split_ifs
    exacts [extra, h.budgets.extra q]
  · refine (h.budgets.costs i hi (List.not_mem_nil)).trans ?_
    unfold State.costAt duration
    rw [settings]
    split_ifs with here
    · have same := left _ (inSlots i hi) (here ▸ out)
      obtain ⟨rate, more, -, -⟩ := (budgetInputsDiffer_eq_false _ _).mp same
      rw [← rate, ← more, ← here]
      rfl
    · rfl
  · obtain ⟨i, hi⟩ := some
    have budget := h.budgets.budget t ht q k (List.not_mem_nil) ⟨i, hi⟩
    refine budget.trans (le_of_eq ?_)
    rw [settings]
    by_cases here : q = p
    · obtain ⟨used, -, slot, -⟩ := (s.counts_iff q k i).mp hi
      have same := left k (slot ▸ inSlots i used) (here ▸ out)
      obtain ⟨-, -, lead, guard⟩ := (budgetInputsDiffer_eq_false _ _).mp same
      rw [if_pos here, slotBudget, slotBudget, ← lead, ← guard, here]
      rfl
    · rw [if_neg here]
      rfl

theorem settingsOperand_extra {rate extra : Byte} {lead guard frame : BitVec 16} {mode lock reclaim policy stale silence : Byte}
    {new : Settings} (h : settingsOperand rate extra lead guard frame mode lock reclaim policy stale silence = some new) :
    new.extra ≤ 32 := by
  by_cases accepted : SettingsAccepted rate extra lead guard frame mode lock reclaim policy stale silence
  · rw [settingsOperand_eq_some accepted] at h
    cases h
    exact accepted.2.1
  · rw [settingsOperand_eq_none accepted] at h
    cases h

theorem keeps_setPortBody (port : Byte) {new : Option Settings} (extra : ∀ set, new = some set → set.extra ≤ 32) :
    Keeps s (setPortBody port new s) := by
  intro h
  unfold setPortBody
  split
  · rename_i p set _
    unfold setPortEffect
    dsimp only
    split_ifs with changed
    · have left := h.newSettings p (extra set rfl) (pairs := slotsOf p s.slotCount) fun k hk out =>
        absurd (mem_slotsOf.mpr ⟨rfl, hk⟩) out
      have walked := left.walked (nodup_slotsOf p s.slotCount)
      rw [State.walkPort_eq]
      exact walked.mild (mild_respond _ _ _ _)
    · have left : Budgeted _ := h.newSettings p (extra set rfl) (pairs := []) fun _ _ _ => Bool.eq_false_iff.mpr changed
      exact left.mild (mild_respond _ _ _ _)
  · exact h.mild (mild_respond s _ _ _)

/-- Another lock leaves the budgets of all slots but the last of each port. -/
theorem Budgeted.newLock (h : Budgeted s) {t : Timer} (ht : s.timer = some t) (l : Lock) :
    BudgetedBut { s with lock := l } (allPorts.map fun p => (p, t.geometry.slots - 1)) := by
  refine ⟨h.memory, h.clean, ⟨h.order.once, h.order.exact⟩, h.pass, h.budgets.geometry, h.budgets.extra, h.budgets.frames,
    h.budgets.timed, h.budgets.holds, fun i hi _ => h.budgets.costs i hi (List.not_mem_nil), fun t' ht' q k out some => ?_⟩
  obtain rfl : t = t' := Option.some.inj (ht.symm.trans ht')
  have notLast : ¬ k + 1 = t.geometry.slots := fun last =>
    out (List.mem_map.mpr ⟨q, List.mem_finRange q, by rw [← last]; rfl⟩)
  have budget := h.budgets.budget t ht q k (List.not_mem_nil) some
  have same : slotBudget t.geometry l (s.port q).settings k = slotBudget t.geometry s.lock (s.port q).settings k := by
    unfold slotBudget
    simp only [notLast, false_and, if_false]
  exact budget.trans (le_of_eq same.symm)

theorem keeps_setSyncBody (port : Byte) (tag : BitVec 16) (phi tol : BitVec 24) (m l : Byte) :
    Keeps s (setSyncBody port tag phi tol m l s) := by
  intro h
  cases ht : s.timer with
  | none =>
    simp only [setSyncBody, ht]
    exact h.mild (mild_respond s _ _ _)
  | some t =>
    simp only [setSyncBody, ht]
    split
    · exact h.mild (mild_respond s _ _ _)
    · rename_i set _
      split_ifs
      · have locked := h.newLock ht (s.lock.configured set)
        have reported : BudgetedBut (s.syncReported set) (allPorts.map fun p => (p, t.geometry.slots - 1)) := by
          unfold State.syncReported
          dsimp only
          split_ifs
          exacts [(locked.mild (mild_reportLockLoss _)).mild (mild_raise _ _), locked]
        have distinct : (allPorts.map fun p => (p, t.geometry.slots - 1)).Nodup :=
          (List.nodup_finRange 8).map fun p q e => (Prod.mk.inj e).1
        have walked := reported.walked distinct
        obtain ⟨timer, -⟩ := s.syncReported_frame set
        rw [List.foldl_map, ← foldl_walkLast (timer.trans ht)] at walked
        exact walked.mild (mild_respond _ _ _ _)
      · exact h.mild (mild_respond s _ _ _)

/-- The body of every command keeps the budgets. -/
theorem keeps_commandBody (c : Instr) (idle : s.prot.busy = false) : Keeps s (commandBody c s) := by
  cases c
  case setGeometry => exact keeps_setGeometryBody s _ _ idle
  case setSync => exact keeps_setSyncBody _ _ _ _ _ _
  case loadMap => exact (mild_loadMapBody s _ _).keeps
  case commitMap => exact (mild_commitMapBody s _).keeps
  case cancelMap => exact (mild_cancelMapBody s _).keeps
  case admitStream => exact keeps_admitBody s _ _ _ _ _
  case release => exact (mild_releaseBody s _).keeps
  case purge => exact (mild_purgeBody s _).keeps
  case readReservation => exact (mild_readReservationBody s _).keeps
  case setRing => exact (mild_setRingBody s _ _ _ _ _).keeps
  case clearRing => exact (mild_clearRingBody s _ _).keeps
  case setMemory => exact (mild_setMemoryBody s _).keeps
  case setPort => exact keeps_setPortBody _ fun _ e => settingsOperand_extra e
  case portEnforce => exact (mild_portEnforceBody s _).keeps
  case portHold => exact (mild_parkBody s _ _ _).keeps
  case portTransparent => exact (mild_parkBody s _ _ _).keeps
  case readPort => exact (mild_readPortBody s _ _).keeps
  case readEvent => exact ((mild_events s _).trans (mild_respond _ _ _ _)).keeps
  case setEvents => exact (mild_setEventsBody s _ _).keeps
  case clearCounters => exact (mild_clearCountersBody s _ _).keeps
  all_goals exact (Mild.refl s).keeps

/-! ### The clock and the reset pin -/

/-- While STOPPED no entry is in use. -/
theorem Budgeted.unused (h : Budgeted s) (stopped : s.timer = none) (i : EntryIndex) : s.inUse i = false := by
  rw [← Bool.not_eq_true]
  intro hi
  obtain ⟨t, ht, -⟩ := h.budgets.timed i hi
  rw [stopped] at ht
  cases ht

/-- Words become blank while the timer is STOPPED. -/
theorem Budgeted.blanked (h : Budgeted s) (stopped : s.timer = none) {m : Memory} (wf : m.wf) {busy : Bool}
    (blank : ∀ k, m.read k = blankWord ∨ m.read k = s.word k) :
    Budgeted { s with prot := { s.prot with memory := m, busy := busy } } := by
  refine ⟨wf, fun k => ?_, ⟨h.order.once, h.order.exact⟩, fun _ => stopped, ?_⟩
  · show (m.read k).flips = 0
    rcases blank k with e | e <;> rw [e]
    exacts [rfl, h.clean k]
  · refine budgetBut_of_unused (u := { s with prot := { s.prot with memory := m, busy := busy } }) (h.unused stopped)
      (fun t ht => ?_) h.budgets.extra (fun r hr => ?_) []
    · rw [stopped] at ht
      cases ht
    · have bit : ∀ w : TableWord, w = blankWord ∨ w = s.word (entryWord r.entry 1) → w.stored.getLsbD 25 = false := by
        rintro w (rfl | rfl)
        exacts [rfl, h.budgets.holds r hr]
      exact bit _ (blank (entryWord r.entry 1))

theorem keeps_tickBy (n : Nat) : Keeps s (s.tickBy n) := by
  intro h
  have passed : ∀ time path, Budgeted { s with time := time, path := path } := fun _ _ =>
    h.mild (mild_rest rfl rfl rfl (fun _ => rfl) rfl rfl (fun _ h => h) rfl)
  unfold State.tickBy
  dsimp only
  split_ifs with busy
  · have stopped := h.pass busy
    exact (passed (afterTicks s.time n) (s.path.afterTicks n)).blanked stopped (busy := s.prot.busy)
      (Memory.wf_clear h.memory _ _) fun k => by
        rw [Memory.read_clear]
        split_ifs
        exacts [.inl rfl, .inr rfl]
  · exact passed _ _

theorem Budgeted.finishInit (h : Budgeted s) (stopped : s.timer = none) : Budgeted s.finishInit :=
  h.blanked stopped Memory.wf_nil fun _ => .inl rfl

theorem keeps_slotBoundaryWork (k : Nat) : Keeps s (s.slotBoundaryWork k) := (mild_slotBoundaryWork s k).keeps

/-- The initialisation pass ends only while it runs. -/
theorem nextEvent_initDone {n d : Nat} (h : s.nextEvent n = some (d, .initDone)) : s.prot.busy = true := by
  rcases (State.nextEvent_le h).2 with boundary | ⟨mem, -⟩
  · rcases nextBoundary_event boundary with ⟨k, e⟩ | e <;> cases e
  · simp only [State.initEnd, State.deadlines, List.mem_append, List.mem_map, Option.mem_toList] at mem
    rcases mem with mem | ⟨x, -, e⟩ | ⟨x, -, e⟩
    · split_ifs at mem with busy
      exact busy
    · cases e
    · cases e

theorem keeps_event {n d : Nat} {e : ClockEvent} (he : s.nextEvent n = some (d, e)) : Keeps s ((s.tickBy d).takeEvent e) := by
  intro h
  have ticked := keeps_tickBy d h
  cases e with
  | slotEnd k => exact keeps_slotBoundaryWork k ticked
  | cycleEnd =>
    simp only [State.takeEvent]
    split
    · exact keeps_cycleBoundaryWork ‹_› ticked
    · exact ticked
  | initDone =>
    obtain ⟨-, timer, -⟩ := s.tickBy_frame d
    exact ticked.finishInit (timer.trans (h.pass (nextEvent_initDone he)))
  | timeout r => exact ticked.mild (mild_timeOut _ r)
  | expiry tag => exact ticked.mild (mild_expireTag _ tag)

/-- While STOPPED the passing of time keeps the budgets and the timer STOPPED. -/
theorem keeps_pass_stopped (n : Nat) (h : Budgeted s) (stopped : s.timer = none) :
    Budgeted (s.pass n) ∧ (s.pass n).timer = none := by
  refine State.pass_induction (P := fun s => Budgeted s ∧ s.timer = none) (fun s n _ ⟨h, stopped⟩ => ?_)
    (fun s n d e he ⟨h, stopped⟩ => ⟨keeps_event he h, ?_⟩) s n ⟨h, stopped⟩
  · obtain ⟨-, timer, -⟩ := s.tickBy_frame n
    exact ⟨keeps_tickBy n h, timer.trans stopped⟩
  · obtain ⟨-, timer, -⟩ := s.tickBy_frame d
    have geometry : ∀ u, Mild (s.tickBy d) u → u.timer = none := fun u m => by
      have same := (m (keeps_tickBy d h).memory (keeps_tickBy d h).clean).geometry
      rw [timer, stopped] at same
      exact Option.map_eq_none_iff.mp same
    cases e with
    | slotEnd k => exact geometry _ (mild_slotBoundaryWork _ k)
    | cycleEnd =>
      simp only [State.takeEvent, timer, stopped]
    | initDone => exact timer.trans stopped
    | timeout r => exact geometry _ (mild_timeOut _ r)
    | expiry tag => exact geometry _ (mild_expireTag _ tag)

theorem Budgeted.released (h : Budgeted s) : Budgeted (resetReleased s) := by
  refine ⟨h.memory, h.clean, sound_reset.order.of_fields rfl fun _ => Iff.rfl, fun _ => rfl, ?_⟩
  refine budgetBut_of_unused (fun i => ?_) (fun t ht => by cases ht) (fun p => ?_) (fun r hr => by cases hr) []
  · have e : (resetReleased s).entry i = Entry.initial := State.entry_reset i
    unfold State.inUse
    rw [e]
    rfl
  · have e : (resetReleased s).port p = Port.initial := State.port_reset p
    rw [e]
    decide

/-- Every step keeps the budgets. -/
theorem stepKeeps_budgeted : StepKeeps Budgeted where
  pending := fun _ _ h => h.mild (mild_rest rfl rfl rfl (fun _ => rfl) rfl rfl (fun _ h => h) rfl)
  link := fun _ _ h => h.mild (mild_rest rfl rfl rfl (fun _ => rfl) rfl rfl (fun _ h => h) rfl)
  asserted := fun _ h => h.mild (mild_rest rfl rfl rfl (fun _ => rfl) rfl rfl (fun _ h => h) rfl)
  released := fun _ h => h.released
  tick := fun _ n _ h => keeps_tickBy n h
  event := fun _ _ _ _ he h => keeps_event he h
  finishInit := fun _ n busy h => by
    obtain ⟨passed, stopped⟩ := keeps_pass_stopped n h (h.pass busy)
    exact passed.finishInit stopped
  timeOut := fun s r _ h => h.mild (mild_timeOut s r)
  expireTag := fun s tag h => h.mild (mild_expireTag s tag)
  present := fun s r h => h.mild (mild_present s r)
  response := fun tag data error s h => h.mild (mild_memoryResponse s tag data error)
  body := fun c _ busy h => keeps_commandBody c busy h

/-- Settles O60. -/
theorem stepKeepsBudgets : Obligations.StepKeepsBudgets := by
  intro s t memory clean order pass budgets e
  have h := stepKeeps_budgeted.step ⟨memory, clean, order, pass, budgets.but []⟩ e
  exact ⟨h.budgets.inv, h.pass, h.clean⟩

end

end Sys2Proof.Machine
end

section
/-! What SLOT_BOUNDARY and CYCLE_BOUNDARY run where nothing else falls due: the ticks up to the boundary, then its work. -/

namespace Sys2Proof.Machine

/-! ### A quiet state -/

theorem State.quiet.nextEvent {s : State} (h : s.quiet) (n : Nat) :
    s.nextEvent n = s.nextBoundary.filter (fun x => decide (x.1 ≤ n)) := by
  have others : s.initEnd.toList ++ s.deadlines = [] := by
    simp [State.initEnd, State.deadlines, h.passDone, h.inFlight, h.quarantine]
  simp only [State.nextEvent, others, List.filter_nil, List.append_nil]
  cases s.nextBoundary.filter (fun x => decide (x.1 ≤ n)) <;> rfl

theorem State.quiet.of_rest {s u : State} (h : s.quiet) (r : Rest s u) : u.quiet :=
  ⟨r.resetAsserted.trans h.released, r.busy.trans h.passDone, by rw [r.path]; exact h.inFlight,
    by rw [r.path]; exact h.quarantine⟩

theorem State.quiet.tickBy {s : State} (h : s.quiet) (n : Nat) : (s.tickBy n).quiet := by
  obtain ⟨-, -, -, inFlight, quarantine⟩ := s.tickBy_frame n
  refine ⟨?_, ?_, inFlight.trans h.inFlight, quarantine.trans h.quarantine⟩ <;> rw [State.tickBy_of_done h.passDone]
  exacts [h.released, h.passDone]

/-- No tick passed leaves the state as it was. -/
theorem State.quiet.tickBy_zero {s : State} (h : s.quiet) : s.tickBy 0 = s := by
  rw [State.tickBy_of_done h.passDone, afterTicks_zero, Path.afterTicks_zero]

/-- In a quiet state the next boundary is taken at its instant. -/
theorem State.quiet.at_boundary {s : State} (h : s.quiet) {d n : Nat} {e : ClockEvent} (hb : s.nextBoundary = some (d, e))
    (hn : d ≤ n) : s.nextEvent n = some (d, e) := by
  rw [h.nextEvent, hb, Option.filter_some, if_pos (decide_eq_true hn)]

/-- In a quiet state time that ends before the next boundary has no event. -/
theorem State.quiet.before_boundary {s : State} (h : s.quiet) {n : Nat} (hn : ∀ x, s.nextBoundary = some x → n < x.1) :
    s.nextEvent n = none := by
  rw [h.nextEvent]
  cases hb : s.nextBoundary with
  | none => rfl
  | some x => rw [Option.filter_some, if_neg (by simpa using hn x hb)]

/-! ### The instants of a cycle -/

/-- The present instant is the start of the cycle and the position. -/
theorem Timer.afterTicks_start (t : Timer) (now : DeviceTime) {n : Nat} (h : t.position now ≤ n) :
    afterTicks now (n - t.position now) = afterTicks t.start n := by
  have here : now = afterTicks t.start (t.position now) := by
    unfold afterTicks Timer.position
    rw [BitVec.ofNat_toNat, BitVec.setWidth_eq, BitVec.add_comm, BitVec.sub_add_cancel]
  have total : t.position now + (n - t.position now) = n := Nat.add_sub_cancel' h
  calc afterTicks now (n - t.position now)
      = afterTicks (afterTicks t.start (t.position now)) (n - t.position now) := by rw [← here]
    _ = afterTicks t.start n := by rw [afterTicks_add, total]

/-- At a cycle's start its first boundary, that of slot 0, is ahead. -/
theorem nextBoundary_at_start {s : State} {t : Timer} (ht : s.timer = some t) (start : t.start = s.time) (ok : t.geometry.ok) :
    s.inLastSlot t = false ∧ ∀ x, s.nextBoundary = some x → 0 < x.1 := by
  have position : t.position s.time = 0 := start ▸ t.position_start
  have slot : t.slot s.time = 0 := by
    unfold Timer.slot Timer.slotAt
    rw [position, Nat.zero_div, Nat.zero_min]
  have slots := ok.slotsLow
  have ticks := ok.ticksLow
  refine ⟨decide_eq_false (by rw [slot]; omega), fun x hx => ?_⟩
  rw [nextBoundary_of_timer ht, slot, position, if_pos (by omega)] at hx
  cases hx
  dsimp only
  omega

/-! ### The runs -/

section
variable {s : State} {t : Timer} (ht : s.timer = some t) (ok : t.ok s.time) (quiet : s.quiet)

/-- The state at the end of slot `k`, before the boundary's work. -/
def State.atSlotEnd (s : State) (t : Timer) : State :=
  s.tickBy ((t.slot s.time + 1) * t.geometry.ticks - t.position s.time)

/-- The state after the boundary that ends the present slot. -/
def State.afterSlot (s : State) (t : Timer) : State := (s.atSlotEnd t).slotBoundaryWork (t.slot s.time)

/-- The state at the end of the cycle, before the boundary's work. -/
def State.atCycleEnd (s : State) (t : Timer) : State := s.tickBy (s.toCycleEnd t)

include ok quiet in
omit ht in
theorem State.atCycleEnd_eq : s.atCycleEnd t = { s with time := t.cycleEnd, path := { s.path with expired := [] } } := by
  have inside := ok.position
  have ahead : s.toCycleEnd t ≠ 0 := by unfold State.toCycleEnd; omega
  rw [State.atCycleEnd, State.tickBy_of_done quiet.passDone, Path.afterTicks, if_neg ahead]
  unfold State.toCycleEnd
  rw [t.afterTicks_start s.time (by omega)]
  rfl

include ok quiet in
omit ht in
theorem State.atSlotEnd_eq (early : t.slot s.time + 1 < t.geometry.slots) :
    s.atSlotEnd t = { s with time := t.slotEnd (t.slot s.time), path := { s.path with expired := [] } } := by
  have before := Timer.lt_slotEnd (position := t.position s.time) (by have := ok.geometry.ticksLow; omega) early
  have inside : t.position s.time < (t.slot s.time + 1) * t.geometry.ticks := before
  have ahead : (t.slot s.time + 1) * t.geometry.ticks - t.position s.time ≠ 0 := by omega
  rw [State.atSlotEnd, State.tickBy_of_done quiet.passDone, Path.afterTicks, if_neg ahead, t.afterTicks_start s.time (by omega),
    Timer.slotEnd, if_pos early]

/-- The position and the slot at the end of a slot that is not the last. -/
theorem Timer.at_slotEnd (ok : t.ok s.time) (early : t.slot s.time + 1 < t.geometry.slots) :
    t.position (t.slotEnd (t.slot s.time)) = (t.slot s.time + 1) * t.geometry.ticks ∧
      t.slot (t.slotEnd (t.slot s.time)) = t.slot s.time + 1 ∧ t.ok (t.slotEnd (t.slot s.time)) := by
  have ends := ok.slotEnd_lt early
  have short := ok.length_lt
  have ticks := ok.geometry.ticksLow
  have position : t.position (t.slotEnd (t.slot s.time)) = (t.slot s.time + 1) * t.geometry.ticks := by
    rw [Timer.slotEnd, if_pos early, Timer.position_afterTicks t _ (by rw [t.position_start]; omega), t.position_start, zero_add]
  refine ⟨position, ?_, ok.geometry, ok.staged, ok.low, ok.high, by rw [position]; exact ends⟩
  rw [Timer.slot, position, Timer.slotAt, Nat.mul_div_cancel _ (by omega)]
  omega

include ht ok quiet in
/-- SLOT_BOUNDARY before the last slot runs to the end of the slot and does the work of its boundary. -/
theorem pass_toSlotEnd (early : t.slot s.time + 1 < t.geometry.slots) :
    s.pass s.toSlotEnd = s.afterSlot t := by
  have boundary := nextBoundary_of_timer ht
  rw [if_pos early] at boundary
  have distance : s.toSlotEnd = (t.slot s.time + 1) * t.geometry.ticks - t.position s.time := by
    rw [State.toSlotEnd, boundary]
    rfl
  have work := (good_slotBoundaryWork (s.atSlotEnd t) (t.slot s.time)).steady
  have instant := State.atSlotEnd_eq ok quiet early
  obtain ⟨-, -, ok'⟩ := Timer.at_slotEnd ok early
  have after := (quiet.tickBy ((t.slot s.time + 1) * t.geometry.ticks - t.position s.time)).of_rest work.rest
  have timer : ((s.atSlotEnd t).slotBoundaryWork (t.slot s.time)).timer = some t := by rw [work.timer, instant]; exact ht
  have time : ((s.atSlotEnd t).slotBoundaryWork (t.slot s.time)).time = t.slotEnd (t.slot s.time) := by rw [work.time, instant]
  rw [distance, State.pass_one quiet.released (quiet.at_boundary boundary le_rfl)]
  · exact after.tickBy_zero
  · exact after.before_boundary fun x hx => (Timer.ok.before_boundary (time ▸ ok') timer hx).2

/-- The timer turned at a boundary: its geometry is in range, and the cycle starts now. -/
theorem turn_start (ok : t.ok s.time) {applied : Option Geometry} (staged : ∀ g, applied = some g → t.staged = some g)
    (now : DeviceTime) (handed : Option Int) :
    (t.turn now applied handed).geometry.ok ∧ (t.turn now applied handed).start = now := by
  cases applied with
  | none => exact ⟨ok.geometry, rfl⟩
  | some g => exact ⟨(ok.staged g (staged g rfl)).1, rfl⟩

include ht ok quiet in
/-- After the boundary that ends the cycle the next one is ahead. -/
theorem State.after_cycle :
    ((s.atCycleEnd t).takeEvent .cycleEnd).quiet ∧
      ∀ x, ((s.atCycleEnd t).takeEvent .cycleEnd).nextBoundary = some x → 0 < x.1 := by
  have instant := State.atCycleEnd_eq ok quiet
  have taken : (s.atCycleEnd t).takeEvent .cycleEnd = (s.atCycleEnd t).cycleBoundaryWork t := by
    rw [State.takeEvent, instant, ht]
  rw [taken]
  obtain ⟨rest, timer, -⟩ := cycleBoundaryWork_frame (s.atCycleEnd t) t
  obtain ⟨ok', start⟩ := turn_start ok (fun g e => (State.applies_eq_some (s := s.atCycleEnd t) e).1)
    (s.atCycleEnd t).time (s.atCycleEnd t).lock.stored
  exact ⟨(quiet.tickBy (s.toCycleEnd t)).of_rest rest, (nextBoundary_at_start timer (start.trans rest.time.symm) ok').2⟩

include ht ok quiet in
/-- CYCLE_BOUNDARY in the last slot runs to the end of the cycle and does the work of its boundary. -/
theorem pass_toCycleEnd (last : t.slot s.time + 1 = t.geometry.slots) :
    s.pass (s.toCycleEnd t) = (s.atCycleEnd t).cycleBoundaryWork t := by
  have boundary := nextBoundary_of_timer ht
  rw [if_neg (by omega)] at boundary
  have taken : (s.atCycleEnd t).takeEvent .cycleEnd = (s.atCycleEnd t).cycleBoundaryWork t := by
    rw [State.takeEvent, State.atCycleEnd_eq ok quiet, ht]
  obtain ⟨after, ahead⟩ := State.after_cycle ht ok quiet
  rw [State.toCycleEnd, State.pass_one quiet.released (quiet.at_boundary boundary le_rfl)]
  · exact after.tickBy_zero.trans taken
  · exact after.before_boundary ahead

end

/-! ### A cycle of slot boundaries -/

theorem passTime_idle {s : State} (quiet : s.quiet) (ahead : ∀ x, s.nextBoundary = some x → 0 < x.1) (fuel : Nat) :
    passTime fuel 0 s = s := by
  cases fuel with
  | zero => rfl
  | succ fuel =>
    rw [passTime, quiet.before_boundary ahead]
    exact quiet.tickBy_zero

section
variable {s : State} {t : Timer} (ht : s.timer = some t) (ok : t.ok s.time) (quiet : s.quiet)
include ht ok quiet

/-- The boundary of a slot that is not the last leads to the next slot, with the end of the cycle as much nearer. -/
theorem State.next_slot (early : t.slot s.time + 1 < t.geometry.slots) :
    (s.afterSlot t).timer = some t ∧ t.ok (s.afterSlot t).time ∧ (s.afterSlot t).quiet ∧
      t.slot (s.afterSlot t).time = t.slot s.time + 1 ∧
      ∀ fuel, passTime (fuel + 1) (s.toCycleEnd t) s = passTime fuel ((s.afterSlot t).toCycleEnd t) (s.afterSlot t) := by
  have boundary := nextBoundary_of_timer ht
  rw [if_pos early] at boundary
  have work := (good_slotBoundaryWork (s.atSlotEnd t) (t.slot s.time)).steady
  have instant := State.atSlotEnd_eq ok quiet early
  obtain ⟨position, slot, ok'⟩ := Timer.at_slotEnd ok early
  have time : (s.afterSlot t).time = t.slotEnd (t.slot s.time) := by rw [State.afterSlot, work.time, instant]
  have ends := ok.slotEnd_lt early
  have inside : t.position s.time < (t.slot s.time + 1) * t.geometry.ticks :=
    Timer.lt_slotEnd (by have := ok.geometry.ticksLow; omega) early
  refine ⟨by rw [State.afterSlot, work.timer, instant]; exact ht, time ▸ ok', (quiet.tickBy _).of_rest work.rest, time ▸ slot, fun fuel => ?_⟩
  have nearer : s.toCycleEnd t - ((t.slot s.time + 1) * t.geometry.ticks - t.position s.time) =
      (s.afterSlot t).toCycleEnd t := by
    unfold State.toCycleEnd
    rw [time, position]
    omega
  rw [passTime, quiet.at_boundary boundary (by unfold State.toCycleEnd; omega)]
  exact congrArg (passTime fuel · (s.afterSlot t)) nearer

/-- Two amounts of fuel that are enough for the boundaries that are left let the rest of the cycle pass alike. -/
theorem passTime_toCycleEnd (left : Nat) (slots : t.slot s.time + 1 + left = t.geometry.slots) {fuel fuel' : Nat}
    (enough : left < fuel) (enough' : left < fuel') :
    passTime fuel (s.toCycleEnd t) s = passTime fuel' (s.toCycleEnd t) s := by
  obtain ⟨f, rfl⟩ : ∃ f, fuel = f + 1 := ⟨fuel - 1, by omega⟩
  obtain ⟨f', rfl⟩ : ∃ f', fuel' = f' + 1 := ⟨fuel' - 1, by omega⟩
  induction left generalizing s f f' with
  | zero =>
    have boundary := nextBoundary_of_timer ht
    rw [if_neg (by omega)] at boundary
    obtain ⟨quiet', ahead⟩ := State.after_cycle ht ok quiet
    have same : ∀ f, passTime (f + 1) (s.toCycleEnd t) s = (s.atCycleEnd t).takeEvent .cycleEnd := fun f => by
      rw [passTime, State.toCycleEnd, quiet.at_boundary boundary le_rfl]
      dsimp only
      rw [Nat.sub_self]
      exact passTime_idle quiet' ahead f
    rw [same, same]
  | succ left ih =>
    obtain ⟨ht', ok', quiet', slot, step⟩ := State.next_slot ht ok quiet (by omega)
    obtain ⟨g, rfl⟩ : ∃ g, f = g + 1 := ⟨f - 1, by omega⟩
    obtain ⟨g', rfl⟩ : ∃ g', f' = g' + 1 := ⟨f' - 1, by omega⟩
    rw [step, step]
    exact ih ht' ok' quiet' (by omega) g (by omega) g' (by omega)

/-- Before the last slot the end of the cycle is reached by way of the end of the slot. -/
theorem pass_toCycleEnd_of_early (early : t.slot s.time + 1 < t.geometry.slots) :
    s.pass (s.toCycleEnd t) = (s.afterSlot t).pass ((s.afterSlot t).toCycleEnd t) := by
  obtain ⟨ht', ok', quiet', slot, step⟩ := State.next_slot ht ok quiet early
  have fuel : ∀ v : State, v.timer = some t → t.geometry.slots + 1 < v.clockFuel := fun v hv => by
    simp only [State.clockFuel, State.slotCount, hv, Option.map_some, Option.getD_some]
    omega
  obtain ⟨f, hf⟩ : ∃ f, s.clockFuel = f + 1 := ⟨s.clockFuel - 1, by have := fuel s ht; omega⟩
  have enough := fuel s ht
  have enough' := fuel (s.afterSlot t) ht'
  simp only [State.pass, quiet.released, quiet'.released, Bool.false_eq_true, if_false]
  rw [hf, step]
  exact passTime_toCycleEnd ht' ok' quiet' (t.geometry.slots - (t.slot s.time + 2)) (by omega) (by omega) (by omega)

end

end Sys2Proof.Machine
end

section
/-! The scrub pointer and the limit marks through a cycle boundary, whatever bits of table memory are wrong, and O7. -/

namespace Sys2Proof.Machine

/-! ### The scrub pointer -/

/-- The scrub pointer stays. -/
structure SameScrub (s u : State) : Prop where
  eq : u.prot.scrub = s.prot.scrub

theorem SameScrub.trans {s t u : State} (h : SameScrub s t) (k : SameScrub t u) : SameScrub s u := ⟨k.eq.trans h.eq⟩

theorem Kept.sameScrub {s u : State} (h : Kept s u) : SameScrub s u := ⟨h.scrub⟩

theorem sameScrub_foldl {α : Type} {f : State → α → State} (hf : ∀ s a, SameScrub s (f s a)) (l : List α) (s : State) :
    SameScrub s (l.foldl f s) := by
  induction l generalizing s with
  | nil => exact ⟨rfl⟩
  | cons a l ih => exact (hf s a).trans (ih (f s a))

section
variable (s : State)

theorem sameScrub_raise (e : EventEntry) : SameScrub s (s.raise e) := ⟨rfl⟩

theorem sameScrub_clearPastBusy (p : PortIndex) : SameScrub s (s.clearPastBusy p) := ⟨rfl⟩

theorem sameScrub_clearMarks : SameScrub s s.clearMarks := ⟨rfl⟩

theorem scrub_scrubWord (k : Nat) : (s.scrubWord k).prot.scrub = s.prot.scrub + 1 :=
  congrArg (· + 1) (kept_checkWord true s k).scrub

theorem scrub_scrubIf (here : Bool) : (s.scrubIf here).prot.scrub = if here then s.prot.scrub + 1 else s.prot.scrub := by
  unfold State.scrubIf
  split_ifs
  exacts [scrub_scrubWord s _, rfl]

theorem scrub_lastScrub (struck : Option (PortIndex × Nat)) : (s.lastScrub struck).prot.scrub = s.prot.scrub + 1 := by
  cases struck with
  | none => exact scrub_scrubWord s _
  | some x => exact scrub_scrubWord s (activeWord x.1 x.2)

theorem sameScrub_expireIf (here : Bool) : SameScrub s (s.expireIf here) := by
  unfold State.expireIf State.expireHolds
  dsimp only
  split_ifs <;> exact ⟨rfl⟩

theorem sameScrub_openMap (n : Nat) (p : PortIndex) : SameScrub s (State.openMap n s p) := by
  have opened : SameScrub s ((s.setMaps p ⟨false, none⟩).putActive p (List.replicate n .openSlot)) :=
    ((kept_setMaps s p _).trans (kept_putWords _ _)).sameScrub
  unfold State.openMap
  dsimp only
  split
  exacts [opened.trans (sameScrub_raise _ _), opened]

theorem sameScrub_turnCycle (t : Timer) (applied : Option Geometry) : SameScrub s (s.turnCycle t applied) := by
  cases applied with
  | none => exact ⟨rfl⟩
  | some g =>
    have turned : SameScrub s (s.turnTimer t (some g)) := ⟨rfl⟩
    exact (turned.trans (sameScrub_foldl (fun s p => sameScrub_openMap s g.slots p) allPorts _)).trans (sameScrub_raise _ _)

theorem sameScrub_missedEntry (slot : Nat) (ended : CycleNumber) (i : EntryIndex) : SameScrub s (missedEntry slot ended s i) := by
  unfold missedEntry
  dsimp only
  split_ifs <;> exact ⟨rfl⟩

theorem sameScrub_missedSlotCheck (slot : Nat) (ended : CycleNumber) : SameScrub s (s.missedSlotCheck slot ended) :=
  (kept_checkEntries s _).sameScrub.trans (sameScrub_foldl (fun s i => sameScrub_missedEntry s slot ended i) allEntries _)

theorem sameScrub_setFlips (k : Nat) (flips : BitVec 39) : SameScrub s (s.setFlips k flips) := ⟨rfl⟩

theorem sameScrub_beforeScrub {f : State → State} (hf : ∀ s, SameScrub s (f s)) (asStood bitsReturn : Bool) :
    SameScrub s (s.beforeScrub asStood bitsReturn f) := by
  unfold State.beforeScrub
  split
  · have checked := (sameScrub_setFlips s s.prot.scrub.val 0).trans (hf _)
    dsimp only
    split_ifs
    exacts [checked, checked.trans (sameScrub_setFlips _ _ _)]
  · exact hf s

theorem sameScrub_freeReleasing (i : EntryIndex) : SameScrub s (s.freeReleasing i) := ⟨rfl⟩

theorem sameScrub_activate (i : EntryIndex) : SameScrub s (s.activate i) := ⟨rfl⟩

theorem sameScrub_resetUsed (i : EntryIndex) : SameScrub s (s.resetUsed i) := by
  have read := (kept_checkWord false s (entryWord i 1)).sameScrub
  unfold State.resetUsed
  dsimp only
  split_ifs
  exacts [read.trans (kept_putUse _ i _).sameScrub, read, ⟨rfl⟩]

theorem sameScrub_turnTable : SameScrub s s.turnTable := by
  have freed : SameScrub s s.freeAndWalk :=
    ((kept_checkEntries s _).sameScrub.trans (sameScrub_foldl sameScrub_freeReleasing _ _)).trans
      (sameScrub_foldl (fun s (x : PortIndex × Nat) => (kept_walk s x.1 x.2).sameScrub) _ _)
  have active : SameScrub s.freeAndWalk s.freeAndWalk.activateAll :=
    (kept_checkEntries _ _).sameScrub.trans (sameScrub_foldl sameScrub_activate _ _)
  exact (freed.trans active).trans (sameScrub_foldl sameScrub_resetUsed allEntries _)

theorem sameScrub_applyMap (p : PortIndex) : SameScrub s (s.applyMap p) := by
  have read := (kept_checkPending s p).sameScrub
  unfold State.applyMap
  dsimp only
  split_ifs
  · split
    · exact (read.trans ((kept_setMaps _ p _).trans (kept_putWords _ _)).sameScrub).trans (sameScrub_raise _ _)
    · exact read
  · exact ⟨rfl⟩

theorem sameScrub_mapsBoundary (applied : Option Geometry) : SameScrub s (s.mapsBoundary applied) := by
  cases applied with
  | some g => exact ⟨rfl⟩
  | none => exact sameScrub_foldl sameScrub_applyMap allPorts s

theorem sameScrub_mapsBeforeScrub (applied : Option Geometry) (struck : Option (PortIndex × Nat)) :
    SameScrub s (s.mapsBeforeScrub applied struck) := by
  cases struck with
  | none => exact sameScrub_mapsBoundary s applied
  | some x =>
    exact ((sameScrub_setFlips s _ 0).trans (sameScrub_mapsBoundary _ applied)).trans (sameScrub_setFlips _ _ _)

theorem sameScrub_toFailsafe (p : PortIndex) (cause : FailsafeCause) : SameScrub s (s.toFailsafe p cause) := by
  unfold State.toFailsafe
  dsimp only
  split_ifs <;> exact ⟨rfl⟩

theorem sameScrub_reportLockLoss : SameScrub s s.reportLockLoss := by
  refine sameScrub_foldl (fun s p => ?_) allPorts s
  unfold State.lockLossAt
  split_ifs
  exacts [sameScrub_toFailsafe s p _, ⟨rfl⟩]

theorem sameScrub_reportLockWon : SameScrub s s.reportLockWon := by
  refine sameScrub_foldl (fun s p => ?_) allPorts s
  unfold State.lockWonAt
  split_ifs <;> exact ⟨rfl⟩

theorem sameScrub_lockBoundary (handedOver : Bool) (ended : Int) : SameScrub s (s.lockBoundary handedOver ended) := by
  have raised : ∀ l e, SameScrub s ((s.setLock l).raise e) := fun _ _ => ⟨rfl⟩
  unfold State.lockBoundary
  split
  · exact ⟨rfl⟩
  · exact ⟨rfl⟩
  · split_ifs
    · exact ⟨rfl⟩
    · exact (raised _ _).trans (sameScrub_reportLockWon _)
  · unfold State.lockedBoundary
    dsimp only
    split_ifs <;> exact ⟨rfl⟩
  · unfold State.holdoverBoundary
    dsimp only
    split_ifs
    · exact (raised _ _).trans (sameScrub_reportLockLoss _)
    · exact ⟨rfl⟩
  · exact ⟨rfl⟩

theorem sameScrub_closingWork (o : BoundaryOrder) : SameScrub s (s.closingWork o) := by
  have cleared : SameScrub s (allPorts.foldl State.clearPastBusy s) := sameScrub_foldl sameScrub_clearPastBusy allPorts s
  exact (cleared.trans (sameScrub_expireIf _ (!o.expiryFirst))).trans (sameScrub_clearMarks _)

theorem sameScrub_tableBoundary (asStood bitsReturn : Bool) (slot : Nat) (ended : CycleNumber) :
    SameScrub s (State.tableBoundary asStood bitsReturn slot ended s) :=
  (sameScrub_beforeScrub s (fun s => sameScrub_missedSlotCheck s slot ended) asStood bitsReturn).trans (sameScrub_turnTable _)

theorem scrub_openingWork (t : Timer) (applied : Option Geometry) (o : BoundaryOrder) :
    (s.openingWork t applied o).prot.scrub = if o.scrubFirst || o.scrubSecond then s.prot.scrub + 1 else s.prot.scrub := by
  have ahead : (if o.scrubFirst then s.scrubAhead t else s).prot.scrub =
      if o.scrubFirst then s.prot.scrub + 1 else s.prot.scrub := by
    split_ifs
    exacts [scrub_scrubWord { s with timer := some { t with cycle := t.cycle + 1 } } _, rfl]
  have worked := ((sameScrub_turnCycle (if o.scrubFirst then s.scrubAhead t else s) t applied).trans
    (sameScrub_expireIf _ o.expiryFirst)).trans
    (sameScrub_tableBoundary _ (!o.scrubFirst && o.asStood) o.bitsReturn (t.geometry.slots - 1) t.cycle)
  unfold State.openingWork
  dsimp only
  rw [scrub_scrubIf, worked.eq, ahead]
  cases o.scrubFirst <;> cases o.scrubSecond <;> rfl

/-- A cycle boundary scrubs one word. -/
theorem scrub_cycleBoundaryWork (t : Timer) : (s.cycleBoundaryWork t).prot.scrub = s.prot.scrub + 1 := by
  have opened := scrub_openingWork (s.dropChoices 5) t (s.applies t) s.boundaryOrder
  unfold State.cycleBoundaryWork
  dsimp only
  generalize (s.dropChoices 5).openingWork t (s.applies t) s.boundaryOrder = u at opened ⊢
  have worked : ∀ struck, SameScrub u (((u.mapsBeforeScrub (s.applies t) struck).lockBoundary s.lock.stored.isSome
      t.adjustment).closingWork s.boundaryOrder) := fun struck =>
    ((sameScrub_mapsBeforeScrub u _ struck).trans (sameScrub_lockBoundary _ _ _)).trans (sameScrub_closingWork _ _)
  have dropped : (s.dropChoices 5).prot.scrub = s.prot.scrub := rfl
  rw [dropped] at opened
  by_cases early : (s.boundaryOrder.scrubFirst || s.boundaryOrder.scrubSecond) = true
  · have notLast : ¬ (!s.boundaryOrder.scrubFirst && !s.boundaryOrder.scrubSecond) = true := by
      rw [← Bool.not_or, early]
      decide
    rw [if_neg notLast, (worked _).eq, opened, if_pos early]
  · have last : (!s.boundaryOrder.scrubFirst && !s.boundaryOrder.scrubSecond) = true := by
      rw [← Bool.not_or, Bool.eq_false_iff.mpr early]
      rfl
    rw [if_pos last, scrub_lastScrub, (worked _).eq, opened, if_neg early]

end

/-! ### The limit marks -/

/-- An event of a kind without a limit sets no mark. -/
theorem EventQueue.offer_marks (q : EventQueue) {e : EventEntry} (h : e.limit = none) : (q.offer e).marks = q.marks := by
  rcases q.offer_cases e with ⟨is, -⟩ | ⟨is, -⟩ | ⟨is, -⟩ <;> rw [is]
  rw [h]
  rfl

section
variable (s : State)

theorem marks_toFailsafe (p : PortIndex) (cause : FailsafeCause) : (s.toFailsafe p cause).events.marks = s.events.marks := by
  have left : (if (s.port p).gate = .enforcing then s.leaveEnforcing p else s).events = s.events := by
    split_ifs <;> rfl
  exact (EventQueue.offer_marks _ rfl).trans (congrArg EventQueue.marks left)

theorem marks_memoryError (p : PortIndex) : (s.memoryError p).events.marks = s.events.marks := by
  unfold State.memoryError
  split
  exacts [marks_toFailsafe s p _, rfl, marks_toFailsafe s p _, rfl, rfl]

theorem marks_memoryErrors : (allPorts.foldl State.memoryError s).events.marks = s.events.marks := by
  suffices ∀ l : List PortIndex, (l.foldl State.memoryError s).events.marks = s.events.marks from this allPorts
  intro l
  induction l generalizing s with
  | nil => rfl
  | cons p l ih => exact (ih (s.memoryError p)).trans (marks_memoryError s p)

theorem marks_ownerAction (k : Nat) : (s.ownerAction k).events.marks = s.events.marks := by
  unfold State.ownerAction
  split
  · split_ifs
    · exact (marks_memoryErrors _).trans (EventQueue.offer_marks _ rfl)
    · rfl
  · split_ifs
    · exact (marks_memoryError _ _).trans rfl
    · rfl
  · split
    · split_ifs
      · exact EventQueue.offer_marks _ rfl
      · rfl
    · rfl
  · split_ifs
    · rfl
    · exact (marks_memoryError _ _).trans rfl
    · rfl
  · rfl

/-- The check of a word sets no limit mark. -/
theorem marks_checkWord (scrubbing : Bool) (k : Nat) : (s.checkWord scrubbing k).events.marks = s.events.marks := by
  unfold State.checkWord
  split
  · rfl
  · exact EventQueue.offer_marks _ rfl
  · exact (marks_ownerAction _ k).trans (EventQueue.offer_marks _ rfl)

/-- After a cycle boundary no limit mark is set (R175). -/
theorem marks_cycleBoundaryWork (t : Timer) : (s.cycleBoundaryWork t).events.marks = [] := by
  have cleared : ∀ u : State, ∀ struck, ((u.closingWork s.boundaryOrder).lastScrub struck).events.marks = [] := fun u struck => by
    cases struck with
    | none => exact marks_checkWord (u.closingWork s.boundaryOrder) true _
    | some x => exact marks_checkWord (u.closingWork s.boundaryOrder) true (activeWord x.1 x.2)
  unfold State.cycleBoundaryWork
  dsimp only
  by_cases last : (!s.boundaryOrder.scrubFirst && !s.boundaryOrder.scrubSecond) = true
  · rw [if_pos last]
    exact cleared _ _
  · rw [if_neg last]
    rfl

end

/-! ### CYCLE_BOUNDARY and the timer -/

theorem exec_cycleBoundary_of_timer {s : State} {t : Timer} (ht : s.timer = some t) :
    exec .cycleBoundary s = .next (s.pass (s.toCycleEnd t)) := by
  show Host.Outcome.next (cycleBoundary s) = _
  rw [cycleBoundary, ht]

theorem exec_slotBoundary_of_early {s : State} {t : Timer} (ht : s.timer = some t) (early : t.slot s.time + 1 < t.geometry.slots) :
    exec .slotBoundary s = .next (s.pass s.toSlotEnd) := by
  have before : ¬ s.inLastSlot t = true := by
    unfold State.inLastSlot
    simpa using early
  show Host.Outcome.next (slotBoundary s) = _
  rw [slotBoundary, ht]
  dsimp only
  rw [if_neg before]

/-- A boundary stores no adjustment (R27). -/
theorem stored_atBoundary (l : Lock) (c : Nat) (now : DeviceTime) (handedOver : Bool) (h : l.stored = none) :
    (l.atBoundary c now handedOver).stored = none := by
  unfold Lock.atBoundary
  split
  · exact h
  · unfold Lock.forgetMark
    split
    · split_ifs <;> exact h
    · exact h
  · split_ifs <;> exact h
  · simp only [Lock.recordMiss, Lock.recordCycle]
    split_ifs <;> exact h
  · split_ifs
    exacts [rfl, h]

/-- A staged geometry is applied exactly where no entry is in the table, no gate works and the lock is FREE (R7). -/
theorem State.applies_eq (s : State) (t : Timer) :
    (∀ g, t.staged = some g → s.freeForGeometry → s.applies t = some g) ∧
      (t.staged = none ∨ ¬ s.freeForGeometry → s.applies t = none) := by
  have held : (s.anyInUse || s.geometryHeld) = false ↔ s.freeForGeometry := by
    have entries : s.anyInUse = false ↔ ∀ i, (s.entry i).state = .free := by simp [State.anyInUse, allEntries]
    have gates : s.geometryHeld = false ↔
        (∀ p, (s.port p).gate ≠ .enforcing ∧ (s.port p).gate ≠ .failsafe) ∧ s.lock.state = .free := by
      simp [State.geometryHeld, allPorts]
    rw [Bool.or_eq_false_iff, entries, gates]
    exact ⟨fun ⟨e, g, l⟩ => ⟨e, g, l⟩, fun h => ⟨h.entries, h.gates, h.lock⟩⟩
  unfold State.applies
  refine ⟨fun g staged free => ?_, fun h => ?_⟩
  · simp [staged, held.mpr free]
  · rcases h with h | h
    · rw [h]
    · have busy : (s.anyInUse || s.geometryHeld) = true := by
        rw [← Bool.not_eq_false]
        exact mt held.mp h
      cases t.staged <;> simp [busy]

/-- Settles O7. -/
theorem cycleBoundaryTurnsTimer : Obligations.CycleBoundaryTurnsTimer := by
  refine ⟨fun s ht => ?_, fun s t ht ok quiet early => ?_, fun s t ht ok quiet last => ?_⟩
  · show Host.Outcome.next (cycleBoundary s) = _
    rw [cycleBoundary, ht]
  · obtain ⟨ht', -⟩ := State.next_slot ht ok quiet early
    refine ⟨s.afterSlot t, ?_, ?_⟩
    · rw [exec_slotBoundary_of_early ht early, pass_toSlotEnd ht ok quiet early]
    · rw [exec_cycleBoundary_of_timer ht, exec_cycleBoundary_of_timer ht', pass_toCycleEnd_of_early ht ok quiet early]
  · have instant := State.atCycleEnd_eq ok quiet
    obtain ⟨rest, timer, lock⟩ := cycleBoundaryWork_frame (s.atCycleEnd t) t
    obtain ⟨taken, kept⟩ := (s.atCycleEnd t).applies_eq t
    have free : (s.atCycleEnd t).freeForGeometry ↔ s.freeForGeometry := by
      rw [instant]
      exact ⟨fun ⟨e, g, l⟩ => ⟨e, g, l⟩, fun ⟨e, g, l⟩ => ⟨e, g, l⟩⟩
    refine ⟨(s.atCycleEnd t).cycleBoundaryWork t, ?_, ?_, fun g staged is => ?_, fun h => ?_, ?_, marks_cycleBoundaryWork _ t,
      ?_, ?_, ?_, ?_⟩
    · rw [exec_cycleBoundary_of_timer ht, pass_toCycleEnd ht ok quiet last]
    · rw [rest.time, instant]
    · rw [timer, taken g staged (free.mpr is), instant]
      rfl
    · rw [timer, kept (h.imp_right (mt free.mp)), instant]
      rfl
    · rw [lock]
      exact stored_atBoundary _ _ _ _ rfl
    · rw [scrub_cycleBoundaryWork, instant]
    · rw [rest.pending, instant]
    · rw [rest.link, instant]
    · rw [rest.path, instant]

end Sys2Proof.Machine
end

section
/-! The missed-slot check where no bit of table memory is wrong, and the slot boundary. -/

namespace Sys2Proof.Machine

/-! ### Counts -/

theorem satAdd_zero {w : Nat} (c : BitVec w) : satAdd c 0 = c := by
  unfold satAdd
  rw [Nat.add_zero, Nat.min_eq_left (by have := c.isLt; omega), BitVec.ofNat_toNat, BitVec.setWidth_eq]

theorem satAdd_one {w : Nat} (c : BitVec w) : satAdd c 1 = satInc c := by
  have full : c = BitVec.allOnes w ↔ c.toNat = 2 ^ w - 1 := by
    rw [← BitVec.toNat_inj, BitVec.toNat_allOnes]
  have low := c.isLt
  unfold satAdd satInc
  split_ifs with h
  · rw [Nat.min_eq_right (by have := full.mp h; omega), h]
    exact BitVec.eq_of_toNat_eq (by rw [BitVec.toNat_ofNat, BitVec.toNat_allOnes, Nat.mod_eq_of_lt (by omega)])
  · have := mt full.mpr h
    rw [Nat.min_eq_left (by omega)]
    exact BitVec.eq_of_toNat_eq (by simp)

theorem satAdd_satAdd {w : Nat} (c : BitVec w) (m n : Nat) : satAdd (satAdd c m) n = satAdd c (m + n) := by
  have low := c.isLt
  unfold satAdd
  congr 1
  rw [BitVec.toNat_ofNat, Nat.mod_eq_of_lt (by omega)]
  omega

/-! ### The missed-slot check (R88, R89) -/

/-- The fields of an entry after the check of slot `k`. -/
def State.checkedReservation (s : State) (k : Nat) (i : EntryIndex) : Reservation :=
  if s.misses k i then
    { s.reservation i with
        misses := satInc (s.reservation i).misses
        silent := (s.reservation i).silent
          || decide ((s.port (s.reservation i).port).settings.silence ≤ (satInc (s.reservation i).misses).toNat) }
  else s.reservation i

/-- The entry after the check of slot `k`. -/
def State.checkedEntry (s : State) (k : Nat) (i : EntryIndex) : Entry :=
  if s.misses k i then { s.entry i with totalMisses := satInc (s.entry i).totalMisses } else s.entry i

/-- The port once `n` of its entries have counted a miss. -/
def Port.missing (q : Port) (n : Nat) : Port :=
  { q with counters := { q.counters with missedSlots := satAdd q.counters.missedSlots n } }

/-- From `s` to `u` the entries of the list have been checked at the end of slot `k` of cycle `ended`. -/
structure Missed (k : Nat) (ended : CycleNumber) (l : List EntryIndex) (s u : State) : Prop where
  memory : MemoryInv u
  clean : s.cleanTable → u.cleanTable
  reservation : ∀ i, u.reservation i = if i ∈ l then s.checkedReservation k i else s.reservation i
  entry : ∀ i, u.entry i = if i ∈ l then s.checkedEntry k i else s.entry i
  port : ∀ p, u.port p = (s.port p).missing (l.countP (fun i => s.misses k i && decide ((s.reservation i).port = p)))
  words : ∀ n, 256 ≤ n → u.word n = s.word n
  events : u.events = s.events.offers ((l.filter (s.silences k)).map (fun i =>
    s.tableEvent .streamSilent i ended (satInc (s.reservation i).misses).toNat))
  frame : { u with table := s.table, ports := s.ports, events := s.events
                   prot := { u.prot with memory := s.prot.memory } } = s

theorem Port.missing_zero (q : Port) : q.missing 0 = q := by
  unfold Port.missing
  rw [satAdd_zero]

theorem Port.missing_missing (q : Port) (m n : Nat) : (q.missing m).missing n = q.missing (m + n) := by
  unfold Port.missing
  rw [satAdd_satAdd]

section
variable {k : Nat} {ended : CycleNumber} {s t u : State}

theorem Missed.nil (h : MemoryInv s) : Missed k ended [] s s where
  memory := h
  clean := id
  reservation := fun _ => by simp
  entry := fun _ => by simp
  port := fun p => (s.port p).missing_zero.symm
  words := fun _ _ => rfl
  events := rfl
  frame := rfl

/-- The check of an entry leaves what the checks of other entries look at. -/
theorem Missed.other {i j : EntryIndex} (h : Missed k ended [i] s t) (apart : j ≠ i) :
    t.reservation j = s.reservation j ∧ t.entry j = s.entry j ∧ t.misses k j = s.misses k j ∧
      t.silences k j = s.silences k j ∧ t.checkedReservation k j = s.checkedReservation k j ∧
      t.checkedEntry k j = s.checkedEntry k j := by
  have reservation : t.reservation j = s.reservation j := by rw [h.reservation, if_neg (by simpa using apart)]
  have entry : t.entry j = s.entry j := by rw [h.entry, if_neg (by simpa using apart)]
  have gate : ∀ p, (t.port p).gate = (s.port p).gate ∧ (t.port p).settings = (s.port p).settings := fun p => by
    rw [h.port]
    exact ⟨rfl, rfl⟩
  have misses : t.misses k j = s.misses k j := by
    unfold State.misses
    rw [reservation, entry, (gate _).1]
  refine ⟨reservation, entry, misses, ?_, ?_, ?_⟩
  · unfold State.silences
    rw [misses, reservation, (gate _).2]
  · unfold State.checkedReservation
    rw [misses, reservation, (gate _).2]
  · unfold State.checkedEntry
    rw [misses, entry]

/-- The check of an entry, and then of others. -/
theorem Missed.cons {i : EntryIndex} {l : List EntryIndex} (fresh : i ∉ l) (h : Missed k ended [i] s t)
    (m : Missed k ended l t u) : Missed k ended (i :: l) s u := by
  have apart : ∀ j ∈ l, j ≠ i := fun j hj e => fresh (e ▸ hj)
  refine ⟨m.memory, fun c => m.clean (h.clean c), fun j => ?_, fun j => ?_, fun p => ?_, fun n hn => ?_, ?_, ?_⟩
  · rw [m.reservation]
    split_ifs with here there there
    · exact (h.other (apart j here)).2.2.2.2.1
    · exact absurd (List.mem_cons_of_mem i here) there
    · obtain rfl : j = i := (List.mem_cons.mp there).resolve_right here
      rw [h.reservation, if_pos (List.mem_singleton_self j)]
    · rw [h.reservation, if_neg fun e => there (by rw [List.mem_singleton.mp e]; exact List.mem_cons_self)]
  · rw [m.entry]
    split_ifs with here there there
    · exact (h.other (apart j here)).2.2.2.2.2
    · exact absurd (List.mem_cons_of_mem i here) there
    · obtain rfl : j = i := (List.mem_cons.mp there).resolve_right here
      rw [h.entry, if_pos (List.mem_singleton_self j)]
    · rw [h.entry, if_neg fun e => there (by rw [List.mem_singleton.mp e]; exact List.mem_cons_self)]
  · rw [m.port, h.port, Port.missing_missing]
    congr 1
    have rest : l.countP (fun j => t.misses k j && decide ((t.reservation j).port = p)) =
        l.countP (fun j => s.misses k j && decide ((s.reservation j).port = p)) :=
      List.countP_congr fun j hj => by
        obtain ⟨reservation, -, misses, -⟩ := h.other (apart j hj)
        rw [reservation, misses]
    rw [rest, List.countP_cons, List.countP_cons, List.countP_nil]
    omega
  · rw [m.words n hn, h.words n hn]
  · have rest : (l.filter (t.silences k)).map (fun j =>
          t.tableEvent .streamSilent j ended (satInc (t.reservation j).misses).toNat) =
        (l.filter (s.silences k)).map (fun j =>
          s.tableEvent .streamSilent j ended (satInc (s.reservation j).misses).toNat) := by
      rw [List.filter_congr fun j hj => (h.other (apart j hj)).2.2.2.1]
      exact List.map_congr_left fun j hj => by
        obtain ⟨reservation, -⟩ := h.other (apart j (List.mem_of_mem_filter hj))
        rw [State.tableEvent, reservation]
        rfl
    rw [m.events, h.events, ← EventQueue.offers_append, rest, List.filter_cons, List.filter_cons]
    split_ifs <;> rfl
  · conv_rhs => rw [← h.frame, ← m.frame]

/-- What the check writes into the second word of an entry that counts a miss. -/
def State.missedUse (s : State) (k : Nat) (i : EntryIndex) (r : Reservation) : Reservation :=
  { r with misses := satInc (s.reservation i).misses, silent := (s.reservation i).silent || s.silences k i }

/-- The state once an entry has counted a miss, its event apart. -/
def State.missCounted (s : State) (k : Nat) (i : EntryIndex) : State :=
  ((s.putUse i (s.missedUse k i)).updEntry i (fun e => { e with totalMisses := satInc e.totalMisses })).countPort
    (s.reservation i).port (fun c => { c with missedSlots := satInc c.missedSlots })

theorem State.memory_missCounted (s : State) (k : Nat) (i : EntryIndex) :
    (s.missCounted k i).prot.memory = (s.putUse i (s.missedUse k i)).prot.memory := rfl

theorem State.silences_of_misses {i : EntryIndex} (miss : s.misses k i = true) :
    (!(s.reservation i).silent && decide ((s.port (s.reservation i).port).settings.silence ≤
        (satInc (s.reservation i).misses).toNat)) = s.silences k i := by
  unfold State.silences
  rw [miss]
  rfl

/-- The check of an entry that counts a miss. -/
theorem missedEntry_of_miss {i : EntryIndex} (miss : s.misses k i = true) :
    missedEntry k ended s i = { s.missCounted k i with events := s.events.offers (if s.silences k i then
      [s.tableEvent .streamSilent i ended (satInc (s.reservation i).misses).toNat] else []) } := by
  have test : (s.entry i).state = .active ∧ (s.reservation i).slot.toNat = k ∧ (s.reservation i).overbooked = false ∧
      (s.port (s.reservation i).port).gate = .enforcing ∧ (s.reservation i).used = 0 := by
    simpa [State.misses, and_assoc] using miss
  have falls := State.silences_of_misses miss
  unfold missedEntry
  dsimp only
  rw [if_pos test, falls]
  split_ifs <;> rfl

/-- The check of an entry that counts none. -/
theorem missedEntry_of_no_miss {i : EntryIndex} (miss : ¬ s.misses k i = true) : missedEntry k ended s i = s := by
  have test : ¬ ((s.entry i).state = .active ∧ (s.reservation i).slot.toNat = k ∧ (s.reservation i).overbooked = false ∧
      (s.port (s.reservation i).port).gate = .enforcing ∧ (s.reservation i).used = 0) := by
    simpa [State.misses, and_assoc] using miss
  unfold missedEntry
  exact if_neg test

theorem State.reservation_missCounted (h : MemoryInv s) {i : EntryIndex} (miss : s.misses k i = true) (j : EntryIndex) :
    (s.missCounted k i).reservation j = if j = i then s.checkedReservation k i else s.reservation j := by
  have silent : ((s.reservation i).silent || s.silences k i) = ((s.reservation i).silent
      || decide ((s.port (s.reservation i).port).settings.silence ≤ (satInc (s.reservation i).misses).toNat)) := by
    rw [← State.silences_of_misses miss]
    cases (s.reservation i).silent <;> simp
  rw [State.reservation_of_memory (s.memory_missCounted k i), State.reservation_putUse h, State.checkedReservation, if_pos miss,
    ← silent]
  rfl

theorem State.entry_missCounted {i : EntryIndex} (miss : s.misses k i = true) (j : EntryIndex) :
    (s.missCounted k i).entry j = if j = i then s.checkedEntry k i else s.entry j := by
  have e := State.entry_updEntry (s.putUse i (s.missedUse k i)) i j (fun e => { e with totalMisses := satInc e.totalMisses })
  rw [State.checkedEntry, if_pos miss]
  exact e

theorem State.port_missCounted (s : State) (k : Nat) (i : EntryIndex) (p : PortIndex) :
    (s.missCounted k i).port p = (s.port p).missing (if p = (s.reservation i).port then 1 else 0) := by
  have e := State.port_updPort ((s.putUse i (s.missedUse k i)).updEntry i (fun e => { e with totalMisses := satInc e.totalMisses }))
    (s.reservation i).port p (fun q => { q with counters := { q.counters with missedSlots := satInc q.counters.missedSlots } })
  split_ifs with same
  · subst same
    rw [if_pos rfl] at e
    rw [Port.missing, satAdd_one]
    exact e
  · rw [if_neg same] at e
    rw [Port.missing_zero]
    exact e

theorem State.word_missCounted (h : MemoryInv s) (i : EntryIndex) {n : Nat} (hn : 256 ≤ n) :
    (s.missCounted k i).word n = s.word n := by
  have apart : n ≠ entryWord i 1 := by
    have := i.isLt
    unfold entryWord
    omega
  rw [State.word_of_prot (s.memory_missCounted k i)]
  exact (State.word_putWord h _ _ _).trans (if_neg apart)

theorem State.missCounted_frame (s : State) (k : Nat) (i : EntryIndex) :
    { s.missCounted k i with table := s.table, ports := s.ports
                             prot := { (s.missCounted k i).prot with memory := s.prot.memory } } = s := rfl

/-- The check of one entry. -/
theorem missed_entry (h : MemoryInv s) (i : EntryIndex) : Missed k ended [i] s (missedEntry k ended s i) := by
  by_cases miss : s.misses k i = true
  · rw [missedEntry_of_miss miss]
    refine ⟨?_, fun c => ?_, fun j => ?_, fun j => ?_, fun p => ?_, fun n hn => State.word_missCounted h i hn, ?_, ?_⟩
    · exact State.wf_putUse h i (s.missedUse k i)
    · exact (State.cleanTable_putWord c h _ _).of_memory (s.memory_missCounted k i)
    · refine (State.reservation_missCounted h miss j).trans ?_
      simp only [List.mem_singleton]
      split_ifs with same <;> simp [same]
    · refine (State.entry_missCounted miss j).trans ?_
      simp only [List.mem_singleton]
      split_ifs with same <;> simp [same]
    · refine (s.port_missCounted k i p).trans ?_
      rw [List.countP_cons, List.countP_nil, miss, Nat.zero_add]
      simp [eq_comm]
    · rw [List.filter_cons, List.filter_nil]
      split_ifs <;> rfl
    · exact congrArg (fun x : State => { x with events := s.events }) (s.missCounted_frame k i)
  · have quiet : s.silences k i = false := by
      unfold State.silences
      rw [Bool.eq_false_iff.mpr miss]
      rfl
    rw [missedEntry_of_no_miss miss]
    refine ⟨h, id, fun j => ?_, fun j => ?_, fun p => ?_, fun _ _ => rfl, ?_, rfl⟩
    · split_ifs with same
      · rw [State.checkedReservation, if_neg (List.mem_singleton.mp same ▸ miss)]
      · rfl
    · split_ifs with same
      · rw [State.checkedEntry, if_neg (List.mem_singleton.mp same ▸ miss)]
      · rfl
    · simp [miss, Port.missing_zero]
    · simp [quiet]
      rfl

theorem missed_foldl (h : MemoryInv s) {l : List EntryIndex} (once : l.Nodup) :
    Missed k ended l s (l.foldl (missedEntry k ended) s) := by
  induction l generalizing s with
  | nil => exact Missed.nil h
  | cons i l ih =>
    rw [List.nodup_cons] at once
    have first := missed_entry (k := k) (ended := ended) h i
    exact first.cons once.1 (ih first.memory once.2)

/-- The missed-slot check of a clean table. -/
theorem missed_missedSlotCheck (h : MemoryInv s) (hc : s.cleanTable) (k : Nat) (ended : CycleNumber) :
    Missed k ended allEntries s (s.missedSlotCheck k ended) := by
  unfold State.missedSlotCheck
  rw [State.checkEntries_of_clean hc]
  exact missed_foldl h (List.nodup_finRange 64)

end

/-! ### SLOT_BOUNDARY -/

/-- All as in `s`, but for the order choices used up and the scrub pointer. -/
def State.drawn (s : State) (n : Nat) (x : Fin 1024) : State :=
  { s with choices := (s.dropChoices n).choices, prot := { s.prot with scrub := x } }

/-- A slot boundary of a clean table checks the entries and moves the scrub pointer, in this order or the other. -/
theorem slotBoundaryWork_of_clean {s : State} (h : MemoryInv s) (hc : s.cleanTable) (k : Nat) :
    ∃ x v, Missed k s.cycleNumber allEntries (s.drawn 3 x) v ∧
      s.slotBoundaryWork k = { v with prot := { v.prot with scrub := s.prot.scrub + 1 } } := by
  have dropped : (s.dropChoices 3).cleanTable := hc
  by_cases first : s.choice 0 = true
  · have v := missed_missedSlotCheck (s := s.drawn 3 (s.prot.scrub + 1)) h hc k s.cycleNumber
    refine ⟨_, _, v, ?_⟩
    have run : s.slotBoundaryWork k = (s.drawn 3 (s.prot.scrub + 1)).missedSlotCheck k s.cycleNumber := by
      unfold State.slotBoundaryWork
      dsimp only
      rw [if_pos first, State.scrubOne_of_clean dropped]
      rfl
    have scrub : ((s.drawn 3 (s.prot.scrub + 1)).missedSlotCheck k s.cycleNumber).prot.scrub = s.prot.scrub + 1 :=
      (sameScrub_missedSlotCheck _ k _).eq
    rw [run]
    generalize (s.drawn 3 (s.prot.scrub + 1)).missedSlotCheck k s.cycleNumber = u at scrub ⊢
    rw [← scrub]
  · have v := missed_missedSlotCheck (s := s.drawn 3 s.prot.scrub) h hc k s.cycleNumber
    refine ⟨_, _, v, ?_⟩
    have run : s.slotBoundaryWork k = ((s.drawn 3 s.prot.scrub).missedSlotCheck k s.cycleNumber).scrubOne := by
      unfold State.slotBoundaryWork
      dsimp only
      rw [if_neg first, State.beforeScrub_of_clean dropped]
      rfl
    have scrub : ((s.drawn 3 s.prot.scrub).missedSlotCheck k s.cycleNumber).prot.scrub = s.prot.scrub :=
      (sameScrub_missedSlotCheck _ k _).eq
    rw [run, State.scrubOne_of_clean (v.clean hc), scrub]

/-- SLOT_BOUNDARY in the last slot passes the cycle boundary first. -/
theorem exec_slotBoundary_of_last {s : State} {t : Timer} (ht : s.timer = some t) (ok : t.ok s.time) (quiet : s.quiet)
    (last : t.slot s.time + 1 = t.geometry.slots) :
    exec .slotBoundary s = exec .slotBoundary (s.pass (s.toCycleEnd t)) := by
  have run := pass_toCycleEnd ht ok quiet last
  obtain ⟨rest, timer, -⟩ := cycleBoundaryWork_frame (s.atCycleEnd t) t
  rw [← run] at rest timer
  have inLast : s.inLastSlot t = true := decide_eq_true (by omega)
  obtain ⟨ok', start⟩ := turn_start ok (fun g e => (State.applies_eq_some (s := s.atCycleEnd t) e).1)
    (s.atCycleEnd t).time (s.atCycleEnd t).lock.stored
  have early := (nextBoundary_at_start timer (start.trans rest.time.symm) ok').1
  show Host.Outcome.next (slotBoundary s) = .next (slotBoundary (s.pass (s.toCycleEnd t)))
  rw [slotBoundary, slotBoundary, ht, timer]
  dsimp only
  rw [if_pos inLast, early]
  rfl

/-- Settles O6. -/
theorem slotBoundaryCountsMisses : Obligations.SlotBoundaryCountsMisses := by
  refine ⟨fun s ht => ?_, fun s t ht ok quiet last => ?_, fun s t ht ok quiet memory clean early => ?_⟩
  · show Host.Outcome.next (slotBoundary s) = _
    rw [slotBoundary, ht]
  · exact ⟨_, exec_cycleBoundary_of_timer ht, exec_slotBoundary_of_last ht ok quiet last⟩
  · have instant := State.atSlotEnd_eq ok quiet early
    obtain ⟨ht', -, -, slot, -⟩ := State.next_slot ht ok quiet early
    have memory' : MemoryInv (s.atSlotEnd t) := by rw [instant]; exact memory
    have clean' : (s.atSlotEnd t).cleanTable := by rw [instant]; exact clean
    obtain ⟨x, v, missed, work⟩ := slotBoundaryWork_of_clean memory' clean' (t.slot s.time)
    have cycle : (s.atSlotEnd t).cycleNumber = t.cycle := by simp [State.cycleNumber, instant, ht]
    rw [cycle, instant] at missed
    rw [instant] at work
    have time : v.time = t.slotEnd (t.slot s.time) := (congrArg State.time missed.frame :)
    have run : s.afterSlot t = { v with prot := { v.prot with scrub := s.prot.scrub + 1 } } := by
      rw [State.afterSlot, instant]
      exact work
    refine ⟨s.afterSlot t, ?_, ?_, ?_, ?_⟩
    · rw [exec_slotBoundary_of_early ht early, pass_toSlotEnd ht ok quiet early]
    · rw [run]
      exact time
    · rw [State.currentSlot, ht', Option.map_some, slot]
    · rw [run]
      refine ⟨rfl, fun i => ?_, fun i => ?_, fun p => ?_, missed.events, missed.words, (congrArg State.path missed.frame :), ?_⟩
      · exact (missed.reservation i).trans (if_pos (List.mem_finRange i))
      · exact (missed.entry i).trans (if_pos (List.mem_finRange i))
      · exact missed.port p
      · exact congrArg (fun y : State => { y with time := s.time, choices := s.choices, path := s.path
                                                  prot := { y.prot with scrub := s.prot.scrub } }) missed.frame

end Sys2Proof.Machine
end

section
/-! The parts of a cycle boundary's work where no bit of table memory is wrong. -/

namespace Sys2Proof.Machine

/-! ### RELEASING becomes FREE (R74) -/

/-- From `s` to `u` the entries of the list have left the table. -/
structure Freed (l : List EntryIndex) (s u : State) : Prop where
  entry : ∀ i, u.entry i = if i ∈ l then { s.entry i with state := .free } else s.entry i
  order : u.order = s.order.filter (fun i => decide (i ∉ l))
  records : u.holds.records = s.holds.records.filter (fun r => decide (r.entry ∉ l))
  events : u.events = s.events.offers (l.map (fun i =>
    s.tableEvent .resFreed i s.cycleNumber (s.reservation i).slot.toNat))
  frame : { u with table := s.table, order := s.order, events := s.events
                   holds := { u.holds with records := s.holds.records } } = s

theorem freed_one (s : State) (i : EntryIndex) : Freed [i] s (s.freeReleasing i) := by
  refine ⟨fun j => ?_, ?_, ?_, rfl, rfl⟩
  · refine (State.entry_setEntryState s i j .free).trans ?_
    simp only [List.mem_singleton]
    split_ifs with same <;> simp [same]
  · exact (State.freeEntry_order s i).trans (List.filter_congr fun j _ => by simp)
  · exact List.filter_congr fun r _ => by simp

theorem freed_foldl (l : List EntryIndex) (s : State) : Freed l s (l.foldl State.freeReleasing s) := by
  induction l generalizing s with
  | nil => exact ⟨fun _ => by simp, by simp, by simp, rfl, rfl⟩
  | cons i l ih =>
    have first := freed_one s i
    have rest := ih (s.freeReleasing i)
    refine ⟨fun j => ?_, ?_, ?_, ?_, ?_⟩
    · rw [List.foldl_cons, rest.entry, first.entry]
      by_cases same : j = i <;> simp [same]
    · rw [List.foldl_cons, rest.order, first.order, List.filter_filter]
      exact List.filter_congr fun j _ => by simp [not_or, Bool.and_comm]
    · rw [List.foldl_cons, rest.records, first.records, List.filter_filter]
      exact List.filter_congr fun r _ => by simp [not_or, Bool.and_comm]
    · rw [List.foldl_cons, rest.events, first.events, ← EventQueue.offers_append]
      rfl
    · conv_rhs => rw [← first.frame, ← rest.frame]
      rfl

/-! ### PENDING becomes ACTIVE (R72) -/

/-- From `s` to `u` the entries of the list have become ACTIVE. -/
structure Activated (l : List EntryIndex) (s u : State) : Prop where
  entry : ∀ i, u.entry i = if i ∈ l then { s.entry i with state := .active } else s.entry i
  events : u.events = s.events.offers (l.map (fun i =>
    s.tableEvent .resActive i s.cycleNumber (s.reservation i).slot.toNat))
  frame : { u with table := s.table, events := s.events } = s

theorem activated_one (s : State) (i : EntryIndex) : Activated [i] s (s.activate i) := by
  refine ⟨fun j => ?_, rfl, rfl⟩
  refine (State.entry_setEntryState s i j .active).trans ?_
  simp only [List.mem_singleton]
  split_ifs with same <;> simp [same]

theorem activated_foldl (l : List EntryIndex) (s : State) : Activated l s (l.foldl State.activate s) := by
  induction l generalizing s with
  | nil => exact ⟨fun _ => by simp, rfl, rfl⟩
  | cons i l ih =>
    have first := activated_one s i
    have rest := ih (s.activate i)
    refine ⟨fun j => ?_, ?_, ?_⟩
    · rw [List.foldl_cons, rest.entry, first.entry]
      by_cases same : j = i <;> simp [same]
    · rw [List.foldl_cons, rest.events, first.events, ← EventQueue.offers_append]
      rfl
    · conv_rhs => rw [← first.frame, ← rest.frame]
      rfl

/-! ### The used counts return to 0 (R82, step 4) -/

/-- From `s` to `u` the used counts of the list's entries in use have returned to 0. -/
structure Unused (l : List EntryIndex) (s u : State) : Prop where
  memory : MemoryInv u
  clean : u.cleanTable
  reservation : ∀ i, u.reservation i = if i ∈ l ∧ s.inUse i = true then { s.reservation i with used := 0 } else s.reservation i
  words : ∀ n, 256 ≤ n → u.word n = s.word n
  frame : { u with prot := { u.prot with memory := s.prot.memory } } = s

theorem unused_one {s : State} (h : MemoryInv s) (hc : s.cleanTable) (i : EntryIndex) : Unused [i] s (s.resetUsed i) := by
  have read : s.checkWord false (entryWord i 1) = s := State.checkWord_of_clean hc _ _
  unfold State.resetUsed
  simp only [read]
  by_cases used : s.inUse i = true
  · simp only [used, if_true]
    refine ⟨State.wf_putUse h i _, State.cleanTable_putWord hc h _ _, fun j => ?_, fun n hn => ?_, rfl⟩
    · rw [State.reservation_putUse h]
      simp only [List.mem_singleton]
      by_cases same : j = i
      · rw [if_pos same, same, if_pos ⟨rfl, used⟩]
      · rw [if_neg same, if_neg fun e => same e.1]
    · refine (State.word_putWord h _ _ _).trans (if_neg ?_)
      have := i.isLt
      unfold entryWord
      omega
  · rw [if_neg used]
    refine ⟨h, hc, fun j => (if_neg ?_).symm, fun _ _ => rfl, rfl⟩
    rintro ⟨here, is⟩
    exact used (List.mem_singleton.mp here ▸ is)

theorem unused_foldl {s : State} (h : MemoryInv s) (hc : s.cleanTable) (l : List EntryIndex) :
    Unused l s (l.foldl State.resetUsed s) := by
  induction l generalizing s with
  | nil => exact ⟨h, hc, fun _ => by simp, fun _ _ => rfl, rfl⟩
  | cons i l ih =>
    have first := unused_one h hc i
    have rest := ih first.memory first.clean
    have table : (s.resetUsed i).table = s.table := (congrArg State.table first.frame :)
    have inUse : ∀ j, (s.resetUsed i).inUse j = s.inUse j := fun j => by
      unfold State.inUse
      rw [State.entry_of_table table]
    refine ⟨rest.memory, rest.clean, fun j => ?_, fun n hn => ?_, ?_⟩
    · rw [List.foldl_cons, rest.reservation, first.reservation, inUse]
      by_cases here : j ∈ l <;> by_cases same : j = i <;> by_cases used : s.inUse j = true <;> simp_all
    · rw [List.foldl_cons, rest.words n hn, first.words n hn]
    · conv_rhs => rw [← first.frame, ← rest.frame]
      rfl

/-! ### The maps (R42) -/

/-- The kinds that a cycle boundary puts in force for a port, where no geometry is applied. -/
def State.appliedKinds (s : State) (n : Nat) (p : PortIndex) : Option (List SlotKind) :=
  if s.appliesNext p then some (s.pendingKinds p n) else none

/-- MAP_APPLIED of a map that a cycle boundary puts in force. -/
def State.appliedReports (s : State) (n : Nat) (p : PortIndex) : List EventEntry :=
  if s.appliesNext p then
    [portEvent .mapApplied p s.cycleNumber
      (256 * countKind (s.pendingKinds p n) .reserved + countKind (s.pendingKinds p n) .closed)]
  else []

theorem State.pendingKinds_of_words {s u : State} {p : PortIndex} (h : ∀ k, 280 ≤ k → u.word k = s.word k) (n : Nat) :
    u.pendingKinds p n = s.pendingKinds p n :=
  List.map_congr_left fun k _ => State.pendingKind_of_words (h _ (by omega))

theorem mapSweep_applyMap {s : State} {t : Timer} (h : MemoryInv s) (hc : s.cleanTable) (ht : s.timer = some t) (p : PortIndex) :
    MapSweep (s.appliedKinds t.geometry.slots) (s.appliedReports t.geometry.slots) [p] s (s.applyMap p) := by
  by_cases next : s.appliesNext p = true
  · have waiting := (State.appliesNext_iff ht p).mp next
    have kinds : s.appliedKinds t.geometry.slots p = some (s.pendingKinds p t.geometry.slots) := if_pos next
    have put := mapSweep_put (reports := s.appliedReports t.geometry.slots) h kinds
    have same : s.applyMap p = { (s.setMaps p ⟨false, none⟩).putActive p (s.pendingKinds p t.geometry.slots) with
        events := s.events.offers (s.appliedReports t.geometry.slots p) } := by
      unfold State.applyMap State.appliedReports
      simp only [next, if_true, State.checkPending_of_clean hc, waiting]
      rfl
    rw [same]
    exact put
  · have same : s.applyMap p = s := by
      unfold State.applyMap
      exact if_neg next
    rw [same]
    exact mapSweep_skip h (if_neg next) (if_neg next)

/-- A port's map goes by what the port's own words and settings held before the others'. -/
theorem mapSweep_applyMap_after {s x : State} {t : Timer} (h : MemoryInv x) (hc : x.cleanTable) (ht : s.timer = some t)
    {p : PortIndex} (timer : x.timer = s.timer) (maps : x.mapsOf p = s.mapsOf p) (words : ∀ k, 280 ≤ k → x.word k = s.word k) :
    MapSweep (s.appliedKinds t.geometry.slots) (s.appliedReports t.geometry.slots) [p] x (x.applyMap p) := by
  have next : x.appliesNext p = s.appliesNext p := by
    unfold State.appliesNext
    rw [maps, timer]
  have pending := State.pendingKinds_of_words (p := p) words t.geometry.slots
  have kinds : x.appliedKinds t.geometry.slots p = s.appliedKinds t.geometry.slots p := by
    unfold State.appliedKinds
    rw [next, pending]
  have reports : x.appliedReports t.geometry.slots p = s.appliedReports t.geometry.slots p := by
    unfold State.appliedReports State.cycleNumber
    rw [next, pending, timer]
  have one := mapSweep_applyMap h hc (timer.trans ht) p
  refine ⟨one.memory, one.clean, fun q => ?_, fun q hq ks hks => ?_, fun k hk => ?_, ?_, one.frame⟩
  · rw [one.maps]
    by_cases same : q = p
    · rw [same, kinds]
    · simp [same]
  · obtain rfl := List.mem_singleton.mp hq
    exact one.active q hq ks (kinds.trans hks)
  · refine one.words k fun q hq is => hk q hq ?_
    obtain rfl := List.mem_singleton.mp hq
    rw [← kinds]
    exact is
  · rw [one.events, List.flatMap_singleton, List.flatMap_singleton, reports]

theorem mapSweep_applyMaps {s : State} {t : Timer} (h : MemoryInv s) (hc : s.cleanTable) (ht : s.timer = some t) :
    MapSweep (s.appliedKinds t.geometry.slots) (s.appliedReports t.geometry.slots) allPorts s (allPorts.foldl State.applyMap s) :=
  mapSweep_foldl (f := State.applyMap) (s₀ := s)
    (fun _ _ hx hxc timer maps words => mapSweep_applyMap_after hx (hxc hc) ht timer maps words)
    nodup_allPorts h id rfl (fun _ _ => rfl) (fun _ _ => rfl)

/-! ### Busy-until (R125) -/

/-- A port whose busy-until is absent where it lies before this instant. -/
def Port.settled (now : DeviceTime) (q : Port) : Port := { q with busy := q.busy.filter (fun b => !later now b) }

theorem sweep_clearPastBusy (s : State) (p : PortIndex) :
    Sweep (Port.settled s.time) (fun _ => false) (fun _ _ => []) [p] s (s.clearPastBusy p) := by
  refine ⟨fun q => ?_, ?_, rfl, rfl⟩
  · refine (s.port_updPort p q _).trans ?_
    simp only [List.mem_singleton]
    split_ifs with same
    · rw [same]
      rfl
    · rfl
  · exact (List.filter_eq_self.mpr fun _ _ => by simp).symm

theorem sweep_clearPastBusys (s : State) :
    Sweep (Port.settled s.time) (fun _ => false) (fun _ _ => []) allPorts s (allPorts.foldl State.clearPastBusy s) :=
  sweep_foldl (f := State.clearPastBusy) (s := s) (fun x p time _ => time ▸ sweep_clearPastBusy x p) nodup_allPorts

theorem clearPastBusy_records (s : State) : (allPorts.foldl State.clearPastBusy s).holds.records = s.holds.records :=
  (sweep_clearPastBusys s).records.trans (List.filter_eq_self.mpr fun _ _ => by simp)

theorem clearPastBusy_frame (s : State) : { allPorts.foldl State.clearPastBusy s with ports := s.ports } = s := by
  have records := clearPastBusy_records s
  have sweep := sweep_clearPastBusys s
  have frame := sweep.frame
  rw [← records] at frame
  have events : (allPorts.foldl State.clearPastBusy s).events = s.events := sweep.events
  rw [← events] at frame
  exact frame

/-! ### Hold records (R147) -/

/-- From `s` to `u` the hold records of age 32 have expired, where this is their turn. -/
structure Expired (here : Bool) (l : List EventEntry) (s u : State) : Prop where
  records : u.holds.records = s.holds.records.filter (fun r => !(here && decide (s.holdAge r = 32)))
  expired : u.holds.expired = satAdd s.holds.expired (s.holds.records.countP (fun r => here && decide (s.holdAge r = 32)))
  events : u.events = s.events.offers l
  kinds : ∀ e ∈ l, e.kind = .holdExpired
  count : l.length = if s.holds.records.countP (fun r => here && decide (s.holdAge r = 32)) = 0 then 0 else 1
  frame : { u with events := s.events, holds := { u.holds with records := s.holds.records, expired := s.holds.expired } } = s

theorem expired_expireIf (s : State) (here : Bool) : ∃ l, Expired here l s (s.expireIf here) := by
  cases here with
  | false => exact ⟨[], by simp [State.expireIf], by simp [State.expireIf, satAdd_zero], rfl, by simp, by simp, rfl⟩
  | true =>
    have run : s.expireIf true = s.expireHolds := rfl
    have number : s.holds.records.countP (fun r => true && decide (s.holdAge r = 32)) =
        (s.holds.records.filter (fun r => decide (s.holdAge r = 32))).length := by
      rw [← List.countP_eq_length_filter]
      simp
    by_cases none : s.holds.records.filter (fun r => decide (s.holdAge r = 32)) = []
    · have zero : (s.holds.records.filter (fun r => decide (s.holdAge r = 32))).length = 0 := by rw [none]; rfl
      rw [run, State.expireHolds_of_none none]
      refine ⟨[], ?_, ?_, rfl, by simp, ?_, rfl⟩
      · refine (List.filter_eq_self.mpr fun r hr => ?_).symm
        have := List.filter_eq_nil_iff.mp none r hr
        simpa using this
      · rw [number, zero, satAdd_zero]
      · rw [number, zero]
        rfl
    · rw [run, State.expireHolds_of_some none]
      refine ⟨[s.expiryEvent _], ?_, by rw [number], rfl, by simp [State.expiryEvent], ?_, rfl⟩
      · exact List.filter_congr fun r _ => by simp
      · rw [number, if_neg (mt List.length_eq_zero_iff.mp none)]
        rfl

end Sys2Proof.Machine
end

section
/-! The lock's work at a cycle boundary (R22, R24, R28, R29, R31): the lock, the gates it moves, what is raised. -/

namespace Sys2Proof.Machine

/-- A boundary at which the lock is lost. -/
def Lock.losing (l : Lock) : Bool := decide (l.state = .holdover) && decide (l.holdoverLimit ≤ l.holdoverCount + 1)

/-- A boundary at which the lock enters LOCKED. -/
def Lock.winning (l : Lock) (handedOver : Bool) : Bool := decide (l.state = .aligning) && !handedOver

/-- The outcomes that a boundary in LOCKED looks at. -/
def Lock.history (l : Lock) : List MarkOutcome := [l.middle, l.newest, l.first]

/-- The run of misses at a boundary in LOCKED. -/
def Lock.run (l : Lock) : Nat := if l.goodMark then 0 else l.missRun + 1

/-- An event of the lock, as the statements write it. -/
def Lock.report (l : Lock) (kind : EventKind) (cycle : CycleNumber) (d : Nat) : EventEntry :=
  ⟨kind, l.port, none, some l.tag, lowCycle cycle, BitVec.ofNat 16 d⟩

/-- What the lock and the gates raise at a boundary. -/
def State.lockReports (s : State) (handedOver : Bool) (ended : Int) : List EventEntry :=
  (if s.lock.winning handedOver then [s.lock.report .lockAcquired s.cycleNumber (min ended.toNat 0xFFFF)] else [])
    ++ (allPorts.filter (fun p => s.lock.winning handedOver && (s.port p).regainsLock)).map
        (fun p => portEvent .portRecovered p s.cycleNumber 1)
    ++ (if s.lock.state = .locked ∧ s.lock.jitter = false ∧ 2 ≤ s.lock.history.countP (fun o => decide (o = .outlier)) then
        [s.lock.report .lockJitter s.cycleNumber (s.lock.history.countP (fun o => decide (o = .outlier)))] else [])
    ++ (if s.lock.state = .locked ∧ 3 ≤ s.lock.run then [s.lock.report .lockHoldover s.cycleNumber s.lock.run] else [])
    ++ (if s.lock.losing then [s.lock.report .lockLost s.cycleNumber 0] else [])
    ++ (allPorts.filter (fun p => s.lock.losing && (s.port p).losesLock)).map
        (fun p => portEvent .portFailsafe p s.cycleNumber 1)

/-- The gate after the lock's work at a boundary. -/
def State.lockedPort (s : State) (handedOver : Bool) (q : Port) : Port :=
  if s.lock.losing then q.lockLost else if s.lock.winning handedOver then q.lockWon s.time else q

/-- From `s` to `u` the lock has done its work at a boundary. -/
structure LockWork (handedOver : Bool) (ended : Int) (s u : State) : Prop where
  port : ∀ p, u.port p = s.lockedPort handedOver (s.port p)
  records : u.holds.records = s.holds.records.filter (fun r => !(s.lock.losing && (s.port r.port).losesLock))
  events : u.events = s.events.offers (s.lockReports handedOver ended)
  frame : { u with lock := s.lock, ports := s.ports, events := s.events
                   holds := { u.holds with records := s.holds.records } } = s

/-- The work of a boundary at which no gate moves. -/
theorem lockWork_of_gates {s u : State} {handedOver : Bool} {ended : Int} (lost : s.lock.losing = false)
    (won : s.lock.winning handedOver = false) (frame : { u with lock := s.lock, events := s.events } = s)
    (events : u.events = s.events.offers (s.lockReports handedOver ended)) : LockWork handedOver ended s u := by
  have ports : u.ports = s.ports := (congrArg State.ports frame :)
  have holds : u.holds = s.holds := (congrArg State.holds frame :)
  refine ⟨fun p => ?_, ?_, events, ?_⟩
  · unfold State.lockedPort
    rw [lost, won]
    exact State.port_of_ports ports p
  · rw [holds, lost]
    exact (List.filter_eq_self.mpr fun _ _ => rfl).symm
  · exact (congrArg (fun x : State => { x with ports := s.ports, holds := { u.holds with records := s.holds.records } }) frame).trans
      (by rw [holds])

/-- Where nothing is raised and no gate moves only the lock can have changed. -/
theorem State.lockReports_nil {s : State} {handedOver : Bool} {ended : Int} (lost : s.lock.losing = false)
    (won : s.lock.winning handedOver = false) (idle : s.lock.state ≠ .locked) : s.lockReports handedOver ended = [] := by
  simp [State.lockReports, lost, won, idle]

theorem Lock.losing_of_ne {l : Lock} (h : l.state ≠ .holdover) : l.losing = false := by simp [Lock.losing, h]

theorem Lock.winning_of_ne {l : Lock} (h : l.state ≠ .aligning) (handedOver : Bool) : l.winning handedOver = false := by
  simp [Lock.winning, h]

/-- The jitter flag that LOCK_JITTER looks at. -/
theorem Lock.recordCycle_jitter (l : Lock) :
    (!l.jitter && l.recordCycle.jitter) = decide (l.jitter = false ∧ 2 ≤ l.history.countP (fun o => decide (o = .outlier))) := by
  have count : ∀ o, ({ l with oldest := l.middle, middle := l.newest, newest := l.first } : Lock).historyCount o =
      l.history.countP (fun x => decide (x = o)) := fun _ => rfl
  unfold Lock.recordCycle
  dsimp only
  rw [count, count]
  cases h : l.jitter with
  | true => simp
  | false =>
    by_cases many : 2 ≤ l.history.countP (fun o => decide (o = .outlier)) <;> simp [many]

theorem Lock.recordCycle_historyCount (l : Lock) (o : MarkOutcome) :
    l.recordCycle.historyCount o = l.history.countP (fun x => decide (x = o)) := by
  unfold Lock.recordCycle
  dsimp only
  split_ifs <;> rfl

/-- A cycle's outcome changes the history and the jitter flag. -/
theorem Lock.recordCycle_frame (l : Lock) :
    ∃ b, l.recordCycle = { l with oldest := l.middle, middle := l.newest, newest := l.first, jitter := b } := by
  unfold Lock.recordCycle
  dsimp only
  split_ifs
  exacts [⟨_, rfl⟩, ⟨_, rfl⟩, ⟨_, rfl⟩]

/-- The work of a boundary in LOCKED, with what it raises. -/
theorem State.lockedBoundary_eq (s : State) :
    s.lockedBoundary = { s with
      lock := s.lock.recordCycle.recordMiss
      events := s.events.offers (
        (if (!s.lock.jitter && s.lock.recordCycle.jitter) = true then
          [lockEvent .lockJitter s.lock.recordCycle s.cycleNumber (detail (s.lock.recordCycle.historyCount .outlier))] else [])
        ++ (if s.lock.recordCycle.recordMiss.state = .holdover then
          [lockEvent .lockHoldover s.lock.recordCycle.recordMiss s.cycleNumber (detail s.lock.recordCycle.recordMiss.missRun)]
          else [])) } := by
  unfold State.lockedBoundary
  by_cases jumps : (!s.lock.jitter && s.lock.recordCycle.jitter) = true <;>
    by_cases lapses : s.lock.recordCycle.recordMiss.state = .holdover <;>
    simp only [State.setLock, State.raise, jumps, lapses, if_true, if_false, Bool.false_eq_true] <;> rfl

theorem lockWork_locked {s : State} (h : s.lock.state = .locked) (handedOver : Bool) (ended : Int) :
    LockWork handedOver ended s s.lockedBoundary := by
  have lost := Lock.losing_of_ne (l := s.lock) (by rw [h]; decide)
  have won := Lock.winning_of_ne (l := s.lock) (by rw [h]; decide) handedOver
  obtain ⟨b, recorded⟩ := s.lock.recordCycle_frame
  have lapses : s.lock.recordCycle.recordMiss.state = .holdover ↔ 3 ≤ s.lock.run := by
    rw [recorded]
    unfold Lock.recordMiss Lock.run
    dsimp only
    by_cases many : 3 ≤ (if s.lock.goodMark = true then 0 else s.lock.missRun + 1)
    · simp only [many, if_true]
    · simp only [many, if_false, h]
      decide
  have jitterEvent : lockEvent .lockJitter s.lock.recordCycle s.cycleNumber (detail (s.lock.recordCycle.historyCount .outlier)) =
      s.lock.report .lockJitter s.cycleNumber (s.lock.history.countP (fun o => decide (o = .outlier))) := by
    rw [s.lock.recordCycle_historyCount .outlier, recorded]
    rfl
  have holdoverEvent : lockEvent .lockHoldover s.lock.recordCycle.recordMiss s.cycleNumber
      (detail s.lock.recordCycle.recordMiss.missRun) = s.lock.report .lockHoldover s.cycleNumber s.lock.run := by
    rw [recorded]
    unfold Lock.recordMiss Lock.run
    dsimp only
    split_ifs <;> rfl
  have reports : s.lockReports handedOver ended =
      (if s.lock.jitter = false ∧ 2 ≤ s.lock.history.countP (fun o => decide (o = .outlier)) then
        [s.lock.report .lockJitter s.cycleNumber (s.lock.history.countP (fun o => decide (o = .outlier)))] else [])
      ++ (if 3 ≤ s.lock.run then [s.lock.report .lockHoldover s.cycleNumber s.lock.run] else []) := by
    simp [State.lockReports, lost, won, h]
  have work := s.lockedBoundary_eq
  simp only [s.lock.recordCycle_jitter, lapses, jitterEvent, holdoverEvent, decide_eq_true_eq] at work
  rw [work]
  exact lockWork_of_gates lost won rfl (by rw [reports])

/-- The lock has changed and been reported, and the gates have not moved. -/
def State.lockTold (s : State) (l : Lock) (e : EventEntry) : State := (s.setLock l).raise e

theorem State.cycleNumber_lockTold (s : State) (l : Lock) (e : EventEntry) : (s.lockTold l e).cycleNumber = s.cycleNumber := rfl

theorem State.events_lockTold (s : State) (l : Lock) (e : EventEntry) : (s.lockTold l e).events = s.events.offer e := rfl

theorem State.lockTold_frame (s : State) (l : Lock) (e : EventEntry) :
    { s.lockTold l e with lock := s.lock, events := s.events } = s := rfl

/-- The lock changes and is reported, and then the gates of the ports move. -/
theorem lockWork_of_sweep {s v u : State} {handedOver : Bool} {ended : Int} {change : Port → Port} {drops fires : Port → Bool}
    {first : EventEntry} {report : PortIndex → EventEntry}
    (told : { v with lock := s.lock, events := s.events } = s) (raised : v.events = s.events.offer first)
    (sweep : Sweep change drops (fun p q => if fires q then [report p] else []) allPorts v u)
    (gate : ∀ q, change q = s.lockedPort handedOver q) (drop : ∀ q, drops q = (s.lock.losing && q.losesLock))
    (reports : s.lockReports handedOver ended = first :: (allPorts.filter (fun p => fires (s.port p))).map report) :
    LockWork handedOver ended s u := by
  have ports : v.ports = s.ports := (congrArg State.ports told :)
  have records : v.holds.records = s.holds.records := (congrArg (fun x : State => x.holds.records) told :)
  have port : ∀ p, v.port p = s.port p := State.port_of_ports ports
  refine ⟨fun p => ?_, ?_, ?_, ?_⟩
  · rw [sweep.port, if_pos (mem_allPorts p), gate, port]
  · rw [sweep.records, records]
    exact List.filter_congr fun r _ => by rw [decide_eq_true (mem_allPorts r.port), Bool.true_and, drop, port]
  · rw [sweep.events, raised, reports, EventQueue.offers_cons, ← flatMap_if]
    simp only [port]
  · have frame := sweep.frame
    rw [ports, records] at frame
    exact (congrArg (fun x : State => { x with lock := s.lock, events := s.events }) frame).trans told

theorem lockWork_won {s : State} (h : s.lock.state = .aligning) (ended : Int) : LockWork false ended s (s.lockWon ended) := by
  have lost := Lock.losing_of_ne (l := s.lock) (by rw [h]; decide)
  have won : s.lock.winning false = true := by simp [Lock.winning, h]
  have idle : s.lock.state ≠ .locked := by rw [h]; decide
  have run : s.lockWon ended = (s.lockTold s.lock.enterLocked (s.lock.report .lockAcquired s.cycleNumber
    (min ended.toNat 0xFFFF))).reportLockWon := rfl
  have told := s.lockTold_frame s.lock.enterLocked (s.lock.report .lockAcquired s.cycleNumber (min ended.toNat 0xFFFF))
  have raised := s.events_lockTold s.lock.enterLocked (s.lock.report .lockAcquired s.cycleNumber (min ended.toNat 0xFFFF))
  have cycle := s.cycleNumber_lockTold s.lock.enterLocked (s.lock.report .lockAcquired s.cycleNumber (min ended.toNat 0xFFFF))
  rw [run]
  generalize s.lockTold _ _ = v at told raised cycle ⊢
  have time : v.time = s.time := (congrArg State.time told :)
  refine lockWork_of_sweep told raised (sweep_reportLockWon v) (fun q => ?_) (fun q => by simp [lost]) ?_
  · rw [State.lockedPort, lost, won, time]
    rfl
  · simp [State.lockReports, lost, won, idle, cycle]

theorem lockWork_lost {s : State} (h : s.lock.losing = true) (handedOver : Bool) (ended : Int) :
    LockWork handedOver ended s s.holdoverBoundary := by
  obtain ⟨state, limit⟩ : s.lock.state = .holdover ∧ s.lock.holdoverLimit ≤ s.lock.holdoverCount + 1 := by
    simpa [Lock.losing] using h
  have won := Lock.winning_of_ne (l := s.lock) (by rw [state]; decide) handedOver
  have idle : s.lock.state ≠ .locked := by rw [state]; decide
  have run : s.holdoverBoundary = (s.lockTold { s.lock.cleared with state := .acquiring }
    (s.lock.report .lockLost s.cycleNumber 0)).reportLockLoss := if_pos limit
  have told := s.lockTold_frame { s.lock.cleared with state := .acquiring } (s.lock.report .lockLost s.cycleNumber 0)
  have raised := s.events_lockTold { s.lock.cleared with state := .acquiring } (s.lock.report .lockLost s.cycleNumber 0)
  have cycle := s.cycleNumber_lockTold { s.lock.cleared with state := .acquiring } (s.lock.report .lockLost s.cycleNumber 0)
  rw [run]
  generalize s.lockTold _ _ = v at told raised cycle ⊢
  refine lockWork_of_sweep told raised (sweep_reportLockLoss v) (fun q => ?_) (fun q => by rw [h, Bool.true_and]) ?_
  · rw [State.lockedPort, h]
    rfl
  · simp [State.lockReports, h, won, idle, cycle]

/-- The lock's work at a boundary, by the lock's state. -/
theorem lockWork_lockBoundary (s : State) (handedOver : Bool) (ended : Int) :
    LockWork handedOver ended s (s.lockBoundary handedOver ended) := by
  have kept : ∀ {l : Lock}, s.lock.losing = false → s.lock.winning handedOver = false → s.lock.state ≠ .locked →
      LockWork handedOver ended s (s.setLock l) := fun lost won idle =>
    lockWork_of_gates lost won rfl (by rw [State.lockReports_nil lost won idle]; rfl)
  unfold State.lockBoundary
  cases h : s.lock.state with
  | free => exact kept (Lock.losing_of_ne (by rw [h]; decide)) (Lock.winning_of_ne (by rw [h]; decide) _) (by rw [h]; decide)
  | acquiring =>
    have lost := Lock.losing_of_ne (l := s.lock) (by rw [h]; decide)
    have won := Lock.winning_of_ne (l := s.lock) (by rw [h]; decide) handedOver
    have idle : s.lock.state ≠ .locked := by rw [h]; decide
    cases s.timer with
    | none => exact kept (l := s.lock) lost won idle
    | some t => exact kept lost won idle
  | aligning =>
    dsimp only
    cases handedOver with
    | true =>
      exact kept (l := s.lock) (Lock.losing_of_ne (by rw [h]; decide)) (by simp [Lock.winning]) (by rw [h]; decide)
    | false => exact lockWork_won h ended
  | locked => exact lockWork_locked h handedOver ended
  | holdover =>
    by_cases lost : s.lock.losing = true
    · exact lockWork_lost lost handedOver ended
    · have fewer : ¬ s.lock.holdoverLimit ≤ s.lock.holdoverCount + 1 := by simpa [Lock.losing, h] using lost
      have run : s.holdoverBoundary = s.setLock { s.lock with holdoverCount := s.lock.holdoverCount + 1 } := if_neg fewer
      dsimp only
      rw [run]
      exact kept (Bool.eq_false_iff.mpr lost) (Lock.winning_of_ne (by rw [h]; decide) _) (by rw [h]; decide)

end Sys2Proof.Machine
end

section
/-! A cycle boundary's work where no bit of table memory is wrong, stage by stage. -/

namespace Sys2Proof.Machine

/-! ### The maps -/

/-- From `s` to `u` maps have changed, with these reports. -/
structure MapsWork (s u : State) (l : List EventEntry) : Prop where
  memory : MemoryInv u
  clean : u.cleanTable
  words : ∀ k, k < 256 ∨ 280 ≤ k → u.word k = s.word k
  events : u.events = s.events.offers l
  kinds : ∀ e ∈ l, e.kind ∈ [EventKind.mapApplied, .mapCancelled, .geometryApplied]
  frame : { u with maps := s.maps, events := s.events, prot := { u.prot with memory := s.prot.memory } } = s

theorem MapsWork.nil {s : State} (h : MemoryInv s) (hc : s.cleanTable) : MapsWork s s [] where
  memory := h
  clean := hc
  words := fun _ _ => rfl
  events := rfl
  kinds := by simp
  frame := rfl

/-- From `s` to `u` the maps have been opened, where a geometry is applied (R37). -/
structure Opened (applied : Option Geometry) (s u : State) (l : List EventEntry) : Prop where
  work : MapsWork s u l
  opened : ∀ g, applied = some g → l = s.geometryEvents g.slots s.cycleNumber ∧
    ∀ p, u.mapsOf p = ⟨false, none⟩ ∧ ∀ k, k < 48 → u.activeKind p k = .openSlot
  kept : applied = none → u = s ∧ l = []

theorem State.geometryEvents_kinds (s : State) (n : Nat) (c : CycleNumber) :
    ∀ e ∈ s.geometryEvents n c, e.kind ∈ [EventKind.mapApplied, .mapCancelled, .geometryApplied] := by
  intro e he
  rcases List.mem_append.mp he with he | he
  · obtain ⟨p, -, he⟩ := List.mem_filterMap.mp he
    obtain ⟨m, -, rfl⟩ := Option.map_eq_some_iff.mp he
    simp [portEvent]
  · obtain rfl := List.mem_singleton.mp he
    simp

theorem opened_announceGeometry {s : State} (h : MemoryInv s) (hc : s.cleanTable) (g : Geometry) :
    Opened (some g) s (s.announceGeometry g) (s.geometryEvents g.slots s.cycleNumber) := by
  obtain ⟨u, sweep, run⟩ := announceGeometry_sweep h g
  rw [run]
  refine ⟨⟨sweep.memory, sweep.clean hc, fun k hk => sweep.outside hk, rfl, s.geometryEvents_kinds _ _, sweep.frame⟩,
    fun g' e => ?_, nofun⟩
  obtain rfl := Option.some.inj e
  refine ⟨rfl, fun p => ⟨(sweep.maps p).trans (if_pos ⟨mem_allPorts p, rfl⟩), fun k hk => ?_⟩⟩
  refine (sweep.active p (mem_allPorts p) _ rfl k hk).trans ?_
  rw [List.getElem?_replicate]
  split_ifs <;> rfl

/-- From `s` to `u` committed maps have come into force, where no geometry is applied (R42). -/
structure Mapped (applied : Option Geometry) (s u : State) (l : List EventEntry) : Prop where
  work : MapsWork s u l
  opened : ∀ g, applied = some g → u = s ∧ l = []
  sweep : applied = none → ∀ t, s.timer = some t →
    MapSweep (s.appliedKinds t.geometry.slots) (s.appliedReports t.geometry.slots) allPorts s u ∧
      l = allPorts.flatMap (s.appliedReports t.geometry.slots)

theorem State.appliedReports_kinds (s : State) (n : Nat) :
    ∀ e ∈ allPorts.flatMap (s.appliedReports n), e.kind ∈ [EventKind.mapApplied, .mapCancelled, .geometryApplied] := by
  intro e he
  obtain ⟨p, -, he⟩ := List.mem_flatMap.mp he
  unfold State.appliedReports at he
  split_ifs at he
  · obtain rfl := List.mem_singleton.mp he
    simp [portEvent]
  · cases he

theorem mapped_mapsBoundary {s : State} {t : Timer} (h : MemoryInv s) (hc : s.cleanTable) (ht : s.timer = some t)
    (applied : Option Geometry) : ∃ l, Mapped applied s (s.mapsBoundary applied) l := by
  cases applied with
  | some g =>
    have run : s.mapsBoundary (some g) = s := rfl
    rw [run]
    exact ⟨[], MapsWork.nil h hc, fun _ _ => ⟨rfl, rfl⟩, nofun⟩
  | none =>
    have run : s.mapsBoundary none = allPorts.foldl State.applyMap s := rfl
    rw [run]
    have sweep := mapSweep_applyMaps h hc ht
    refine ⟨allPorts.flatMap (s.appliedReports t.geometry.slots),
      ⟨sweep.memory, sweep.clean hc, fun k hk => sweep.outside hk, sweep.events, s.appliedReports_kinds _, sweep.frame⟩, nofun,
      fun _ t' ht' => ?_⟩
    obtain rfl : t = t' := Option.some.inj (ht.symm.trans ht')
    exact ⟨sweep, rfl⟩

/-! ### The walks -/

/-- From `s` to `u` walks have gone over the table, with these reports. -/
structure WalkWork (s u : State) (l : List EventEntry) : Prop where
  memory : MemoryInv u
  clean : u.cleanTable
  reworked : Reworked s u
  words : ∀ n, 256 ≤ n → u.word n = s.word n
  events : u.events = s.events.offers l
  kinds : ∀ e ∈ l, e.kind ∈ [EventKind.resOverbooked, .resReinstated]

theorem WalkWork.nil {s : State} (h : MemoryInv s) (hc : s.cleanTable) : WalkWork s s [] :=
  ⟨h, hc, Reworked.refl s, fun _ _ => rfl, rfl, by simp⟩

theorem WalkWork.trans {s t u : State} {l m : List EventEntry} (h : WalkWork s t l) (k : WalkWork t u m) :
    WalkWork s u (l ++ m) :=
  ⟨k.memory, k.clean, h.reworked.trans k.reworked, fun n hn => (k.words n hn).trans (h.words n hn),
    by rw [k.events, h.events, ← EventQueue.offers_append], fun e he => (List.mem_append.mp he).elim (h.kinds e) (k.kinds e)⟩

theorem walkWork_step {s : State} (h : MemoryInv s) (hc : s.cleanTable) (p : PortIndex) (k : Nat) (budget a : Int)
    (i : EntryIndex) : ∃ l, WalkWork s (walkStep p k budget (a, s) i).2 l := by
  by_cases hi : s.inSlot p k i = true
  · obtain ⟨v, -⟩ := visit_of_inSlot h hc hi budget a
    refine ⟨_, v.memory, v.clean, v.reworked, v.words, v.events, fun e he => ?_⟩
    by_cases changed : ((s.reservation i).overbooked != decide (budget < a + s.costAt p i)) = true
    · rw [if_pos changed] at he
      obtain rfl := List.mem_singleton.mp he
      unfold State.tableEvent
      dsimp only
      split_ifs <;> decide
    · rw [if_neg changed] at he
      cases he
  · have skip : walkStep p k budget (a, s) i = (a, s) := if_neg hi
    rw [skip]
    exact ⟨[], WalkWork.nil h hc⟩

theorem walkWork_steps {s : State} (h : MemoryInv s) (hc : s.cleanTable) (p : PortIndex) (k : Nat) (budget a : Int)
    (visited : List EntryIndex) : ∃ l, WalkWork s (visited.foldl (walkStep p k budget) (a, s)).2 l := by
  induction visited generalizing s a with
  | nil => exact ⟨[], WalkWork.nil h hc⟩
  | cons i visited ih =>
    obtain ⟨l, first⟩ := walkWork_step h hc p k budget a i
    obtain ⟨m, rest⟩ := ih first.memory first.clean (walkStep p k budget (a, s) i).1
    exact ⟨l ++ m, first.trans rest⟩

theorem walkWork_walk {s : State} (h : MemoryInv s) (hc : s.cleanTable) (x : PortIndex × Nat) :
    ∃ l, WalkWork s (s.walk x.1 x.2) l := by
  cases ht : s.timer with
  | none =>
    rw [walk_stopped ht]
    exact ⟨[], WalkWork.nil h hc⟩
  | some t =>
    have run : s.walk x.1 x.2 =
        (s.order.foldl (walkStep x.1 x.2 (slotBudget t.geometry s.lock (s.port x.1).settings x.2)) (0, s)).2 := by
      simp only [State.walk, ht, State.checkEntries_of_clean hc]
    rw [run]
    exact walkWork_steps h hc x.1 x.2 _ 0 s.order

theorem walkWork_walks {s : State} (h : MemoryInv s) (hc : s.cleanTable) (pairs : List (PortIndex × Nat)) :
    ∃ l, WalkWork s (pairs.foldl (fun s x => s.walk x.1 x.2) s) l := by
  induction pairs generalizing s with
  | nil => exact ⟨[], WalkWork.nil h hc⟩
  | cons x pairs ih =>
    obtain ⟨l, first⟩ := walkWork_walk h hc x
    obtain ⟨m, rest⟩ := ih first.memory first.clean
    exact ⟨l ++ m, first.trans rest⟩

theorem State.walkEvents_kinds (s u : State) (x : PortIndex × Nat) :
    ∀ e ∈ s.walkEvents u x, e.kind ∈ [EventKind.resOverbooked, .resReinstated] := by
  intro e he
  obtain ⟨i, -, rfl⟩ := List.mem_map.mp he
  unfold State.tableEvent
  dsimp only
  split_ifs <;> decide

/-- From `s` to `u` the pairs have been walked. -/
structure Walked (g : Geometry) (pairs : List (PortIndex × Nat)) (s u : State) (l : List EventEntry) : Prop where
  work : WalkWork s u l
  exact : s.order.Nodup → Walks s u g pairs ∧ l = pairs.flatMap (s.walkEvents u)

theorem walked_walks {s : State} {t : Timer} (h : MemoryInv s) (hc : s.cleanTable) (ht : s.timer = some t)
    {pairs : List (PortIndex × Nat)} (distinct : pairs.Nodup) :
    ∃ l, Walked t.geometry pairs s (pairs.foldl (fun s x => s.walk x.1 x.2) s) l := by
  by_cases once : s.order.Nodup
  · have walks := walks_foldl h hc once ht distinct
    refine ⟨_, ⟨walks.memory, walks.clean, walks.reworked, walks.words, walks.events, fun e he => ?_⟩, fun _ => ⟨walks, rfl⟩⟩
    obtain ⟨x, -, he⟩ := List.mem_flatMap.mp he
    exact State.walkEvents_kinds _ _ x e he
  · obtain ⟨l, work⟩ := walkWork_walks h hc pairs
    exact ⟨l, work, fun h => absurd h once⟩

/-! ### The stages -/

/-- The port and the slot of an entry. -/
def State.pairOf (s : State) (i : EntryIndex) : PortIndex × Nat := ((s.reservation i).port, (s.reservation i).slot.toNat)

/-- All as in `s`, but for the scrub pointer. -/
def State.scrubAt (s : State) (x : Fin 1024) : State := { s with prot := { s.prot with scrub := x } }

/-- The timer and the lock turned at the end of a cycle. -/
def State.turned (s : State) (t : Timer) (choices : Choices) (x : Fin 1024) : State :=
  { s with choices := choices, timer := some (t.turn s.time (s.applies t) s.lock.stored), lock := { s.lock with stored := none }
           prot := { s.prot with scrub := x } }

/-- The states between the parts of a cycle boundary's work, and what is raised where no closed form is to hand. -/
structure CycleStages where
  turned : State
  opened : State
  early : State
  checked : State
  freed : State
  walked : State
  active : State
  unused : State
  scrubbed : State
  mapped : State
  locked : State
  settled : State
  late : State
  opening : List EventEntry
  expiring : List EventEntry
  walking : List EventEntry
  mapping : List EventEntry
  ending : List EventEntry

/-- The parts of the cycle boundary's work from `s` to `u`. -/
structure CycleRun (s : State) (t : Timer) (x : CycleStages) (u : State) : Prop where
  turned : ∃ c y, x.turned = s.turned t c y
  opened : Opened (s.applies t) x.turned x.opened x.opening
  early : Expired s.boundaryOrder.expiryFirst x.expiring x.opened x.early
  checked : Missed (t.geometry.slots - 1) t.cycle allEntries x.early x.checked
  freed : Freed (x.checked.entriesIn .releasing) x.checked x.freed
  walked : Walked (t.turn s.time (s.applies t) s.lock.stored).geometry
    ((x.checked.entriesIn .releasing).map x.checked.pairOf).dedup x.freed x.walked x.walking
  active : Activated (x.walked.entriesIn .pending) x.walked x.active
  unused : Unused allEntries x.active x.unused
  scrubbed : ∃ y, x.scrubbed = x.unused.scrubAt y
  mapped : Mapped (s.applies t) x.scrubbed x.mapped x.mapping
  locked : LockWork s.lock.stored.isSome t.adjustment x.mapped x.locked
  settled : Sweep (Port.settled x.locked.time) (fun _ => false) (fun _ _ => []) allPorts x.locked x.settled
  late : Expired (!s.boundaryOrder.expiryFirst) x.ending x.settled x.late
  last : ∃ y, u = x.late.clearMarks.scrubAt y

theorem opened_turnCycle {s : State} {t : Timer} (h : MemoryInv s) (hc : s.cleanTable) (applied : Option Geometry) :
    ∃ l, Opened applied (s.turnTimer t applied) (s.turnCycle t applied) l := by
  cases applied with
  | some g => exact ⟨_, opened_announceGeometry (s := s.turnTimer t (some g)) h hc g⟩
  | none => exact ⟨[], MapsWork.nil (s := s.turnTimer t none) h hc, nofun, fun _ => ⟨rfl, rfl⟩⟩

theorem State.turnTimer_ahead {s : State} (hc : s.cleanTable) (t : Timer) (applied : Option Geometry) :
    (s.scrubAhead t).turnTimer t applied = (s.scrubAt (s.prot.scrub + 1)).turnTimer t applied := by
  have clean : State.cleanTable { s with timer := some { t with cycle := t.cycle + 1 } } := hc
  rw [State.scrubAhead, State.scrubOne_of_clean clean]
  rfl

theorem State.turnCycle_ahead {s : State} (hc : s.cleanTable) (t : Timer) (applied : Option Geometry) :
    (s.scrubAhead t).turnCycle t applied = (s.scrubAt (s.prot.scrub + 1)).turnCycle t applied := by
  cases applied with
  | none => exact State.turnTimer_ahead hc t none
  | some g => exact congrArg (State.announceGeometry · g) (State.turnTimer_ahead hc t (some g))

theorem State.scrubIf_eq {s : State} (hc : s.cleanTable) (here : Bool) : ∃ y, s.scrubIf here = s.scrubAt y := by
  cases here with
  | true => exact ⟨_, State.scrubOne_of_clean hc⟩
  | false => exact ⟨s.prot.scrub, rfl⟩

end Sys2Proof.Machine
end

section
/-! A cycle boundary's work where no bit of table memory is wrong goes through these stages. -/

namespace Sys2Proof.Machine

theorem MemoryInv.of_memory {s u : State} (h : MemoryInv s) (e : u.prot.memory = s.prot.memory) : MemoryInv u := by
  show u.prot.memory.wf
  rw [e]
  exact h

theorem Expired.prot {here : Bool} {l : List EventEntry} {s u : State} (h : Expired here l s u) : u.prot = s.prot :=
  (congrArg State.prot h.frame :)

theorem Freed.prot {l : List EntryIndex} {s u : State} (h : Freed l s u) : u.prot = s.prot := (congrArg State.prot h.frame :)

theorem Activated.prot {l : List EntryIndex} {s u : State} (h : Activated l s u) : u.prot = s.prot :=
  (congrArg State.prot h.frame :)

theorem LockWork.prot {handedOver : Bool} {ended : Int} {s u : State} (h : LockWork handedOver ended s u) : u.prot = s.prot :=
  (congrArg State.prot h.frame :)

theorem Sweep.prot {change : Port → Port} {drops : Port → Bool} {reports : PortIndex → Port → List EventEntry}
    {l : List PortIndex} {s u : State} (h : Sweep change drops reports l s u) : u.prot = s.prot :=
  (congrArg State.prot h.frame :)

theorem State.cleanTable.of_prot {s u : State} (h : s.cleanTable) (e : u.prot = s.prot) : u.cleanTable :=
  h.of_memory (congrArg Protection.memory e)

theorem MemoryInv.of_prot {s u : State} (h : MemoryInv s) (e : u.prot = s.prot) : MemoryInv u :=
  h.of_memory (congrArg Protection.memory e)

/-- The work on the table where no bit is wrong. -/
theorem State.tableBoundary_of_clean {s : State} (hc : s.cleanTable) (asStood bitsReturn : Bool) (slot : Nat)
    (ended : CycleNumber) : State.tableBoundary asStood bitsReturn slot ended s = (s.missedSlotCheck slot ended).turnTable :=
  congrArg State.turnTable (State.beforeScrub_of_clean hc asStood bitsReturn _)

/-- The freeing and the walks where no bit is wrong. -/
theorem State.freeAndWalk_of_clean {s : State} (hc : s.cleanTable) :
    s.freeAndWalk = (((s.entriesIn .releasing).map s.pairOf).dedup).foldl (fun s x => s.walk x.1 x.2)
      ((s.entriesIn .releasing).foldl State.freeReleasing s) := by
  unfold State.freeAndWalk
  rw [State.checkEntries_of_clean hc]
  rfl

theorem State.activateAll_of_clean {s : State} (hc : s.cleanTable) :
    s.activateAll = (s.entriesIn .pending).foldl State.activate s := by
  unfold State.activateAll
  rw [State.checkEntries_of_clean hc]

/-- The scrub ahead of all other work moves the pointer alone. -/
theorem State.turnCycle_first {s : State} (hc : s.cleanTable) (t : Timer) (applied : Option Geometry) (ahead : Bool) :
    ∃ y, (if ahead then s.scrubAhead t else s).turnCycle t applied = (s.scrubAt y).turnCycle t applied := by
  cases ahead with
  | true => exact ⟨_, State.turnCycle_ahead hc t applied⟩
  | false => exact ⟨s.prot.scrub, rfl⟩

/-- The work before the lock's: the timer, the records that expire early, the table. -/
theorem cycleRun_opening {s : State} (t : Timer) (h : MemoryInv s) (hc : s.cleanTable) :
    ∃ turned opened early checked freed walked active unused opening expiring walking,
      (∃ c y, turned = s.turned t c y) ∧ Opened (s.applies t) turned opened opening ∧
      Expired s.boundaryOrder.expiryFirst expiring opened early ∧
      Missed (t.geometry.slots - 1) t.cycle allEntries early checked ∧
      Freed (checked.entriesIn .releasing) checked freed ∧
      Walked (t.turn s.time (s.applies t) s.lock.stored).geometry
        ((checked.entriesIn .releasing).map checked.pairOf).dedup freed walked walking ∧
      Activated (walked.entriesIn .pending) walked active ∧ Unused allEntries active unused ∧
      ∃ y, (s.dropChoices 5).openingWork t (s.applies t) s.boundaryOrder = unused.scrubAt y := by
  have dropped : (s.dropChoices 5).cleanTable := hc
  obtain ⟨y, first⟩ := State.turnCycle_first dropped t (s.applies t) s.boundaryOrder.scrubFirst
  obtain ⟨opening, opened⟩ := opened_turnCycle (s := (s.dropChoices 5).scrubAt y) (t := t) h hc (s.applies t)
  have turned : ((s.dropChoices 5).scrubAt y).turnTimer t (s.applies t) = s.turned t (s.dropChoices 5).choices y := rfl
  unfold State.openingWork
  dsimp only
  rw [first]
  rw [turned] at opened
  generalize State.turnCycle _ t (s.applies t) = v at opened ⊢
  obtain ⟨expiring, early⟩ := expired_expireIf v s.boundaryOrder.expiryFirst
  generalize v.expireIf _ = w at early ⊢
  have memory : MemoryInv w := opened.work.memory.of_prot early.prot
  have clean : w.cleanTable := opened.work.clean.of_prot early.prot
  have timer : w.timer = some (t.turn s.time (s.applies t) s.lock.stored) :=
    (congrArg State.timer early.frame :).trans (congrArg State.timer opened.work.frame :)
  rw [State.tableBoundary_of_clean clean]
  have checked := missed_missedSlotCheck memory clean (t.geometry.slots - 1) t.cycle
  generalize w.missedSlotCheck _ _ = c at checked ⊢
  have ctimer : c.timer = some (t.turn s.time (s.applies t) s.lock.stored) := (congrArg State.timer checked.frame :).trans timer
  have freed := freed_foldl (c.entriesIn .releasing) c
  unfold State.turnTable
  rw [State.freeAndWalk_of_clean (checked.clean clean)]
  generalize (c.entriesIn .releasing).foldl State.freeReleasing c = f at freed ⊢
  obtain ⟨walking, walked⟩ := walked_walks (checked.memory.of_prot freed.prot) ((checked.clean clean).of_prot freed.prot)
    ((congrArg State.timer freed.frame :).trans ctimer) (List.nodup_dedup ((c.entriesIn .releasing).map c.pairOf))
  generalize List.foldl _ f _ = k at walked ⊢
  rw [State.activateAll_of_clean walked.work.clean]
  have active := activated_foldl (k.entriesIn .pending) k
  generalize (k.entriesIn .pending).foldl State.activate k = a at active ⊢
  have unused := unused_foldl (walked.work.memory.of_prot active.prot) (walked.work.clean.of_prot active.prot) allEntries
  generalize allEntries.foldl State.resetUsed a = z at unused ⊢
  exact ⟨_, v, w, c, f, k, a, z, opening, expiring, walking, ⟨_, _, rfl⟩, opened, early, checked, freed, walked, active, unused,
    State.scrubIf_eq unused.clean _⟩

/-- A cycle boundary's work where no bit is wrong. -/
theorem cycleRun_cycleBoundaryWork {s : State} (t : Timer) (h : MemoryInv s) (hc : s.cleanTable) :
    ∃ x, CycleRun s t x (s.cycleBoundaryWork t) := by
  obtain ⟨turned, opened, early, checked, freed, walked, active, unused, opening, expiring, walking, turn, open', expire, check,
    free, walk, activate, use, y, work⟩ := cycleRun_opening t h hc
  have clean : (unused.scrubAt y).cleanTable := use.clean
  have struck : ∀ b : Bool, (if b then (unused.scrubAt y).struckMap (s.applies t) else none) = none := fun b => by
    rw [State.struckMap_of_clean clean, ite_self]
  have timer : ∃ t', (unused.scrubAt y).timer = some t' := by
    obtain ⟨c, y, turn⟩ := turn
    have t1 : early.timer = some (t.turn s.time (s.applies t) s.lock.stored) :=
      ((congrArg State.timer expire.frame :).trans (congrArg State.timer open'.work.frame :)).trans (turn ▸ rfl)
    have t2 : freed.timer = early.timer := (congrArg State.timer free.frame :).trans (congrArg State.timer check.frame :)
    have t3 : active.timer = freed.timer := (congrArg State.timer activate.frame :).trans walk.work.reworked.timer
    exact ⟨_, (congrArg State.timer use.frame :).trans (t3.trans (t2.trans t1))⟩
  obtain ⟨t', timer⟩ := timer
  unfold State.cycleBoundaryWork
  dsimp only
  rw [work, struck, State.mapsBeforeScrub]
  obtain ⟨mapping, map⟩ := mapped_mapsBoundary (s := unused.scrubAt y) use.memory clean timer (s.applies t)
  generalize (unused.scrubAt y).mapsBoundary _ = m at map ⊢
  have lock := lockWork_lockBoundary m s.lock.stored.isSome t.adjustment
  generalize m.lockBoundary _ _ = l at lock ⊢
  have settle := sweep_clearPastBusys l
  unfold State.closingWork
  generalize allPorts.foldl State.clearPastBusy l = p at settle ⊢
  obtain ⟨ending, late⟩ := expired_expireIf p (!s.boundaryOrder.expiryFirst)
  generalize p.expireIf _ = e at late ⊢
  have last : e.clearMarks.cleanTable :=
    ((map.work.clean.of_prot lock.prot).of_prot settle.prot).of_prot late.prot
  have scrubbed : ∃ y, (if (!s.boundaryOrder.scrubFirst && !s.boundaryOrder.scrubSecond) = true then e.clearMarks.lastScrub none
      else e.clearMarks) = e.clearMarks.scrubAt y := by
    split_ifs
    · exact ⟨_, State.scrubOne_of_clean last⟩
    · exact ⟨e.prot.scrub, rfl⟩
  exact ⟨⟨turned, opened, early, checked, freed, walked, active, unused, unused.scrubAt y, m, l, p, e, opening, expiring, walking,
    mapping, ending⟩, turn, open', expire, check, free, walk, activate, use, ⟨y, rfl⟩, map, lock, settle, late, scrubbed⟩

end Sys2Proof.Machine
end

section
/-! What a cycle boundary's work leaves, read off its stages, and O8 and O10. -/

namespace Sys2Proof.Machine

/-! ### Lists of events by their kinds -/

/-- Where all kinds of a list are among those looked for, all of it is kept. -/
theorem filter_of_kinds {l : List EventEntry} {kinds wanted : List EventKind} (h : ∀ e ∈ l, e.kind ∈ kinds)
    (all : ∀ k ∈ kinds, k ∈ wanted) : l.filter (fun e => decide (e.kind ∈ wanted)) = l :=
  List.filter_eq_self.mpr fun e he => decide_eq_true (all _ (h e he))

/-- Where none of the kinds of a list is looked for, none of it is kept. -/
theorem filter_of_other_kinds {l : List EventEntry} {kinds wanted : List EventKind} (h : ∀ e ∈ l, e.kind ∈ kinds)
    (none : ∀ k ∈ kinds, k ∉ wanted) : l.filter (fun e => decide (e.kind ∈ wanted)) = [] :=
  List.filter_eq_nil_iff.mpr fun e he => by simpa using none _ (h e he)

theorem kinds_map {α : Type} (l : List α) (f : α → EventEntry) {kind : EventKind} (h : ∀ a, (f a).kind = kind) :
    ∀ e ∈ l.map f, e.kind ∈ [kind] := by
  intro e he
  obtain ⟨a, -, rfl⟩ := List.mem_map.mp he
  simp [h]

theorem State.lockReports_kinds (s : State) (handedOver : Bool) (ended : Int) : ∀ e ∈ s.lockReports handedOver ended,
    e.kind ∈ [EventKind.lockAcquired, .lockHoldover, .lockLost, .lockJitter, .portFailsafe, .portRecovered] := by
  intro e he
  simp only [State.lockReports, List.mem_append] at he
  rcases he with ((((he | he) | he) | he) | he) | he
  · split_ifs at he
    · simp [List.mem_singleton.mp he, Lock.report]
    · cases he
  · obtain ⟨p, -, rfl⟩ := List.mem_map.mp he
    simp [portEvent]
  · split_ifs at he
    · simp [List.mem_singleton.mp he, Lock.report]
    · cases he
  · split_ifs at he
    · simp [List.mem_singleton.mp he, Lock.report]
    · cases he
  · split_ifs at he
    · simp [List.mem_singleton.mp he, Lock.report]
    · cases he
  · obtain ⟨p, -, rfl⟩ := List.mem_map.mp he
    simp [portEvent]

/-! ### The stages' views -/

section
variable {s : State} {t : Timer} {x : CycleStages} {u : State} (r : CycleRun s t x u)
include r

/-- The timer once it has turned. -/
theorem CycleRun.timers :
    x.early.timer = some (t.turn s.time (s.applies t) s.lock.stored) ∧
      x.freed.timer = some (t.turn s.time (s.applies t) s.lock.stored) ∧
      x.scrubbed.timer = some (t.turn s.time (s.applies t) s.lock.stored) ∧
      x.settled.timer = some (t.turn s.time (s.applies t) s.lock.stored) := by
  obtain ⟨c, y, turned⟩ := r.turned
  obtain ⟨z, scrubbed⟩ := r.scrubbed
  have early : x.early.timer = some (t.turn s.time (s.applies t) s.lock.stored) :=
    ((congrArg State.timer r.early.frame :).trans (congrArg State.timer r.opened.work.frame :)).trans (turned ▸ rfl)
  have freed : x.freed.timer = x.early.timer := (congrArg State.timer r.freed.frame :).trans (congrArg State.timer r.checked.frame :)
  have unused : x.unused.timer = x.freed.timer := ((congrArg State.timer r.unused.frame :).trans
    (congrArg State.timer r.active.frame :)).trans r.walked.work.reworked.timer
  have scrub : x.scrubbed.timer = x.unused.timer := scrubbed ▸ rfl
  have settled : x.settled.timer = x.scrubbed.timer := ((congrArg State.timer r.settled.frame :).trans
    (congrArg State.timer r.locked.frame :)).trans (congrArg State.timer r.mapped.work.frame :)
  have chain := scrub.trans (unused.trans (freed.trans early))
  exact ⟨early, freed.trans early, chain, settled.trans chain⟩

/-- The number of the cycle that begins. -/
theorem CycleRun.cycles : x.turned.cycleNumber = t.cycle + 1 ∧ x.opened.cycleNumber = t.cycle + 1 ∧
    x.checked.cycleNumber = t.cycle + 1 ∧ x.freed.cycleNumber = t.cycle + 1 ∧ x.walked.cycleNumber = t.cycle + 1 ∧
    x.scrubbed.cycleNumber = t.cycle + 1 ∧ x.mapped.cycleNumber = t.cycle + 1 ∧ x.settled.cycleNumber = t.cycle + 1 := by
  obtain ⟨c, y, turned⟩ := r.turned
  obtain ⟨early, freed, scrubbed, settled⟩ := r.timers
  have cycle : ∀ {v : State}, v.timer = some (t.turn s.time (s.applies t) s.lock.stored) → v.cycleNumber = t.cycle + 1 :=
    fun {v} h => by
      rw [State.cycleNumber, h]
      cases s.applies t <;> rfl
  have opened : x.opened.timer = x.turned.timer := (congrArg State.timer r.opened.work.frame :)
  have turn : x.turned.timer = some (t.turn s.time (s.applies t) s.lock.stored) := turned ▸ rfl
  exact ⟨cycle turn, cycle (opened.trans turn), cycle ((congrArg State.timer r.checked.frame :).trans early), cycle freed,
    cycle (r.walked.work.reworked.timer.trans freed), cycle scrubbed,
    cycle ((congrArg State.timer r.mapped.work.frame :).trans scrubbed), cycle settled⟩

/-- Before the missed-slot check the entries and the ports are as they were. -/
theorem CycleRun.early_view : (∀ i, x.early.reservation i = s.reservation i) ∧ (∀ i, x.early.entry i = s.entry i) ∧
    ∀ p, x.early.port p = s.port p := by
  obtain ⟨c, y, turned⟩ := r.turned
  have memory : x.early.prot.memory = x.opened.prot.memory := congrArg Protection.memory r.early.prot
  have table : x.early.table = s.table :=
    ((congrArg State.table r.early.frame :).trans (congrArg State.table r.opened.work.frame :)).trans (turned ▸ rfl)
  have ports : x.early.ports = s.ports :=
    ((congrArg State.ports r.early.frame :).trans (congrArg State.ports r.opened.work.frame :)).trans (turned ▸ rfl)
  refine ⟨fun i => ?_, State.entry_of_table table, State.port_of_ports ports⟩
  refine (State.reservation_of_memory memory i).trans (State.reservation_of_words fun k low high => ?_)
  have word := r.opened.work.words k (.inl (by have := i.isLt; omega))
  rw [word, turned]
  rfl

theorem CycleRun.misses (k : Nat) (i : EntryIndex) : x.early.misses k i = s.misses k i := by
  obtain ⟨reservation, entry, port⟩ := r.early_view
  unfold State.misses
  rw [reservation, entry, port]

theorem CycleRun.silences (k : Nat) (i : EntryIndex) : x.early.silences k i = s.silences k i := by
  obtain ⟨reservation, -, port⟩ := r.early_view
  unfold State.silences
  rw [r.misses, reservation, port]

/-- The ports after the missed-slot check, up to the lock's work. -/
theorem CycleRun.port_mapped (p : PortIndex) : x.mapped.port p = (s.port p).missing
    (allEntries.countP (fun i => s.misses (t.geometry.slots - 1) i && decide ((s.reservation i).port = p))) := by
  obtain ⟨z, scrubbed⟩ := r.scrubbed
  obtain ⟨reservation, -, port⟩ := r.early_view
  have freed : x.freed.ports = x.checked.ports := (congrArg State.ports r.freed.frame :)
  have unused : x.unused.ports = x.freed.ports := ((congrArg State.ports r.unused.frame :).trans
    (congrArg State.ports r.active.frame :)).trans r.walked.work.reworked.ports
  have mapped : x.mapped.ports = x.unused.ports := (congrArg State.ports r.mapped.work.frame :).trans (scrubbed ▸ rfl)
  rw [State.port_of_ports (mapped.trans (unused.trans freed)), r.checked.port, port]
  simp only [reservation, r.misses]

/-- The lock and the time at the lock's work. -/
theorem CycleRun.lock_mapped : x.mapped.lock = { s.lock with stored := none } ∧ x.mapped.time = s.time := by
  obtain ⟨z, scrubbed⟩ := r.scrubbed
  obtain ⟨c, y, turned⟩ := r.turned
  have early : x.early.lock = { s.lock with stored := none } ∧ x.early.time = s.time :=
    ⟨((congrArg State.lock r.early.frame :).trans (congrArg State.lock r.opened.work.frame :)).trans (turned ▸ rfl),
      ((congrArg State.time r.early.frame :).trans (congrArg State.time r.opened.work.frame :)).trans (turned ▸ rfl)⟩
  have walked := r.walked.work.reworked.frame
  refine ⟨?_, ?_⟩
  · have freed : x.freed.lock = x.early.lock := (congrArg State.lock r.freed.frame :).trans (congrArg State.lock r.checked.frame :)
    have unused : x.unused.lock = x.freed.lock := ((congrArg State.lock r.unused.frame :).trans
      (congrArg State.lock r.active.frame :)).trans r.walked.work.reworked.lock
    have mapped : x.mapped.lock = x.unused.lock := (congrArg State.lock r.mapped.work.frame :).trans (scrubbed ▸ rfl)
    exact mapped.trans (unused.trans (freed.trans early.1))
  · have freed : x.freed.time = x.early.time := (congrArg State.time r.freed.frame :).trans (congrArg State.time r.checked.frame :)
    have unused : x.unused.time = x.freed.time := ((congrArg State.time r.unused.frame :).trans
      (congrArg State.time r.active.frame :)).trans (congrArg State.time walked :)
    have mapped : x.mapped.time = x.unused.time := (congrArg State.time r.mapped.work.frame :).trans (scrubbed ▸ rfl)
    exact mapped.trans (unused.trans (freed.trans early.2))

/-! ### What is raised -/

omit r in
/-- The reports of silent streams. -/
def CycleStages.silent (x : CycleStages) (t : Timer) : List EventEntry :=
  (allEntries.filter (x.early.silences (t.geometry.slots - 1))).map (fun i =>
    x.early.tableEvent .streamSilent i t.cycle (satInc (x.early.reservation i).misses).toNat)

omit r in
/-- The reports of entries that are freed. -/
def CycleStages.freeing (x : CycleStages) : List EventEntry :=
  (x.checked.entriesIn .releasing).map (fun i =>
    x.checked.tableEvent .resFreed i x.checked.cycleNumber (x.checked.reservation i).slot.toNat)

omit r in
/-- The reports of entries that become ACTIVE. -/
def CycleStages.activating (x : CycleStages) : List EventEntry :=
  (x.walked.entriesIn .pending).map (fun i =>
    x.walked.tableEvent .resActive i x.walked.cycleNumber (x.walked.reservation i).slot.toNat)

omit r in
/-- All that is raised, in order. -/
def CycleStages.reports (x : CycleStages) (t : Timer) (handedOver : Bool) : List EventEntry :=
  x.opening ++ x.expiring ++ x.silent t ++ x.freeing ++ x.walking ++ x.activating ++ x.mapping
    ++ x.mapped.lockReports handedOver t.adjustment ++ x.ending

theorem CycleRun.events : u.events = { s.events.offers (x.reports t s.lock.stored.isSome) with marks := [] } := by
  obtain ⟨c, y, turned⟩ := r.turned
  obtain ⟨z, scrubbed⟩ := r.scrubbed
  obtain ⟨w, last⟩ := r.last
  have start : x.turned.events = s.events := turned ▸ rfl
  have scrub : x.scrubbed.events = x.unused.events := scrubbed ▸ rfl
  have unused : x.unused.events = x.active.events := (congrArg State.events r.unused.frame :)
  have settled : x.settled.events = x.locked.events := r.settled.events
  have done : u.events = { x.late.events with marks := [] } := last ▸ rfl
  rw [done, r.late.events, settled, r.locked.events, r.mapped.work.events, scrub, unused, r.active.events, r.walked.work.events,
    r.freed.events, r.checked.events, r.early.events, r.opened.work.events, start]
  simp only [CycleStages.reports, EventQueue.offers_append]
  rfl

/-- The kinds of each part. -/
theorem CycleRun.kinds : (∀ e ∈ x.opening, e.kind ∈ [EventKind.mapApplied, .mapCancelled, .geometryApplied]) ∧
    (∀ e ∈ x.expiring, e.kind ∈ [EventKind.holdExpired]) ∧ (∀ e ∈ x.silent t, e.kind ∈ [EventKind.streamSilent]) ∧
    (∀ e ∈ x.freeing, e.kind ∈ [EventKind.resFreed]) ∧
    (∀ e ∈ x.walking, e.kind ∈ [EventKind.resOverbooked, .resReinstated]) ∧
    (∀ e ∈ x.activating, e.kind ∈ [EventKind.resActive]) ∧
    (∀ e ∈ x.mapping, e.kind ∈ [EventKind.mapApplied, .mapCancelled, .geometryApplied]) ∧
    (∀ e ∈ x.ending, e.kind ∈ [EventKind.holdExpired]) :=
  ⟨r.opened.work.kinds, fun e he => by simp [r.early.kinds e he], kinds_map _ _ fun _ => rfl, kinds_map _ _ fun _ => rfl,
    r.walked.work.kinds, kinds_map _ _ fun _ => rfl, r.mapped.work.kinds, fun e he => by simp [r.late.kinds e he]⟩

end

/-! ### The gates and the lock -/

theorem Port.missing_lockLost (q : Port) (n : Nat) : (q.missing n).lockLost = q.lockLost.missing n := by
  have same : (q.missing n).losesLock = q.losesLock := rfl
  unfold Port.lockLost
  rw [same]
  split_ifs <;> rfl

theorem Port.missing_lockWon (q : Port) (n : Nat) (now : DeviceTime) : (q.missing n).lockWon now = (q.lockWon now).missing n := by
  have same : (q.missing n).regainsLock = q.regainsLock := rfl
  unfold Port.lockWon
  rw [same]
  split_ifs <;> rfl

end Sys2Proof.Machine
end

section
/-! The lock and the gates at a cycle boundary: O10. -/

namespace Sys2Proof.Machine

/-! ### The lock -/

/-- The jitter flag after a cycle in LOCKED. -/
theorem Lock.recordCycle_eq (l : Lock) :
    l.recordCycle = { l with
      oldest := l.middle, middle := l.newest, newest := l.first
      jitter := if l.jitter then !l.history.all (fun o => decide (o = .good))
                else decide (2 ≤ l.history.countP (fun o => decide (o = .outlier))) } := by
  have count : ∀ o, ({ l with oldest := l.middle, middle := l.newest, newest := l.first } : Lock).historyCount o =
      l.history.countP (fun y => decide (y = o)) := fun _ => rfl
  have full : l.history.countP (fun o => decide (o = .good)) = 3 ↔ l.history.all (fun o => decide (o = .good)) = true := by
    rw [List.all_eq_true]
    exact List.countP_eq_length (l := l.history) (p := fun o => decide (o = .good))
  unfold Lock.recordCycle
  dsimp only
  rw [count, count]
  cases jitters : l.jitter with
  | false =>
    by_cases many : 2 ≤ l.history.countP (fun o => decide (o = .outlier))
    · simp [many]
    · simp [many]
  | true =>
    by_cases good : l.history.all (fun o => decide (o = .good)) = true
    · have three := full.mpr good
      simp only [three, good]
      rfl
    · have fewer := mt full.mp good
      simp only [fewer, Bool.eq_false_iff.mpr good]
      simp

/-- The lock after a boundary in LOCKED. -/
theorem Lock.atBoundary_locked {l : Lock} (h : l.state = .locked) (c : Nat) (now : DeviceTime) (handedOver : Bool) :
    l.atBoundary c now handedOver = { l with
      oldest := l.middle, middle := l.newest, newest := l.first, first := .none, goodMark := false, missRun := l.run
      jitter := if l.jitter then !l.history.all (fun o => decide (o = .good))
                else decide (2 ≤ l.history.countP (fun o => decide (o = .outlier)))
      state := if 3 ≤ l.run then .holdover else .locked
      holdoverCount := if 3 ≤ l.run then 0 else l.holdoverCount } := by
  have work : l.atBoundary c now handedOver = l.recordCycle.recordMiss := by
    unfold Lock.atBoundary
    rw [h]
  rw [work, l.recordCycle_eq]
  unfold Lock.recordMiss
  dsimp only
  by_cases many : 3 ≤ l.run
  · have many' : 3 ≤ (if l.goodMark = true then 0 else l.missRun + 1) := many
    rw [if_pos many', if_pos many, if_pos many]
    rfl
  · have few : ¬ 3 ≤ (if l.goodMark = true then 0 else l.missRun + 1) := many
    rw [if_neg few, if_neg many, if_neg many, ← h]
    rfl

/-- The lock after a boundary in ACQUIRING. -/
theorem Lock.atBoundary_acquiring {l : Lock} (h : l.state = .acquiring) (c : Nat) (now : DeviceTime) (handedOver : Bool) :
    l.atBoundary c now handedOver =
      if l.previousMark.any (fun m => decide (2 * c < (now - m).toNat)) then { l with previousMark := none, goodIntervals := 0 }
      else l := by
  have work : l.atBoundary c now handedOver = l.forgetMark c now := by
    unfold Lock.atBoundary
    rw [h]
  rw [work, Lock.forgetMark]
  cases l.previousMark with
  | none => rfl
  | some m => simp only [Option.any_some, decide_eq_true_eq]

theorem Lock.atBoundary_free {l : Lock} (h : l.state = .free) (c : Nat) (now : DeviceTime) (handedOver : Bool) :
    l.atBoundary c now handedOver = l := by
  unfold Lock.atBoundary
  rw [h]

theorem Lock.atBoundary_aligning {l : Lock} (h : l.state = .aligning) (c : Nat) (now : DeviceTime) (handedOver : Bool) :
    l.atBoundary c now handedOver = if handedOver then l else l.enterLocked := by
  unfold Lock.atBoundary
  rw [h]

theorem Lock.atBoundary_holdover {l : Lock} (h : l.state = .holdover) (c : Nat) (now : DeviceTime) (handedOver : Bool) :
    l.atBoundary c now handedOver = if l.holdoverLimit ≤ l.holdoverCount + 1 then { l.cleared with state := .acquiring }
      else { l with holdoverCount := l.holdoverCount + 1 } := by
  unfold Lock.atBoundary
  rw [h]

/-! ### The gates -/

section
variable {s : State} {t : Timer} {x : CycleStages} {u : State} (r : CycleRun s t x u)
include r

/-- The ports after the boundary. -/
theorem CycleRun.port (p : PortIndex) : u.port p = ((s.lockedPort s.lock.stored.isSome (s.port p)).settled s.time).missing
    (allEntries.countP (fun i => s.misses (t.geometry.slots - 1) i && decide ((s.reservation i).port = p))) := by
  obtain ⟨w, last⟩ := r.last
  obtain ⟨lock, time⟩ := r.lock_mapped
  have ports : x.late.ports = x.settled.ports := (congrArg State.ports r.late.frame :)
  have now : x.locked.time = x.mapped.time := (congrArg State.time r.locked.frame :)
  have done : u.ports = x.late.ports := last ▸ rfl
  have lost : x.mapped.lock.losing = s.lock.losing := by rw [lock]; rfl
  have won : ∀ b, x.mapped.lock.winning b = s.lock.winning b := fun b => by rw [lock]; rfl
  rw [State.port_of_ports (done.trans ports), r.settled.port, if_pos (mem_allPorts p), r.locked.port, now, time, r.port_mapped]
  unfold State.lockedPort
  rw [lost, won, time, Port.missing_lockLost, Port.missing_lockWon]
  split_ifs <;> rfl

/-- What the lock and the gates raise. -/
theorem CycleRun.lockReports : x.mapped.lockReports s.lock.stored.isSome t.adjustment =
    (if s.lock.winning s.lock.stored.isSome then
      [s.lock.report .lockAcquired (t.cycle + 1) (min t.adjustment.toNat 0xFFFF)] else [])
    ++ (allPorts.filter (fun p => s.lock.winning s.lock.stored.isSome && (s.port p).regainsLock)).map
        (fun p => portEvent .portRecovered p (t.cycle + 1) 1)
    ++ (if s.lock.state = .locked ∧ s.lock.jitter = false ∧ 2 ≤ s.lock.history.countP (fun o => decide (o = .outlier)) then
        [s.lock.report .lockJitter (t.cycle + 1) (s.lock.history.countP (fun o => decide (o = .outlier)))] else [])
    ++ (if s.lock.state = .locked ∧ 3 ≤ s.lock.run then [s.lock.report .lockHoldover (t.cycle + 1) s.lock.run] else [])
    ++ (if s.lock.losing then [s.lock.report .lockLost (t.cycle + 1) 0] else [])
    ++ (allPorts.filter (fun p => s.lock.losing && (s.port p).losesLock)).map
        (fun p => portEvent .portFailsafe p (t.cycle + 1) 1) := by
  obtain ⟨-, -, -, -, -, -, cycle, -⟩ := r.cycles
  obtain ⟨lock, -⟩ := r.lock_mapped
  have loses : ∀ p, (x.mapped.port p).losesLock = (s.port p).losesLock := fun p => by rw [r.port_mapped]; rfl
  have regains : ∀ p, (x.mapped.port p).regainsLock = (s.port p).regainsLock := fun p => by rw [r.port_mapped]; rfl
  simp only [State.lockReports, cycle, lock, loses, regains]
  rfl

/-- Of what is raised the events of the lock and of the gates are these. -/
theorem CycleRun.reports_lock :
    (x.reports t s.lock.stored.isSome).filter (fun e => decide (e.kind ∈ [EventKind.lockAcquired, .lockHoldover, .lockLost,
      .lockJitter, .portFailsafe, .portRecovered])) = x.mapped.lockReports s.lock.stored.isSome t.adjustment := by
  obtain ⟨opening, expiring, silent, freeing, walking, activating, mapping, ending⟩ := r.kinds
  have locks := x.mapped.lockReports_kinds s.lock.stored.isSome t.adjustment
  unfold CycleStages.reports
  simp only [List.filter_append]
  rw [filter_of_other_kinds opening (by decide), filter_of_other_kinds expiring (by decide),
    filter_of_other_kinds silent (by decide), filter_of_other_kinds freeing (by decide),
    filter_of_other_kinds walking (by decide), filter_of_other_kinds activating (by decide),
    filter_of_other_kinds mapping (by decide), filter_of_kinds locks (by decide), filter_of_other_kinds ending (by decide)]
  simp

end

/-- The port as the statement writes it. -/
theorem State.lockedPort_eq (s : State) (handedOver : Bool) (q : Port) :
    s.lockedPort handedOver q =
      if s.lock.losing && decide (q.gate = .enforcing) && q.settings.requireLock then
        { q with gate := .failsafe, cause := .lockLost, busy := none }
      else if s.lock.winning handedOver && decide (q.gate = .failsafe) && decide (q.cause = .lockLost) then
        { q with gate := .enforcing, cause := .none
                 busy := some (afterTicks (afterTicks s.time q.settings.lead) (duration q.settings q.settings.maxFrame)) }
      else q := by
  have apart : s.lock.losing = true → s.lock.winning handedOver = false := fun h => by
    simp only [Lock.losing, Bool.and_eq_true, decide_eq_true_eq] at h
    exact Lock.winning_of_ne (by rw [h.1]; decide) handedOver
  unfold State.lockedPort Port.lockLost Port.lockWon Port.losesLock Port.regainsLock
  cases lost : s.lock.losing with
  | true => simp [apart lost]
  | false => cases s.lock.winning handedOver <;> simp

theorem Port.missing_settled (q q' : Port) (now : DeviceTime) (n : Nat) (same : q'.counters = q.counters) :
    (q'.settled now).missing n = { q' with
      busy := q'.busy.filter (fun b => !later now b)
      counters := { q.counters with missedSlots := satAdd q.counters.missedSlots n } } := by
  rw [← same]
  rfl

theorem State.lockedPort_counters (s : State) (handedOver : Bool) (q : Port) :
    (s.lockedPort handedOver q).counters = q.counters := by
  unfold State.lockedPort Port.lockLost Port.lockWon
  split_ifs <;> rfl

/-- Settles O10: the lock by its state, the gates and the events by the parts of the boundary's work. -/
theorem cycleBoundaryInEachLockState : Obligations.CycleBoundaryInEachLockState := by
  intro s t ht ok quiet last
  have instant := State.atCycleEnd_eq ok quiet
  obtain ⟨-, -, lock⟩ := cycleBoundaryWork_frame (s.atCycleEnd t) t
  have held : (s.atCycleEnd t).lock = s.lock := by rw [instant]
  have now : (s.atCycleEnd t).time = t.cycleEnd := by rw [instant]
  rw [held, now] at lock
  refine ⟨(s.atCycleEnd t).cycleBoundaryWork t, ?_, fun free => ?_, fun acquiring => ?_, fun aligning stored => ?_,
    fun aligning stored => ?_, fun locked => ?_, fun holdover few => ?_, fun holdover many => ?_, fun memory clean => ?_⟩
  · rw [exec_cycleBoundary_of_timer ht, pass_toCycleEnd ht ok quiet last]
  · exact lock.trans (Lock.atBoundary_free (l := { s.lock with stored := none }) free _ _ _)
  · have none : (s.atCycleEnd t).applies t = none := ((s.atCycleEnd t).applies_eq t).2 (.inr fun free => by
      have := free.lock
      rw [held, acquiring] at this
      cases this)
    rw [none] at lock
    exact lock.trans (Lock.atBoundary_acquiring (l := { s.lock with stored := Option.none }) acquiring _ _ _)
  · obtain ⟨v, some⟩ := Option.ne_none_iff_exists'.mp stored
    refine lock.trans ((Lock.atBoundary_aligning (l := { s.lock with stored := none }) aligning _ _ _).trans ?_)
    rw [some]
    rfl
  · refine lock.trans ((Lock.atBoundary_aligning (l := { s.lock with stored := none }) aligning _ _ _).trans ?_)
    rw [stored]
    exact congrArg Lock.enterLocked (by rw [← stored])
  · exact lock.trans (Lock.atBoundary_locked (l := { s.lock with stored := none }) locked _ _ _)
  · refine lock.trans ((Lock.atBoundary_holdover (l := { s.lock with stored := none }) holdover _ _ _).trans ?_)
    exact if_neg (Nat.not_le.mpr few)
  · refine lock.trans ((Lock.atBoundary_holdover (l := { s.lock with stored := none }) holdover _ _ _).trans ?_)
    exact if_pos many
  · intro began lock lost won outliers misses loses returns
    have memory' : MemoryInv (s.atCycleEnd t) := by rw [instant]; exact memory
    have clean' : (s.atCycleEnd t).cleanTable := by rw [instant]; exact clean
    obtain ⟨x, r⟩ := cycleRun_cycleBoundaryWork t memory' clean'
    have view : ∀ p, (s.atCycleEnd t).port p = s.port p := State.port_of_ports (by rw [instant])
    have gates := r.port
    have raised := r.reports_lock.trans r.lockReports
    have events := r.events
    have reservation : (s.atCycleEnd t).reservation = s.reservation := by rw [instant]; rfl
    have checked : (s.atCycleEnd t).misses = s.misses := by rw [instant]; rfl
    have queue : (s.atCycleEnd t).events = s.events := by rw [instant]
    have won : ∀ b : Option Int, s.lock.winning b.isSome = (decide (s.lock.state = .aligning) && b.isNone) := fun b => by
      cases b <;> rfl
    simp only [view, held] at raised
    simp only [view, State.lockedPort_eq, held, now, reservation, checked] at gates
    rw [queue] at events
    refine ⟨fun p => ?_, _, events, ?_⟩
    · refine (gates p).trans ((Port.missing_settled (s.port p) _ _ _ ?_).trans ?_)
      · split_ifs <;> rfl
      · rw [won]
        rfl
    · rw [held]
      refine raised.trans ?_
      rw [won]
      simp only [Port.losesLock, Port.regainsLock, ← Bool.and_assoc]
      rfl

end Sys2Proof.Machine
end

section
/-! The maps at a cycle boundary: O8. -/

namespace Sys2Proof.Machine

section
variable {s : State} {t : Timer} {x : CycleStages} {u : State} (r : CycleRun s t x u)
include r

/-- Between a geometry and the committed maps, and after these, the maps and the words above the entries stay. -/
theorem CycleRun.maps_kept : (∀ p, x.scrubbed.mapsOf p = x.opened.mapsOf p) ∧ (∀ p, u.mapsOf p = x.mapped.mapsOf p) ∧
    (∀ k, 256 ≤ k → x.scrubbed.word k = x.opened.word k) ∧ ∀ k, u.word k = x.mapped.word k := by
  obtain ⟨z, scrubbed⟩ := r.scrubbed
  obtain ⟨w, last⟩ := r.last
  have walked := r.walked.work.reworked.frame
  have early : x.early.maps = x.opened.maps := (congrArg State.maps r.early.frame :)
  have freed : x.freed.maps = x.early.maps := (congrArg State.maps r.freed.frame :).trans (congrArg State.maps r.checked.frame :)
  have walk : x.walked.maps = x.freed.maps := (congrArg State.maps walked :)
  have unused : x.unused.maps = x.walked.maps := (congrArg State.maps r.unused.frame :).trans (congrArg State.maps r.active.frame :)
  have scrub : x.scrubbed.maps = x.unused.maps := scrubbed ▸ rfl
  have late : x.late.maps = x.mapped.maps := ((congrArg State.maps r.late.frame :).trans
    (congrArg State.maps r.settled.frame :)).trans (congrArg State.maps r.locked.frame :)
  have done : u.maps = x.late.maps := last ▸ rfl
  have memory : x.late.prot = x.mapped.prot := (r.late.prot.trans r.settled.prot).trans r.locked.prot
  have finished : u.prot.memory = x.late.prot.memory := last ▸ rfl
  refine ⟨State.mapsOf_of_maps (scrub.trans (unused.trans (walk.trans (freed.trans early)))),
    State.mapsOf_of_maps (done.trans late), fun k hk => ?_, State.word_of_prot (finished.trans (congrArg Protection.memory memory))⟩
  have first : x.scrubbed.word k = x.unused.word k := by rw [scrubbed]; rfl
  have active : x.active.word k = x.walked.word k := State.word_of_prot (congrArg Protection.memory r.active.prot) k
  have free : x.freed.word k = x.checked.word k := State.word_of_prot (congrArg Protection.memory r.freed.prot) k
  have expire : x.early.word k = x.opened.word k := State.word_of_prot (congrArg Protection.memory r.early.prot) k
  rw [first, r.unused.words k hk, active, r.walked.work.words k hk, free, r.checked.words k hk, expire]

/-- The words of the pending maps, the ring map and those unused stay. -/
theorem CycleRun.words (k : Nat) (hk : 280 ≤ k) : u.word k = s.word k := by
  obtain ⟨c, y, turned⟩ := r.turned
  obtain ⟨-, -, scrubbed, done⟩ := r.maps_kept
  have start : x.turned.word k = s.word k := by rw [turned]; rfl
  rw [done, r.mapped.work.words k (.inr hk), scrubbed k (by omega), r.opened.work.words k (.inr hk), start]

theorem CycleRun.path : u.path = s.path := by
  obtain ⟨c, y, turned⟩ := r.turned
  obtain ⟨z, scrubbed⟩ := r.scrubbed
  obtain ⟨w, last⟩ := r.last
  have walked := r.walked.work.reworked.frame
  have early : x.early.path = s.path :=
    ((congrArg State.path r.early.frame :).trans (congrArg State.path r.opened.work.frame :)).trans (turned ▸ rfl)
  have freed : x.freed.path = x.early.path := (congrArg State.path r.freed.frame :).trans (congrArg State.path r.checked.frame :)
  have walk : x.walked.path = x.freed.path := (congrArg State.path walked :)
  have unused : x.unused.path = x.walked.path := (congrArg State.path r.unused.frame :).trans (congrArg State.path r.active.frame :)
  have mapped : x.mapped.path = x.unused.path := (congrArg State.path r.mapped.work.frame :).trans (scrubbed ▸ rfl)
  have late : x.late.path = x.mapped.path := ((congrArg State.path r.late.frame :).trans
    (congrArg State.path r.settled.frame :)).trans (congrArg State.path r.locked.frame :)
  have done : u.path = x.late.path := last ▸ rfl
  exact done.trans (late.trans (mapped.trans (unused.trans (walk.trans (freed.trans early)))))

/-- Of what is raised the events of the maps are these. -/
theorem CycleRun.reports_maps (handedOver : Bool) :
    (x.reports t handedOver).filter (fun e => decide (e.kind ∈ [EventKind.mapApplied, .mapCancelled, .geometryApplied])) =
      x.opening ++ x.mapping := by
  obtain ⟨opening, expiring, silent, freeing, walking, activating, mapping, ending⟩ := r.kinds
  have locks := x.mapped.lockReports_kinds handedOver t.adjustment
  unfold CycleStages.reports
  simp only [List.filter_append]
  rw [filter_of_kinds opening (by decide), filter_of_other_kinds expiring (by decide),
    filter_of_other_kinds silent (by decide), filter_of_other_kinds freeing (by decide),
    filter_of_other_kinds walking (by decide), filter_of_other_kinds activating (by decide),
    filter_of_kinds mapping (by decide), filter_of_other_kinds locks (by decide), filter_of_other_kinds ending (by decide)]
  simp

theorem CycleRun.turned_maps : (∀ p, x.turned.mapsOf p = s.mapsOf p) ∧ ∀ k, x.turned.word k = s.word k := by
  obtain ⟨c, y, turned⟩ := r.turned
  rw [turned]
  exact ⟨fun _ => rfl, fun _ => rfl⟩

/-- Where a geometry is applied every slot opens. -/
theorem CycleRun.opens {g : Geometry} (h : s.applies t = some g) :
    (∀ p, u.mapsOf p = ⟨false, none⟩ ∧ ∀ k, k < 48 → u.activeKind p k = .openSlot) ∧ x.mapping = [] ∧
      x.opening = s.geometryEvents g.slots (t.cycle + 1) := by
  obtain ⟨scrubMaps, maps, scrubWords, words⟩ := r.maps_kept
  obtain ⟨raised, opened⟩ := r.opened.opened g h
  obtain ⟨mapped, none⟩ := r.mapped.opened g h
  obtain ⟨cycle, -⟩ := r.cycles
  obtain ⟨before, -⟩ := r.turned_maps
  have same : ∀ p, u.mapsOf p = x.opened.mapsOf p := fun p => by rw [maps, mapped, scrubMaps]
  refine ⟨fun p => ⟨(same p).trans (opened p).1, fun k hk => ?_⟩, none, ?_⟩
  · rw [← (opened p).2 k hk]
    exact State.activeKind_of_words (same p) (by rw [words, mapped, scrubWords _ (by omega)])
  · rw [raised, cycle]
    unfold State.geometryEvents
    simp only [before]

/-- Where none is applied the maps before the committed ones come into force are as they were. -/
theorem CycleRun.unopened (h : s.applies t = none) :
    x.opening = [] ∧ (∀ p, x.scrubbed.mapsOf p = s.mapsOf p) ∧ ∀ k, 256 ≤ k → x.scrubbed.word k = s.word k := by
  obtain ⟨scrubMaps, -, scrubWords, -⟩ := r.maps_kept
  obtain ⟨opened, none⟩ := r.opened.kept h
  obtain ⟨before, beforeWords⟩ := r.turned_maps
  refine ⟨none, fun p => ?_, fun k hk => ?_⟩
  · rw [scrubMaps, opened, before]
  · rw [scrubWords k hk, opened, beforeWords]

/-- Where no geometry is applied the committed maps of N kinds come into force. -/
theorem CycleRun.sweep (h : s.applies t = none) :
    x.scrubbed.timer = some { t with cycle := t.cycle + 1, start := s.time, adjustment := s.lock.stored.getD 0 } ∧
      MapSweep (x.scrubbed.appliedKinds t.geometry.slots) (x.scrubbed.appliedReports t.geometry.slots) allPorts x.scrubbed x.mapped ∧
      x.mapping = allPorts.flatMap (x.scrubbed.appliedReports t.geometry.slots) := by
  obtain ⟨-, -, timer, -⟩ := r.timers
  rw [h] at timer
  exact ⟨timer, r.mapped.sweep h { t with cycle := t.cycle + 1, start := s.time, adjustment := s.lock.stored.getD 0 } timer⟩

/-- A map that comes into force: the port's pending map, committed, of N kinds. -/
theorem CycleRun.appliesNext (h : s.applies t = none) (p : PortIndex) :
    x.scrubbed.appliesNext p = true ↔ (s.mapsOf p).waiting = some ⟨t.geometry.slots, true⟩ := by
  obtain ⟨timer, -⟩ := r.sweep h
  obtain ⟨-, maps, -⟩ := r.unopened h
  rw [State.appliesNext_iff timer, maps]

theorem CycleRun.appliedKinds (h : s.applies t = none) (p : PortIndex) :
    x.scrubbed.appliedKinds t.geometry.slots p =
      if (s.mapsOf p).waiting = some ⟨t.geometry.slots, true⟩ then some (s.pendingKinds p t.geometry.slots) else none := by
  obtain ⟨-, -, words⟩ := r.unopened h
  unfold State.appliedKinds
  rw [State.pendingKinds_of_words (s := s) fun k hk => words k (by omega)]
  simp only [r.appliesNext h]

end

theorem State.countKind_pendingKinds (s : State) (p : PortIndex) (n : Nat) (kind : SlotKind) :
    countKind (s.pendingKinds p n) kind = (List.range n).countP (fun k => decide (s.pendingKind p k = kind)) := by
  unfold countKind State.pendingKinds
  exact List.countP_map

theorem State.pendingKinds_getElem (s : State) (p : PortIndex) {n k : Nat} (h : k < n) :
    (s.pendingKinds p n)[k]?.getD .openSlot = s.pendingKind p k := by
  unfold State.pendingKinds
  simp [h]

/-- Settles O8, by whether a geometry is applied. -/
theorem cycleBoundaryChangesMaps : Obligations.CycleBoundaryChangesMaps := by
  intro s t ht ok quiet memory clean last applies ofMaps slots
  have instant := State.atCycleEnd_eq ok quiet
  have memory' : MemoryInv (s.atCycleEnd t) := by rw [instant]; exact memory
  have clean' : (s.atCycleEnd t).cleanTable := by rw [instant]; exact clean
  have run : exec .cycleBoundary s = .next ((s.atCycleEnd t).cycleBoundaryWork t) := by
    rw [exec_cycleBoundary_of_timer ht, pass_toCycleEnd ht ok quiet last]
  obtain ⟨x, r⟩ := cycleRun_cycleBoundaryWork t memory' clean'
  generalize (s.atCycleEnd t).cycleBoundaryWork t = u at run r
  obtain ⟨taken, kept⟩ := (s.atCycleEnd t).applies_eq t
  have free : (s.atCycleEnd t).freeForGeometry ↔ s.freeForGeometry := by
    rw [instant]
    exact ⟨fun ⟨e, g, l⟩ => ⟨e, g, l⟩, fun ⟨e, g, l⟩ => ⟨e, g, l⟩⟩
  have events := r.events
  have words := r.words
  have path := r.path
  have raised := r.reports_maps (s.atCycleEnd t).lock.stored.isSome
  have opens := fun g => r.opens (g := g)
  obtain ⟨-, maps, -, done⟩ := r.maps_kept
  have queue : (s.atCycleEnd t).events = s.events := by rw [instant]
  have word : ∀ k, (s.atCycleEnd t).word k = s.word k := fun k => by rw [instant]; rfl
  have mapsOf : ∀ p, (s.atCycleEnd t).mapsOf p = s.mapsOf p := fun p => by rw [instant]; rfl
  have geometry : ∀ n c, (s.atCycleEnd t).geometryEvents n c = s.geometryEvents n c := fun n c => by rw [instant]; rfl
  have pending : ∀ p n, (s.atCycleEnd t).pendingKinds p n = s.pendingKinds p n := fun p n => by rw [instant]; rfl
  rw [queue] at events
  refine ⟨u, _, run, events, fun k hk => (words k hk).trans (word k), fun e => ?_, fun g staged is => ?_, fun h => ?_⟩
  · unfold State.ringValid
    rw [path, instant]
  · obtain ⟨opened, none, opening⟩ := opens g (taken g staged (free.mpr is))
    refine ⟨fun p => ⟨(opened p).1, fun k hk => (opened p).2 k ?_⟩, ?_⟩
    · have := (ok.staged g staged).1.slotsHigh
      omega
    · rw [raised, none, List.append_nil, opening, geometry]
  · have none := kept (h.imp_right (mt free.mp))
    obtain ⟨opening, scrubMaps, scrubWords⟩ := r.unopened none
    obtain ⟨-, sweep, mapping⟩ := r.sweep none
    have kinds := r.appliedKinds none
    simp only [mapsOf, pending] at kinds
    have next := fun p => r.appliesNext none p
    obtain ⟨-, -, -, -, -, cycle, -⟩ := r.cycles
    have slotsHigh := ok.geometry.slotsHigh
    have kept : ∀ p, ¬ applies p → x.scrubbed.appliedKinds t.geometry.slots p = Option.none := fun p h =>
      (kinds p).trans (if_neg h)
    refine ⟨fun p h => ⟨?_, fun k hk => ?_⟩, fun p h => ?_, ?_⟩
    · rw [maps, sweep.maps, if_pos ⟨mem_allPorts p, by rw [kinds, if_pos h]; rfl⟩]
    · have active := sweep.active p (mem_allPorts p) _ ((kinds p).trans (if_pos h)) k (by omega)
      rw [State.pendingKinds_getElem s p hk] at active
      exact (State.activeKind_of_words (maps p) (done _)).trans active
    · have stays : ∀ j, j < 3 → x.mapped.word (256 + 3 * p.val + j) = x.scrubbed.word (256 + 3 * p.val + j) := fun j hj =>
        sweep.words _ fun q _ is => by
          have other : q.val ≠ p.val := fun e => by
            rw [Fin.ext e, kept p h] at is
            cases is
          omega
      have same : u.mapsOf p = s.mapsOf p := by
        rw [maps, sweep.maps, if_neg (by rw [kept p h]; simp), scrubMaps, mapsOf]
      have low : ∀ j, j < 3 → u.word (256 + 3 * p.val + j) = s.word (256 + 3 * p.val + j) := fun j hj => by
        rw [done, stays j hj, scrubWords _ (by omega), word]
      refine ⟨same, low, fun k hk => ⟨State.activeKind_of_words same (low _ (by omega)), ?_⟩⟩
      exact State.pendingKind_of_words ((words _ (by omega)).trans (word _))
    · rw [raised, opening, List.nil_append, mapping, ← flatMap_if]
      refine List.flatMap_congr fun p _ => ?_
      have held : x.scrubbed.pendingKinds p t.geometry.slots = s.pendingKinds p t.geometry.slots :=
        State.pendingKinds_of_words (fun k hk => (scrubWords k (by omega)).trans (word k)) _
      unfold State.appliedReports
      rw [cycle, held, s.countKind_pendingKinds, s.countKind_pendingKinds]
      simp only [next, mapsOf, decide_eq_true_eq]
      rfl

end Sys2Proof.Machine
end

section
/-! The entries and the hold records at a cycle boundary: O9. -/

namespace Sys2Proof.Machine

/-! ### The entries, stage by stage -/

theorem mem_allEntries (i : EntryIndex) : i ∈ allEntries := List.mem_finRange i

/-- An entry that stays in the table over a cycle boundary. -/
def State.stays (s : State) (i : EntryIndex) : Bool :=
  decide ((s.entry i).state = .pending) || decide ((s.entry i).state = .active)

theorem State.stays_of_misses {s : State} {k : Nat} {i : EntryIndex} (h : s.misses k i = true) : (s.entry i).state = .active := by
  simp only [State.misses, Bool.and_eq_true, decide_eq_true_eq] at h
  exact h.1.1.1.1

theorem State.state_checkedEntry (s : State) (k : Nat) (i : EntryIndex) : (s.checkedEntry k i).state = (s.entry i).state := by
  unfold State.checkedEntry
  split_ifs <;> rfl

/-- The missed-slot check leaves of an entry all but the misses and the mark of silence. -/
theorem State.checkedReservation_eq (s : State) (k : Nat) (i : EntryIndex) : s.checkedReservation k i = { s.reservation i with
    misses := if s.misses k i then satInc (s.reservation i).misses else (s.reservation i).misses
    silent := (s.reservation i).silent || s.silences k i } := by
  unfold State.checkedReservation State.silences
  cases miss : s.misses k i with
  | false => simp
  | true => cases silent : (s.reservation i).silent <;> simp

section
variable {s : State} {t : Timer} {x : CycleStages} {u : State} (r : CycleRun s t x u)
include r

theorem CycleRun.reservation_checked (i : EntryIndex) :
    x.checked.reservation i = s.checkedReservation (t.geometry.slots - 1) i := by
  obtain ⟨reservation, -, port⟩ := r.early_view
  rw [r.checked.reservation, if_pos (mem_allEntries i)]
  unfold State.checkedReservation
  rw [r.misses, reservation, port]

theorem CycleRun.entry_checked (i : EntryIndex) : x.checked.entry i = s.checkedEntry (t.geometry.slots - 1) i := by
  obtain ⟨-, entry, -⟩ := r.early_view
  rw [r.checked.entry, if_pos (mem_allEntries i)]
  unfold State.checkedEntry
  rw [r.misses, entry]

/-- The entries that are freed. -/
theorem CycleRun.going : x.checked.entriesIn .releasing = allEntries.filter (fun i => decide ((s.entry i).state = .releasing)) := by
  unfold State.entriesIn
  simp only [r.entry_checked, State.state_checkedEntry]

theorem CycleRun.mem_going (i : EntryIndex) : i ∈ x.checked.entriesIn .releasing ↔ (s.entry i).state = .releasing := by
  rw [r.going, List.mem_filter]
  simp [allEntries]

theorem CycleRun.entry_freed (i : EntryIndex) : x.freed.entry i =
    if (s.entry i).state = .releasing then { s.checkedEntry (t.geometry.slots - 1) i with state := .free }
    else s.checkedEntry (t.geometry.slots - 1) i := by
  rw [r.freed.entry, r.entry_checked]
  simp only [r.mem_going]

theorem CycleRun.state_freed (i : EntryIndex) : (x.freed.entry i).state =
    if (s.entry i).state = .releasing then .free else (s.entry i).state := by
  rw [r.entry_freed]
  split_ifs
  · rfl
  · exact s.state_checkedEntry _ i

theorem CycleRun.inUse_freed (i : EntryIndex) : x.freed.inUse i = s.stays i := by
  unfold State.inUse State.stays
  rw [r.state_freed]
  cases (s.entry i).state <;> rfl

theorem CycleRun.reservation_freed (i : EntryIndex) :
    x.freed.reservation i = s.checkedReservation (t.geometry.slots - 1) i := by
  rw [State.reservation_of_memory (congrArg Protection.memory r.freed.prot), r.reservation_checked]

/-- The entries that become ACTIVE. -/
theorem CycleRun.coming : x.walked.entriesIn .pending = allEntries.filter (fun i => decide ((s.entry i).state = .pending)) := by
  unfold State.entriesIn
  refine List.filter_congr fun i _ => ?_
  rw [r.walked.work.reworked.entry, r.state_freed]
  cases (s.entry i).state <;> rfl

theorem CycleRun.entry_active (i : EntryIndex) : x.active.entry i =
    if (s.entry i).state = .pending then { x.freed.entry i with state := .active } else x.freed.entry i := by
  have mem : i ∈ x.walked.entriesIn .pending ↔ (s.entry i).state = .pending := by
    rw [r.coming, List.mem_filter]
    simp [allEntries]
  rw [r.active.entry, r.walked.work.reworked.entry]
  simp only [mem]

theorem CycleRun.inUse_active (i : EntryIndex) : x.active.inUse i = s.stays i := by
  unfold State.inUse State.stays
  rw [r.entry_active]
  by_cases pending : (s.entry i).state = .pending
  · rw [if_pos pending, pending]
    rfl
  · rw [if_neg pending, r.state_freed]
    cases (s.entry i).state <;> rfl

/-- After the table's work the table memory of entries, the entries and the order list stay. -/
theorem CycleRun.table_kept : (∀ i, u.reservation i = x.unused.reservation i) ∧ (∀ i, u.entry i = x.active.entry i) ∧
    u.order = x.freed.order := by
  obtain ⟨z, scrubbed⟩ := r.scrubbed
  obtain ⟨w, last⟩ := r.last
  obtain ⟨-, -, -, done⟩ := r.maps_kept
  have table : x.unused.table = x.active.table := (congrArg State.table r.unused.frame :)
  have mapped : x.mapped.table = x.unused.table := (congrArg State.table r.mapped.work.frame :).trans (scrubbed ▸ rfl)
  have late : x.late.table = x.mapped.table := ((congrArg State.table r.late.frame :).trans
    (congrArg State.table r.settled.frame :)).trans (congrArg State.table r.locked.frame :)
  have finished : u.table = x.late.table := last ▸ rfl
  have order : x.unused.order = x.freed.order := ((congrArg State.order r.unused.frame :).trans
    (congrArg State.order r.active.frame :)).trans r.walked.work.reworked.order
  have mappedOrder : x.mapped.order = x.unused.order := (congrArg State.order r.mapped.work.frame :).trans (scrubbed ▸ rfl)
  have lateOrder : x.late.order = x.mapped.order := ((congrArg State.order r.late.frame :).trans
    (congrArg State.order r.settled.frame :)).trans (congrArg State.order r.locked.frame :)
  have finishedOrder : u.order = x.late.order := last ▸ rfl
  refine ⟨fun i => State.reservation_of_words fun k low high => ?_,
    State.entry_of_table (finished.trans (late.trans (mapped.trans table))),
    finishedOrder.trans (lateOrder.trans (mappedOrder.trans order))⟩
  have scrub : x.scrubbed.word k = x.unused.word k := by rw [scrubbed]; rfl
  rw [done, r.mapped.work.words k (.inl (by have := i.isLt; omega)), scrub]

/-- The fields of an entry after the boundary, given those after the walks. -/
theorem CycleRun.reservation_walked (i : EntryIndex) :
    u.reservation i = if s.stays i then { x.walked.reservation i with used := 0 } else x.walked.reservation i := by
  obtain ⟨reservation, -, -⟩ := r.table_kept
  have active : x.active.reservation i = x.walked.reservation i :=
    State.reservation_of_memory (congrArg Protection.memory r.active.prot) i
  rw [reservation, r.unused.reservation, r.inUse_active, active]
  simp only [mem_allEntries, true_and]

/-- The entries after the boundary (R72, R74, R88). -/
theorem CycleRun.entry (i : EntryIndex) : u.entry i = { s.entry i with
    state := match (s.entry i).state with
      | .pending => .active
      | .releasing => .free
      | .free => .free
      | .active => .active
      | .faulted => .faulted
    totalMisses := if s.misses (t.geometry.slots - 1) i then satInc (s.entry i).totalMisses else (s.entry i).totalMisses } := by
  obtain ⟨-, entry, -⟩ := r.table_kept
  rw [entry, r.entry_active, r.entry_freed]
  unfold State.checkedEntry
  cases s.misses (t.geometry.slots - 1) i <;> generalize s.entry i = e <;> obtain ⟨state, _, _, _, _⟩ := e <;>
    cases state <;> rfl

/-- The admission order list after the boundary (R65). -/
theorem CycleRun.order : u.order = s.order.filter (fun i => !decide ((s.entry i).state = .releasing)) := by
  obtain ⟨-, -, order⟩ := r.table_kept
  obtain ⟨c, y, turned⟩ := r.turned
  have checked : x.checked.order = s.order := ((congrArg State.order r.checked.frame :).trans
    (congrArg State.order r.early.frame :)).trans ((congrArg State.order r.opened.work.frame :).trans (turned ▸ rfl))
  rw [order, r.freed.order, checked]
  exact List.filter_congr fun i _ => by simp [r.mem_going]

end

end Sys2Proof.Machine
end

section
/-! The walks and the hold records of a cycle boundary: O9. -/

namespace Sys2Proof.Machine

/-- The pairs that a cycle boundary frees, each once. -/
def State.freedPairs (s : State) : List (PortIndex × Nat) :=
  ((allEntries.filter (fun i => decide ((s.entry i).state = .releasing))).map s.pairOf).dedup

/-- The entries of a pair that stay in the table, in the order of the admission order list. -/
def State.staying (s : State) (p : PortIndex × Nat) : List EntryIndex :=
  s.order.filter (fun i => s.stays i && decide (s.pairOf i = p))

/-- The present cost of an entry (R58). -/
def State.ownCost (s : State) (i : EntryIndex) : Nat := s.costAt (s.reservation i).port i

theorem State.costAt_of_staying {s : State} {p : PortIndex × Nat} {i : EntryIndex} (h : i ∈ s.staying p) :
    s.costAt p.1 i = s.ownCost i := by
  simp only [State.staying, List.mem_filter, Bool.and_eq_true, decide_eq_true_eq] at h
  obtain ⟨-, -, pair⟩ := h
  rw [← pair]
  rfl

theorem State.pairOf_checked {s v : State} {k : Nat} {i : EntryIndex} (h : v.reservation i = s.checkedReservation k i) :
    v.pairOf i = s.pairOf i := by
  unfold State.pairOf
  rw [h, s.checkedReservation_eq]

theorem State.costAt_checked {s v : State} {k : Nat} {p : PortIndex} {i : EntryIndex}
    (h : v.reservation i = s.checkedReservation k i) (settings : (v.port p).settings = (s.port p).settings) :
    v.costAt p i = s.costAt p i := by
  unfold State.costAt
  rw [h, s.checkedReservation_eq, settings]

theorem State.tableEvent_checked {s v : State} {k : Nat} {i : EntryIndex} (h : v.reservation i = s.checkedReservation k i)
    (kind : EventKind) (c : CycleNumber) (d : Nat) : v.tableEvent kind i c d = s.tableEvent kind i c d := by
  unfold State.tableEvent
  rw [h, s.checkedReservation_eq]

section
variable {s : State} {t : Timer} {x : CycleStages} {u : State} (r : CycleRun s t x u)
include r

theorem CycleRun.pairs : ((x.checked.entriesIn .releasing).map x.checked.pairOf).dedup = s.freedPairs := by
  rw [r.going, State.freedPairs]
  exact congrArg List.dedup (List.map_congr_left fun i _ => State.pairOf_checked (r.reservation_checked i))

omit r in
/-- Where a pair is freed no geometry is applied. -/
theorem State.geometry_of_freed {p : PortIndex × Nat} (h : p ∈ s.freedPairs) :
    (t.turn s.time (s.applies t) s.lock.stored).geometry = t.geometry := by
  obtain ⟨i, hi, -⟩ := List.mem_map.mp (List.mem_dedup.mp h)
  have releasing : (s.entry i).state = .releasing := by simpa using (List.mem_filter.mp hi).2
  have none : s.applies t = none := (s.applies_eq t).2 (.inr fun free => by
    have := free.entries i
    rw [releasing] at this
    cases this)
  rw [none]
  rfl

theorem CycleRun.order_freed : x.freed.order = s.order.filter (fun i => !decide ((s.entry i).state = .releasing)) := by
  obtain ⟨-, -, order⟩ := r.table_kept
  rw [← order, r.order]

theorem CycleRun.visited (p : PortIndex × Nat) : x.freed.visited p = s.staying p := by
  unfold State.visited State.staying
  rw [r.order_freed, List.filter_filter]
  refine List.filter_congr fun i _ => ?_
  have pair : (decide ((x.freed.reservation i).port = p.1) && decide ((x.freed.reservation i).slot.toNat = p.2)) =
      decide (s.pairOf i = p) := by
    rw [← State.pairOf_checked (r.reservation_freed i), ← Bool.decide_and]
    exact decide_eq_decide.mpr (Prod.ext_iff (x := x.freed.pairOf i)).symm
  unfold State.inSlot
  rw [r.inUse_freed, Bool.and_assoc (s.stays i), pair]
  unfold State.stays
  cases (s.entry i).state <;> simp

theorem CycleRun.settings_freed (p : PortIndex) : (x.freed.port p).settings = (s.port p).settings := by
  obtain ⟨-, -, port⟩ := r.early_view
  have ports : x.freed.ports = x.checked.ports := (congrArg State.ports r.freed.frame :)
  rw [State.port_of_ports ports, r.checked.port, port]
  rfl

theorem CycleRun.costAt_freed (p : PortIndex) (i : EntryIndex) : x.freed.costAt p i = s.costAt p i :=
  State.costAt_checked (r.reservation_freed i) (r.settings_freed p)

theorem CycleRun.lock_freed : x.freed.lock = { s.lock with stored := none } := by
  obtain ⟨c, y, turned⟩ := r.turned
  have early : x.early.lock = { s.lock with stored := none } :=
    ((congrArg State.lock r.early.frame :).trans (congrArg State.lock r.opened.work.frame :)).trans (turned ▸ rfl)
  exact ((congrArg State.lock r.freed.frame :).trans (congrArg State.lock r.checked.frame :)).trans early

/-- The walks of the freed pairs. -/
theorem CycleRun.walks (once : s.order.Nodup) :
    Walks x.freed x.walked (t.turn s.time (s.applies t) s.lock.stored).geometry s.freedPairs ∧
      x.walking = s.freedPairs.flatMap (x.freed.walkEvents x.walked) := by
  have walked := r.walked
  rw [r.pairs] at walked
  exact walked.exact (by rw [r.order_freed]; exact once.filter _)

/-- An entry that is not in the table before and after the boundary is as it was. -/
theorem CycleRun.reservation_idle (once : s.order.Nodup) {i : EntryIndex} (idle : s.stays i = false) :
    u.reservation i = s.reservation i := by
  obtain ⟨walks, -⟩ := r.walks once
  have miss : s.misses (t.geometry.slots - 1) i = false := by
    rw [← Bool.not_eq_true]
    intro h
    simp [State.stays, State.stays_of_misses h] at idle
  rw [r.reservation_walked, idle, if_neg Bool.false_ne_true, walks.other i fun p _ => ?_, r.reservation_freed,
    State.checkedReservation, miss, if_neg Bool.false_ne_true]
  rw [r.visited]
  exact fun mem => by simp [State.staying, idle] at mem

/-- An entry that stays in the table: the used count, the misses and the mark of silence; the walks change no more than the
cost and the overbooked flag. -/
theorem CycleRun.reservation_staying (once : s.order.Nodup) {i : EntryIndex} (stays : s.stays i = true) :
    u.reservation i = { s.reservation i with
      used := 0
      misses := if s.misses (t.geometry.slots - 1) i then satInc (s.reservation i).misses else (s.reservation i).misses
      silent := (s.reservation i).silent || s.silences (t.geometry.slots - 1) i
      cost := (u.reservation i).cost, overbooked := (u.reservation i).overbooked } := by
  obtain ⟨walks, -⟩ := r.walks once
  obtain ⟨cost, full, walked⟩ := walks.fixed i
  have whole := r.reservation_walked i
  rw [stays, if_pos rfl, walked, r.reservation_freed, s.checkedReservation_eq] at whole
  rw [whole]

/-- The cost and the overbooked flag after the boundary are those after the walks. -/
theorem CycleRun.judged (i : EntryIndex) : (u.reservation i).cost = (x.walked.reservation i).cost ∧
    (u.reservation i).overbooked = (x.walked.reservation i).overbooked := by
  rw [r.reservation_walked]
  split_ifs <;> exact ⟨rfl, rfl⟩

theorem CycleRun.judged_freed (i : EntryIndex) : (x.freed.reservation i).cost = (s.reservation i).cost ∧
    (x.freed.reservation i).overbooked = (s.reservation i).overbooked := by
  rw [r.reservation_freed, s.checkedReservation_eq]
  exact ⟨rfl, rfl⟩

theorem CycleRun.unwalked (once : s.order.Nodup) {i : EntryIndex} (apart : s.pairOf i ∉ s.freedPairs) :
    (u.reservation i).cost = (s.reservation i).cost ∧ (u.reservation i).overbooked = (s.reservation i).overbooked := by
  obtain ⟨walks, -⟩ := r.walks once
  have same : x.walked.reservation i = x.freed.reservation i := walks.other i fun p hp mem => by
    rw [r.visited, State.staying, List.mem_filter] at mem
    simp only [Bool.and_eq_true, decide_eq_true_eq] at mem
    exact apart (mem.2.2 ▸ hp)
  obtain ⟨cost, full⟩ := r.judged i
  obtain ⟨cost', full'⟩ := r.judged_freed i
  exact ⟨by rw [cost, same, cost'], by rw [full, same, full']⟩

/-- The entries of a freed pair are judged in the order of the admission order list. -/
theorem CycleRun.rewalked (once : s.order.Nodup) {p : PortIndex × Nat} (hp : p ∈ s.freedPairs) {before after : List EntryIndex}
    {i : EntryIndex} (e : s.staying p = before ++ i :: after) :
    (u.reservation i).cost = BitVec.ofNat 23 (s.ownCost i) ∧
      (u.reservation i).overbooked = decide (slotBudget t.geometry s.lock (s.port p.1).settings p.2 <
        (((before.filter (fun j => !(u.reservation j).overbooked)).map s.ownCost).sum + s.ownCost i : Nat)) := by
  obtain ⟨walks, -⟩ := r.walks once
  obtain ⟨cost, full⟩ := r.judged i
  have flags : before.filter (fun j => !(u.reservation j).overbooked) =
      before.filter (fun j => !(x.walked.reservation j).overbooked) :=
    List.filter_congr fun j _ => by rw [(r.judged j).2]
  have one := walks.reservation p hp before i after ((r.visited p).trans e)
  have costs : x.freed.costAt p.1 = s.costAt p.1 := funext fun j => r.costAt_freed p.1 j
  have own : s.costAt p.1 i = s.ownCost i := State.costAt_of_staying (e ▸ List.mem_append_right _ List.mem_cons_self)
  have earlier : (before.filter (fun j => !(x.walked.reservation j).overbooked)).map (s.costAt p.1) =
      (before.filter (fun j => !(x.walked.reservation j).overbooked)).map s.ownCost :=
    List.map_congr_left fun j hj =>
      State.costAt_of_staying (e ▸ List.mem_append_left _ (List.mem_of_mem_filter hj))
  rw [cost, full, one, flags, ← earlier, ← own]
  refine ⟨congrArg (BitVec.ofNat 23) (r.costAt_freed p.1 i), ?_⟩
  unfold State.misfits
  rw [costs, State.geometry_of_freed hp, r.settings_freed, r.lock_freed]
  rfl

/-- Of what is raised the events of the entries are these. -/
theorem CycleRun.reports_entries (handedOver : Bool) :
    (x.reports t handedOver).filter (fun e => decide (e.kind ∈ [EventKind.streamSilent, .resFreed, .resOverbooked,
      .resReinstated, .resActive])) = x.silent t ++ x.freeing ++ x.walking ++ x.activating := by
  obtain ⟨opening, expiring, silent, freeing, walking, activating, mapping, ending⟩ := r.kinds
  have locks := x.mapped.lockReports_kinds handedOver t.adjustment
  unfold CycleStages.reports
  simp only [List.filter_append]
  rw [filter_of_other_kinds opening (by decide), filter_of_other_kinds expiring (by decide),
    filter_of_kinds silent (by decide), filter_of_kinds freeing (by decide),
    filter_of_kinds walking (by decide), filter_of_kinds activating (by decide),
    filter_of_other_kinds mapping (by decide), filter_of_other_kinds locks (by decide), filter_of_other_kinds ending (by decide)]
  simp

/-- And those of the hold records these. -/
theorem CycleRun.reports_holds (handedOver : Bool) :
    (x.reports t handedOver).filter (fun e => decide (e.kind ∈ [EventKind.holdExpired])) = x.expiring ++ x.ending := by
  obtain ⟨opening, expiring, silent, freeing, walking, activating, mapping, ending⟩ := r.kinds
  have locks := x.mapped.lockReports_kinds handedOver t.adjustment
  unfold CycleStages.reports
  simp only [List.filter_append]
  rw [filter_of_other_kinds opening (by decide), filter_of_kinds expiring (by decide),
    filter_of_other_kinds silent (by decide), filter_of_other_kinds freeing (by decide),
    filter_of_other_kinds walking (by decide), filter_of_other_kinds activating (by decide),
    filter_of_other_kinds mapping (by decide), filter_of_other_kinds locks (by decide), filter_of_kinds ending (by decide)]
  simp

theorem CycleRun.silent_eq : x.silent t = (allEntries.filter (s.silences (t.geometry.slots - 1))).map (fun i =>
    s.tableEvent .streamSilent i t.cycle (satInc (s.reservation i).misses).toNat) := by
  obtain ⟨reservation, -, -⟩ := r.early_view
  have silences : x.early.silences (t.geometry.slots - 1) = s.silences (t.geometry.slots - 1) := funext fun i => r.silences _ i
  unfold CycleStages.silent State.tableEvent
  simp only [silences, reservation]

theorem CycleRun.freeing_eq : x.freeing = (allEntries.filter (fun i => decide ((s.entry i).state = .releasing))).map (fun i =>
    s.tableEvent .resFreed i (t.cycle + 1) (s.reservation i).slot.toNat) := by
  obtain ⟨-, -, cycle, -⟩ := r.cycles
  unfold CycleStages.freeing
  rw [r.going, cycle]
  refine List.map_congr_left fun i _ => ?_
  rw [State.tableEvent_checked (r.reservation_checked i), r.reservation_checked, s.checkedReservation_eq]

theorem CycleRun.activating_eq (once : s.order.Nodup) :
    x.activating = (allEntries.filter (fun i => decide ((s.entry i).state = .pending))).map (fun i =>
      s.tableEvent .resActive i (t.cycle + 1) (s.reservation i).slot.toNat) := by
  obtain ⟨walks, -⟩ := r.walks once
  obtain ⟨-, -, -, -, cycle, -⟩ := r.cycles
  unfold CycleStages.activating
  rw [r.coming, cycle]
  refine List.map_congr_left fun i _ => ?_
  obtain ⟨cost, full, walked⟩ := walks.fixed i
  rw [walks.tableEvent, State.tableEvent_checked (r.reservation_freed i), walked, r.reservation_freed, s.checkedReservation_eq]

theorem CycleRun.walking_eq (once : s.order.Nodup) :
    x.walking = s.freedPairs.flatMap (fun p => ((s.staying p).filter (fun i =>
      (s.reservation i).overbooked != (u.reservation i).overbooked)).map (fun i => s.tableEvent
        (if (u.reservation i).overbooked then .resOverbooked else .resReinstated) i (t.cycle + 1) (min (s.ownCost i) 0xFFFF))) := by
  obtain ⟨-, walking⟩ := r.walks once
  obtain ⟨-, -, -, cycle, -⟩ := r.cycles
  rw [walking]
  refine List.flatMap_congr fun p _ => ?_
  unfold State.walkEvents
  have flags : (fun i => (x.freed.reservation i).overbooked != (x.walked.reservation i).overbooked) =
      fun i => (s.reservation i).overbooked != (u.reservation i).overbooked :=
    funext fun i => by rw [(r.judged_freed i).2, (r.judged i).2]
  rw [r.visited, flags, cycle]
  refine List.map_congr_left fun i hi => ?_
  rw [State.tableEvent_checked (r.reservation_freed i), r.costAt_freed, (r.judged i).2,
    State.costAt_of_staying (List.mem_of_mem_filter hi)]

/-! ### The hold records -/

/-- A hold record that no report of the boundary removes. -/
def State.keepsRecord (s u : State) (record : HoldRecord) : Bool :=
  !decide ((s.entry record.entry).state = .releasing)
    && !(!(s.reservation record.entry).overbooked && (u.reservation record.entry).overbooked)
    && !(s.lock.losing && (s.port record.port).losesLock)

/-- A hold record that expires as the cycle begins (R147). -/
def Timer.expires (t : Timer) (record : HoldRecord) : Bool := decide ((t.cycle + 1 - record.firstHeld).toNat = 32)

omit r in
theorem State.holdAge_of_cycle {v : State} (h : v.cycleNumber = t.cycle + 1) (record : HoldRecord) :
    decide (v.holdAge record = 32) = t.expires record := by
  unfold State.holdAge Timer.expires
  rw [h]

/-- The hold records before the late expiry. -/
theorem CycleRun.records_settled (once : s.order.Nodup) : x.settled.holds.records =
    s.holds.records.filter (fun record => s.keepsRecord u record && !(s.boundaryOrder.expiryFirst && t.expires record)) := by
  obtain ⟨c, y, turned⟩ := r.turned
  obtain ⟨z, scrubbed⟩ := r.scrubbed
  obtain ⟨walks, -⟩ := r.walks once
  obtain ⟨-, cycle, -⟩ := r.cycles
  obtain ⟨lock, -⟩ := r.lock_mapped
  have opened : x.opened.holds.records = s.holds.records :=
    (congrArg (fun v : State => v.holds.records) r.opened.work.frame :).trans (turned ▸ rfl)
  have checked : x.checked.holds.records = x.early.holds.records := (congrArg (fun v : State => v.holds.records) r.checked.frame :)
  have mapped : x.mapped.holds.records = x.walked.holds.records :=
    (((congrArg (fun v : State => v.holds.records) r.mapped.work.frame :).trans (scrubbed ▸ rfl)).trans
      (congrArg (fun v : State => v.holds.records) r.unused.frame :)).trans
      (congrArg (fun v : State => v.holds.records) r.active.frame :)
  have settled : x.settled.holds.records = x.locked.holds.records :=
    r.settled.records.trans (List.filter_eq_self.mpr fun _ _ => by simp)
  have losing : x.mapped.lock.losing = s.lock.losing := by rw [lock]; rfl
  have loses : ∀ p, (x.mapped.port p).losesLock = (s.port p).losesLock := fun p => by rw [r.port_mapped]; rfl
  rw [settled, r.locked.records, mapped, walks.records, r.freed.records, checked, r.early.records, opened, List.filter_filter,
    List.filter_filter, List.filter_filter]
  refine List.filter_congr fun record _ => ?_
  rw [losing, loses, (r.judged_freed record.entry).2, ← (r.judged record.entry).2, State.holdAge_of_cycle cycle]
  simp only [r.mem_going, decide_not]
  unfold State.keepsRecord
  ac_rfl

/-- The hold records after the boundary. -/
theorem CycleRun.records (once : s.order.Nodup) :
    u.holds.records = s.holds.records.filter (fun record => s.keepsRecord u record && !t.expires record) := by
  obtain ⟨w, last⟩ := r.last
  obtain ⟨-, -, -, -, -, -, -, cycle⟩ := r.cycles
  have done : u.holds.records = x.late.holds.records := last ▸ rfl
  rw [done, r.late.records, r.records_settled once, List.filter_filter]
  refine List.filter_congr fun record _ => ?_
  rw [State.holdAge_of_cycle cycle]
  cases s.boundaryOrder.expiryFirst <;> cases t.expires record <;> simp

/-- The number of records that expire: all of age 32, or those that no other report has removed before. -/
def State.expiring (s u : State) (t : Timer) : Nat :=
  if s.boundaryOrder.expiryFirst then s.holds.records.countP t.expires
  else s.holds.records.countP (fun record => s.keepsRecord u record && t.expires record)

theorem CycleRun.early_count : x.opened.holds.records.countP (fun record => s.boundaryOrder.expiryFirst
      && decide (x.opened.holdAge record = 32)) =
    if s.boundaryOrder.expiryFirst then s.holds.records.countP t.expires else 0 := by
  obtain ⟨c, y, turned⟩ := r.turned
  obtain ⟨-, cycle, -⟩ := r.cycles
  have opened : x.opened.holds.records = s.holds.records :=
    (congrArg (fun v : State => v.holds.records) r.opened.work.frame :).trans (turned ▸ rfl)
  simp only [opened, State.holdAge_of_cycle cycle]
  cases s.boundaryOrder.expiryFirst <;> simp

theorem CycleRun.late_count (once : s.order.Nodup) : x.settled.holds.records.countP (fun record =>
      !s.boundaryOrder.expiryFirst && decide (x.settled.holdAge record = 32)) =
    if s.boundaryOrder.expiryFirst then 0
    else s.holds.records.countP (fun record => s.keepsRecord u record && t.expires record) := by
  obtain ⟨-, -, -, -, -, -, -, cycle⟩ := r.cycles
  simp only [State.holdAge_of_cycle cycle, r.records_settled once]
  cases s.boundaryOrder.expiryFirst with
  | true => simp
  | false => simp [List.countP_filter, Bool.and_comm]

/-- The expired count and its report (R149, R150), and the count of records not made. -/
theorem CycleRun.expired (once : s.order.Nodup) :
    u.holds.full = s.holds.full ∧ u.holds.expired = satAdd s.holds.expired (s.expiring u t) ∧
      (x.expiring ++ x.ending).length = if s.expiring u t = 0 then 0 else 1 := by
  obtain ⟨c, y, turned⟩ := r.turned
  obtain ⟨z, scrubbed⟩ := r.scrubbed
  obtain ⟨w, last⟩ := r.last
  have walked := r.walked.work.reworked.frame
  have opened : (x.opened.holds.expired, x.opened.holds.full) = (s.holds.expired, s.holds.full) :=
    (congrArg (fun v : State => (v.holds.expired, v.holds.full)) r.opened.work.frame :).trans (turned ▸ rfl)
  have freed : (x.freed.holds.expired, x.freed.holds.full) = (x.early.holds.expired, x.early.holds.full) :=
    (congrArg (fun v : State => (v.holds.expired, v.holds.full)) r.freed.frame :).trans
      (congrArg (fun v : State => (v.holds.expired, v.holds.full)) r.checked.frame :)
  have unused : (x.unused.holds.expired, x.unused.holds.full) = (x.freed.holds.expired, x.freed.holds.full) :=
    ((congrArg (fun v : State => (v.holds.expired, v.holds.full)) r.unused.frame :).trans
      (congrArg (fun v : State => (v.holds.expired, v.holds.full)) r.active.frame :)).trans
      (congrArg (fun v : State => (v.holds.expired, v.holds.full)) walked :)
  have settled : (x.settled.holds.expired, x.settled.holds.full) = (x.unused.holds.expired, x.unused.holds.full) :=
    ((congrArg (fun v : State => (v.holds.expired, v.holds.full)) r.settled.frame :).trans
      (congrArg (fun v : State => (v.holds.expired, v.holds.full)) r.locked.frame :)).trans
      ((congrArg (fun v : State => (v.holds.expired, v.holds.full)) r.mapped.work.frame :).trans (scrubbed ▸ rfl))
  obtain ⟨expired, full⟩ := Prod.mk.inj (settled.trans (unused.trans freed))
  obtain ⟨before, fullBefore⟩ := Prod.mk.inj opened
  have early : x.early.holds.full = x.opened.holds.full := (congrArg (fun v : State => v.holds.full) r.early.frame :)
  have late : x.late.holds.full = x.settled.holds.full := (congrArg (fun v : State => v.holds.full) r.late.frame :)
  have done : u.holds = x.late.holds := last ▸ rfl
  have earlyLength := r.early.count
  have lateLength := r.late.count
  rw [r.early_count] at earlyLength
  rw [r.late_count once] at lateLength
  refine ⟨?_, ?_, ?_⟩
  · rw [done, late, full, early, fullBefore]
  · rw [done, r.late.expired, r.late_count once, expired, r.early.expired, r.early_count, before, satAdd_satAdd]
    congr 1
    unfold State.expiring
    cases s.boundaryOrder.expiryFirst <;> simp
  · rw [List.length_append, earlyLength, lateLength]
    unfold State.expiring
    cases s.boundaryOrder.expiryFirst <;> simp

end

/-- Settles O9, part by part. -/
theorem cycleBoundaryMovesEntries : Obligations.CycleBoundaryMovesEntries := by
  intro s t ht ok quiet memory clean order last lastSlot began isIn stays pair freed pairs visited cost budget
  have instant := State.atCycleEnd_eq ok quiet
  have memory' : MemoryInv (s.atCycleEnd t) := by rw [instant]; exact memory
  have clean' : (s.atCycleEnd t).cleanTable := by rw [instant]; exact clean
  have once : (s.atCycleEnd t).order.Nodup := by rw [instant]; exact order.once
  have run : exec .cycleBoundary s = .next ((s.atCycleEnd t).cycleBoundaryWork t) := by
    rw [exec_cycleBoundary_of_timer ht, pass_toCycleEnd ht ok quiet last]
  obtain ⟨x, r⟩ := cycleRun_cycleBoundaryWork t memory' clean'
  generalize (s.atCycleEnd t).cycleBoundaryWork t = u at run r
  have events := r.events
  have entry := r.entry
  have listed := r.order
  have idle := fun i => r.reservation_idle once (i := i)
  have staying := fun i => r.reservation_staying once (i := i)
  have unwalked := fun i => r.unwalked once (i := i)
  have rewalked := fun p hp before i after => r.rewalked once (p := p) hp (before := before) (i := i) (after := after)
  have raised := r.reports_entries (s.atCycleEnd t).lock.stored.isSome
  rw [r.silent_eq, r.freeing_eq, r.walking_eq once, r.activating_eq once] at raised
  have expiring := r.reports_holds (s.atCycleEnd t).lock.stored.isSome
  have records := r.records once
  obtain ⟨full, expired, length⟩ := r.expired once
  have number : (s.atCycleEnd t).expiring u t = s.holds.records.countP t.expires ∨
      (s.atCycleEnd t).expiring u t =
        s.holds.records.countP (fun record => (s.atCycleEnd t).keepsRecord u record && t.expires record) := by
    have held : (s.atCycleEnd t).holds = s.holds := by rw [instant]
    unfold State.expiring
    rw [held]
    split_ifs
    exacts [.inl rfl, .inr rfl]
  have kept : (s.atCycleEnd t).keepsRecord u = s.keepsRecord u := by rw [instant]; rfl
  have held : (s.atCycleEnd t).holds = s.holds := by rw [instant]
  rw [kept] at number records
  rw [held] at records full expired
  generalize (s.atCycleEnd t).expiring u t = n at expired length number
  generalize x.reports t (s.atCycleEnd t).lock.stored.isSome = l at events raised expiring
  rw [← expiring] at length
  rw [instant] at events entry listed idle staying unwalked rewalked raised
  refine ⟨u, l, run, events, entry, listed, idle, staying, unwalked, fun p hp before i after e => ?_, raised, ?_⟩
  · obtain ⟨costs, full⟩ := rewalked p hp before i after e
    exact ⟨costs, full⟩
  · intro lost expires keeps
    have same : ∀ record, s.keepsRecord u record = keeps record := fun record => by
      simp only [State.keepsRecord, Port.losesLock, ← Bool.and_assoc]
      rfl
    simp only [same] at records number
    have one : (fun e : EventEntry => decide (e.kind ∈ [EventKind.holdExpired])) = fun e => decide (e.kind = .holdExpired) :=
      funext fun e => by simp
    rw [one] at length
    exact ⟨records, full, n, number, expired, length⟩

end Sys2Proof.Machine
end

section
/-! What an uncorrectable word costs, by its owner (R155 to R157): O50. -/

namespace Sys2Proof.Machine

/-! ### The gates that an uncorrectable error concerns (R123) -/

/-- A gate at work in ENFORCING. -/
def Port.enforces (q : Port) : Bool := decide (q.gate = .enforcing)

theorem Port.concerned_of_enforcing {q : Port} (h : q.gate = .enforcing) :
    q.concerned = { q with gate := .failsafe, cause := .memoryError, busy := none } := by
  unfold Port.concerned
  rw [h]

theorem Port.concerned_of_failsafe {q : Port} (h : q.gate = .failsafe) : q.concerned = { q with cause := .memoryError } := by
  obtain ⟨gate, cause, settings, busy, counters⟩ := q
  obtain rfl : gate = .failsafe := h
  rfl

/-- A gate that the error does not move. -/
theorem sweep_memoryError_same {s : State} {p : PortIndex} (kept : (s.port p).concerned = s.port p)
    (idle : (s.port p).enforces = false) (silent : (s.port p).concernedEvent p s.cycleNumber = []) :
    Sweep Port.concerned Port.enforces (fun q x => x.concernedEvent q s.cycleNumber) [p] s s := by
  refine ⟨fun q => ?_, ?_, ?_, rfl⟩
  · by_cases hq : q = p
    · rw [if_pos (List.mem_singleton.mpr hq), hq, kept]
    · rw [if_neg (mt List.mem_singleton.mp hq)]
  · refine (List.filter_eq_self.mpr fun record _ => ?_).symm
    by_cases hr : record.port = p
    · simp [hr, idle]
    · simp [hr]
  · rw [List.flatMap_singleton, silent]
    rfl

theorem sweep_memoryError (s : State) (p : PortIndex) :
    Sweep Port.concerned Port.enforces (fun q x => x.concernedEvent q s.cycleNumber) [p] s (s.memoryError p) := by
  cases gate : (s.port p).gate with
  | enforcing =>
    have run : s.memoryError p = s.toFailsafe p .memoryError := by unfold State.memoryError; rw [gate]
    rw [run, toFailsafe_of_enforcing s p _ gate]
    refine ⟨fun q => ?_, ?_, ?_, rfl⟩
    · refine (s.port_updPort p q (fun q => { q with gate := .failsafe, cause := .memoryError, busy := none })).trans ?_
      by_cases hq : q = p
      · rw [if_pos hq, if_pos (List.mem_singleton.mpr hq), hq, Port.concerned_of_enforcing gate]
      · rw [if_neg hq, if_neg (mt List.mem_singleton.mp hq)]
    · refine List.filter_congr fun record _ => ?_
      by_cases hr : record.port = p
      · simp [hr, Port.enforces, gate]
      · simp [hr]
    · rw [List.flatMap_singleton, Port.concernedEvent, gate]
      rfl
  | failsafe =>
    by_cases cause : (s.port p).cause = .memoryError
    · have run : s.memoryError p = s := by unfold State.memoryError; rw [gate, cause]
      rw [run]
      refine sweep_memoryError_same ?_ (by simp [Port.enforces, gate]) (by rw [Port.concernedEvent, gate, cause])
      rw [Port.concerned_of_failsafe gate, ← cause]
    · have run : s.memoryError p = s.toFailsafe p .memoryError := by
        unfold State.memoryError
        rw [gate]
        cases c : (s.port p).cause with
        | memoryError => exact absurd c cause
        | none | lockLost => rfl
      have raised : (s.port p).concernedEvent p s.cycleNumber = [portEvent .portFailsafe p s.cycleNumber 0x102] := by
        unfold Port.concernedEvent
        rw [gate]
        cases c : (s.port p).cause with
        | memoryError => exact absurd c cause
        | none | lockLost => rfl
      rw [run, toFailsafe_of_other s p _ (by rw [gate]; decide)]
      refine ⟨fun q => ?_, ?_, ?_, rfl⟩
      · refine (s.port_updPort p q (fun q => { q with gate := .failsafe, cause := .memoryError })).trans ?_
        by_cases hq : q = p
        · rw [if_pos hq, if_pos (List.mem_singleton.mpr hq), hq, Port.concerned_of_failsafe gate, ← gate]
        · rw [if_neg hq, if_neg (mt List.mem_singleton.mp hq)]
      · refine (List.filter_eq_self.mpr fun record _ => ?_).symm
        by_cases hr : record.port = p
        · simp [hr, Port.enforces, gate]
        · simp [hr]
      · rw [List.flatMap_singleton, raised, gate]
        rfl
  | transparent | held =>
    have run : s.memoryError p = s := by unfold State.memoryError; rw [gate]
    rw [run]
    exact sweep_memoryError_same (by rw [Port.concerned, gate]) (by simp [Port.enforces, gate]) (by rw [Port.concernedEvent, gate])

theorem sweep_memoryErrors (s : State) {ps : List PortIndex} (once : ps.Nodup) :
    Sweep Port.concerned Port.enforces (fun q x => x.concernedEvent q s.cycleNumber) ps s (ps.foldl State.memoryError s) :=
  sweep_foldl (f := State.memoryError) (s := s) (fun x p _ timer => by
    have cycle : s.cycleNumber = x.cycleNumber := by simp only [State.cycleNumber, timer]
    rw [cycle]
    exact sweep_memoryError x p) once

/-! ### The owner of a word (R151) -/

theorem occupant_entry {i : EntryIndex} {k : Nat} (low : 4 * i.val ≤ k) (high : k < 4 * i.val + 4) : occupant k = .entry i := by
  have := i.isLt
  unfold occupant
  rw [dif_pos (by omega)]
  exact congrArg Occupant.entry (Fin.ext (by dsimp only; omega))

theorem occupant_activeMap (p : PortIndex) {part : Nat} (h : part < 3) : occupant (256 + 3 * p.val + part) = .activeMap p part := by
  have := p.isLt
  unfold occupant
  rw [dif_neg (by omega), dif_pos (by omega)]
  exact congrArg₂ Occupant.activeMap (Fin.ext (by dsimp only; omega)) (by omega)

theorem occupant_pendingMap (p : PortIndex) {part : Nat} (h : part < 3) : occupant (280 + 3 * p.val + part) = .pendingMap p part :=
  occupant_pendingWord p h

theorem occupant_ring {e : RingIndex} {k : Nat} (low : 304 + 2 * e.val ≤ k) (high : k < 306 + 2 * e.val) : occupant k = .ring e := by
  have := e.isLt
  unfold occupant
  rw [dif_neg (by omega), dif_neg (by omega), dif_neg (by omega), dif_pos (by omega)]
  exact congrArg Occupant.ring (Fin.ext (by dsimp only; omega))

theorem occupant_unused {k : Nat} (h : 384 ≤ k) : occupant k = .unused := by
  unfold occupant
  rw [dif_neg (by omega), dif_neg (by omega), dif_neg (by omega), dif_neg (by omega)]

/-! ### The check of an uncorrectable word -/

/-- The state once an uncorrectable word has been reported. -/
def State.lostAt (s : State) (scrubbing : Bool) (k : Nat) : State :=
  s.raise (wordEvent s .memUncorrectable k (weight scrubbing 0x8000))

/-- The report of an uncorrectable word (R160). -/
def State.lostEvent (s : State) (scrubbing : Bool) (k : Nat) (p : Option PortIndex) (i : Option EntryIndex) : EventEntry :=
  ⟨.memUncorrectable, p, i, none, lowCycle s.cycleNumber, BitVec.ofNat 16 (k + if scrubbing then 0x8000 else 0)⟩

section
variable {s : State} {scrubbing : Bool} {k : Nat}

/-- A word with two wrong bits is uncorrectable (R155). -/
theorem verdict_of_two (two : wrongBits (s.word k).flips = 2) : (s.word k).verdict = .lost := by
  unfold TableWord.verdict
  rw [two]
  rfl

theorem checkWord_of_lost (lost : (s.word k).verdict = .lost) :
    s.checkWord scrubbing k = (s.lostAt scrubbing k).ownerAction k := by
  unfold State.checkWord
  rw [lost]
  rfl

theorem lostAt_eq (s : State) (scrubbing : Bool) (k : Nat) : s.lostAt scrubbing k =
    { s with events := s.events.offer (s.lostEvent scrubbing k (wordPort k) (wordEntry k)) } := by
  cases scrubbing <;> rfl

/-- A word rewritten alone. -/
theorem word_putWord_blank (h : MemoryInv s) (j : Nat) :
    (s.putWord k 0).word j = if k ≤ j ∧ j < k + 1 then blankWord else s.word j := by
  rw [State.word_putWord h]
  refine if_congr ?_ rfl rfl
  omega

end

end Sys2Proof.Machine
end

section
/-! What an uncorrectable word costs its owner, before the gates (R44, R45, R77, R105). -/

namespace Sys2Proof.Machine

/-! ### The report -/

/-- `v` is `s` once the event has been offered. -/
structure Told (s : State) (found : EventEntry) (v : State) : Prop where
  events : v.events = s.events.offer found
  frame : { v with events := s.events } = s

theorem told_lostAt (s : State) (scrubbing : Bool) {k : Nat} {p : Option PortIndex} {i : Option EntryIndex}
    (port : wordPort k = p) (index : wordEntry k = i) : Told s (s.lostEvent scrubbing k p i) (s.lostAt scrubbing k) := by
  rw [lostAt_eq, port, index]
  exact ⟨rfl, rfl⟩

section
variable {s v : State} {found : EventEntry} (r : Told s found v)
include r

theorem Told.prot : v.prot = s.prot := (congrArg State.prot r.frame :)
theorem Told.timer : v.timer = s.timer := (congrArg State.timer r.frame :)
theorem Told.ports : v.ports = s.ports := (congrArg State.ports r.frame :)
theorem Told.holds : v.holds = s.holds := (congrArg State.holds r.frame :)
theorem Told.path : v.path = s.path := (congrArg State.path r.frame :)
theorem Told.maps : v.maps = s.maps := (congrArg State.maps r.frame :)
theorem Told.table : v.table = s.table := (congrArg State.table r.frame :)

theorem Told.memory (h : MemoryInv s) : MemoryInv v := h.of_prot r.prot
theorem Told.word (k : Nat) : v.word k = s.word k := State.word_of_prot (congrArg Protection.memory r.prot) k
theorem Told.entry (i : EntryIndex) : v.entry i = s.entry i := State.entry_of_table r.table i
theorem Told.inUse (i : EntryIndex) : v.inUse i = s.inUse i := by unfold State.inUse; rw [r.entry]
theorem Told.mapsOf (p : PortIndex) : v.mapsOf p = s.mapsOf p := State.mapsOf_of_maps r.maps p
theorem Told.ringValid (e : RingIndex) : v.ringValid e = s.ringValid e := by unfold State.ringValid; rw [r.path]
theorem Told.cycleNumber : v.cycleNumber = s.cycleNumber := by unfold State.cycleNumber; rw [r.timer]

end

/-! ### Words rewritten alone -/

/-- Words rewritten with data 0 after the report, and nothing else. -/
structure Unaffected (s : State) (found : EventEntry) (a n : Nat) (u : State) : Prop where
  words : ∀ j, u.word j = if a ≤ j ∧ j < a + n then blankWord else s.word j
  events : u.events = s.events.offer found
  frame : { u with events := s.events, prot := { u.prot with memory := s.prot.memory } } = s

section
variable {s v : State} {found : EventEntry} (r : Told s found v) (h : MemoryInv s)
include r

/-- Words written after the report. -/
theorem Told.putWords (l : List (Nat × Word)) : (v.putWords l).events = s.events.offer found ∧
    { v.putWords l with events := s.events, prot := { (v.putWords l).prot with memory := s.prot.memory } } = s := by
  have frame := State.putWords_frame l v
  have memory : v.prot.memory = s.prot.memory := congrArg Protection.memory r.prot
  rw [memory] at frame
  exact ⟨(congrArg State.events frame :).trans r.events, (congrArg (fun x : State => { x with events := s.events }) frame).trans r.frame⟩

include h

theorem unaffected_putWord (k : Nat) : Unaffected s found k 1 (v.putWord k 0) := by
  obtain ⟨events, frame⟩ := r.putWords [(k, 0)]
  exact ⟨fun j => (word_putWord_blank (r.memory h) j).trans (by rw [r.word]), events, frame⟩

theorem unaffected_blankReservation (i : EntryIndex) : Unaffected s found (4 * i.val) 4 (v.blankReservation i) := by
  obtain ⟨events, frame⟩ := r.putWords [(entryWord i 0, 0), (entryWord i 1, 0), (entryWord i 2, 0), (entryWord i 3, 0)]
  exact ⟨fun j => (State.word_blankReservation (r.memory h) i j).trans (by rw [r.word]), events, frame⟩

end

/-! ### An entry (R77) -/

/-- The state once an entry has been faulted, before the gates. -/
structure Faulted (s : State) (found : EventEntry) (i : EntryIndex) (u : State) : Prop where
  entry : ∀ j, u.entry j = if j = i then { s.entry i with state := .faulted } else s.entry j
  words : ∀ j, u.word j = if 4 * i.val ≤ j ∧ j < 4 * i.val + 4 then blankWord else s.word j
  records : u.holds.records = s.holds.records.filter (fun record => decide (record.entry ≠ i))
  events : u.events = s.events.offers [found, ⟨.resFaulted, none, some i, none, lowCycle s.cycleNumber,
    BitVec.ofNat 16 (s.entry i).state.byte.toNat⟩]
  frame : { u with table := s.table, events := s.events, holds := { u.holds with records := s.holds.records }
                   prot := { u.prot with memory := s.prot.memory } } = s

/-- The words of an entry written leave everything but table memory. -/
theorem State.blankReservation_frame (s : State) (i : EntryIndex) :
    { s.blankReservation i with prot := { (s.blankReservation i).prot with memory := s.prot.memory } } = s :=
  State.putWords_frame _ s

theorem State.setEntryState_frame (s : State) (i : EntryIndex) (st : EntryState) :
    { s.setEntryState i st with table := s.table } = s := rfl

/-- An entry faulted, before the gates. -/
theorem faulted_faultEntry {s v : State} {found : EventEntry} (r : Told s found v) (h : MemoryInv s) (i : EntryIndex) :
    Faulted s found i (v.faultEntry i) := by
  have memory : v.prot.memory = s.prot.memory := congrArg Protection.memory r.prot
  have entry := fun j => v.entry_setEntryState i j .faulted
  have table := v.setEntryState_frame i .faulted
  have word : MemoryInv (v.setEntryState i .faulted) := r.memory h
  have blank := State.word_blankReservation word i
  have same : ∀ j, (v.setEntryState i .faulted).word j = v.word j := fun _ => rfl
  have frame := (v.setEntryState i .faulted).blankReservation_frame i
  have words : (v.setEntryState i .faulted).prot.memory = v.prot.memory := rfl
  have timer : (v.setEntryState i .faulted).timer = s.timer := r.timer
  unfold State.faultEntry
  dsimp only
  generalize v.setEntryState i .faulted = x at entry table blank same frame words timer ⊢
  generalize x.blankReservation i = y at blank frame ⊢
  rw [words, memory] at frame
  have tables : y.table = x.table := (congrArg State.table frame :)
  have holds : y.holds = s.holds :=
    (congrArg State.holds frame :).trans ((congrArg State.holds table :).trans r.holds)
  have events : y.events = s.events.offer found :=
    (congrArg State.events frame :).trans ((congrArg State.events table :).trans r.events)
  have cycle : (y.removeEntryHolds i).cycleNumber = s.cycleNumber := by
    have same : (y.removeEntryHolds i).timer = s.timer := (congrArg State.timer frame :).trans timer
    unfold State.cycleNumber
    rw [same]
  refine ⟨fun j => ?_, fun j => ?_, ?_, ?_, ?_⟩
  · refine (State.entry_of_table tables j).trans ?_
    rw [entry, r.entry, r.entry]
  · refine (blank j).trans ?_
    rw [same, r.word]
  · exact congrArg (fun z : HoldList => z.records.filter (fun record => decide (record.entry ≠ i))) holds
  · rw [State.raise_events, cycle, r.entry]
    exact congrArg (EventQueue.offer · _) events
  · have whole := (congrArg (fun z : State => { z with table := s.table, events := s.events }) frame).trans
      ((congrArg (fun z : State => { z with table := s.table, events := s.events }) table).trans
        ((congrArg (fun z : State => { z with table := s.table }) r.frame :)))
    have records : s.holds.records = y.holds.records := by rw [holds]
    rw [records]
    exact whole

/-! ### An active map (R44) -/

/-- The state once an active map has been marked BAD, before the gate. -/
structure MarkedBad (s : State) (found : EventEntry) (p : PortIndex) (u : State) : Prop where
  maps : ∀ q, u.mapsOf q = if q = p then { s.mapsOf p with bad := true } else s.mapsOf q
  kinds : ∀ n, n < 48 → kindInWord (u.data (256 + 3 * p.val + n / 16)) (n % 16) = .closed
  flips : ∀ j, j < 3 → (u.word (256 + 3 * p.val + j)).flips = 0
  words : ∀ j, j < 256 + 3 * p.val ∨ 259 + 3 * p.val ≤ j → u.word j = s.word j
  events : u.events = s.events.offer found
  frame : { u with maps := s.maps, events := s.events, prot := { u.prot with memory := s.prot.memory } } = s

theorem State.setMaps_frame (s : State) (p : PortIndex) (m : PortMaps) : { s.setMaps p m with maps := s.maps } = s := rfl

/-- The maps of one port replaced after the report. -/
theorem Told.setMaps {s v : State} {found : EventEntry} (r : Told s found v) (p : PortIndex) (m : PortMaps) :
    (∀ q, (v.setMaps p m).mapsOf q = if q = p then m else s.mapsOf q) ∧ (v.setMaps p m).prot = s.prot ∧
      (v.setMaps p m).events = s.events.offer found ∧ (v.setMaps p m).timer = s.timer ∧
      { v.setMaps p m with maps := s.maps, events := s.events } = s := by
  refine ⟨fun q => ?_, r.prot, r.events, r.timer, ?_⟩
  · rw [State.mapsOf_setMaps, r.mapsOf]
  · have frame := r.frame
    have maps := r.maps
    exact (congrArg (fun z : State => { z with maps := s.maps }) frame :)

theorem markedBad_markBad {s v : State} {found : EventEntry} (r : Told s found v) (h : MemoryInv s) (p : PortIndex) :
    MarkedBad s found p (v.markBad p) := by
  have range : 256 + 3 * p.val + 2 < 1024 := by omega
  have run : v.markBad p = (v.setMaps p { v.mapsOf p with bad := true }).putMap (256 + 3 * p.val) (List.replicate 48 .closed) := rfl
  rw [run, r.mapsOf]
  obtain ⟨maps, prot, events, -, told⟩ := r.setMaps p { s.mapsOf p with bad := true }
  generalize v.setMaps p _ = x at maps prot events told ⊢
  have memory : MemoryInv x := h.of_prot prot
  have words : x.prot.memory = s.prot.memory := congrArg Protection.memory prot
  have kind := fun n (hn : n < 48) => State.kind_putMap memory range (List.replicate 48 .closed) hn
  have flips := fun j (hj : j < 3) => State.word_putMap memory range (List.replicate 48 .closed) hj
  have other := fun j (hj : j < 256 + 3 * p.val ∨ 256 + 3 * p.val + 3 ≤ j) =>
    State.word_putMap_of_other memory range (List.replicate 48 .closed) hj
  have frame := State.putMap_frame x (256 + 3 * p.val) (List.replicate 48 .closed)
  rw [words] at frame
  generalize x.putMap _ _ = u at kind flips other frame ⊢
  refine ⟨fun q => ?_, fun n hn => ?_, fun j hj => ?_, fun j hj => ?_, (congrArg State.events frame :).trans events, ?_⟩
  · exact (State.mapsOf_of_maps (congrArg State.maps frame :) q).trans (maps q)
  · rw [kind n hn, List.getElem?_replicate, if_pos hn]
    rfl
  · exact congrArg TableWord.flips (flips j hj)
  · rw [other j (by omega)]
    exact State.word_of_prot words j
  · exact (congrArg (fun z : State => { z with maps := s.maps, events := s.events }) frame).trans told

/-! ### A pending map (R45) -/

theorem mapWord_nil (j : Nat) : mapWord [] j = 0 := by simp [mapWord, packKinds]

/-- The words of a pending map that is lost. -/
theorem word_putPending_nil {s : State} (h : MemoryInv s) (p : PortIndex) (j : Nat) :
    (s.putPending p []).word j = if 280 + 3 * p.val ≤ j ∧ j < 280 + 3 * p.val + 3 then blankWord else s.word j := by
  have range : 280 + 3 * p.val + 2 < 1024 := by omega
  rw [putPending_eq_putMap]
  split_ifs with inside
  · obtain ⟨n, rfl⟩ : ∃ n, j = 280 + 3 * p.val + n := ⟨j - (280 + 3 * p.val), by omega⟩
    rw [State.word_putMap h range [] (by omega), mapWord_nil]
    rfl
  · exact State.word_putMap_of_other h range [] (by omega)

/-- The state once a pending map has been lost. -/
structure PendingLost (s : State) (found : EventEntry) (p : PortIndex) (m : PendingMap) (u : State) : Prop where
  maps : ∀ q, u.mapsOf q = if q = p then { s.mapsOf p with waiting := none } else s.mapsOf q
  words : ∀ j, u.word j = if 280 + 3 * p.val ≤ j ∧ j < 280 + 3 * p.val + 3 then blankWord else s.word j
  events : u.events = s.events.offers [found, portEvent .mapCancelled p s.cycleNumber (if m.committed then 0x102 else 0x002)]
  frame : { u with maps := s.maps, events := s.events, prot := { u.prot with memory := s.prot.memory } } = s

theorem pendingLost_losePending {s v : State} {found : EventEntry} (r : Told s found v) (h : MemoryInv s) (p : PortIndex)
    (m : PendingMap) : PendingLost s found p m (v.losePending p m) := by
  have event : ∀ x : State, x.timer = s.timer → cancelEvent x p 2 m.committed =
      portEvent .mapCancelled p s.cycleNumber (if m.committed then 0x102 else 0x002) := fun x timer => by
    have cycle : s.cycleNumber = x.cycleNumber := by unfold State.cycleNumber; rw [timer]
    rw [cycle]
    cases m.committed <;> rfl
  have run : v.losePending p m = ((v.setMaps p { v.mapsOf p with waiting := none }).putPending p []).raise
    (cancelEvent ((v.setMaps p { v.mapsOf p with waiting := none }).putPending p []) p 2 m.committed) := rfl
  rw [run, r.mapsOf]
  obtain ⟨maps, prot, events, timer, told⟩ := r.setMaps p { s.mapsOf p with waiting := none }
  generalize v.setMaps p _ = x at maps prot events timer told ⊢
  have words : x.prot.memory = s.prot.memory := congrArg Protection.memory prot
  have word := word_putPending_nil (h.of_prot prot) p
  have frame := State.putMap_frame x (280 + 3 * p.val) []
  rw [← putPending_eq_putMap, words] at frame
  generalize x.putPending p [] = u at word frame ⊢
  refine ⟨fun q => ?_, fun j => ?_, ?_, ?_⟩
  · exact (State.mapsOf_of_maps (congrArg State.maps frame :) q).trans (maps q)
  · refine (word j).trans ?_
    rw [State.word_of_prot words]
  · rw [State.raise_events, event u ((congrArg State.timer frame :).trans timer)]
    exact congrArg (EventQueue.offer · _) ((congrArg State.events frame :).trans events)
  · exact (congrArg (fun z : State => { z with maps := s.maps, events := s.events }) frame).trans told

/-! ### A ring map entry (R105) -/

/-- The state once a ring map entry has become invalid, before the gate. -/
structure RingLost (s : State) (found : EventEntry) (e : RingIndex) (u : State) : Prop where
  valid : ∀ o, u.ringValid o = if o = e then false else s.ringValid o
  words : ∀ j, u.word j = if 304 + 2 * e.val ≤ j ∧ j < 304 + 2 * e.val + 2 then blankWord else s.word j
  events : u.events = s.events.offer found
  frame : { u with path := { u.path with ringValid := s.path.ringValid }, events := s.events
                   prot := { u.prot with memory := s.prot.memory } } = s

theorem State.word_loseRing {s : State} (h : MemoryInv s) (e : RingIndex) (j : Nat) :
    (s.loseRing e).word j = if 304 + 2 * e.val ≤ j ∧ j < 304 + 2 * e.val + 2 then blankWord else s.word j := by
  have memory : MemoryInv (s.setRingValid e false) := h
  have range : ringWord e 0 < 1024 := by unfold ringWord; omega
  have first := State.word_putWord memory (ringWord e 0) j 0
  have second := State.word_putWord (State.wf_putWord memory range 0) (ringWord e 1) j 0
  have blank : cleanWord 0 = blankWord := rfl
  refine second.trans ?_
  rw [first]
  unfold ringWord
  by_cases one : j = 304 + 2 * e.val + 1
  · rw [if_pos one, if_pos (by omega), blank]
  · rw [if_neg one]
    by_cases zero : j = 304 + 2 * e.val + 0
    · rw [if_pos zero, if_pos (by omega), blank]
    · rw [if_neg zero, if_neg (by omega)]
      rfl

theorem State.setRingValid_frame (s : State) (e : RingIndex) (valid : Bool) :
    { s.setRingValid e valid with path := { (s.setRingValid e valid).path with ringValid := s.path.ringValid } } = s := rfl

theorem ringLost_loseRing {s v : State} {found : EventEntry} (r : Told s found v) (h : MemoryInv s) (e : RingIndex) :
    RingLost s found e (v.loseRing e) := by
  have words : v.prot.memory = s.prot.memory := congrArg Protection.memory r.prot
  have frame := State.putWords_frame [(ringWord e 0, 0), (ringWord e 1, 0)] (v.setRingValid e false)
  have run : v.loseRing e = (v.setRingValid e false).putWords [(ringWord e 0, 0), (ringWord e 1, 0)] := rfl
  have word := State.word_loseRing (r.memory h) e
  have valid := fun o => v.ringValid_setRingValid e o false
  have flag := v.setRingValid_frame e false
  rw [← run] at frame
  generalize v.loseRing e = u at frame word ⊢
  have prot : (v.setRingValid e false).prot.memory = s.prot.memory := words
  generalize v.setRingValid e false = x at frame valid flag prot
  rw [prot] at frame
  rw [r.path] at flag
  refine ⟨fun o => ?_, fun j => ?_, ?_, ?_⟩
  · have kept : u.ringValid o = x.ringValid o := by
      unfold State.ringValid
      rw [← frame]
    rw [kept, valid, r.ringValid]
  · rw [word, r.word]
  · exact (congrArg State.events frame :).trans ((congrArg State.events flag :).trans r.events)
  · exact (congrArg (fun z : State => { z with path := { z.path with ringValid := s.path.ringValid }, events := s.events })
      frame).trans ((congrArg (fun z : State => { z with events := s.events }) flag).trans r.frame)

/-! ### The gates -/

/-- The gates of these ports after an uncorrectable error, where nothing before has moved a gate. -/
theorem concerned_gates {s b : State} {ps : List PortIndex} (once : ps.Nodup) (ports : b.ports = s.ports)
    (cycle : b.cycleNumber = s.cycleNumber) :
    (∀ q, (ps.foldl State.memoryError b).port q = if q ∈ ps then (s.port q).concerned else s.port q)
      ∧ (ps.foldl State.memoryError b).holds.records =
          b.holds.records.filter (fun record => !(decide (record.port ∈ ps) && (s.port record.port).enforces))
      ∧ (ps.foldl State.memoryError b).events = b.events.offers (ps.flatMap (fun q => (s.port q).concernedEvent q s.cycleNumber))
      ∧ { ps.foldl State.memoryError b with
            ports := s.ports, events := b.events
            holds := { (ps.foldl State.memoryError b).holds with records := b.holds.records } } = b := by
  have sweep := sweep_memoryErrors b once
  have port : ∀ q, b.port q = s.port q := State.port_of_ports ports
  have records := sweep.records
  have events := sweep.events
  have frame := sweep.frame
  simp only [port, cycle] at records events
  rw [ports] at frame
  exact ⟨fun q => by rw [sweep.port, port], records, events, frame⟩

end Sys2Proof.Machine
end

section
/-! O50, owner by owner. -/

namespace Sys2Proof.Machine

/-- The gates of these ports after an uncorrectable error, from the base state `b`. -/
structure Gated (s b : State) (ps : List PortIndex) (u : State) : Prop where
  port : ∀ q, u.port q = if q ∈ ps then (s.port q).concerned else s.port q
  records : u.holds.records = b.holds.records.filter (fun record => !(decide (record.port ∈ ps) && (s.port record.port).enforces))
  events : u.events = b.events.offers (ps.flatMap (fun q => (s.port q).concernedEvent q s.cycleNumber))
  frame : { u with ports := s.ports, events := b.events, holds := { u.holds with records := b.holds.records } } = b

theorem gated_memoryErrors {s b : State} {ps : List PortIndex} (once : ps.Nodup) (ports : b.ports = s.ports)
    (timer : b.timer = s.timer) : Gated s b ps (ps.foldl State.memoryError b) := by
  have cycle : b.cycleNumber = s.cycleNumber := by unfold State.cycleNumber; rw [timer]
  obtain ⟨port, records, events, frame⟩ := concerned_gates once ports cycle
  exact ⟨port, records, events, frame⟩

section
variable {s b u : State} {ps : List PortIndex} (g : Gated s b ps u)
include g

theorem Gated.word (k : Nat) : u.word k = b.word k :=
  State.word_of_prot (congrArg (fun x : State => x.prot.memory) g.frame :) k
theorem Gated.entry (i : EntryIndex) : u.entry i = b.entry i := State.entry_of_table (congrArg State.table g.frame :) i
theorem Gated.mapsOf (p : PortIndex) : u.mapsOf p = b.mapsOf p := State.mapsOf_of_maps (congrArg State.maps g.frame :) p
theorem Gated.ringValid (e : RingIndex) : u.ringValid e = b.ringValid e := by
  have path : u.path = b.path := (congrArg State.path g.frame :)
  unfold State.ringValid
  rw [path]

end

section
variable {s : State} {scrubbing : Bool} {k : Nat} (h : MemoryInv s) (lost : (s.word k).verdict = .lost)
include h lost

/-- A word of an entry that is not in use. -/
theorem checkWord_entry_idle {i : EntryIndex} (low : 4 * i.val ≤ k) (high : k < 4 * i.val + 4) (idle : s.inUse i = false) :
    Unaffected s (s.lostEvent scrubbing k none (some i)) (4 * i.val) 4 (s.checkWord scrubbing k) := by
  have owner := occupant_entry low high
  have told := told_lostAt s scrubbing (k := k) (p := none) (i := some i)
    (by unfold wordPort; rw [owner]) (by unfold wordEntry; rw [owner])
  have blank := unaffected_blankReservation told h i
  rw [checkWord_of_lost lost, State.ownerAction, owner]
  dsimp only
  rw [told.inUse, idle]
  exact blank

/-- A word of an entry in use. -/
theorem checkWord_entry_used {i : EntryIndex} (low : 4 * i.val ≤ k) (high : k < 4 * i.val + 4) (used : s.inUse i = true) :
    ∃ b, Faulted s (s.lostEvent scrubbing k none (some i)) i b ∧ Gated s b allPorts (s.checkWord scrubbing k) := by
  have owner := occupant_entry low high
  have told := told_lostAt s scrubbing (k := k) (p := none) (i := some i)
    (by unfold wordPort; rw [owner]) (by unfold wordEntry; rw [owner])
  have faulted := faulted_faultEntry told h i
  rw [checkWord_of_lost lost, State.ownerAction, owner]
  dsimp only
  rw [told.inUse, used]
  generalize (s.lostAt scrubbing k).faultEntry i = b at faulted ⊢
  exact ⟨b, faulted, gated_memoryErrors nodup_allPorts (congrArg State.ports faulted.frame :) (congrArg State.timer faulted.frame :)⟩

omit h lost in
theorem State.slotCount_of_told {s v : State} {found : EventEntry} (r : Told s found v) : v.slotCount = s.slotCount := by
  unfold State.slotCount
  rw [r.timer]

omit h lost in
/-- A word of a map is used where the timer runs and the geometry reaches it. -/
theorem State.lt_slotCount_iff (s : State) (n : Nat) : n < s.slotCount ↔ ∃ t, s.timer = some t ∧ n < t.geometry.slots := by
  unfold State.slotCount
  cases s.timer <;> simp

/-- A word of an active map that no slot uses. -/
theorem checkWord_active_unused {p : PortIndex} {part : Nat} (hpart : part < 3) (hk : k = 256 + 3 * p.val + part)
    (unused : ¬ ∃ t, s.timer = some t ∧ 16 * part < t.geometry.slots) :
    Unaffected s (s.lostEvent scrubbing k (some p) none) k 1 (s.checkWord scrubbing k) := by
  have owner : occupant k = .activeMap p part := hk ▸ occupant_activeMap p hpart
  have told := told_lostAt s scrubbing (k := k) (p := some p) (i := none)
    (by unfold wordPort; rw [owner]) (by unfold wordEntry; rw [owner])
  have blank := unaffected_putWord told h k
  rw [checkWord_of_lost lost, State.ownerAction, owner]
  dsimp only
  rw [State.slotCount_of_told told, if_neg (mt (s.lt_slotCount_iff _).mp unused)]
  exact blank

/-- A used word of an active map. -/
theorem checkWord_active_used {p : PortIndex} {part : Nat} (hpart : part < 3) (hk : k = 256 + 3 * p.val + part)
    (used : ∃ t, s.timer = some t ∧ 16 * part < t.geometry.slots) :
    ∃ b, MarkedBad s (s.lostEvent scrubbing k (some p) none) p b ∧ Gated s b [p] (s.checkWord scrubbing k) := by
  have owner : occupant k = .activeMap p part := hk ▸ occupant_activeMap p hpart
  have told := told_lostAt s scrubbing (k := k) (p := some p) (i := none)
    (by unfold wordPort; rw [owner]) (by unfold wordEntry; rw [owner])
  have bad := markedBad_markBad told h p
  rw [checkWord_of_lost lost, State.ownerAction, owner]
  dsimp only
  rw [State.slotCount_of_told told, if_pos ((s.lt_slotCount_iff _).mpr used)]
  generalize (s.lostAt scrubbing k).markBad p = b at bad ⊢
  exact ⟨b, bad, gated_memoryErrors (List.nodup_singleton p) (congrArg State.ports bad.frame :) (congrArg State.timer bad.frame :)⟩

/-- A word of a pending map that the map does not use. -/
theorem checkWord_pending_unused {p : PortIndex} {part : Nat} (hpart : part < 3) (hk : k = 280 + 3 * p.val + part)
    (unused : ∀ m, ¬ ((s.mapsOf p).waiting = some m ∧ 16 * part < m.length ∧ s.timer ≠ none)) :
    Unaffected s (s.lostEvent scrubbing k (some p) none) k 1 (s.checkWord scrubbing k) := by
  have owner : occupant k = .pendingMap p part := hk ▸ occupant_pendingMap p hpart
  have told := told_lostAt s scrubbing (k := k) (p := some p) (i := none)
    (by unfold wordPort; rw [owner]) (by unfold wordEntry; rw [owner])
  have blank := unaffected_putWord told h k
  rw [checkWord_of_lost lost, State.ownerAction, owner]
  dsimp only
  rw [told.mapsOf, told.timer]
  cases waiting : (s.mapsOf p).waiting with
  | none => exact blank
  | some m =>
    have not : ¬ (16 * part < m.length ∧ s.timer.isSome = true) := fun ⟨inside, runs⟩ =>
      unused m ⟨waiting, inside, Option.isSome_iff_ne_none.mp runs⟩
    dsimp only
    rw [if_neg not]
    exact blank

/-- A used word of a pending map. -/
theorem checkWord_pending_used {p : PortIndex} {part : Nat} (hpart : part < 3) (hk : k = 280 + 3 * p.val + part) {m : PendingMap}
    (waiting : (s.mapsOf p).waiting = some m) (inside : 16 * part < m.length) (runs : s.timer ≠ none) :
    PendingLost s (s.lostEvent scrubbing k (some p) none) p m (s.checkWord scrubbing k) := by
  have owner : occupant k = .pendingMap p part := hk ▸ occupant_pendingMap p hpart
  have told := told_lostAt s scrubbing (k := k) (p := some p) (i := none)
    (by unfold wordPort; rw [owner]) (by unfold wordEntry; rw [owner])
  have gone := pendingLost_losePending told h p m
  rw [checkWord_of_lost lost, State.ownerAction, owner]
  dsimp only
  rw [told.mapsOf, told.timer, waiting]
  dsimp only
  rw [if_pos ⟨inside, Option.isSome_iff_ne_none.mpr runs⟩]
  exact gone

/-- A word of a ring map entry that is not valid. -/
theorem checkWord_ring_invalid {e : RingIndex} (low : 304 + 2 * e.val ≤ k) (high : k < 306 + 2 * e.val)
    (invalid : s.ringValid e = false) :
    Unaffected s (s.lostEvent scrubbing k (some (ringPort e)) none) k 1 (s.checkWord scrubbing k) := by
  have owner := occupant_ring low high
  have told := told_lostAt s scrubbing (k := k) (p := some (ringPort e)) (i := none)
    (by unfold wordPort; rw [owner]) (by unfold wordEntry; rw [owner])
  have blank := unaffected_putWord told h k
  rw [checkWord_of_lost lost, State.ownerAction, owner]
  dsimp only
  rw [told.ringValid, invalid]
  exact blank

/-- A word of a valid ring map entry. -/
theorem checkWord_ring_valid {e : RingIndex} (low : 304 + 2 * e.val ≤ k) (high : k < 306 + 2 * e.val)
    (valid : s.ringValid e = true) :
    ∃ b, RingLost s (s.lostEvent scrubbing k (some (ringPort e)) none) e b ∧
      Gated s b (if e.val % 5 = 4 then [] else [ringPort e]) (s.checkWord scrubbing k) := by
  have owner := occupant_ring low high
  have told := told_lostAt s scrubbing (k := k) (p := some (ringPort e)) (i := none)
    (by unfold wordPort; rw [owner]) (by unfold wordEntry; rw [owner])
  have gone := ringLost_loseRing told h e
  rw [checkWord_of_lost lost, State.ownerAction, owner]
  dsimp only
  rw [told.ringValid, valid]
  generalize (s.lostAt scrubbing k).loseRing e = b at gone ⊢
  refine ⟨b, gone, ?_⟩
  have ports : b.ports = s.ports := (congrArg State.ports gone.frame :)
  have timer : b.timer = s.timer := (congrArg State.timer gone.frame :)
  rw [if_pos rfl]
  by_cases receive : e.val % 5 = 4
  · rw [if_pos receive, if_pos (show isReceiveRing e = true from decide_eq_true receive)]
    exact gated_memoryErrors List.nodup_nil ports timer
  · rw [if_neg receive, if_neg (by simpa [isReceiveRing] using receive)]
    exact gated_memoryErrors (List.nodup_singleton (ringPort e)) ports timer

/-- A word that nothing occupies. -/
theorem checkWord_unused (hk : 384 ≤ k) : Unaffected s (s.lostEvent scrubbing k none none) k 1 (s.checkWord scrubbing k) := by
  have owner := occupant_unused hk
  have told := told_lostAt s scrubbing (k := k) (p := none) (i := none)
    (by unfold wordPort; rw [owner]) (by unfold wordEntry; rw [owner])
  have blank := unaffected_putWord told h k
  rw [checkWord_of_lost lost, State.ownerAction, owner]
  exact blank

end

/-- Settles O50, by the owner of the word. -/
theorem doubleBitErrorByOwner : Obligations.DoubleBitErrorByOwner := by
  intro s scrubbing k h two u found blank rest concerned leaves reports unaffected
  have verdict := verdict_of_two two
  have alone : ∀ {p i a n}, Unaffected s (s.lostEvent scrubbing k p i) a n u → unaffected p i a n := fun r =>
    ⟨r.words, r.events, r.frame⟩
  refine ⟨fun i low high => ⟨fun idle => alone (checkWord_entry_idle h verdict low high idle), fun used => ?_⟩,
    fun p part hpart hk => ⟨fun unused => alone (checkWord_active_unused h verdict hpart hk unused), fun used => ?_⟩,
    fun p part hpart hk => ⟨fun unused => alone (checkWord_pending_unused h verdict hpart hk unused), fun m used => ?_⟩,
    fun e low high => ⟨fun invalid => alone (checkWord_ring_invalid h verdict low high invalid), fun valid => ?_⟩,
    fun low _ => alone (checkWord_unused h verdict low)⟩
  · obtain ⟨b, faulted, gated⟩ := checkWord_entry_used (scrubbing := scrubbing) h verdict low high used
    refine ⟨?_, fun j hj => ?_, fun j => ?_, gated.port, ?_, ?_, ?_⟩
    · exact (gated.entry i).trans ((faulted.entry i).trans (if_pos rfl))
    · exact (gated.entry j).trans ((faulted.entry j).trans (if_neg hj))
    · exact (gated.word j).trans (faulted.words j)
    · refine gated.records.trans ?_
      rw [faulted.records, List.filter_filter]
      exact List.filter_congr fun record _ => by
        rw [decide_eq_true (mem_allPorts record.port), Bool.true_and, Bool.and_comm]
        rfl
    · refine gated.events.trans ?_
      rw [faulted.events, ← EventQueue.offers_append]
      rfl
    · exact (congrArg (fun z : State => { z with
        table := s.table, events := s.events, holds := { z.holds with records := s.holds.records }
        prot := { z.prot with memory := s.prot.memory } }) gated.frame).trans faulted.frame
  · obtain ⟨b, bad, gated⟩ := checkWord_active_used (scrubbing := scrubbing) h verdict hpart hk used
    have mapsOf : u.mapsOf p = { s.mapsOf p with bad := true } := (gated.mapsOf p).trans ((bad.maps p).trans (if_pos rfl))
    refine ⟨mapsOf, fun q hq => ?_, fun n hn => ⟨?_, ?_⟩, fun j hj => ?_, fun j hj => ?_, gated.port, ?_, ?_, ?_⟩
    · exact (gated.mapsOf q).trans ((bad.maps q).trans (if_neg hq))
    · have data : u.data (256 + 3 * p.val + n / 16) = b.data (256 + 3 * p.val + n / 16) := State.data_of_word (gated.word _)
      rw [data]
      exact bad.kinds n hn
    · unfold State.activeKind
      rw [mapsOf]
      rfl
    · exact (congrArg TableWord.flips (gated.word _)).trans (bad.flips j hj)
    · exact (gated.word j).trans (bad.words j hj)
    · have records : b.holds.records = s.holds.records := (congrArg (fun x : State => x.holds.records) bad.frame :)
      refine gated.records.trans ?_
      rw [records]
      exact List.filter_congr fun record _ => by
        by_cases here : record.port = p
        · simp [here]
          rfl
        · simp [here]
    · refine gated.events.trans ?_
      rw [bad.events]
      rfl
    · have records : b.holds.records = s.holds.records := (congrArg (fun x : State => x.holds.records) bad.frame :)
      have frame := gated.frame
      rw [records] at frame
      exact (congrArg (fun z : State => { z with
        maps := s.maps, events := s.events, prot := { z.prot with memory := s.prot.memory } }) frame).trans bad.frame
  · obtain ⟨waiting, inside, runs⟩ := used
    have lost := checkWord_pending_used (scrubbing := scrubbing) h verdict hpart hk waiting inside runs
    refine ⟨(lost.maps p).trans (if_pos rfl), fun q hq => (lost.maps q).trans (if_neg hq), lost.words, lost.events, ?_⟩
    exact lost.frame
  · obtain ⟨b, lost, gated⟩ := checkWord_ring_valid (scrubbing := scrubbing) h verdict low high valid
    intro ps
    refine ⟨(gated.ringValid e).trans ((lost.valid e).trans (if_pos rfl)), fun o ho =>
      (gated.ringValid o).trans ((lost.valid o).trans (if_neg ho)), fun j => (gated.word j).trans (lost.words j), gated.port, ?_, ?_, ?_⟩
    · have records : b.holds.records = s.holds.records := (congrArg (fun x : State => x.holds.records) lost.frame :)
      refine gated.records.trans ?_
      rw [records]
      rfl
    · refine gated.events.trans ?_
      rw [lost.events]
      rfl
    · have records : b.holds.records = s.holds.records := (congrArg (fun x : State => x.holds.records) lost.frame :)
      have frame := gated.frame
      rw [records] at frame
      exact (congrArg (fun z : State => { z with
        path := { z.path with ringValid := s.path.ringValid }, events := s.events
        prot := { z.prot with memory := s.prot.memory } }) frame).trans lost.frame

end Sys2Proof.Machine
end

section
/-! O49: the statement asks nothing of the geometry. With more than 48 slots the kind of a slot beyond the active map is read
from words of another part of table memory, and a check of the pending map then changes the kind of the current slot after the
decision has read it. -/

namespace Sys2Proof.Machine

/-! ### A general candidate in a slot that reads OPEN or CLOSED -/

section
variable {s : State} {c : Candidate} {t : Timer} (general : c.motion = false) (gate : (s.port c.port).gate = .enforcing)
  (timer : s.timer = some t) (settled : s.checkActive c.port = s)
include general gate timer settled

theorem gateDecision_of_open (kind : s.activeKind c.port (t.slot s.time) = .openSlot) :
    gateDecision c s = fitDecision c false t s := by
  simp only [gateDecision, generalDecision, gate, general, timer, settled, kind, if_pos, Bool.false_eq_true, if_false]

theorem gateDecision_of_closed (kind : s.activeKind c.port (t.slot s.time) = .closed) :
    gateDecision c s = holdCandidate c s := by
  simp only [gateDecision, generalDecision, gate, general, timer, settled, kind, if_pos, Bool.false_eq_true, if_false]

end

/-- A frame that fits the state that the boundary search leaves passes. -/
theorem fitDecision_fst_of_fits {c : Candidate} {t : Timer} {s u : State} (searched : s.checkSearch c.port t = u)
    (fit : fits (u.port c.port).settings (u.candidateEnd c) (u.nextProtected c.port t) = true) :
    (fitDecision c false t s).1 = .pass := by
  unfold fitDecision
  rw [searched]
  dsimp only
  rw [if_pos fit]
  rfl

/-! ### The state -/

/-- The data make slot 0 of a map CLOSED; the one wrong bit makes every slot of the word read OPEN. -/
def strayWord : TableWord := ⟨2, 2⟩

/-- A geometry of 400 slots, which R3 does not allow. -/
def longTimer : Timer := ⟨⟨400, 65535⟩, none, 0, 0, 0⟩

/-- The state right after reset, but for a timer with this geometry in slot 384, which no run reaches. Every port is ENFORCING with
a committed pending map of 400 kinds. The kind of slot 384 of port 7 lies 24 words behind the start of its active map, in word 301,
the first of its pending map. -/
def longState : State where
  __ := State.reset
  time := afterTicks 0 (384 * 65535)
  timer := some longTimer
  maps := Vector.replicate 8 ⟨false, some ⟨400, true⟩⟩
  ports := Vector.replicate 8 { Port.initial with gate := .enforcing }
  prot := { State.reset.prot with memory := [(301, strayWord)] }

/-- The same state once the words of port 7's pending map have been checked: word 301 is corrected. -/
def longStateChecked : State := longState.checkWords [301, 302, 303]

/-- A general candidate of port 7. -/
def strayCandidate : Candidate := ⟨7, false, 0, 0⟩

/-- A word that reads 0 holds OPEN slots only. -/
theorem kindInWord_zero (i : Nat) : kindInWord 0 i = .openSlot := by
  unfold kindInWord
  rw [show (0 : Word) >>> (2 * i) = 0 from BitVec.zero_ushiftRight]
  rfl

/-- As it stands, every slot from 384 on reads OPEN. -/
theorem activeKind_longState {k : Nat} (low : 384 ≤ k) (high : k < 400) : longState.activeKind 7 k = .openSlot := by
  have word : k / 16 = 24 := by omega
  have data : longState.data (activeWord 7 24) = 0 := rfl
  unfold State.activeKind
  rw [word, data, kindInWord_zero]
  rfl

/-- The boundary search of that slot checks the pending map. -/
theorem checkSearch_longState : longState.checkSearch 7 longTimer = longStateChecked := by
  have none : protectedThisCycle longTimer.geometry.slots (longTimer.slot longState.time) (longState.activeKind 7) = none :=
    protectedThisCycle_eq_none.mpr fun k low high => activeKind_longState (Nat.le_of_lt low) high
  unfold State.checkSearch
  rw [none]
  rfl

/-- The decision reads OPEN, checks the pending map in the boundary search, and passes the frame. -/
theorem gateDecision_longState : (gateDecision strayCandidate longState).1 = .pass := by
  rw [gateDecision_of_open (t := longTimer) rfl rfl rfl rfl (activeKind_longState (Nat.le_refl 384) (by omega))]
  exact fitDecision_fst_of_fits checkSearch_longState (by decide)

/-- The decision on the state that the check leaves reads CLOSED and holds the frame. -/
theorem gateDecision_longStateChecked : (gateDecision strayCandidate longStateChecked).1 = .hold := by
  rw [gateDecision_of_closed (t := longTimer) rfl rfl rfl rfl rfl]
  rfl

/-- Refutes O49: for a geometry beyond R3, the words of the pending map that the boundary search checks are among those that the
decision has read as the active map's, so that the decision on the state they leave is another one. -/
theorem not_singleBitErrorIsCorrected : ¬ Obligations.SingleBitErrorIsCorrected := by
  intro claim
  have memory : MemoryInv longState := by decide
  obtain ⟨gates, -⟩ := claim.2 longState memory
  obtain ⟨-, decided⟩ := gates strayCandidate rfl
  obtain ⟨-, search, -⟩ := decided longTimer rfl rfl (.inl rfl)
  have same : gateDecision strayCandidate longState = gateDecision strayCandidate longStateChecked :=
    search rfl rfl (fun k low high => activeKind_longState (Nat.le_of_lt low) high) rfl
  have decisions := congrArg Prod.fst same
  rw [gateDecision_longState, gateDecision_longStateChecked] at decisions
  cases decisions

end Sys2Proof.Machine
end
